-- ==== Sys2Proof/Word.lean ====
section
/-! DEFINITION. The word types of the J440: bytes, clocks, stamps, tags, analog counts (spec/00 §3). -/

namespace Sys2Proof

/-- One byte of a notice payload or of the configuration record. -/
abbrev Byte := BitVec 8

/-- The part's millisecond clock (spec/00 §3.2: 32 bits). -/
abbrev Clock := BitVec 32

/-- An arrival stamp: the low 16 bits of the clock (spec/00 §3.2). -/
abbrev Stamp := BitVec 16

/-- A notice tag: urgency, kind, source (R5). -/
abbrev Tag := BitVec 12

/-- One converter result, 0..4095 (R61). -/
abbrev Count := BitVec 12

/-- A position sensor word in axis units, signed (the width in which AXIS_REPORT sends it, R165). -/
abbrev SensorWord := BitVec 24

end Sys2Proof
end

