-- ==== Sys2Proof/Config.lean ====
section
/-! DEFINITION. The names the configuration record and the commands share (axes, roles, channels, fault
kinds), the configuration record as the chapters use it (spec/11 Table 11-5, R169), and the free values:
constants without a body for what the spec does not state. -/

namespace Sys2Proof

/-- The four axes (R78; codes of Table 11-3). -/
inductive Axis where
  | mast | pan | tilt | pol
  deriving DecidableEq, Repr

/-- The peer roles (R28). -/
inductive Role where
  | vehicle | wind | clearance | level
  deriving DecidableEq, Repr

/-- The blocks on whose behalf an axis moves (R78) or a dwell runs (R66). -/
inductive Requester where
  | msq | pnt | pat | pke | jog
  deriving DecidableEq, Repr

/-- The cold-start reasons (R19). -/
inductive ResetReason where
  | power | pin
  deriving DecidableEq, Repr

/-- The level source (R169 order 3). -/
inductive LevelSource where
  | localSource | linked
  deriving DecidableEq, Repr

/-- The watch actions (R71). HALT_AXIS names the record's axis field. -/
inductive WatchAction where
  | none | report | haltAxis | haltAll
  deriving DecidableEq, Repr

/-- The pattern modes (R135). -/
inductive PatternMode where
  | step | sweep
  deriving DecidableEq, Repr

/-- The fault kinds (R96). -/
inductive FaultKind where
  | stall | limit | overtravel | sensor | pressure | current | supply | baseTilt | pilot
  | driveAway | headUnparked
  deriving DecidableEq, Repr

/-- The axis settings of one axis block (Table 11-6), times in ms. -/
structure AxisCfg where
  softMin : Int
  softMax : Int
  fullScale : Nat
  vmax : Nat
  speedStep : Nat
  stopStep : Nat
  stallSpeed : Nat
  gain : Nat
  window : Nat
  settleTime : Nat
  stallTime : Nat
  stallDelta : Nat
  margin : Nat
  deriving DecidableEq, Repr

/-- One watch definition (R71; Table 11-5 order 8). The edge and the fault kind stay the stored codes
(edge 0 RISING, 1 FALLING, 2 BOTH; kind 0..4), so that a code beyond the last one can be seen and clamped. -/
structure WatchCfg where
  channel : Nat
  threshold : Nat
  edgeCode : Nat
  depth : Nat
  action : WatchAction
  axis : Axis
  kindCode : Nat
  deriving DecidableEq, Repr

/-- The configuration record (R169), as read and then clamped (R22, R23). Times are in ms. -/
structure ConfigRecord where
  vehicleStation : Nat
  windStation : Nat
  clearanceStation : Nat
  levelStation : Nat
  panel1 : Nat
  panel2 : Nat
  panel3 : Nat
  vehicleLimit : Nat
  windLimit : Nat
  clearanceLimit : Nat
  levelLimit : Nat
  source : LevelSource
  pilot : Nat
  /-- Bit i set: channel A(i) is enabled. -/
  enabled : BitVec 8
  budget : Nat
  windRaise : Nat
  windHold : Nat
  windAlarm : Nat
  hysteresis : Nat
  windDepth : Nat
  vanLevel : Nat
  clearanceMargin : Nat
  headHeight : Nat
  cradleClear : Nat
  stowWindow : Nat
  stowPan : Nat
  stowTiltWindow : Nat
  stowPol : Nat
  stowTilt : Int
  mast : AxisCfg
  pan : AxisCfg
  tilt : AxisCfg
  pol : AxisCfg
  watches : List WatchCfg
  lZero : Int
  lGain : Nat
  floor : Int
  fadeDrop : Nat
  fadeTime : Nat
  lossTime : Nat
  sigma : Nat
  rows : Nat
  points : Nat
  passes : Nat
  mode : PatternMode
  peakN : Nat
  settle : Nat
  lag : Nat
  delta0 : Nat
  deltaMin : Nat
  deltaTrack : Nat
  tolerance : Nat
  roundLimit : Nat
  deriving DecidableEq, Repr

/-- An axis block of zeros. -/
def AxisCfg.blank : AxisCfg :=
  { softMin := 0, softMax := 0, fullScale := 0, vmax := 0, speedStep := 0, stopStep := 0, stallSpeed := 0, gain := 0, window := 0, settleTime := 0, stallTime := 0,
    stallDelta := 0, margin := 0 }

/-- A watch definition of zeros: action NONE. -/
def WatchCfg.blank : WatchCfg := { channel := 0, threshold := 0, edgeCode := 0, depth := 0, action := .none, axis := .mast, kindCode := 0 }

/-- What the configuration holds while no record is in use (before a load and in SAFE, R21, R25): a record of
zeros that no rule reads. DESIGN CHOICE, notes/assumptions/4.md. -/
def ConfigRecord.blank : ConfigRecord :=
  { vehicleStation := 0, windStation := 0, clearanceStation := 0, levelStation := 0, panel1 := 0, panel2 := 0, panel3 := 0, vehicleLimit := 0, windLimit := 0,
    clearanceLimit := 0, levelLimit := 0, source := .localSource, pilot := 0, enabled := 0, budget := 0, windRaise := 0, windHold := 0, windAlarm := 0,
    hysteresis := 0, windDepth := 0, vanLevel := 0, clearanceMargin := 0, headHeight := 0, cradleClear := 0, stowWindow := 0, stowPan := 0, stowTiltWindow := 0,
    stowPol := 0, stowTilt := 0, mast := .blank, pan := .blank, tilt := .blank, pol := .blank, watches := List.replicate 6 .blank, lZero := 0, lGain := 0, floor := 0, fadeDrop := 0,
    fadeTime := 0, lossTime := 0, sigma := 0, rows := 0, points := 0, passes := 0, mode := .step, peakN := 0, settle := 0, lag := 0, delta0 := 0, deltaMin := 0,
    deltaTrack := 0, tolerance := 0, roundLimit := 0 }

/-! ### Free values. Each is a constant with no body: nothing can be proved about its value. -/

/-- FREE VALUE (notes/assumptions/11.md). The two height bytes of POSITIONER_STATUS for a MAST position that does not
fit an unsigned 16-bit field (Table 11-1 gives no sign). -/
opaque Config.heightField : Int → BitVec 16

/-- FREE VALUE (notes/assumptions/12.md). The two tilt bytes of DWELL_REPORT for a TILT position that does not fit a
signed 16-bit field (Table 11-1). -/
opaque Config.tiltField : Int → BitVec 16

/-- FREE VALUE (notes/assumptions/13.md). The four unmonitored bits of POSITIONER_STATUS in SAFE: R31 fixes them from
the end of a configuration load, and SAFE has no configuration in use. -/
opaque Config.safeUnmonitored : BitVec 4

end Sys2Proof
end

