-- ==== Sys2Proof/Syntax.lean ====
section
/-! DEFINITION. The commands: one constructor of `Instr` per row of spec/opcode_table.json. A command is an event at
the part's pins, line or clocks; its operands are what the part senses at that event. -/

namespace Sys2Proof

/-- A notice as its bits stand on the line between the start bit and the tail (R3). -/
structure Frame where
  tag : Tag
  length : BitVec 4
  payload : List Byte
  check : BitVec 16
  deriving DecidableEq, Repr

/-- Why a notice being assembled is discarded (R4). -/
inductive DiscardCause where
  | badLength | badCheck | truncated
  deriving DecidableEq, Repr

/-- What the read-back of a notice being sent showed (R8). The bit number counts from the start bit, 0. -/
inductive Mismatch where
  /-- The part sent a 0 in this bit and read a 1. -/
  | sentZero (bit : Nat)
  /-- The part sent a 1 in this bit, after the tag, and read a 0. -/
  | sentOne (bit : Nat)
  /-- A mark inside the part's own tail. -/
  | markInTail
  deriving DecidableEq, Repr

/-- One axis's inputs as one servo period samples them: the sensor reading, absent when invalid (R89), and the two
hard limit switches (R87). -/
structure AxisPins where
  reading : Option SensorWord
  low : Bool
  high : Bool
  deriving DecidableEq, Repr

/-- The commands of spec/opcode_table.json. -/
inductive Instr where
  -- start-up (spec/02)
  | coldStart (reason : ResetReason)
  | resetRelease (station : BitVec 5) (mastPinHigh : Bool)
  | configLoadComplete (record : List Byte)
  | configLoadTimeout
  | memoryNoAnswer
  | startSequence (mast pan tilt pol : AxisPins)
  -- the line (spec/01)
  | lineIdle
  | startBit
  | stuckEvent
  | noticeArrival (frame : Frame)
  | noticeDiscard (cause : DiscardCause)
  | startOutsideIdle
  | noticeBegin
  | contentionLost (bit : Fin 12)
  | sendFault (mismatch : Mismatch)
  | sentWhole
  | withdrawalExpiry
  | linkReportPeriodExpiry
  -- takings of the arrival queue's head (R16)
  | vehicle
  | wind
  | clearance
  | level
  | positionerStatus
  | resume
  | clearFault
  | report
  | raise
  | lower
  | aim
  | peak
  | cancelPointing
  | jog
  | unknownCommandCode
  -- peer view and authority timers (spec/03, spec/04)
  | freshnessExpiry (role : Role)
  | stopWindowExpiry
  | duplicateQuietExpiry
  | reportRoundPost
  | statusPeriodExpiry
  -- sampler (spec/05)
  | scanConversionComplete (result : Count)
  | dwellConversionComplete (result : Count)
  | dwellFree (requester : Requester)
  -- axis drives (spec/06)
  | servoPeriod (axis : Axis) (pins : AxisPins)
  | stallTimeout (axis : Axis)
  | settleTimeExpiry (axis : Axis)
  | axisReportPeriodExpiry (axis : Axis)
  | axisFree (axis : Axis) (requester : Requester)
  | driveGrant
  -- pointing, search, peaking, tracking (spec/08, spec/09, spec/10)
  | presetSettleExpiry
  | searchSettleExpiry
  | patternResumeDelayExpiry
  | crossSettleExpiry
  | closingSettleExpiry
  | runResumeDelayExpiry
  | trackSamplePeriodExpiry
  | fadeTimerExpiry
  | lossTimerExpiry
  deriving DecidableEq, Repr

end Sys2Proof
end

