-- ==== Sys2Proof/WellFormed.lean ====
section
/-! DEFINITION. Which commands the outside world can put before the part: the operands within the spec's ranges. -/

namespace Sys2Proof

/-- A notice whose length field is legal and states its payload (R3, R4). The CRC is judged by the part. -/
def Frame.wf (f : Frame) : Bool :=
  decide (f.length.toNat ≤ 10) && decide (f.payload.length = f.length.toNat)

/-- A read-back mismatch in a bit a notice can have: at most 1 + 12 + 4 + 80 + 16 bits are driven (R3), and a 1 read
as 0 inside the tag is contention, not a send fault (R7, R8). -/
def Mismatch.wf : Mismatch → Bool
  | .sentZero bit => decide (bit < 113)
  | .sentOne bit => decide (13 ≤ bit) && decide (bit < 113)
  | .markInTail => true

/-- The blocks that can be noted on an axis (R79) and asked again at an axis free event. -/
def Requester.moves : Requester → Bool
  | .jog => false
  | _ => true

/-- The blocks that request dwells (R66). -/
def Requester.measures : Requester → Bool
  | .pnt | .pat | .pke => true
  | .msq | .jog => false

/-- A well-formed command. -/
def Instr.wf : Instr → Bool
  | .noticeArrival f => f.wf
  | .sendFault m => m.wf
  | .configLoadComplete record => decide (record.length = 160)
  | .dwellFree q => q.measures
  | .axisFree _ q => q.moves
  | .coldStart _ | .resetRelease _ _ | .configLoadTimeout | .memoryNoAnswer | .startSequence _ _ _ _ | .lineIdle
  | .startBit | .stuckEvent | .noticeDiscard _ | .startOutsideIdle | .noticeBegin | .contentionLost _ | .sentWhole
  | .withdrawalExpiry | .linkReportPeriodExpiry | .vehicle | .wind | .clearance | .level | .positionerStatus | .resume
  | .clearFault | .report | .raise | .lower | .aim | .peak | .cancelPointing | .jog | .unknownCommandCode
  | .freshnessExpiry _ | .stopWindowExpiry | .duplicateQuietExpiry | .reportRoundPost | .statusPeriodExpiry
  | .scanConversionComplete _ | .dwellConversionComplete _ | .servoPeriod _ _ | .stallTimeout _ | .settleTimeExpiry _
  | .axisReportPeriodExpiry _ | .driveGrant | .presetSettleExpiry | .searchSettleExpiry | .patternResumeDelayExpiry
  | .crossSettleExpiry | .closingSettleExpiry | .runResumeDelayExpiry | .trackSamplePeriodExpiry | .fadeTimerExpiry
  | .lossTimerExpiry => true

end Sys2Proof
end

