-- ==== Sys2Proof/Machine/State.lean ====
section
/-! DEFINITION. Everything the spec gives the part as plain data, block by block (spec/00 Table 0-3), and the state
after a cold start. -/

namespace Sys2Proof.Machine

/-! ### CFG: straps, load result, phase of the start (R19 to R26) -/

/-- How far the start has come. `safe` and `running` last until the next cold start (R25, R26). -/
inductive Phase where
  /-- The reset pin is asserted, or power has just come (R19). -/
  | reset
  /-- The record is being read (R21). -/
  | loading
  /-- The record is in use and the start sequence is next (R26). -/
  | loaded
  /-- The start sequence has brought the blocks up (R26). -/
  | running
  /-- CONFIG_FAULT (R25). -/
  | safe
  deriving DecidableEq, Repr

/-- Why a load ended CONFIG_FAULT (Table 2-1). -/
inductive ConfigFault where
  | strap | noAnswer | check | structural
  deriving DecidableEq, Repr

/-- The load result (Table 2-1); `pending` until the load ends. -/
inductive LoadResult where
  | pending | loaded | clamped
  | fault (cause : ConfigFault)
  deriving DecidableEq, Repr

/-- What CFG holds: fixed from the start until the next cold start. -/
structure Setup where
  resetReason : ResetReason
  phase : Phase
  /-- The strapped station number 0..31 (R20). -/
  station : Nat
  /-- The strapped mast number, 1 or 2 (R20). -/
  mastNumber : Nat
  result : LoadResult
  cfg : ConfigRecord
  /-- The clock at reset release, from which the 30 ms of R21 run. -/
  releasedAt : Clock
  deriving DecidableEq, Repr

/-! ### LNK: the line (R1 to R11) -/

/-- The line condition (R1). -/
inductive LineCondition where
  | unknown | idle | busy | stuck
  deriving DecidableEq, Repr

/-- What LNK does with the bits on the line (R4). -/
inductive Receiver where
  /-- No notice is being assembled, and none has ended since the line was last IDLE or UNKNOWN. -/
  | quiet
  /-- A notice is being assembled. -/
  | assembling
  /-- BUSY after the tail of a well-formed notice: a mark is a start outside IDLE. -/
  | afterNotice
  /-- BUSY after a discard: marks assemble nothing and raise no counter. -/
  | afterDiscard
  deriving DecidableEq, Repr

/-- The link state (R10); WITHDRAWN with the clock at which the period began. -/
inductive LinkState where
  | active
  | withdrawn (since : Clock)
  deriving DecidableEq, Repr

/-- Six of the seven link counters, each 0..65535 and saturating (R11); post drops are counted by the post queue. -/
structure Counters where
  receiveFaults : Nat
  stuckEvents : Nat
  sendFaults : Nat
  overruns : Nat
  foreign : Nat
  ignored : Nat
  deriving DecidableEq, Repr

/-- What LNK holds about the line. -/
structure Line where
  condition : LineCondition
  /-- The count of consecutive released bit times (R1) as it stood at the last command of the line. -/
  releasedBits : Nat
  /-- The count of consecutive driven bit times (R2) as it stood at the last command of the line. -/
  drivenBits : Nat
  receiver : Receiver
  linkState : LinkState
  score : Nat
  counters : Counters
  overrunFlag : Bool
  /-- The group number of the next LINK_REPORT, 0..2 (R11). -/
  group : Nat
  /-- The start of the LINK_REPORT period; absent until the first IDLE (R11). -/
  reportStart : Option Clock
  deriving DecidableEq, Repr

/-- The key of a post (R17): the kind, and the axis for AXIS_REPORT. -/
inductive PostKey where
  | halt | reply | status
  | axisReport (axis : Axis)
  | pointing | dwell | link
  deriving DecidableEq, Repr

/-- One post queue entry (R17). `overrunSince` is set when an arrival overrun occurs after the entry's fields were
taken (R11); it is read only for LINK_REPORT. -/
structure PostEntry where
  key : PostKey
  tag : Tag
  payload : List Byte
  sending : Bool
  overrunSince : Bool
  deriving DecidableEq, Repr

/-- The post queue, oldest entry first, and the post-drop counter (R17, R11). -/
structure PostQueue where
  entries : List PostEntry
  drops : Nat
  deriving DecidableEq, Repr

/-! ### DEC: the arrival queue (R15) -/

/-- The kinds that join the arrival queue (R16). -/
inductive ArrivalKind where
  | role (role : Role)
  | command
  | positionerStatus
  deriving DecidableEq, Repr

/-- One arrival queue entry (R15). -/
structure ArrivalEntry where
  kind : ArrivalKind
  source : Nat
  payload : List Byte
  stamp : Stamp
  deriving DecidableEq, Repr

/-! ### PVW: peer view and permissives (R28 to R46) -/

/-- The states of a fitted entry (R28). -/
inductive Freshness where
  | unheard | fresh | stale
  deriving DecidableEq, Repr

structure VehicleValue where
  brakeSet : Bool
  outriggersDown : Bool
  pitch : Int
  roll : Int
  heading : Nat
  headingValid : Bool
  deriving DecidableEq, Repr

structure WindValue where
  mean : Nat
  gust : Nat
  deriving DecidableEq, Repr

/-- An obstacle height in mm, or none detected (R34). -/
abbrev ClearanceValue := Option Nat

structure LevelValue where
  level : Int
  sequence : Nat
  deriving DecidableEq, Repr

/-- One peer view entry (R28). The role is the field that holds the entry, the source and the limit are the
configuration's; `state` is absent for a NOT_FITTED role. -/
structure PeerEntry (α : Type) where
  state : Option Freshness
  value : Option α
  stamp : Option Stamp
  deriving DecidableEq, Repr

/-- A wind filter's side (R35). -/
inductive FilterSide where
  | above | below
  deriving DecidableEq, Repr

structure WindFilter where
  side : FilterSide
  run : Nat
  deriving DecidableEq, Repr

/-- The eight permissives, codes 1 to 8 (Table 3-3). -/
inductive Permissive where
  | brakeSet | outriggersDown | vanLevelOk | headingOk | windRaiseOk | windMoveOk | clearanceOk | levelOk
  deriving DecidableEq, Repr

/-- The permissive set (R38): for each permissive, whether it is given. -/
structure PermissiveSet where
  brakeSet : Bool
  outriggersDown : Bool
  vanLevelOk : Bool
  headingOk : Bool
  windRaiseOk : Bool
  windMoveOk : Bool
  clearanceOk : Bool
  levelOk : Bool
  deriving DecidableEq, Repr

structure PeerView where
  vehicle : PeerEntry VehicleValue
  wind : PeerEntry WindValue
  clearance : PeerEntry ClearanceValue
  level : PeerEntry LevelValue
  raiseFilter : WindFilter
  holdFilter : WindFilter
  alarm : Bool
  permissives : PermissiveSet
  deriving DecidableEq, Repr

/-! ### AUT: stop, authority, reports (R47 to R60) -/

/-- The cause of a SET latch (R47). -/
inductive LatchCause where
  | start
  | stop (station : Nat)
  | duplicate
  deriving DecidableEq, Repr

/-- The seven kinds of item of a report round (R58). -/
inductive RoundItem where
  | status | pointing
  | axis (axis : Axis)
  | link
  deriving DecidableEq, Repr

structure Authority where
  /-- The STOP latch: absent is CLEAR, present is SET with its cause (R47). -/
  latch : Option LatchCause
  /-- The STOP window: OPEN with the stamp of the latest STOP, or CLOSED (R47). -/
  window : Option Stamp
  /-- The duplicate condition: HELD with the start of the quiet timer, or CLEAR (R53). -/
  duplicate : Option Clock
  holder : Option Nat
  /-- The items the report round has still to post; empty when no round is in progress (R58). -/
  round : List RoundItem
  /-- The start of the 200 ms status period; absent before the first post (R59). -/
  statusStart : Option Clock
  deriving DecidableEq, Repr

/-! ### SMP and WCH (R61 to R77) -/

/-- The purpose of a conversion (R61); a dwell conversion carries the identity of its dwell. -/
inductive Purpose where
  | scan
  | dwell (identity : Nat)
  deriving DecidableEq, Repr

structure Conversion where
  channel : Nat
  purpose : Purpose
  deriving DecidableEq, Repr

/-- The active dwell (R67). -/
structure Dwell where
  identity : Nat
  requester : Requester
  samples : Nat
  deriving DecidableEq, Repr

structure Sampler where
  /-- The conversion in progress; absent when no channel is enabled and before the start sequence (R61). -/
  converter : Option Conversion
  /-- The channel of the next scan conversion (R62). -/
  scanPointer : Nat
  /-- The latest result of each of the eight channels (R63). -/
  latest : List (Option Count)
  dwell : Option Dwell
  /-- The identity the next accepted dwell takes (the model's own, R61). -/
  nextIdentity : Nat
  /-- Requesters refused a dwell and not yet told that it is free (R66). -/
  noted : List Requester
  /-- Requesters to whom the dwell free event has been handed and who have not yet taken it (R66). -/
  freed : List Requester
  /-- The eight ring positions (R65). -/
  ring : List (Option Int)
  /-- The next ring position, 1..8 (R65). -/
  next : Nat
  count : Nat
  /-- SMP hands pilot levels to PAT (R63, R144). -/
  sweepHanding : Bool
  deriving DecidableEq, Repr

/-- A side of a threshold (R72). -/
inductive Side where
  | below | above
  deriving DecidableEq, Repr

/-- The state of one watch (R71); an absent side is UNKNOWN. -/
structure WatchState where
  side : Option Side
  run : Nat
  runSide : Option Side
  faultSide : Option Side
  deriving DecidableEq, Repr

/-! ### AXD, ARB, FLT (R78 to R101) -/

inductive AxisState where
  | idle | waiting | moving | settling | stopping | fault
  deriving DecidableEq, Repr

inductive MotionClass where
  | raise | lower | headMove
  deriving DecidableEq, Repr

/-- The axis record (R78), with the inputs of the latest servo period. -/
structure AxisRec where
  state : AxisState
  position : Option Int
  target : Option Int
  v : Int
  requester : Option Requester
  cls : Option MotionClass
  correction : Bool
  /-- The RECOVERY flag of the JOG in progress (R93, R117). -/
  recovery : Bool
  cap : Option Nat
  lastOwner : Requester
  brakeSet : Bool
  code : Nat
  dirDriven : Bool
  settleTimer : Nat
  /-- The periods in SETTLING since the axis entered it (R83). -/
  settlePeriods : Nat
  stallTimer : Nat
  stallRef : Option Int
  /-- The stall timer reached the stall time and STALL_TIMEOUT has not been taken (R88). -/
  stallDue : Bool
  drift : Bool
  outsideLow : Bool
  outsideHigh : Bool
  noted : List Requester
  /-- Requesters to whom the axis free event has been handed and who have not yet taken it (R81). -/
  freed : List Requester
  /-- The latest reading was valid (R89, R99). -/
  sensorValid : Bool
  switchLow : Bool
  switchHigh : Bool
  /-- The start of the 500 ms report period; absent when stopped (R85). -/
  reportStart : Option Clock
  deriving DecidableEq, Repr

structure Axes where
  mast : AxisRec
  pan : AxisRec
  tilt : AxisRec
  pol : AxisRec
  deriving DecidableEq, Repr

/-- The alternation flag's names (R95). -/
inductive Alternation where
  | pan | tilt
  deriving DecidableEq, Repr

structure Drives where
  axes : Axes
  grants : List Axis
  waiting : List Axis
  lastGranted : Alternation
  deriving DecidableEq, Repr

/-- The axis a fault names (R96). -/
inductive FaultAxis where
  | one (axis : Axis)
  | all
  deriving DecidableEq, Repr

structure FaultRecord where
  kind : FaultKind
  axis : FaultAxis
  deriving DecidableEq, Repr

structure FaultSet where
  records : List FaultRecord
  overflow : Bool
  overflowAxes : List FaultAxis
  deriving DecidableEq, Repr

/-! ### MSQ (R102 to R119) -/

/-- The hold causes of HALTED (Table 7-1). -/
inductive HoldCause where
  | start | stop | wind | brake | outriggers | vanLevel | clearance | fault | headNotParked
  deriving DecidableEq, Repr

inductive RaiseDirection where
  | up | down
  deriving DecidableEq, Repr

/-- The mast state with the fields R102 gives only in that state: the raise target and direction in RAISING, the
parking list in PARKING, the pending MAST request in LOWERING, the hold cause in HALTED. -/
inductive MastState where
  | stowed
  | raising (target : Int) (direction : RaiseDirection)
  | raised
  | parking (list : List Axis)
  | lowering (pending : Bool)
  | halted (cause : HoldCause)
  deriving DecidableEq, Repr

structure Mast where
  state : MastState
  stranded : Bool
  deriving DecidableEq, Repr

/-! ### PNT (R120 to R134) -/

/-- Pan and tilt, cd. -/
structure HeadPoint where
  pan : Int
  tilt : Int
  deriving DecidableEq, Repr

inductive Quality where
  | fine | rough
  deriving DecidableEq, Repr

/-- The pointing record (R121) without the hold cause, which stands in HELD (`PointState.held`). -/
structure PointingRecord where
  pan : Int
  tilt : Int
  pol : Int
  panOffset : Int
  tiltOffset : Int
  peak : Option Int
  quality : Option Quality
  flagPeak : Bool
  flagTrack : Bool
  roundCount : Nat
  rowEnd : Nat
  passEnd : Nat
  deriving DecidableEq, Repr

inductive SlewPhase where
  | move | settle | measure
  deriving DecidableEq, Repr

/-- The phases of ACQUIRING: SEARCH, and RETURN (here `back`). -/
inductive AcquirePhase where
  | search | back
  deriving DecidableEq, Repr

/-- The states that need permissives (R130), with their phases (R120). -/
inductive Activity where
  | slewing (phase : SlewPhase)
  | acquiring (phase : AcquirePhase)
  | peaking
  | tracking
  deriving DecidableEq, Repr

/-- The hold causes of HELD (Table 8-1). -/
inductive PointHold where
  | wind | level
  deriving DecidableEq, Repr

/-- The pointing state (R120). HELD carries the remembered state and phase and the hold cause. -/
inductive PointState where
  | idle
  | waitingMast
  | active (activity : Activity)
  | pointed
  | held (remembered : Activity) (cause : PointHold)
  | lost
  deriving DecidableEq, Repr

/-- A count of level reports (R128, R141): how many counted, their sum, the last sequence seen, and the stamp of the
completion the measurement opened at. -/
structure Measurement where
  count : Nat
  sum : Int
  lastSequence : Option Nat
  openedAt : Stamp
  deriving DecidableEq, Repr

structure Pointing where
  state : PointState
  record : Option PointingRecord
  slewList : List Axis
  /-- The clock at the slew's completion (R128). -/
  completedAt : Clock
  measurement : Measurement
  /-- The found point taken while HELD, from which PKE begins at the resume (R148). -/
  foundWhileHeld : Option HeadPoint
  deriving DecidableEq, Repr

/-! ### PAT (R135 to R148) -/

/-- The stages in which a pattern works (R135). -/
inductive PatternStage where
  | toPoint
  | settle (since : Clock)
  | measure
  | toRowStart
  | sweep
  deriving DecidableEq, Repr

/-- The causes of an aborted pattern (R146). -/
inductive AbortCause where
  | stop | aim | cancel | lower
  deriving DecidableEq, Repr

inductive PatternCause where
  | found | exhausted
  | aborted (by_ : AbortCause)
  | interlock | fault
  deriving DecidableEq, Repr

/-- Status and stage of a pattern (R135): RUNNING in a stage, SUSPENDED or in RESUME_WAIT with the suspended stage,
or HALTED with its cause. -/
inductive PatternStatus where
  | running (stage : PatternStage)
  | suspended (stage : PatternStage)
  | resumeWait (stage : PatternStage) (since : Clock)
  | halted (cause : PatternCause)
  deriving DecidableEq, Repr

structure FoundPoint where
  point : HeadPoint
  level : Int
  deriving DecidableEq, Repr

structure Pattern where
  status : PatternStatus
  origin : HeadPoint
  sigma : Nat
  rows : Nat
  points : Nat
  passes : Nat
  mode : PatternMode
  row : Nat
  point : Nat
  pass : Nat
  /-- The effective targets of the current point (R138). -/
  targets : HeadPoint
  moveList : List Axis
  /-- An axis of the current point was refused with RANGE (R139). -/
  blocked : Bool
  /-- A request was refused with LATCHED, FAULT or CRADLE: no further request is made (R139). -/
  barred : Bool
  measurement : Measurement
  found : Option FoundPoint
  deriving DecidableEq, Repr

/-! ### PKE (R149 to R164) -/

inductive RunStage where
  | toPoint
  | settle (since : Clock)
  | measure
  | toClose
  | closeSettle (since : Clock)
  | closeMeasure
  | toBest
  deriving DecidableEq, Repr

/-- Run status and stage (R149). -/
inductive RunStatus where
  | none
  | ended
  | running (stage : RunStage)
  | suspended (stage : RunStage)
  | resumeWait (stage : RunStage) (since : Clock)
  deriving DecidableEq, Repr

/-- The five round levels (R151). -/
structure RoundLevels where
  centre : Option Int
  panPlus : Option Int
  panMinus : Option Int
  tiltPlus : Option Int
  tiltMinus : Option Int
  deriving DecidableEq, Repr

structure Run where
  status : RunStatus
  centre : HeadPoint
  delta : Option Nat
  index : Nat
  levels : RoundLevels
  targets : HeadPoint
  moveList : List Axis
  blocked : Bool
  barred : Bool
  measurement : Measurement
  best : Option FoundPoint
  closing : Option HeadPoint
  deriving DecidableEq, Repr

inductive MonitorState where
  | off | watching | recovery
  deriving DecidableEq, Repr

structure Monitor where
  state : MonitorState
  fadeStart : Option Clock
  lossStart : Option Clock
  /-- The start of the 100 ms sample period, LOCAL source (R160). -/
  periodStart : Option Clock
  /-- The last sequence seen, LINKED source (R160). -/
  lastSequence : Option Nat
  deriving DecidableEq, Repr

/-! ### The whole part -/

/-- Every block that acts on notices and measurements, with the post queue that all of them post to. -/
structure Plant where
  posts : PostQueue
  pvw : PeerView
  aut : Authority
  smp : Sampler
  watches : List WatchState
  axd : Drives
  flt : FaultSet
  msq : Mast
  pnt : Pointing
  pat : Option Pattern
  run : Run
  monitor : Monitor
  deriving DecidableEq, Repr

/-- The state of the part, and the commands that wait, first in, first out. -/
structure State where
  pending : List Instr
  clock : Clock
  setup : Setup
  line : Line
  arrivals : List ArrivalEntry
  plant : Plant
  deriving DecidableEq, Repr

/-- The reasons a step stops with a fault: none. The spec gives every row of the table its effect and calls no behaviour of the part
undefined, so this type has no constructor. -/
inductive Fault where
  deriving DecidableEq, Repr

/-- The reasons a step is refused. -/
inductive Refusal where
  /-- A command whose meaning the model does not have, by its mnemonic; raised by an arm of `exec` alone, and by none
  of them now. Safe: the machine stops. -/
  | notModelled (mnemonic : String)
  deriving DecidableEq, Repr

/-! ### The cold-start values of each block (R19 names the chapters that give them) -/

/-- R1, R2, R10, R11, R15 (Table 1-5).
DESIGN CHOICE (no notice assembled), notes/assumptions/8.md. -/
def Line.cold : Line :=
  { condition := .unknown, releasedBits := 0, drivenBits := 0, receiver := .quiet, linkState := .active, score := 0,
    counters := { receiveFaults := 0, stuckEvents := 0, sendFaults := 0, overruns := 0, foreign := 0, ignored := 0 },
    overrunFlag := false, group := 0, reportStart := none }

/-- No state, no value, no stamp: an entry before the configuration load has bound its role (R31, R46). -/
def PeerEntry.unbound {α : Type} : PeerEntry α := { state := none, value := none, stamp := none }

/-- No permissive given (R46, SAFE; before the load none is formed). -/
def PermissiveSet.none : PermissiveSet :=
  { brakeSet := false, outriggersDown := false, vanLevelOk := false, headingOk := false, windRaiseOk := false, windMoveOk := false, clearanceOk := false,
    levelOk := false }

/-- ABOVE with run 0 (R36). -/
def WindFilter.cold : WindFilter := { side := .above, run := 0 }

/-- R46, before the load; the load binds the roles. -/
def PeerView.cold : PeerView :=
  { vehicle := .unbound, wind := .unbound, clearance := .unbound, level := .unbound, raiseFilter := .cold, holdFilter := .cold, alarm := false,
    permissives := .none }

/-- R60; the start sequence sets the latch.
DESIGN CHOICE (the latch CLEAR until then), notes/assumptions/8.md. -/
def Authority.cold : Authority :=
  { latch := none, window := none, duplicate := none, holder := none, round := [], statusStart := none }

/-- Table 5-5; the scan pointer stands at A0 until the load gives the enabled channels.
DESIGN CHOICE (the pointer before the load), notes/assumptions/8.md. -/
def Sampler.cold : Sampler :=
  { converter := none, scanPointer := 0, latest := List.replicate 8 none, dwell := none, nextIdentity := 0, noted := [], freed := [],
    ring := List.replicate 8 none, next := 1, count := 0, sweepHanding := false }

/-- Table 5-5. -/
def WatchState.cold : WatchState := { side := none, run := 0, runSide := none, faultSide := none }

/-- R101, with no reading made yet.
DESIGN CHOICE (the stall reference, which R101 does not name, absent), notes/assumptions/71.md; DESIGN CHOICE (stopped timers 0, RECOVERY mark clear, sensor invalid, switches inactive), notes/assumptions/8.md. -/
def AxisRec.cold : AxisRec :=
  { state := .idle, position := none, target := none, v := 0, requester := none, cls := none, correction := false, recovery := false, cap := none,
    lastOwner := .msq, brakeSet := true, code := 0, dirDriven := false, settleTimer := 0, settlePeriods := 0, stallTimer := 0, stallRef := none, stallDue := false, drift := false,
    outsideLow := false, outsideHigh := false, noted := [], freed := [], sensorValid := false, switchLow := false, switchHigh := false, reportStart := none }

/-- R101. -/
def Drives.cold : Drives :=
  { axes := { mast := .cold, pan := .cold, tilt := .cold, pol := .cold }, grants := [], waiting := [], lastGranted := .tilt }

/-- R101. -/
def FaultSet.cold : FaultSet := { records := [], overflow := false, overflowAxes := [] }

/-- HALTED with cause START until the start sequence derives the state (R25, R27).
DESIGN CHOICE (HALTED with cause START until then), notes/assumptions/8.md. -/
def Mast.cold : Mast := { state := .halted .start, stranded := false }

/-- No report counted. -/
def Measurement.blank : Measurement := { count := 0, sum := 0, lastSequence := none, openedAt := 0 }

/-- R120, R121.
DESIGN CHOICE (the completion time, the measurement and the found point kept through HELD), notes/assumptions/8.md. -/
def Pointing.cold : Pointing :=
  { state := .idle, record := none, slewList := [], completedAt := 0, measurement := .blank, foundWhileHeld := none }

/-- Every round level absent (R149). -/
def RoundLevels.blank : RoundLevels :=
  { centre := none, panPlus := none, panMinus := none, tiltPlus := none, tiltMinus := none }

/-- R149.
DESIGN CHOICE (centre, targets, index, marks and measurement), notes/assumptions/8.md. -/
def Run.cold : Run :=
  { status := .none, centre := { pan := 0, tilt := 0 }, delta := none, index := 1, levels := .blank, targets := { pan := 0, tilt := 0 }, moveList := [],
    blocked := false, barred := false, measurement := .blank, best := none, closing := none }

/-- R149.
DESIGN CHOICE (no sample period, no sequence seen), notes/assumptions/8.md. -/
def Monitor.cold : Monitor :=
  { state := .off, fadeStart := none, lossStart := none, periodStart := none, lastSequence := none }

/-- Every block at its cold-start values. -/
def Plant.cold : Plant :=
  { posts := { entries := [], drops := 0 }, pvw := .cold, aut := .cold, smp := .cold, watches := List.replicate 6 .cold, axd := .cold, flt := .cold,
    msq := .cold, pnt := .cold, pat := none, run := .cold, monitor := .cold }

/-- CFG at a cold start with its reset reason (R19); the straps are read at the release (R20). -/
def Setup.cold (reason : ResetReason) : Setup :=
  { resetReason := reason, phase := .reset, station := 0, mastNumber := 1, result := .pending, cfg := .blank, releasedAt := 0 }

/-- The part right after a power-on, the reset pin not yet released (R19): every block at its cold-start values, nothing
waiting. -/
def State.reset : State :=
  { pending := [], clock := 0, setup := .cold .power, line := .cold, arrivals := [], plant := .cold }

end Sys2Proof.Machine
end

