-- ==== Sys2Proof/Machine/Ops.lean ====
section
/-! DEFINITION. The arithmetic of spec/00 §3.3, ages and elapsed times (§3.2), bytes and bit fields (spec/11), the CRC
(R3), lists that hold no repeats (§3.5), and access to the records by axis and role. -/

namespace Sys2Proof.Machine

/-! ### Arithmetic (spec/00 §3.3) -/

/-- Clamping to a range: below it the lower end, above it the upper end.
DESIGN CHOICE, notes/assumptions/43.md. -/
def clampInt (lo hi x : Int) : Int := max lo (min hi x)

def clampNat (lo hi x : Nat) : Nat := max lo (min hi x)

/-- Division, nearest with halves away from zero. -/
def roundAway (n d : Int) : Int :=
  let m : Int := ((2 * n.natAbs + d.natAbs) / (2 * d.natAbs) : Nat)
  if decide (n < 0) = decide (d < 0) then m else -m

/-- Division by a positive number, nearest with halves up. -/
def roundUp (n d : Int) : Int := (2 * n + d) / (2 * d)

/-- The mean of N levels from their sum: floor((sum + floor(N/2)) / N), floor toward −∞ (R68). -/
def meanOf (sum : Int) (n : Nat) : Int := (sum + ((n / 2 : Nat) : Int)) / (n : Int)

/-- The lowest level the part uses, −1500 (spec/00 §3.1). -/
def levelMin : Int := -1500

/-- A level brought into −1500..+300. -/
def clampLevel (x : Int) : Int := clampInt levelMin 300 x

/-- A 16-bit counter raised by one, saturating at 65535 (R11). -/
def bump (n : Nat) : Nat := if n < 65535 then n + 1 else 65535

/-! ### Time (spec/00 §3.2) -/

/-- Milliseconds from a start to now, on the 32-bit clock. -/
def elapsed (now start : Clock) : Nat := (now - start).toNat

/-- The low 16 bits of the clock. -/
def stampOf (now : Clock) : Stamp := now.setWidth 16

/-- The age of a stamp, modulo 65536 ms. -/
def stampAge (now stamp : Stamp) : Nat := (now - stamp).toNat

/-! ### Bytes, most significant first (spec/11) -/

def byteOf (n : Nat) : Byte := BitVec.ofNat 8 n

def boolBit (b : Bool) : Nat := if b then 1 else 0

def bytes16 (w : BitVec 16) : List Byte := [w.extractLsb' 8 8, w.extractLsb' 0 8]

def bytes24 (w : BitVec 24) : List Byte := [w.extractLsb' 16 8, w.extractLsb' 8 8, w.extractLsb' 0 8]

def u16 (n : Nat) : List Byte := bytes16 (BitVec.ofNat 16 n)

def s16 (x : Int) : List Byte := bytes16 (BitVec.ofInt 16 x)

def s24 (x : Int) : List Byte := bytes24 (BitVec.ofInt 24 x)

/-- Byte `i` of a payload; 0 past its end. -/
def byteAt (payload : List Byte) (i : Nat) : Byte := payload.getD i 0

def bitAt (payload : List Byte) (i bit : Nat) : Bool := (byteAt payload i).getLsbD bit

def word16At (payload : List Byte) (i : Nat) : BitVec 16 := byteAt payload i ++ byteAt payload (i + 1)

def word24At (payload : List Byte) (i : Nat) : BitVec 24 := byteAt payload i ++ byteAt payload (i + 1) ++ byteAt payload (i + 2)

/-- The bits of a number, most significant first, `width` of them. -/
def bitsOf (width n : Nat) : List Bool := (List.range width).map fun i => n.testBit (width - 1 - i)

/-- The bits of a list of bytes, each most significant bit first. -/
def bitsOfBytes (bytes : List Byte) : List Bool := bytes.flatMap fun b => bitsOf 8 b.toNat

/-! ### The CRC (R3): polynomial 0x3D65, initial value 0, no final inversion -/

def crcPoly : BitVec 16 := 0x3D65

/-- The check after further bits: the register shifts left by one, and the polynomial enters when the bit shifted out differs
from the bit read. -/
def crcFrom (crc : BitVec 16) : List Bool → BitVec 16
  | [] => crc
  | bit :: bits => if crc.getLsbD 15 != bit then crcFrom ((crc <<< 1) ^^^ crcPoly) bits else crcFrom (crc <<< 1) bits

def crcOf (bits : List Bool) : BitVec 16 := crcFrom 0 bits

/-! ### Lists that hold no repeats (spec/00 §3.5) -/

def insertNew {α : Type} [DecidableEq α] (l : List α) (x : α) : List α := if x ∈ l then l else l ++ [x]

def addNew {α : Type} [DecidableEq α] (l more : List α) : List α := more.foldl insertNew l

def removeAll {α : Type} [DecidableEq α] (l : List α) (x : α) : List α := l.filter fun y => decide (y ≠ x)

/-! ### What the plant's operations read and never write -/

/-- The clock and the setup, as every operation of the plant sees them within one step. -/
structure Env where
  clock : Clock
  setup : Setup
  deriving DecidableEq, Repr

def envOf (s : State) : Env := { clock := s.clock, setup := s.setup }

/-- The configuration in use. -/
def cfgOf (e : Env) : ConfigRecord := e.setup.cfg

def isSafe (e : Env) : Bool := decide (e.setup.phase = .safe)

def isRunning (e : Env) : Bool := decide (e.setup.phase = .running)

def linked (e : Env) : Bool := decide ((cfgOf e).source = .linked)

/-! ### Axes -/

/-- The head axes in the order of R114, R127. -/
def headAxes : List Axis := [.pan, .tilt, .pol]

def allAxes : List Axis := [.mast, .pan, .tilt, .pol]

def isHead : Axis → Bool
  | .mast => false
  | .pan | .tilt | .pol => true

/-- The axis codes of Table 11-3. -/
def axisCode : Axis → Nat
  | .mast => 0
  | .pan => 1
  | .tilt => 2
  | .pol => 3

def axisCfg (e : Env) : Axis → AxisCfg
  | .mast => (cfgOf e).mast
  | .pan => (cfgOf e).pan
  | .tilt => (cfgOf e).tilt
  | .pol => (cfgOf e).pol

def axisOf (p : Plant) : Axis → AxisRec
  | .mast => p.axd.axes.mast
  | .pan => p.axd.axes.pan
  | .tilt => p.axd.axes.tilt
  | .pol => p.axd.axes.pol

def setAxes (x : Axes) (a : Axis) (r : AxisRec) : Axes :=
  match a with
  | .mast => { x with mast := r }
  | .pan => { x with pan := r }
  | .tilt => { x with tilt := r }
  | .pol => { x with pol := r }

/-- Axis `a`'s record replaced, nothing posted. -/
def setAxisRaw (a : Axis) (r : AxisRec) (p : Plant) : Plant := { p with axd := { p.axd with axes := setAxes p.axd.axes a r } }

/-- A value clamped to an axis's soft limits (R79 step 5). -/
def clampSoft (e : Env) (a : Axis) (x : Int) : Int := clampInt (axisCfg e a).softMin (axisCfg e a).softMax x

/-- Whether a fault on `f` names axis `a` (R96). -/
def faultNames (f : FaultAxis) (a : Axis) : Bool :=
  match f with
  | .all => true
  | .one b => decide (b = a)

/-- The MAST position is present and at or above the cradle clear height (R117). -/
def headFree (e : Env) (p : Plant) : Bool :=
  match p.axd.axes.mast.position with
  | some h => decide (((cfgOf e).cradleClear : Int) ≤ h)
  | none => false

/-- An axis is held while a record names it or ALL, or while the overflow axes include it or ALL (R96). -/
def isHeld (p : Plant) (a : Axis) : Bool :=
  p.flt.records.any (fun r => faultNames r.axis a) || p.flt.overflowAxes.any (fun f => faultNames f a)

/-- Held by a record of a kind other than DRIVE_AWAY, or by the overflow axes (R79 step 3, R112). -/
def heldBeyondDriveAway (p : Plant) (a : Axis) : Bool :=
  p.flt.records.any (fun r => faultNames r.axis a && decide (r.kind ≠ .driveAway)) || p.flt.overflowAxes.any (fun f => faultNames f a)

/-- The stow position of a head axis (R93, R114). -/
def stowPosition (e : Env) : Axis → Int
  | .tilt => (cfgOf e).stowTilt
  | .mast | .pan | .pol => 0

/-- The stow window of an axis (R27, R116). -/
def stowWindowOf (e : Env) : Axis → Nat
  | .mast => (cfgOf e).stowWindow
  | .pan => (cfgOf e).stowPan
  | .tilt => (cfgOf e).stowTiltWindow
  | .pol => (cfgOf e).stowPol

/-- A head axis is inside its stow window, with a valid sensor (R27). -/
def axisInsideStow (e : Env) (p : Plant) (a : Axis) : Bool :=
  (axisOf p a).sensorValid &&
    match (axisOf p a).position with
    | some x => decide ((x - stowPosition e a).natAbs ≤ stowWindowOf e a)
    | none => false

/-- The head is inside stow (R27). -/
def headInsideStow (e : Env) (p : Plant) : Bool := headAxes.all (axisInsideStow e p)

/-- The position of an axis as reports carry it, 0 without a valid reading (R168). -/
def positionOrZero (p : Plant) (a : Axis) : Int := (axisOf p a).position.getD 0

/-- The number of fault records (R57). -/
def faultCount (p : Plant) : Nat := p.flt.records.length

/-- DRIFT is shown (R118). -/
def driftShown (p : Plant) : Bool := p.axd.axes.mast.drift || p.msq.stranded

/-- The pilot level conversion (R64). -/
def pilotLevel (e : Env) (c : Count) : Int :=
  clampLevel ((cfgOf e).lZero + (((c.toNat * (cfgOf e).lGain + 2048) / 4096 : Nat) : Int))

end Sys2Proof.Machine
end

