-- ==== Sys2Proof/Machine/Flags.lean ====
section
/-! DEFINITION. The permissives and the conditions formed from the states of several blocks: NOT_FITTED roles, Table 3-3, the
classes of Table 3-4, busy (R55), the wind filter and the wind alarm (R35, R37). -/

namespace Sys2Proof.Machine

/-! ### Roles (R28, R31) -/

/-- The configured station of a role; 0 is NOT_FITTED. -/
def roleStation (e : Env) : Role → Nat
  | .vehicle => (cfgOf e).vehicleStation
  | .wind => (cfgOf e).windStation
  | .clearance => (cfgOf e).clearanceStation
  | .level => (cfgOf e).levelStation

/-- A role whose entry has a state: the station is configured, and for LEVEL the source is LINKED (R31). -/
def fitted (e : Env) (r : Role) : Bool :=
  decide (roleStation e r ≠ 0) && (decide (r ≠ .level) || linked e)

def freshLimit (e : Env) : Role → Nat
  | .vehicle => (cfgOf e).vehicleLimit
  | .wind => (cfgOf e).windLimit
  | .clearance => (cfgOf e).clearanceLimit
  | .level => (cfgOf e).levelLimit

/-- The unmonitored flags of POSITIONER_STATUS, bits 0..3 VEHICLE, WIND, CLEARANCE, LEVEL (R31; in SAFE a free value). -/
def unmonitored (e : Env) : BitVec 4 :=
  if isSafe e then Config.safeUnmonitored
  else BitVec.ofNat 4 (boolBit (!fitted e .vehicle) + 2 * boolBit (!fitted e .wind) + 4 * boolBit (!fitted e .clearance) + 8 * boolBit (!fitted e .level))

/-! ### Permissives (Table 3-3) -/

def Permissive.code : Permissive → Nat
  | .brakeSet => 1
  | .outriggersDown => 2
  | .vanLevelOk => 3
  | .headingOk => 4
  | .windRaiseOk => 5
  | .windMoveOk => 6
  | .clearanceOk => 7
  | .levelOk => 8

def PermissiveSet.given (s : PermissiveSet) : Permissive → Bool
  | .brakeSet => s.brakeSet
  | .outriggersDown => s.outriggersDown
  | .vanLevelOk => s.vanLevelOk
  | .headingOk => s.headingOk
  | .windRaiseOk => s.windRaiseOk
  | .windMoveOk => s.windMoveOk
  | .clearanceOk => s.clearanceOk
  | .levelOk => s.levelOk

/-- All eight, lowest code first. -/
def allPermissives : List Permissive :=
  [.brakeSet, .outriggersDown, .vanLevelOk, .headingOk, .windRaiseOk, .windMoveOk, .clearanceOk, .levelOk]

/-- The RAISE class of Table 3-4, lowest code first. -/
def raisePermissives : List Permissive := [.brakeSet, .outriggersDown, .vanLevelOk, .windRaiseOk, .clearanceOk]

def given (p : Plant) (x : Permissive) : Bool := p.pvw.permissives.given x

/-- The first of a list of permissives, lowest code first, that is not given (R38). -/
def lowestMissing (p : Plant) (l : List Permissive) : Option Permissive := l.find? fun x => !given p x

def raiseGiven (p : Plant) : Bool := raisePermissives.all (given p)

/-- The HEAD_MOVE permissives are given (Table 3-4). -/
def headMoveGiven (p : Plant) : Bool := given p .brakeSet && given p .windMoveOk

def isFresh {α : Type} (x : PeerEntry α) : Bool := decide (x.state = some .fresh)

/-- The allowed top of an obstacle height: obstacle − head height − clearance margin (R105 step 2). -/
def allowedTop (e : Env) (obstacle : Nat) : Int :=
  (obstacle : Int) - ((cfgOf e).headHeight : Int) - ((cfgOf e).clearanceMargin : Int)

/-- CLEARANCE_OK of a value: none detected, or obstacle − (mast height + head height) > margin (Table 3-3, R39). -/
def clearanceGiven (e : Env) (p : Plant) : ClearanceValue → Bool
  | none => true
  | some b =>
    match p.axd.axes.mast.position with
    | some h => decide (((cfgOf e).clearanceMargin : Int) < (b : Int) - (h + ((cfgOf e).headHeight : Int)))
    | none => false

/-- The permissives of one role's entry formed anew from the entry, the others kept (R38, Table 3-3). -/
def evalRole (e : Env) (p : Plant) (r : Role) : PermissiveSet :=
  let old := p.pvw.permissives
  match r with
  | .vehicle =>
    match isFresh p.pvw.vehicle, p.pvw.vehicle.value with
    | true, some v =>
      { old with
        brakeSet := v.brakeSet, outriggersDown := v.outriggersDown, headingOk := v.headingValid,
        vanLevelOk := decide (v.pitch.natAbs ≤ (cfgOf e).vanLevel) && decide (v.roll.natAbs ≤ (cfgOf e).vanLevel) }
    | _, _ => { old with brakeSet := false, outriggersDown := false, headingOk := false, vanLevelOk := false }
  | .wind =>
    let fresh := isFresh p.pvw.wind
    { old with
      windRaiseOk := fresh && decide (p.pvw.raiseFilter.side = .below),
      windMoveOk := fresh && decide (p.pvw.holdFilter.side = .below) }
  | .clearance =>
    match isFresh p.pvw.clearance, p.pvw.clearance.value with
    | true, some c => { old with clearanceOk := clearanceGiven e p c }
    | _, _ => { old with clearanceOk := false }
  | .level => { old with levelOk := isFresh p.pvw.level }

/-- The permissives after a load: those of NOT_FITTED roles given, the others not (R31, R46). -/
def loadedPermissives (e : Env) : PermissiveSet :=
  let v := !fitted e .vehicle
  let w := !fitted e .wind
  { brakeSet := v, outriggersDown := v, vanLevelOk := v, headingOk := v, windRaiseOk := w, windMoveOk := w, clearanceOk := !fitted e .clearance,
    levelOk := !fitted e .level }

/-- The permissives of `l` given in `before` and not in `after`, lowest code first. -/
def lostOf (before after : PermissiveSet) (l : List Permissive) : List Permissive :=
  l.filter fun x => before.given x && !after.given x

/-! ### Wind filters and the alarm (R35, R37) -/

/-- One step of a wind filter with limit L, hysteresis H and a depth, on the stored gust (R35). -/
def stepFilter (limit hysteresis depth gust : Nat) (f : WindFilter) : WindFilter :=
  let under := decide ((gust : Int) < (limit : Int) - (hysteresis : Int))
  match f.side with
  | .above =>
    if under then
      if depth ≤ f.run + 1 then { side := .below, run := 0 } else { side := .above, run := f.run + 1 }
    else { side := .above, run := 0 }
  | .below => if limit ≤ gust then { side := .above, run := 0 } else f

/-! ### Busy (R55) -/

def axisBusy (r : AxisRec) : Bool :=
  match r.state with
  | .waiting | .moving | .settling | .stopping => true
  | .idle | .fault => false

def pointingBusy : PointState → Bool
  | .active (.slewing _) | .active (.acquiring _) | .active .peaking => true
  | .idle | .waitingMast | .active .tracking | .pointed | .held _ _ | .lost => false

def mastBusy : MastState → Bool
  | .raising _ _ | .parking _ | .lowering _ => true
  | .stowed | .raised | .halted _ => false

def busy (p : Plant) : Bool :=
  allAxes.any (fun a => axisBusy (axisOf p a)) || pointingBusy p.pnt.state || mastBusy p.msq.state

/-! ### The reservations of R98 and the states other blocks ask about -/

/-- The mast is PARKING or LOWERING. -/
def mastBringingDown : MastState → Bool
  | .parking _ | .lowering _ => true
  | .stowed | .raising _ _ | .raised | .halted _ => false

/-- An axis's move is a LOWER of MSQ that a stored DRIVE_AWAY spares (R98). A hold drift correction is made for no
block (spec/06 §6.6), so it is not spared: DEDUCED, notes/assumptions/22.md. -/
def sparedLower (p : Plant) (r : AxisRec) : Bool :=
  decide (r.requester = some .msq) && decide (r.cls = some .lower) && !r.correction && mastBringingDown p.msq.state

/-- The axis carries a move of this requester in WAITING, MOVING or SETTLING that is not a correction. -/
def carriesMove (r : AxisRec) (q : Requester) : Bool :=
  decide (r.requester = some q) && !r.correction &&
    match r.state with
    | .waiting | .moving | .settling => true
    | .idle | .stopping | .fault => false

/-- A move on the axis toward `target` lies toward an active hard limit switch (R79 step 6). -/
def switchBlocks (r : AxisRec) (target : Int) : Bool :=
  match r.position with
  | some x => (decide (x < target) && r.switchHigh) || (decide (target < x) && r.switchLow)
  | none => false

end Sys2Proof.Machine
end

