-- ==== Sys2Proof/Machine/Layouts.lean ====
section
/-! DEFINITION. The codes of Table 11-3, the payloads the part sends (R165, R168), its tags (R5), and the bits of a
notice (R3). -/

namespace Sys2Proof.Machine

/-! ### Codes (Table 11-3) -/

def axisStateCode : AxisState → Nat
  | .idle => 0
  | .waiting => 1
  | .moving => 2
  | .settling => 3
  | .stopping => 4
  | .fault => 5

def mastStateCode : MastState → Nat
  | .stowed => 0
  | .raising _ _ => 1
  | .raised => 2
  | .parking _ => 3
  | .lowering _ => 4
  | .halted _ => 5

def pointStateCode : PointState → Nat
  | .idle => 0
  | .waitingMast => 1
  | .active (.slewing _) => 2
  | .active (.acquiring _) => 3
  | .active .peaking => 4
  | .pointed => 5
  | .active .tracking => 6
  | .held _ _ => 7
  | .lost => 8

def holdCauseCode : HoldCause → Nat
  | .stop => 1
  | .wind => 3
  | .brake => 4
  | .outriggers => 5
  | .vanLevel => 6
  | .clearance => 7
  | .headNotParked => 8
  | .start => 9
  | .fault => 10

def faultKindCode : FaultKind → Nat
  | .stall => 16
  | .limit => 17
  | .overtravel => 18
  | .sensor => 19
  | .pressure => 20
  | .current => 21
  | .supply => 22
  | .baseTilt => 23
  | .pilot => 24
  | .driveAway => 25
  | .headUnparked => 26

def faultAxisCode : FaultAxis → Nat
  | .one a => axisCode a
  | .all => 4

/-- The causes a HALT carries (R48, R53, R97, R103). -/
inductive HaltCause where
  | stop | duplicate
  | hold (cause : HoldCause)
  | fault (kind : FaultKind)
  deriving DecidableEq, Repr

def haltCauseCode : HaltCause → Nat
  | .stop => 1
  | .duplicate => 2
  | .hold c => holdCauseCode c
  | .fault k => faultKindCode k

def latchCode : Option LatchCause → Nat
  | none => 0
  | some (.stop s) => s
  | some .start => 31
  | some .duplicate => 32

/-- The outcomes of a REPLY (R57). -/
inductive ReplyOutcome where
  | accepted | clamped | refused
  deriving DecidableEq, Repr

def outcomeCode : ReplyOutcome → Nat
  | .accepted => 0
  | .clamped => 1
  | .refused => 2

/-- The reasons of a REPLY (R57). -/
inductive Reason where
  | none | config | unknown | stopLatched | duplicate | notHolder | stopActive | state | permissive | fault | range | unreachable
  deriving DecidableEq, Repr

def reasonCode : Reason → Nat
  | .none => 0
  | .config => 1
  | .unknown => 2
  | .stopLatched => 3
  | .duplicate => 4
  | .notHolder => 5
  | .stopActive => 6
  | .state => 7
  | .permissive => 8
  | .fault => 9
  | .range => 10
  | .unreachable => 11

def qualityCode : Option Quality → Nat
  | none => 0
  | some .fine => 1
  | some .rough => 2

/-- The point kinds of a DWELL_REPORT (Table 11-3); a watch is numbered 1..6. -/
inductive PointKind where
  | preset | search | searchBlocked | sweepDegraded | crossCentre | crossPanPlus | crossPanMinus | crossTiltPlus | crossTiltMinus | crossBlocked | closing
  | trackPeak
  | watch (number : Nat) (entered : Side)
  deriving DecidableEq, Repr

def pointKindCode : PointKind → Nat
  | .preset => 1
  | .search => 2
  | .searchBlocked => 3
  | .sweepDegraded => 4
  | .crossCentre => 5
  | .crossPanPlus => 6
  | .crossPanMinus => 7
  | .crossTiltPlus => 8
  | .crossTiltMinus => 9
  | .crossBlocked => 10
  | .closing => 11
  | .trackPeak => 12
  | .watch w .above => 30 + 2 * w
  | .watch w .below => 31 + 2 * w

def configFaultCode : ConfigFault → Nat
  | .strap => 1
  | .noAnswer => 2
  | .check => 3
  | .structural => 4

def lineConditionCode : LineCondition → Nat
  | .unknown => 0
  | .idle => 1
  | .busy => 2
  | .stuck => 3

/-! ### Payloads the part sends (Table 11-1) -/

def haltPayload (cause : HaltCause) (axis : FaultAxis) (faults : Nat) (mast : MastState) : List Byte :=
  [byteOf (haltCauseCode cause), byteOf (faultAxisCode axis), byteOf faults, byteOf (mastStateCode mast)]

def replyPayload (sequence : Byte) (outcome : ReplyOutcome) (reason : Reason) (value : Int) : List Byte :=
  [sequence, byteOf (outcomeCode outcome), byteOf (reasonCode reason)] ++ s16 value

/-- The height bytes: 0 without a position (R119); a free value where the position does not fit the field. -/
def heightBytes : Option Int → List Byte
  | none => u16 0
  | some h => if 0 ≤ h ∧ h ≤ 65535 then u16 h.toNat else bytes16 (Config.heightField h)

def mastCauseCode : MastState → Nat
  | .halted c => holdCauseCode c
  | .stowed | .raising _ _ | .raised | .parking _ | .lowering _ => 0

/-- The flags byte of POSITIONER_STATUS. -/
def statusFlags (e : Env) (p : Plant) : Nat :=
  boolBit p.aut.latch.isSome + 2 * boolBit p.aut.duplicate.isSome
    + 4 * boolBit (match e.setup.result with | .fault _ => true | .pending | .loaded | .clamped => false)
    + 8 * boolBit (decide (e.setup.result = .clamped)) + 16 * boolBit p.pvw.alarm + 32 * boolBit p.flt.overflow
    + 64 * boolBit (decide (e.setup.resetReason = .pin))

def statusPayload (e : Env) (p : Plant) : List Byte :=
  [byteOf e.setup.mastNumber, byteOf (mastStateCode p.msq.state + 128 * boolBit (driftShown p)), byteOf (mastCauseCode p.msq.state)]
    ++ heightBytes p.axd.axes.mast.position
    ++ [byteOf (pointStateCode p.pnt.state), byteOf (statusFlags e p), byteOf (faultCount p), byteOf (unmonitored e).toNat, byteOf (latchCode p.aut.latch)]

def axisReportPayload (a : Axis) (r : AxisRec) : List Byte :=
  [byteOf (axisCode a), byteOf (axisStateCode r.state + 128 * boolBit r.drift)] ++ s24 (r.position.getD 0) ++ s24 (r.target.getD 0)

def pointHoldCode : PointState → Nat
  | .held _ .wind => 1
  | .held _ .level => 2
  | .idle | .waitingMast | .active _ | .pointed | .lost => 0

/-- An offset as sent: at the nearer end of the signed 16-bit range when beyond it (R168). -/
def offsetBytes (x : Int) : List Byte := s16 (clampInt (-32768) 32767 x)

def pointingPayload (x : Pointing) : List Byte :=
  let state := byteOf (pointStateCode x.state + 16 * pointHoldCode x.state)
  match x.record with
  | none => [state, byteOf 0] ++ s16 0 ++ s16 0 ++ s16 levelMin ++ [byteOf 0, byteOf 0]
  | some r =>
    [state, byteOf (qualityCode r.quality)] ++ offsetBytes r.panOffset ++ offsetBytes r.tiltOffset ++ s16 (r.peak.getD levelMin)
      ++ [byteOf r.rowEnd, byteOf r.passEnd]

/-- The tilt bytes of a DWELL_REPORT; a free value where the position does not fit the field. -/
def tiltBytes (x : Int) : List Byte := if -32768 ≤ x ∧ x ≤ 32767 then s16 x else bytes16 (Config.tiltField x)

def dwellPayload (kind : PointKind) (pan tilt level : Int) : List Byte :=
  [byteOf (pointKindCode kind)] ++ s24 pan ++ tiltBytes tilt ++ s16 level

/-- The three counters of a LINK_REPORT group (R11). -/
def groupCounters (c : Counters) (drops group : Nat) : List Byte :=
  if group = 0 then u16 c.receiveFaults ++ u16 c.stuckEvents ++ u16 c.sendFaults
  else if group = 1 then u16 c.overruns ++ u16 drops ++ u16 c.foreign
  else u16 c.ignored ++ u16 c.receiveFaults ++ u16 c.sendFaults

def linkPayload (l : Line) (drops : Nat) : List Byte :=
  [byteOf (boolBit (match l.linkState with | .withdrawn _ => true | .active => false) + 2 * lineConditionCode l.condition + 16 * l.group), byteOf l.score,
      byteOf (boolBit l.overrunFlag)]
    ++ groupCounters l.counters drops l.group

/-! ### Tags and the bits of a notice -/

/-- Kind number and urgency of a post (R5). -/
def postKind : PostKey → Nat × Nat
  | .halt => (1, 1)
  | .reply => (9, 2)
  | .status => (10, 2)
  | .axisReport _ => (11, 2)
  | .pointing => (12, 2)
  | .dwell => (17, 3)
  | .link => (18, 3)

/-- tag = urgency × 1024 + kind × 32 + source (R5). -/
def tagOf (urgency kind source : Nat) : Tag := BitVec.ofNat 12 (urgency * 1024 + kind * 32 + source)

/-- The tag of a post, with the strapped station number as its source (R5), under a strap fault too: DEDUCED, notes/assumptions/37.md. -/
def postTag (e : Env) (k : PostKey) : Tag := tagOf (postKind k).2 (postKind k).1 e.setup.station

def tagUrgency (t : Tag) : Nat := t.toNat / 1024

def tagKind (t : Tag) : Nat := t.toNat / 32 % 32

def tagSource (t : Tag) : Nat := t.toNat % 32

/-- The tag, length and payload bits in the order sent: what the check is formed over (R3). -/
def checkedBits (tag : Tag) (length : BitVec 4) (payload : List Byte) : List Bool :=
  bitsOf 12 tag.toNat ++ bitsOf 4 length.toNat ++ bitsOfBytes payload

/-- The check read is the check formed (R3, R4). -/
def checkMatches (f : Frame) : Bool := decide (crcOf (checkedBits f.tag f.length f.payload) = f.check)

/-- The driven bits of a notice the part sends, start bit first, through the check (R3). -/
def sentBits (x : PostEntry) : List Bool :=
  let body := checkedBits x.tag (BitVec.ofNat 4 x.payload.length) x.payload
  false :: (body ++ bitsOf 16 (crcOf body).toNat)

end Sys2Proof.Machine
end

