-- ==== Sys2Proof/Machine/PostQueue.lean ====
section
/-! DEFINITION. The post queue (R17, R18) and the posts every block makes. -/

namespace Sys2Proof.Machine

/-- The capacity of the post queue and of the arrival queue (R15, R17). -/
def queueSize : Nat := 6

/-- A new waiting entry. -/
def newEntry (key : PostKey) (tag : Tag) (payload : List Byte) : PostEntry :=
  { key := key, tag := tag, payload := payload, sending := false, overrunSince := false }

/-- A waiting entry has this key. -/
def hasWaiting (key : PostKey) (q : List PostEntry) : Bool := q.any fun x => decide (x.key = key) && !x.sending

/-- The payload of the waiting entry of this key replaced, its place unchanged. -/
def replaceWaiting (key : PostKey) (payload : List Byte) (q : List PostEntry) : List PostEntry :=
  q.map fun x => if x.key = key ∧ x.sending = false then { x with payload := payload, overrunSince := false } else x

/-- The highest tag among the waiting entries. -/
def highestWaiting (q : List PostEntry) : Option Tag :=
  q.foldl (fun best x => if x.sending then best else match best with
    | none => some x.tag
    | some t => if t < x.tag then some x.tag else some t) none

/-- The list without the newest waiting entry of this tag. -/
def dropNewestWaiting (tag : Tag) (q : List PostEntry) : List PostEntry :=
  (q.reverse.eraseP fun x => decide (x.tag = tag) && !x.sending).reverse

/-- A post, handled at the moment it is made (R17). -/
def postTo (key : PostKey) (tag : Tag) (payload : List Byte) (q : PostQueue) : PostQueue :=
  if hasWaiting key q.entries then { q with entries := replaceWaiting key payload q.entries }
  else if q.entries.length < queueSize then { q with entries := q.entries ++ [newEntry key tag payload] }
  else
    match highestWaiting q.entries with
    | some high =>
      if tag < high then { entries := dropNewestWaiting high q.entries ++ [newEntry key tag payload], drops := bump q.drops }
      else { q with drops := bump q.drops }
    | none => { q with drops := bump q.drops }

/-- A post made by a block of the plant. -/
def post (e : Env) (key : PostKey) (payload : List Byte) (p : Plant) : Plant := { p with posts := postTo key (postTag e key) payload p.posts }

def postStatus (e : Env) (p : Plant) : Plant := post e .status (statusPayload e p) p

def postAxisReport (e : Env) (a : Axis) (p : Plant) : Plant := post e (.axisReport a) (axisReportPayload a (axisOf p a)) p

def postPointing (e : Env) (p : Plant) : Plant := post e .pointing (pointingPayload p.pnt) p

def postDwell (e : Env) (kind : PointKind) (pan tilt level : Int) (p : Plant) : Plant := post e .dwell (dwellPayload kind pan tilt level) p

/-- A DWELL_REPORT at the PAN and TILT positions last read (R142, R152, R74). -/
def postDwellHere (e : Env) (kind : PointKind) (level : Int) (p : Plant) : Plant :=
  postDwell e kind (positionOrZero p .pan) (positionOrZero p .tilt) level p

/-- A HALT with the mast state that results from its event (R119). -/
def postHalt (e : Env) (cause : HaltCause) (axis : FaultAxis) (mast : MastState) (p : Plant) : Plant :=
  post e .halt (haltPayload cause axis (faultCount p) mast) p

def postReply (e : Env) (sequence : Byte) (outcome : ReplyOutcome) (reason : Reason) (value : Int) (p : Plant) : Plant :=
  post e .reply (replyPayload sequence outcome reason value) p

/-- A POSITIONER_STATUS at a change of one of the states of R59, made where the state is written.
DESIGN CHOICE, notes/assumptions/18.md. -/
def postStatusIf (changed : Bool) (e : Env) (p : Plant) : Plant := if changed then postStatus e p else p

/-- The mast state and its hold cause as sent: a change of either posts a status at once (R59, R102, R119). -/
def mastKey (st : MastState) : Nat × Nat := (mastStateCode st, mastCauseCode st)

/-- The fault count and the overflow as sent: a change of either posts a status at once (R59). -/
def faultKey (p : Plant) : Nat × Bool := (faultCount p, p.flt.overflow)

/-! ### Selection and return (R18) -/

/-- The entry in transmission. -/
def sendingEntry (q : PostQueue) : Option PostEntry := q.entries.find? fun x => x.sending

/-- The lowest tag among the waiting entries. -/
def lowestWaiting (q : List PostEntry) : Option Tag :=
  q.foldl (fun best x => if x.sending then best else match best with
    | none => some x.tag
    | some t => if x.tag < t then some x.tag else some t) none

/-- The oldest waiting entry of this tag marked in transmission. -/
def markFirst (tag : Tag) : List PostEntry → List PostEntry
  | [] => []
  | x :: rest => if x.tag = tag ∧ x.sending = false then { x with sending := true } :: rest else x :: markFirst tag rest

/-- The entry in transmission back to waiting in its old place, or removed when a waiting entry of its key joined
meanwhile (R18). -/
def returnSending (q : PostQueue) : PostQueue :=
  match sendingEntry q with
  | none => q
  | some x =>
    if hasWaiting x.key q.entries then { q with entries := q.entries.filter fun y => !y.sending }
    else { q with entries := q.entries.map fun y => { y with sending := false } }

/-- The entry in transmission removed (R9). -/
def removeSending (q : PostQueue) : PostQueue := { q with entries := q.entries.filter fun y => !y.sending }

end Sys2Proof.Machine
end

