-- ==== Sys2Proof/Machine/Drive.lean ====
section
/-! DEFINITION. AXD and ARB: writing an axis record with its reports, the arbiter, move requests, cancels, stopping,
coming to rest (R78 to R85, R90 to R95). -/

namespace Sys2Proof.Machine

/-- The axis enters IDLE or FAULT with this change of state. -/
def entersRest (before after : AxisState) : Bool :=
  decide (before ≠ after) && (decide (after = .idle) || decide (after = .fault))

/-- The record as written: at an entry to IDLE or FAULT the noted requesters are handed axis free (R81), and the report
period stops at IDLE and begins when the axis leaves it (R85).
DESIGN CHOICE, notes/assumptions/28.md. -/
def settleRecord (e : Env) (before after : AxisRec) : AxisRec :=
  let r := if entersRest before.state after.state then { after with freed := addNew after.freed after.noted, noted := [] } else after
  { r with
    reportStart := match after.state, before.state with
      | .idle, _ => none
      | _, .idle => some e.clock
      | _, _ => before.reportStart }

/-- Axis `a`'s record written, with an AXIS_REPORT at a change of its state or drift flag (R85) and a status at a change in
whether DRIFT is shown (R118).
DESIGN CHOICE, notes/assumptions/18.md. -/
def putAxis (e : Env) (a : Axis) (r : AxisRec) (p : Plant) : Plant :=
  let before := axisOf p a
  let q := setAxisRaw a (settleRecord e before r) p
  postStatusIf (decide (driftShown q ≠ driftShown p)) e (if before.state ≠ r.state ∨ before.drift ≠ r.drift then postAxisReport e a q else q)

/-- The outputs and timers of an axis at rest: brake set, speed code 0, direction released (R78).
DESIGN CHOICE (the stall reference dropped with the timer), notes/assumptions/71.md. -/
def atRest (r : AxisRec) : AxisRec :=
  { r with
    v := 0, brakeSet := true, code := 0, dirDriven := false, settleTimer := 0, settlePeriods := 0, stallTimer := 0, stallRef := none,
    recovery := false, cap := none }

/-- The move of the record ended: its requester becomes the last owner (R83, R84). -/
def clearMove (r : AxisRec) : AxisRec :=
  { r with lastOwner := r.requester.getD r.lastOwner, requester := none, cls := none, correction := false }

/-! ### ARB (R94, R95) -/

/-- The waiting axis that stands first by the order of R95. -/
def chooseWaiting (d : Drives) : Option Axis :=
  if .mast ∈ d.waiting then some .mast
  else if .pan ∈ d.waiting ∧ .tilt ∈ d.waiting then
    match d.lastGranted with
    | .pan => some .tilt
    | .tilt => some .pan
  else if .pan ∈ d.waiting then some .pan
  else if .tilt ∈ d.waiting then some .tilt
  else if .pol ∈ d.waiting then some .pol
  else none

def nameGranted (a : Axis) (flag : Alternation) : Alternation :=
  match a with
  | .pan => .pan
  | .tilt => .tilt
  | .mast | .pol => flag

/-- A grant to a waiting axis: MOVING, brake released, v 0, stall timer started (R94, R88). -/
def grantAxis (e : Env) (a : Axis) (p : Plant) : Plant :=
  let d := p.axd
  let p1 := { p with axd := { d with waiting := removeAll d.waiting a, grants := insertNew d.grants a, lastGranted := nameGranted a d.lastGranted } }
  let r := axisOf p1 a
  putAxis e a { r with state := .moving, brakeSet := false, v := 0, stallTimer := 0, stallRef := r.position } p1

/-- One grant handed out, when one is free and an axis waits (R94). -/
def tryGrant (e : Env) (p : Plant) : Plant :=
  if p.axd.grants.length < (cfgOf e).budget then
    match chooseWaiting p.axd with
    | some a => grantAxis e a p
    | none => p
  else p

/-- As many grants handed out as have been returned, each to the axis that then stands first (R94, R95). -/
def handGrants (e : Env) : Nat → Plant → Plant
  | 0, p => p
  | n + 1, p => handGrants e n (tryGrant e p)

/-- The end of an event in which axes may have left the grant list between `p` and `q`: every grant returned is handed out (R94).
DESIGN CHOICE (several axes that leave at one event do so before a grant is handed out), notes/assumptions/27.md. -/
def afterLeaving (e : Env) (p q : Plant) : Plant := handGrants e (p.axd.grants.length - q.axd.grants.length) q

def leaveGrants (a : Axis) (p : Plant) : Plant := { p with axd := { p.axd with grants := removeAll p.axd.grants a } }

def leaveWaiting (a : Axis) (p : Plant) : Plant := { p with axd := { p.axd with waiting := removeAll p.axd.waiting a } }

/-! ### Leaving a move -/

/-- An axis that leaves WAITING without a grant, for IDLE or FAULT (R49, R81, R84, R98): at rest where it stands, its hold
target the rest position within the soft limits (R84, R108, R118).
DEDUCED, notes/assumptions/10.md. -/
def abandonWaiting (e : Env) (a : Axis) (next : AxisState) (p : Plant) : Plant :=
  let r := axisOf p a
  leaveWaiting a (putAxis e a { clearMove (atRest r) with state := next, target := r.position.map (clampSoft e a) } p)

/-- STOPPING entered from MOVING or SETTLING; the grant returns to ARB, the speed cap is dropped (R84, R78).
DESIGN CHOICE (the stall reference dropped with the timer), notes/assumptions/71.md. -/
def toStopping (e : Env) (a : Axis) (p : Plant) : Plant :=
  let r := axisOf p a
  leaveGrants a (putAxis e a { r with state := .stopping, settleTimer := 0, settlePeriods := 0, stallTimer := 0, stallRef := none, cap := none } p)

/-- A move brought to an end: from WAITING to IDLE, from MOVING or SETTLING to STOPPING; in any other state nothing
changes (R81, R84, R49). The grant returned is still free. A WAITING axis goes to IDLE also while a DRIVE_AWAY record holds it.
DESIGN CHOICE (IDLE though held), notes/assumptions/68.md. -/
def endMove (e : Env) (a : Axis) (p : Plant) : Plant :=
  match (axisOf p a).state with
  | .waiting => abandonWaiting e a .idle p
  | .moving | .settling => toStopping e a p
  | .idle | .stopping | .fault => p

/-- The moves of the axes of a list that a test picks are ended at one event, each by the state its axis is in, and the grants
they return are handed out (R49, R81, R84, R94). -/
def endMoves (e : Env) (picks : AxisRec → Bool) (l : List Axis) (p : Plant) : Plant :=
  afterLeaving e p (l.foldl (fun x a => if picks (axisOf x a) then endMove e a x else x) p)

/-- A requester cancels its moves on the axes of a list (R81).
DEDUCED, notes/assumptions/36.md. -/
def cancelMoves (e : Env) (q : Requester) (l : List Axis) (p : Plant) : Plant := endMoves e (fun r => carriesMove r q) l p

/-- A requester cancels its move on an axis (R81). -/
def cancelMove (e : Env) (q : Requester) (a : Axis) (p : Plant) : Plant := cancelMoves e q [a] p

/-- A STOPPING axis comes to rest: the position becomes the hold target, and the axis is FAULT when held (R84). -/
def comeToRest (e : Env) (a : Axis) (p : Plant) : Plant :=
  let r := axisOf p a
  let next : AxisState := if isHeld p a then .fault else .idle
  putAxis e a { clearMove (atRest r) with state := next, target := r.position.map (clampSoft e a) } p

/-- The latch-set event at AXD: every WAITING axis to IDLE, every MOVING or SETTLING axis to STOPPING (R49), in the order MAST,
PAN, TILT, POL.
DESIGN CHOICE, notes/assumptions/52.md. -/
def latchAxes (e : Env) (p : Plant) : Plant := endMoves e (fun _ => true) allAxes p

/-! ### Move requests (R79, R80) -/

/-- A move request. `cap` is the speed cap of a SWEEP row (R144), `recovery` the flag of a JOG (R93). -/
structure MoveRequest where
  axis : Axis
  requester : Requester
  cls : MotionClass
  target : Int
  cap : Option Nat
  recovery : Bool
  deriving DecidableEq, Repr

/-- AXD's answers (R79). -/
inductive Answer where
  | accepted (effective : Int) (clamped : Bool)
  | latched | stopping | fault | cradle | range | busy
  deriving DecidableEq, Repr

/-- A request of class LOWER from MSQ on an axis in FAULT under DRIVE_AWAY alone goes on (R79 step 3). -/
def lowerException (p : Plant) (q : MoveRequest) : Bool :=
  decide (q.requester = .msq) && decide (q.cls = .lower) && mastBringingDown p.msq.state && !heldBeyondDriveAway p q.axis

def noteRequester (q : Requester) (a : Axis) (p : Plant) : Plant :=
  let r := axisOf p a
  setAxisRaw a { r with noted := insertNew r.noted q } p

/-- The record carrying the new request in place of what it carried. -/
def withRequest (q : MoveRequest) (target : Int) (r : AxisRec) : AxisRec :=
  { r with requester := some q.requester, cls := some q.cls, target := some target, correction := false, cap := q.cap, recovery := q.recovery, drift := false }

def listWaiting (a : Axis) (p : Plant) : Plant := { p with axd := { p.axd with waiting := insertNew p.axd.waiting a } }

/-- A request accepted from IDLE or FAULT: WAITING, the waiting list, and a free grant at once (R79 step 7, R94). -/
def joinWaiting (e : Env) (a : Axis) (r : AxisRec) (p : Plant) : Plant :=
  tryGrant e (listWaiting a (putAxis e a { r with state := .waiting } p))

/-- A request taken in place of the move in progress (R80). From SETTLING to MOVING the stall timer starts (R88). -/
def replaceMove (e : Env) (q : MoveRequest) (target : Int) (p : Plant) : Plant :=
  let r := withRequest q target (axisOf p q.axis)
  match r.state with
  | .settling =>
    let far := match r.position with
      | some x => decide ((axisCfg e q.axis).window < (target - x).natAbs)
      | none => false
    if far then putAxis e q.axis { r with state := .moving, settleTimer := 0, settlePeriods := 0, stallTimer := 0, stallRef := r.position } p
    else putAxis e q.axis { r with settleTimer := 0 } p
  | .idle | .waiting | .moving | .stopping | .fault => putAxis e q.axis r p

/-- R79 steps 5 to 7, from the clamp on. -/
def requestFromClamp (e : Env) (q : MoveRequest) (p : Plant) : Plant × Answer :=
  let r := axisOf p q.axis
  let target := clampSoft e q.axis q.target
  let answer := Answer.accepted target (decide (target ≠ q.target))
  if switchBlocks r target then (p, .range)
  else
    match r.state with
    | .idle | .fault => (joinWaiting e q.axis (withRequest q target r) p, answer)
    | .waiting | .moving | .settling =>
      if r.correction || decide (r.requester = some q.requester) then (replaceMove e q target p, answer)
      else (noteRequester q.requester q.axis p, .busy)
    | .stopping => (noteRequester q.requester q.axis p, .stopping)

/-- A move request judged in the order of R79. -/
def moveRequest (e : Env) (q : MoveRequest) (p : Plant) : Plant × Answer :=
  let r := axisOf p q.axis
  if p.aut.latch.isSome then (p, .latched)
  else if r.state = .stopping then (noteRequester q.requester q.axis p, .stopping)
  else if r.state = .fault ∧ lowerException p q = false then (p, .fault)
  else if isHead q.axis = true ∧ q.requester ≠ .jog ∧ headFree e p = false then (p, .cradle)
  else requestFromClamp e q p

/-! ### Hold drift (R90) -/

/-- The class of a correction toward `target` (R90). -/
def correctionClass (a : Axis) (position target : Int) : MotionClass :=
  if isHead a then .headMove else if position < target then .raise else .lower

/-- A due correction may begin (R90). -/
def correctionAllowed (e : Env) (a : Axis) (position target : Int) (p : Plant) : Bool :=
  p.aut.latch.isNone && !switchBlocks (axisOf p a) target &&
    match correctionClass a position target with
    | .raise => raiseGiven p
    | .lower => true
    | .headMove => headMoveGiven p && headFree e p

/-- The hold drift check of an axis in IDLE (R90). -/
def driftCheck (e : Env) (a : Axis) (p : Plant) : Plant :=
  let r := axisOf p a
  match r.state, r.position, r.target with
  | .idle, some x, some t =>
    if 2 * (axisCfg e a).window < (x - t).natAbs then
      if correctionAllowed e a x t p then
        joinWaiting e a { r with requester := some r.lastOwner, cls := some (correctionClass a x t), correction := true, drift := false, recovery := false } p
      else putAxis e a { r with drift := true } p
    else putAxis e a { r with drift := false } p
  | _, _, _ => p

/-! ### The drive step (R82 to R84) -/

/-- The speed after one step toward `demand` by at most `step` (R82 step 3). -/
def rampToward (v demand : Int) (step : Nat) : Int := v + clampInt (-(step : Int)) step (demand - v)

/-- The speed code (R82 step 4). -/
def speedCode (e : Env) (a : Axis) (v : Int) : Nat := min 1023 (roundUp ((v.natAbs : Int) * 1023) ((axisCfg e a).fullScale : Int)).toNat

/-- The record with a new speed and the outputs that follow it (R82 steps 4 and 5, R78). -/
def withSpeed (e : Env) (a : Axis) (v : Int) (r : AxisRec) : AxisRec :=
  { r with v := v, code := speedCode e a v, dirDriven := decide (v < 0) }

/-- The demanded speed in MOVING, under vmax or the cap of a SWEEP move (R82 step 2, R144). -/
def demandedSpeed (e : Env) (a : Axis) (r : AxisRec) (error : Int) : Int :=
  let c := axisCfg e a
  let top : Int := (r.cap.getD c.vmax : Nat)
  clampInt (-top) top (roundAway (error * (c.gain : Int)) 16)

/-- The drive step in MOVING (R82).
DESIGN CHOICE (the stall reference dropped with the timer), notes/assumptions/71.md. -/
def moveStep (e : Env) (a : Axis) (p : Plant) : Plant :=
  let r := axisOf p a
  let c := axisCfg e a
  let error := r.target.getD 0 - r.position.getD 0
  let v := rampToward r.v (demandedSpeed e a r error) c.speedStep
  let r1 := withSpeed e a v r
  if error.natAbs ≤ c.window ∧ v.natAbs ≤ c.speedStep then
    putAxis e a { r1 with state := .settling, settleTimer := 0, settlePeriods := 0, stallTimer := 0, stallRef := none } p
  else putAxis e a r1 p

/-- The drive step in SETTLING with the settle timer and the count of periods (R83). -/
def settleStep (e : Env) (a : Axis) (p : Plant) : Plant :=
  let r := axisOf p a
  let c := axisCfg e a
  let error := r.target.getD 0 - r.position.getD 0
  let r1 := withSpeed e a (rampToward r.v 0 c.speedStep) r
  if c.window < error.natAbs then
    putAxis e a { r1 with state := .moving, settleTimer := 0, settlePeriods := 0, stallTimer := 0, stallRef := r.position } p
  else putAxis e a { r1 with settleTimer := r.settleTimer + 1, settlePeriods := r.settlePeriods + 1 } p

/-- The speed after one step of the stop ramp (R84). -/
def stopRamp (v : Int) (step : Nat) : Int :=
  if (step : Int) < v then v - step else if v < -(step : Int) then v + step else 0

/-- The step in STOPPING; at speed 0 the axis comes to rest (R84). -/
def stopStep (e : Env) (a : Axis) (p : Plant) : Plant :=
  let r := axisOf p a
  let v := stopRamp r.v (axisCfg e a).stopStep
  let p1 := putAxis e a (withSpeed e a v r) p
  if v = 0 then comeToRest e a p1 else p1

/-- The drive step by state (R82). -/
def driveStep (e : Env) (a : Axis) (p : Plant) : Plant :=
  match (axisOf p a).state with
  | .moving => moveStep e a p
  | .settling => settleStep e a p
  | .stopping => stopStep e a p
  | .idle | .waiting | .fault => p

/-- The stall count of a MOVING axis; reaching the stall time makes the stall timeout due (R88).
DESIGN CHOICE, notes/assumptions/25.md. -/
def stallCount (e : Env) (a : Axis) (p : Plant) : Plant :=
  let r := axisOf p a
  let c := axisCfg e a
  match r.state, r.position with
  | .moving, some x =>
    let near := match r.stallRef with
      | some y => decide ((x - y).natAbs < c.stallDelta)
      | none => false
    if c.stallSpeed ≤ r.v.natAbs ∧ near = true then
      setAxisRaw a { r with stallTimer := r.stallTimer + 1, stallDue := decide (c.stallTime ≤ r.stallTimer + 1) } p
    else setAxisRaw a { r with stallTimer := 0, stallRef := some x, stallDue := false } p
  | _, _ => p

/-! ### Completion (R83) -/

/-- The move of a settled axis ended: IDLE, the grant returned, the target kept as the hold target; an axis that is held goes on
to FAULT at once (R83, R98). -/
def endSettled (e : Env) (a : Axis) (p : Plant) : Plant :=
  let p1 := leaveGrants a (putAxis e a { clearMove (atRest (axisOf p a)) with state := .idle } p)
  if isHeld p1 a then putAxis e a { axisOf p1 a with state := .fault } p1 else p1

/-- The move of a settled axis completes; the grant it returns is handed out (R83, R94). -/
def completeMove (e : Env) (a : Axis) (p : Plant) : Plant := afterLeaving e p (endSettled e a p)

/-- The settle timer has reached the settle time at a period with v at 0, the second period in SETTLING or a later one (R83). A timer
that R80 starts again is judged at the next period.
DEDUCED (periods), notes/assumptions/26.md. -/
def settleExpired (e : Env) (a : Axis) (r : AxisRec) : Bool :=
  decide (r.state = .settling) && decide (max 1 (axisCfg e a).settleTime ≤ r.settleTimer) && decide (2 ≤ r.settlePeriods) && decide (r.v = 0)

end Sys2Proof.Machine
end

