-- ==== Sys2Proof/Machine/Ring.lean ====
section
/-! DEFINITION. SMP: the scan pointer and the converter's next purpose (R61, R62, R67), the dwell ring (R65), dwells
(R66 to R69), the pilot mean (R70), and one step of a watch (R72, R73). -/

namespace Sys2Proof.Machine

/-- The channels of the scan round in ascending order (R62). -/
def scanRound (e : Env) : List Nat := (List.range 8).filter fun i => (cfgOf e).enabled.getLsbD i

/-- The enabled channel after `c` in the scan round, wrapping to the lowest (R62). -/
def nextChannel (e : Env) (c : Nat) : Nat :=
  match (scanRound e).find? fun i => decide (c < i) with
  | some i => i
  | none => (scanRound e).headD 0

/-- The next conversion begun: after a scan conversion a dwell conversion while a dwell is active, otherwise a scan
conversion, which moves the pointer (R62, R67). -/
def beginConversion (e : Env) (afterScan : Bool) (s : Sampler) : Sampler :=
  match afterScan, s.dwell with
  | true, some d => { s with converter := some { channel := (cfgOf e).pilot, purpose := .dwell d.identity } }
  | _, _ =>
    if scanRound e = [] then { s with converter := none }
    else { s with converter := some { channel := s.scanPointer, purpose := .scan }, scanPointer := nextChannel e s.scanPointer }

/-! ### The ring (R65): positions 1..8 -/

def emptyRing : List (Option Int) := List.replicate 8 none

/-- A level written at the next position, the next position advanced, the count raised up to 8 (R65, R68). -/
def ringWrite (level : Int) (s : Sampler) : Sampler :=
  { s with
    ring := s.ring.set (s.next - 1) (some level), next := if s.next = 8 then 1 else s.next + 1, count := if s.count < 8 then s.count + 1 else s.count }

/-- The `n` levels written most recently, newest first (R65). -/
def lastLevels (s : Sampler) (n : Nat) : List Int :=
  (List.range n).map fun i => ((s.ring.getD ((s.next + 14 - i) % 8) none).getD 0)

def sumLevels (l : List Int) : Int := l.foldl (· + ·) 0

/-- A pilot mean of `n` (R70): no mean while a dwell is active or the count is short. -/
def pilotMean (s : Sampler) (n : Nat) : Option Int :=
  if s.dwell = none ∧ n ≤ s.count then some (meanOf (sumLevels (lastLevels s n)) n) else none

/-- Every position emptied, the next position 1, the count 0 (R67, R69). -/
def ringClear (s : Sampler) : Sampler := { s with ring := emptyRing, next := 1, count := 0 }

/-- The dwell free event handed to every noted requester, the notes cleared (R66).
DESIGN CHOICE, notes/assumptions/28.md. -/
def dwellFreed (s : Sampler) : Sampler := { s with freed := addNew s.freed s.noted, noted := [] }

/-- A dwell request (R66, R67).
DESIGN CHOICE, notes/assumptions/40.md. -/
def requestDwell (e : Env) (q : Requester) (p : Plant) : Plant :=
  let s := p.smp
  let start : Sampler := { ringClear s with dwell := some { identity := s.nextIdentity, requester := q, samples := (cfgOf e).peakN }, nextIdentity := s.nextIdentity + 1 }
  if linked e then p
  else
    match s.dwell with
    | none => { p with smp := start }
    | some d => if d.requester = q then { p with smp := start } else { p with smp := { s with noted := insertNew s.noted q } }

/-- A cancellation (R69): of the active dwell by its requester, or of a noted requester's wait. -/
def cancelDwell (q : Requester) (p : Plant) : Plant :=
  let s := { p.smp with noted := removeAll p.smp.noted q }
  match s.dwell with
  | some d => if d.requester = q then { p with smp := dwellFreed (ringClear { s with dwell := none }) } else { p with smp := s }
  | none => { p with smp := s }

/-- The requester's own dwell is active. -/
def dwellIs (q : Requester) (p : Plant) : Bool :=
  match p.smp.dwell with
  | some d => decide (d.requester = q)
  | none => false

def setHanding (on : Bool) (p : Plant) : Plant := { p with smp := { p.smp with sweepHanding := on } }

/-- The latest result of a channel replaced (R63). -/
def storeResult (c : Nat) (result : Count) (s : Sampler) : Sampler := { s with latest := s.latest.set c (some result) }

/-! ### Level reports counted by a measurement (R128, R141) -/

/-- The sequence the LEVEL entry holds, none when it has no value. -/
def heldSequence (p : Plant) : Option Nat := p.pvw.level.value.map fun v => v.sequence

/-- A measurement opened now (R141). -/
def openMeasurement (e : Env) (p : Plant) : Measurement :=
  { count := 0, sum := 0, lastSequence := heldSequence p, openedAt := stampOf e.clock }

/-- A level report as handed on (R44). -/
structure LevelReport where
  level : Int
  sequence : Nat
  stamp : Stamp
  deriving DecidableEq, Repr

/-- A level report judged: one whose sequence is new and whose stamp is in time counts until N have counted, and every
report makes its sequence the last one seen (R128, R141).
DESIGN CHOICE (the first N reports form the mean), notes/assumptions/64.md. -/
def countReport (e : Env) (r : LevelReport) (inTime : Bool) (m : Measurement) : Measurement :=
  let counts := decide (m.lastSequence ≠ some r.sequence) && inTime && decide (m.count < (cfgOf e).peakN)
  if counts then { m with count := m.count + 1, sum := m.sum + r.level, lastSequence := some r.sequence } else { m with lastSequence := some r.sequence }

/-- A level report judged by PAT and PKE: its stamp is within when (stamp − t_c) mod 65536 is at most settle + lag (R141). -/
def judgeReport (e : Env) (r : LevelReport) (m : Measurement) : Measurement :=
  countReport e r (decide ((cfgOf e).settle + (cfgOf e).lag < stampAge r.stamp m.openedAt)) m

/-- A level report judged by PNT at the preset: its arrival is later than the slew's completion by more than settle + lag (R128). The
completion is held whole; the arrival lies the age of its stamp before the clock.
DEDUCED, notes/assumptions/31.md. -/
def judgePreset (e : Env) (completed : Clock) (r : LevelReport) (m : Measurement) : Measurement :=
  countReport e r (decide ((cfgOf e).settle + (cfgOf e).lag + stampAge (stampOf e.clock) r.stamp < elapsed e.clock completed)) m

/-- The mean once N reports have counted. -/
def measuredLevel (e : Env) (m : Measurement) : Option Int :=
  if (cfgOf e).peakN ≤ m.count then some (meanOf m.sum (cfgOf e).peakN) else none

/-! ### Watches (R71 to R73) -/

inductive EdgeSelection where
  | rising | falling | both
  deriving DecidableEq, Repr

/-- The stored edge code; a code beyond the last reads as BOTH (Table 11-5, R22). -/
def edgeSelection (c : WatchCfg) : EdgeSelection :=
  if c.edgeCode = 0 then .rising else if c.edgeCode = 1 then .falling else .both

/-- The stored fault kind code; a code beyond the last reads as PILOT (Table 11-5, R22). -/
def watchKind (c : WatchCfg) : FaultKind :=
  if c.kindCode = 0 then .pressure
  else if c.kindCode = 1 then .current
  else if c.kindCode = 2 then .supply
  else if c.kindCode = 3 then .baseTilt
  else .pilot

/-- The record axis a halt action names (R75). -/
def watchScope (c : WatchCfg) : Option FaultAxis :=
  match c.action with
  | .haltAxis => some (.one c.axis)
  | .haltAll => some .all
  | .none | .report => none

def resultSide (c : WatchCfg) (result : Count) : Side := if c.threshold ≤ result.toNat then .above else .below

/-- One step of a watch; the answer is the side entered by an edge, if one occurred (R72). -/
def stepWatch (c : WatchCfg) (result : Count) (w : WatchState) : WatchState × Option Side :=
  let s := resultSide c result
  if w.side = some s then ({ w with run := 0, runSide := none }, none)
  else
    let run := if w.runSide = some s then w.run + 1 else 1
    if c.depth ≤ run then
      ({ w with side := some s, run := 0, runSide := none }, match w.side with
        | none => none
        | some _ => some s)
    else ({ w with run := run, runSide := some s }, none)

/-- The edge matches the watch's selection (R73). -/
def edgeSelected (c : WatchCfg) (entered : Side) : Bool :=
  match edgeSelection c, entered with
  | .rising, .above | .falling, .below | .both, _ => true
  | .rising, .below | .falling, .above => false

/-- A watch that could raise kind `k` on `f` stands on its fault side (R76). -/
def watchPersists (k : FaultKind) (f : FaultAxis) (c : WatchCfg) (w : WatchState) : Bool :=
  decide (watchScope c = some f) && decide (watchKind c = k) && w.faultSide.isSome && decide (w.side = w.faultSide)

end Sys2Proof.Machine
end

