-- ==== Sys2Proof/Machine/Pointing.lean ====
section
/-! DEFINITION. PNT: the pointing state and its reports, the slew, what each activity needs, the track monitor's start
and end, and the end of a peaking run (R120, R121, R127, R129, R130, R134, R160). -/

namespace Sys2Proof.Machine

/-- The pointing state set, with a POINTING_REPORT at a change of state or of hold cause and a status at a change of state
(R134, R120). A change of phase alone posts nothing. -/
def setPointing (e : Env) (st : PointState) (p : Plant) : Plant :=
  let before := p.pnt.state
  let q := { p with pnt := { p.pnt with state := st } }
  let r := if pointStateCode before = pointStateCode st ∧ pointHoldCode before = pointHoldCode st then q else postPointing e q
  postStatusIf (decide (pointStateCode before ≠ pointStateCode st)) e r

def withRecord (f : PointingRecord → PointingRecord) (p : Plant) : Plant := { p with pnt := { p.pnt with record := p.pnt.record.map f } }

/-- The target of a head axis at the pointing position: preset + offset, clamped to the soft limits (R121). -/
def pointingTarget (e : Env) (p : Plant) (a : Axis) : Int :=
  match p.pnt.record with
  | none => clampSoft e a 0
  | some r =>
    match a with
    | .pan => clampSoft e .pan (r.pan + r.panOffset)
    | .tilt => clampSoft e .tilt (r.tilt + r.tiltOffset)
    | .pol | .mast => clampSoft e .pol r.pol

/-- Pan and tilt of the pointing position. -/
def pointingPoint (e : Env) (p : Plant) : HeadPoint := { pan := pointingTarget e p .pan, tilt := pointingTarget e p .tilt }

def flagPeakSet (p : Plant) : Bool :=
  match p.pnt.record with
  | some r => r.flagPeak
  | none => false

def flagTrackSet (p : Plant) : Bool :=
  match p.pnt.record with
  | some r => r.flagTrack
  | none => false

/-- Every need of an activity is given (R130). -/
def needsMet (e : Env) (p : Plant) (x : Activity) : Bool :=
  let wind := given p .windMoveOk
  let level := !linked e || given p .levelOk
  match x with
  | .slewing _ => wind && (!flagPeakSet p || level)
  | .acquiring _ => wind && level
  | .peaking => wind && level
  | .tracking => level

/-- The hold cause, at the entry to HELD and at each permissive change in it: WIND while WIND_MOVE_OK is not given, LEVEL
otherwise (R130). A TRACKING is no exception.
DEDUCED (the LEVEL of R44, R159 and R164 is that of R130), notes/assumptions/50.md. -/
def holdCauseNow (p : Plant) : PointHold := if given p .windMoveOk then .level else .wind

/-! ### The track monitor -/

/-- The monitor ended: OFF, both timers and the sample period stopped (R158, R160).
DESIGN CHOICE (no sequence seen, and the sample period stopped at every end), notes/assumptions/8.md. -/
def monitorOff (p : Plant) : Plant := { p with monitor := .cold }

/-- A track start (R160). -/
def trackStart (e : Env) (p : Plant) : Plant :=
  { p with
    monitor := { state := .watching, fadeStart := none, lossStart := none, periodStart := if linked e then none else some e.clock,
                 lastSequence := if linked e then heldSequence p else none } }

/-- TRACKING entered: with its need missing, HELD remembering it and the monitor OFF (R130, R159, R160).
DESIGN CHOICE (HELD directly), notes/assumptions/58.md. -/
def enterTracking (e : Env) (p : Plant) : Plant :=
  if needsMet e p .tracking then trackStart e (setPointing e (.active .tracking) p)
  else monitorOff (setPointing e (.held .tracking (holdCauseNow p)) p)

/-! ### The slew (R127) -/

/-- The slew cannot finish: PNT's other moves cancelled, the state IDLE (R127). -/
def slewFails (e : Env) (p : Plant) : Plant :=
  let q := cancelMoves e .pnt headAxes p
  setPointing e .idle { q with pnt := { q.pnt with slewList := [] } }

/-- The answers after which a slew, a return or a parking cannot finish; the last two names differ per rule. -/
def refusedForGood : Answer → Bool
  | .latched | .fault | .cradle | .range => true
  | .accepted _ _ | .stopping | .busy => false

def slewMove (e : Env) (p : Plant) (a : Axis) : MoveRequest :=
  { axis := a, requester := .pnt, cls := .headMove, target := pointingTarget e p a, cap := none, recovery := false }

/-- PNT's requests on a list of axes, in order; the first refusal for good ends the slew (R127). -/
def slewRequests (e : Env) : List Axis → Plant → Plant
  | [], p => p
  | a :: rest, p =>
    let (q, answer) := moveRequest e (slewMove e p a) p
    if refusedForGood answer then slewFails e q else slewRequests e rest q

/-- The requests of a slew or a return on all three head axes. -/
def startSlew (e : Env) (p : Plant) : Plant := slewRequests e headAxes { p with pnt := { p.pnt with slewList := headAxes } }

/-- SLEWING entered: phase MOVE with its requests; with a need missing, HELD, PNT's moves cancelled (R126, R127, R130).
DESIGN CHOICE (HELD directly, one post at most), notes/assumptions/58.md; DESIGN CHOICE (the slew list in that HELD), notes/assumptions/69.md. -/
def enterSlewing (e : Env) (p : Plant) : Plant :=
  if needsMet e p (.slewing .move) then startSlew e (setPointing e (.active (.slewing .move)) p)
  else setPointing e (.held (.slewing .move) (holdCauseNow p)) (cancelMoves e .pnt headAxes p)

/-- ACQUIRING phase RETURN: the head sent back to the pointing position (R129). -/
def enterReturn (e : Env) (p : Plant) : Plant := startSlew e (setPointing e (.active (.acquiring .back)) p)

/-- A PNT slew move completed: the axis leaves the slew list; an empty list ends the slew (R127, R128) or the return
(R129). -/
def slewCompleted (e : Env) (a : Axis) (p : Plant) : Plant :=
  let q := { p with pnt := { p.pnt with slewList := removeAll p.pnt.slewList a } }
  match p.pnt.state with
  | .active (.slewing .move) =>
    if q.pnt.slewList = [] then
      if flagPeakSet q then
        setPointing e (.active (.slewing .settle))
          { q with pnt := { q.pnt with completedAt := e.clock, measurement := openMeasurement e q } }
      else monitorOff (setPointing e .pointed q)
    else q
  | .active (.acquiring .back) => if q.pnt.slewList = [] then setPointing e .lost (withRecord (fun r => { r with peak := none }) q) else q
  | _ => p

/-- PNT at an axis free event: it requests again an axis still on its slew list (R127). -/
def slewAxisFree (e : Env) (a : Axis) (p : Plant) : Plant :=
  match p.pnt.state with
  | .active (.slewing .move) | .active (.acquiring .back) =>
    if a ∈ p.pnt.slewList ∧ carriesMove (axisOf p a) .pnt = false then slewRequests e [a] p else p
  | _ => p

/-! ### The end of a peaking run (R129, R159) -/

/-- The offsets, the peak and the quality written from a run end. -/
def writeRunEnd (quality : Quality) (centre : HeadPoint) (level : Int) (p : Plant) : Plant :=
  withRecord (fun r => { r with panOffset := centre.pan - r.pan, tiltOffset := centre.tilt - r.tilt, peak := some level, quality := some quality }) p

/-- PNT takes a run end in PEAKING, or in HELD remembering PEAKING; anywhere else it changes nothing. -/
def takeRunEnd (e : Env) (quality : Quality) (centre : HeadPoint) (level : Int) (p : Plant) : Plant :=
  let done (q : Plant) : Plant :=
    let r := writeRunEnd quality centre level q
    if flagTrackSet r then enterTracking e r else monitorOff (setPointing e .pointed r)
  match p.pnt.state with
  | .active .peaking => done p
  | .held .peaking _ => done p
  | _ => p

end Sys2Proof.Machine
end

