-- ==== Sys2Proof/Machine/Peaking.lean ====
section
/-! DEFINITION. PKE: the cross round, the estimator, the end of a round, suspension and discard (R149 to R159), and the
track monitor's samples and timers (R160 to R164). Also the two entries PNT makes into PEAKING and LOST, and its taking
of the end of a search (R129, R148). -/

namespace Sys2Proof.Machine

/-! ### Point moves, as PAT and PKE make them (R139, R151) -/

/-- The outcome of the PAN and TILT requests of a point: which axes stay on the move list, whether one was refused with
RANGE, whether one was refused with LATCHED, FAULT or CRADLE. -/
structure PointMoves where
  moveList : List Axis
  blocked : Bool
  barred : Bool
  deriving DecidableEq, Repr

def pointMove (q : Requester) (a : Axis) (target : Int) (cap : Option Nat) : MoveRequest :=
  { axis := a, requester := q, cls := .headMove, target := target, cap := cap, recovery := false }

/-- One axis of a point requested (R139): accepted, STOPPING and BUSY leave it on the move list, RANGE takes it off and
blocks the point, and LATCHED, FAULT or CRADLE bars every further request.
DEDUCED, notes/assumptions/30.md. -/
def requestPointAxis (e : Env) (q : Requester) (a : Axis) (target : Int) (x : Plant × PointMoves) : Plant × PointMoves :=
  if x.2.barred then x
  else
    let (p, answer) := moveRequest e (pointMove q a target none) x.1
    match answer with
    | .accepted _ _ | .stopping | .busy => (p, x.2)
    | .range => (p, { x.2 with moveList := removeAll x.2.moveList a, blocked := true })
    | .latched | .fault | .cradle => (p, { x.2 with barred := true })

/-- PAN and then TILT requested to a point (R139, R151); after LATCHED, FAULT or CRADLE on PAN, TILT is not requested. -/
def requestPoint (e : Env) (q : Requester) (target : HeadPoint) (p : Plant) : Plant × PointMoves :=
  requestPointAxis e q .tilt target.tilt
    (requestPointAxis e q .pan target.pan (p, { moveList := [.pan, .tilt], blocked := false, barred := false }))

/-- The current targets of a point, whatever AXD answered: each target clamped to the soft limits, as an acceptance answers it
(R138, R151).
DEDUCED, notes/assumptions/30.md. -/
def clampPoint (e : Env) (x : HeadPoint) : HeadPoint := { pan := clampSoft e .pan x.pan, tilt := clampSoft e .tilt x.tilt }

/-- PAN and TILT, the axes PAT and PKE move. -/
def pointAxes : List Axis := [.pan, .tilt]

/-! ### The estimator (R153) -/

/-- The correction on one axis from the side levels and the centre level, clamped to ±δ. -/
def estimate (delta : Nat) (plus minus centre : Int) : Int :=
  let d : Int := delta
  let k := plus + minus - 2 * centre
  if k < 0 then clampInt (-d) d (roundAway (d * (minus - plus)) (2 * k))
  else if minus < plus then d
  else if plus < minus then -d
  else 0

/-- The step after a round that did not converge: halved when both corrections are under half of it (R154 step 6). -/
def nextStep (e : Env) (delta : Nat) (pan tilt : Int) : Nat :=
  if 2 * pan.natAbs < delta ∧ 2 * tilt.natAbs < delta then max (cfgOf e).deltaMin (delta / 2) else delta

/-- The best centre after a round: the round's centre when it is the first or its centre level is above the best
(R154 step 2). -/
def betterCentre (best : Option FoundPoint) (centre : HeadPoint) (level : Int) : FoundPoint :=
  match best with
  | none => { point := centre, level := level }
  | some b => if b.level < level then { point := centre, level := level } else b

/-- The round has converged (R154 step 4). -/
def converged (e : Env) (delta : Nat) (pan tilt : Int) : Bool :=
  decide (delta = (cfgOf e).deltaMin) && decide (pan.natAbs ≤ (cfgOf e).tolerance) && decide (tilt.natAbs ≤ (cfgOf e).tolerance)

/-! ### The run -/

def updateRun (f : Run → Run) (p : Plant) : Plant := { p with run := f p.run }

def runStage (st : RunStage) (p : Plant) : Plant := updateRun (fun r => { r with status := .running st }) p

/-- A measurement opened at the last Completed of a point (R141, R152). -/
def openRunMeasurement (e : Env) (p : Plant) : Plant := updateRun (fun r => { r with measurement := openMeasurement e p }) p

/-- The target of a cross point (R151). -/
def crossTarget (r : Run) : HeadPoint :=
  let d : Int := (r.delta.getD 0 : Nat)
  match r.index with
  | 2 => { r.centre with pan := r.centre.pan + d }
  | 3 => { r.centre with pan := r.centre.pan - d }
  | 4 => { r.centre with tilt := r.centre.tilt + d }
  | 5 => { r.centre with tilt := r.centre.tilt - d }
  | _ => r.centre

/-- Where the run moves in its stage: a cross point, the closing centre, or the best centre (R151, R155, R156). -/
def runTarget (st : RunStage) (r : Run) : HeadPoint :=
  match st with
  | .toPoint | .settle _ | .measure => crossTarget r
  | .toClose | .closeSettle _ | .closeMeasure => r.closing.getD r.centre
  | .toBest => match r.best with
    | some b => b.point
    | none => r.centre

/-- The moves of the current stage requested, its effective targets kept (R151).
DEDUCED (the target of an axis refused or not requested), notes/assumptions/30.md. -/
def runMoves (e : Env) (st : RunStage) (p : Plant) : Plant :=
  let target := runTarget st p.run
  let (q, m) := requestPoint e .pke target p
  updateRun (fun r => { r with targets := clampPoint e target, moveList := m.moveList, blocked := m.blocked, barred := m.barred }) q

def storeRoundLevel (level : Int) (r : Run) : Run :=
  match r.index with
  | 2 => { r with levels := { r.levels with panPlus := some level } }
  | 3 => { r with levels := { r.levels with panMinus := some level } }
  | 4 => { r with levels := { r.levels with tiltPlus := some level } }
  | 5 => { r with levels := { r.levels with tiltMinus := some level } }
  | _ => { r with levels := { r.levels with centre := some level } }

/-- The point kind of a measured cross point (R152). -/
def crossKind (index : Nat) : PointKind :=
  match index with
  | 2 => .crossPanPlus
  | 3 => .crossPanMinus
  | 4 => .crossTiltPlus
  | 5 => .crossTiltMinus
  | _ => .crossCentre

/-- What the run does next within one step. -/
inductive RunJob where
  /-- Move in the given stage (R151, R155, R156). -/
  | go (st : RunStage)
  /-- The move list of the given stage is empty. -/
  | arrived (st : RunStage)
  /-- The current point's level is known (R152). -/
  | level (level : Int)
  /-- The five levels are known (R154). -/
  | roundEnd
  deriving DecidableEq, Repr

/-- The round count written through PNT (R154 step 3). -/
def countRound (p : Plant) : Plant := withRecord (fun r => { r with roundCount := r.roundCount + 1 }) p

def roundCountOf (p : Plant) : Nat :=
  match p.pnt.record with
  | some r => r.roundCount
  | none => 0

/-- The run jobs, each taken from the one before it; `fuel` bounds a chain of blocked points, which a round limit of
`n` holds to n rounds (R151, R154). -/
def runJobs (e : Env) : Nat → RunJob → Plant → Plant
  | 0, _, p => p
  | fuel + 1, job, p =>
    match job with
    | .go st =>
      let q := runMoves e st (runStage st p)
      if q.run.moveList = [] then runJobs e fuel (.arrived st) q else q
    | .arrived st =>
      match st with
      | .toPoint =>
        if p.run.blocked then
          let q := postDwell e .crossBlocked p.run.targets.pan p.run.targets.tilt levelMin p
          runJobs e fuel (.level levelMin) q
        else openRunMeasurement e (runStage (.settle e.clock) p)
      | .toClose => openRunMeasurement e (runStage (.closeSettle e.clock) p)
      | .toBest =>
        let best := p.run.best.getD { point := p.run.centre, level := levelMin }
        takeRunEnd e .rough best.point best.level (updateRun (fun r => { r with status := .ended }) p)
      | .settle _ | .measure | .closeSettle _ | .closeMeasure => p
    | .level l =>
      let q := updateRun (storeRoundLevel l) p
      if q.run.index < 5 then runJobs e fuel (.go .toPoint) (updateRun (fun r => { r with index := r.index + 1 }) q)
      else runJobs e fuel .roundEnd q
    | .roundEnd =>
      let r := p.run
      let delta := r.delta.getD 0
      let l0 := r.levels.centre.getD levelMin
      let pan := estimate delta (r.levels.panPlus.getD levelMin) (r.levels.panMinus.getD levelMin) l0
      let tilt := estimate delta (r.levels.tiltPlus.getD levelMin) (r.levels.tiltMinus.getD levelMin) l0
      let centre := clampPoint e { pan := r.centre.pan + pan, tilt := r.centre.tilt + tilt }
      let q := countRound (updateRun (fun x => { x with best := some (betterCentre x.best x.centre l0) }) p)
      if converged e delta pan tilt then runJobs e fuel (.go .toClose) (updateRun (fun x => { x with closing := some centre }) q)
      else if roundCountOf q = (cfgOf e).roundLimit then runJobs e fuel (.go .toBest) q
      else
        runJobs e fuel (.go .toPoint)
          (updateRun (fun x => { x with delta := some (nextStep e delta pan tilt), centre := centre, levels := .blank, index := 1 }) q)

/-- Enough for a chain through every round of a run: 16 jobs a round and the closing moves.
DESIGN CHOICE, notes/assumptions/38.md. -/
def runFuel (e : Env) : Nat := 16 * ((cfgOf e).roundLimit + 1) + 8

/-- PKE discards its run and ends tracking (R158). -/
def discardRun (e : Env) (p : Plant) : Plant :=
  let q := cancelDwell .pke (cancelMoves e .pke pointAxes p)
  monitorOff { q with run := .cold }

/-- A run begun from a centre with a step (R150). -/
def startRun (e : Env) (centre : HeadPoint) (delta : Nat) (p : Plant) : Plant :=
  let q := discardRun e p
  let r := withRecord (fun x => { x with roundCount := 0 }) q
  runJobs e (runFuel e) (.go .toPoint) { r with run := { Run.cold with status := .running .toPoint, centre := centre, delta := some delta } }

/-- A suspend from PNT (R157). -/
def suspendRun (e : Env) (p : Plant) : Plant :=
  match p.run.status with
  | .running st =>
    let q := cancelDwell .pke (cancelMoves e .pke pointAxes p)
    updateRun (fun r => { r with status := .suspended st, moveList := [], measurement := .blank }) q
  | .resumeWait st _ => updateRun (fun r => { r with status := .suspended st }) p
  | .none | .ended | .suspended _ => p

/-- A resume from PNT: the resume delay begins (R157). -/
def resumeRun (e : Env) (p : Plant) : Plant :=
  match p.run.status with
  | .suspended st => updateRun (fun r => { r with status := .resumeWait st e.clock }) p
  | .none | .ended | .running _ | .resumeWait _ _ => p

/-- The stage a suspended run is taken up in (R157). -/
def takenUpStage : RunStage → RunStage
  | .toPoint | .settle _ | .measure => .toPoint
  | .toClose | .closeSettle _ | .closeMeasure => .toClose
  | .toBest => .toBest

/-- A PKE move completed (R151, R155, R156). -/
def runCompleted (e : Env) (a : Axis) (p : Plant) : Plant :=
  match p.run.status with
  | .running st =>
    let q := updateRun (fun r => { r with moveList := removeAll r.moveList a }) p
    match st with
    | .toPoint | .toClose | .toBest => if a ∈ p.run.moveList ∧ q.run.moveList = [] then runJobs e (runFuel e) (.arrived st) q else q
    | .settle _ | .measure | .closeSettle _ | .closeMeasure => p
  | .none | .ended | .suspended _ | .resumeWait _ _ => p

/-- One axis of a point requested again at an axis free event (R139, R151): the new move list and marks. -/
def retryAxis (e : Env) (q : Requester) (a : Axis) (target : HeadPoint) (m : PointMoves) (p : Plant) : Plant × PointMoves :=
  requestPointAxis e q a (match a with
    | .tilt => target.tilt
    | .mast | .pan | .pol => target.pan) (p, m)

/-- PKE at an axis free event. -/
def runAxisFree (e : Env) (a : Axis) (p : Plant) : Plant :=
  match p.run.status with
  | .running st =>
    if a ∈ p.run.moveList ∧ carriesMove (axisOf p a) .pke = false then
      let (q, m) := retryAxis e .pke a p.run.targets { moveList := p.run.moveList, blocked := p.run.blocked, barred := p.run.barred } p
      let r := updateRun (fun x => { x with moveList := m.moveList, blocked := m.blocked, barred := m.barred }) q
      if m.moveList = [] then runJobs e (runFuel e) (.arrived st) r else r
    else p
  | .none | .ended | .suspended _ | .resumeWait _ _ => p

/-- The closing level is known: posted as CLOSING, and the run ends FINE, its closing centre absent again (R155, R149). -/
def closingLevel (e : Env) (l : Int) (p : Plant) : Plant :=
  let q := updateRun (fun r => { r with status := .ended, closing := none }) (postDwellHere e .closing l p)
  takeRunEnd e .fine (p.run.closing.getD p.run.centre) l q

/-- A cross point's level is known (R152). -/
def crossLevel (e : Env) (l : Int) (p : Plant) : Plant := runJobs e (runFuel e) (.level l) (postDwellHere e (crossKind p.run.index) l p)

/-- A dwell mean handed to PKE (R152, R155). -/
def runMean (e : Env) (l : Int) (p : Plant) : Plant :=
  match p.run.status with
  | .running .measure => crossLevel e l p
  | .running .closeMeasure => closingLevel e l p
  | _ => p

/-- The level of a LINKED measurement taken when N reports have counted and the settle time has passed (R141, R152). -/
def runMeasured (e : Env) (p : Plant) : Plant :=
  match measuredLevel e p.run.measurement with
  | some l => runMean e l p
  | none => p

/-- A level report handed to the run (R152, R141). -/
def runReport (e : Env) (r : LevelReport) (p : Plant) : Plant :=
  match p.run.status with
  | .running (.settle _) | .running .measure | .running (.closeSettle _) | .running .closeMeasure =>
    runMeasured e (updateRun (fun x => { x with measurement := judgeReport e r x.measurement }) p)
  | _ => p

/-- The run has a measurement open to level reports. -/
def runListens (p : Plant) : Bool :=
  match p.run.status with
  | .running (.settle _) | .running .measure | .running (.closeSettle _) | .running .closeMeasure => true
  | _ => false

/-- A measurement begun at a settle expiry: a dwell in LOCAL source, the reports counted so far in LINKED (R152). -/
def runMeasure (e : Env) (st : RunStage) (p : Plant) : Plant :=
  let q := runStage st p
  if linked e then runMeasured e q else requestDwell e .pke q

/-! ### Tracking (R160 to R163) -/

/-- The fade line: the peak less the fade drop (R162). -/
def fadeLine (e : Env) (peak : Int) : Int := peak - ((cfgOf e).fadeDrop : Int)

/-- The peak level of the record; −1500 when absent. -/
def peakOf (p : Plant) : Int :=
  match p.pnt.record with
  | some r => r.peak.getD levelMin
  | none => levelMin

/-- A timer at a sample: started below its line, kept running there, stopped at or above it (R162).
DESIGN CHOICE (a LINKED sample's time is its taking), notes/assumptions/59.md. -/
def stepTimer (now : Clock) (below : Bool) (t : Option Clock) : Option Clock :=
  if below then some (t.getD now) else none

/-- A tracking sample judged: the peak ratchet and the timers while WATCHING (R161, R162), a recovery in RECOVERY (R163).
DESIGN CHOICE (a LINKED sample's time is the clock at its taking), notes/assumptions/59.md. -/
def trackSample (e : Env) (sample : Int) (p : Plant) : Plant :=
  match p.monitor.state with
  | .off => p
  | .watching =>
    let q :=
      if peakOf p + 10 < sample then postDwellHere e .trackPeak sample (withRecord (fun r => { r with peak := some sample }) p) else p
    { q with
      monitor := { q.monitor with
        fadeStart := stepTimer e.clock (decide (sample < fadeLine e (peakOf q))) q.monitor.fadeStart,
        lossStart := stepTimer e.clock (decide (sample < (cfgOf e).floor)) q.monitor.lossStart } }
  | .recovery =>
    if fadeLine e (peakOf p) ≤ sample ∧ p.pnt.state = .lost then enterTracking e p else p

/-- A level report handed to tracking: a sample when its sequence is new (R160). -/
def trackReport (e : Env) (r : LevelReport) (p : Plant) : Plant :=
  let q := { p with monitor := { p.monitor with lastSequence := some r.sequence } }
  if p.monitor.lastSequence = some r.sequence then q else trackSample e r.level q

/-! ### PNT's entries into PEAKING and its taking of a search's end (R128, R129, R148) -/

/-- PEAKING entered with a run from a centre; with a need missing, HELD, and the run suspended right after its start
(R130, R150).
DESIGN CHOICE (HELD directly), notes/assumptions/58.md. -/
def enterPeaking (e : Env) (centre : HeadPoint) (delta : Nat) (p : Plant) : Plant :=
  if needsMet e p .peaking then startRun e centre delta (setPointing e (.active .peaking) p)
  else suspendRun e (startRun e centre delta (setPointing e (.held .peaking (holdCauseNow p)) p))

/-- PNT takes the halt FOUND of a search; in HELD remembering the search only the remembered state changes (R129, R148). -/
def takeFound (e : Env) (found : HeadPoint) (p : Plant) : Plant :=
  match p.pnt.state with
  | .active (.acquiring .search) => enterPeaking e found (cfgOf e).delta0 p
  | .held (.acquiring .search) c =>
    { p with pnt := { p.pnt with state := .held .peaking c, foundWhileHeld := some found } }
  | _ => p

/-- PNT takes the halt EXHAUSTED of a search (R129, R148). -/
def takeExhausted (e : Env) (p : Plant) : Plant :=
  match p.pnt.state with
  | .active (.acquiring .search) => enterReturn e p
  | .held (.acquiring .search) c => { p with pnt := { p.pnt with state := .held (.acquiring .back) c } }
  | _ => p

/-- PNT takes a row end of the pattern (R143, R134). -/
def takeRowEnd (e : Env) (row pass : Nat) (p : Plant) : Plant :=
  postPointing e (withRecord (fun r => { r with rowEnd := row, passEnd := pass }) p)

end Sys2Proof.Machine
end

