-- ==== Sys2Proof/Machine/Search.lean ====
section
/-! DEFINITION. PAT: the raster, STEP and SWEEP modes, rows and passes, halts, suspension (R135 to R148). -/

namespace Sys2Proof.Machine

/-! ### The points (R137) -/

/-- The tilt offset of row k, counted from 1 (R137). -/
def rowOffset (sigma k : Nat) : Int :=
  if k % 2 = 0 then ((sigma * (k / 2) : Nat) : Int) else -((sigma * ((k - 1) / 2) : Nat) : Int)

/-- The pan offset of point j of row k with P points a row (R137). -/
def pointOffset (sigma points k j : Nat) : Int :=
  let half : Int := (sigma * ((points - 1) / 2) : Nat)
  let along : Int := (sigma * (j - 1) : Nat)
  if k % 2 = 1 then along - half else half - along

/-- The target of point j of the current row (R137). -/
def patternTarget (x : Pattern) (j : Nat) : HeadPoint :=
  { pan := x.origin.pan + pointOffset x.sigma x.points x.row j, tilt := x.origin.tilt + rowOffset x.sigma x.row }

/-- The speed cap of a SWEEP move (R144). -/
def sweepCap (e : Env) : Nat := max 1 ((cfgOf e).pan.vmax / 4)

def updatePattern (f : Pattern → Pattern) (p : Plant) : Plant := { p with pat := p.pat.map f }

def patternStage (st : PatternStage) (p : Plant) : Plant := updatePattern (fun x => { x with status := .running st }) p

def setMoves (m : PointMoves) (x : Pattern) : Pattern := { x with moveList := m.moveList, blocked := m.blocked, barred := m.barred }

/-- The stage in which a pattern moves to its current point or row start (R139, R144). -/
def moveStage (x : Pattern) : PatternStage :=
  match x.mode with
  | .step => .toPoint
  | .sweep => .toRowStart

/-- What the pattern does next within one step. -/
inductive PatternJob where
  /-- Move to the current point, or in SWEEP to the current row's start (R139, R144). -/
  | go
  /-- The move list is empty. -/
  | arrived
  /-- Advance from the current point (R143). -/
  | advance
  /-- The current row is ended (R143). -/
  | rowEnd
  deriving DecidableEq, Repr

/-- The row's sweep requested (R144): the handing starts at its acceptance; a RANGE answer is told to the caller. The record's PAN
target becomes that of the sweep, as AXD clamps it.
DESIGN CHOICE (the PAN target in stage SWEEP), notes/assumptions/67.md. -/
def requestSweep (e : Env) (x : Pattern) (p : Plant) : Plant × Bool :=
  let target := patternTarget x x.points
  let (q, answer) := moveRequest e (pointMove .pat .pan target.pan (some (sweepCap e))) p
  let targets : HeadPoint := { x.targets with pan := clampSoft e .pan target.pan }
  match answer with
  | .accepted _ _ =>
    (setHanding true (updatePattern (fun y => { y with status := .running .sweep, targets := targets, moveList := [.pan], blocked := false }) q), false)
  | .stopping | .busy =>
    (updatePattern (fun y => { y with status := .running .sweep, targets := targets, moveList := [.pan], blocked := false }) q, false)
  | .range => (updatePattern (fun y => { y with status := .running .sweep, targets := targets, moveList := [], blocked := true }) q, true)
  | .latched | .fault | .cradle =>
    (updatePattern (fun y => { y with status := .running .sweep, targets := targets, moveList := [.pan], blocked := false, barred := true }) q, false)

/-- The pattern jobs, each taken from the one before it; `fuel` bounds a chain of blocked points (R139, R143, R144).
DEDUCED (the current target of an axis refused or not requested), notes/assumptions/30.md; DESIGN CHOICE (the measurement kept until the
next opening), notes/assumptions/70.md. -/
def patternJobs (e : Env) : Nat → PatternJob → Plant → Plant
  | 0, _, p => p
  | fuel + 1, job, p =>
    match p.pat with
    | none => p
    | some x =>
      match job with
      | .go =>
        let target := patternTarget x x.point
        let (q, m) := requestPoint e .pat target (patternStage (moveStage x) p)
        let r := updatePattern (fun y => { setMoves m y with targets := clampPoint e target }) q
        if m.moveList = [] then patternJobs e fuel .arrived r else r
      | .arrived =>
        let blockedReport := postDwell e .searchBlocked x.targets.pan x.targets.tilt levelMin p
        match x.status with
        | .running .toPoint =>
          if x.blocked then patternJobs e fuel .advance blockedReport
          else
            updatePattern (fun y => { y with status := .running (.settle e.clock), measurement := openMeasurement e p }) p
        | .running .toRowStart =>
          if x.blocked then patternJobs e fuel .rowEnd blockedReport
          else
            let (q, ended) := requestSweep e x p
            if ended then patternJobs e fuel .rowEnd q else q
        | .running .sweep => patternJobs e fuel .rowEnd (setHanding false p)
        | _ => p
      | .advance =>
        if x.point < x.points then patternJobs e fuel .go (updatePattern (fun y => { y with point := y.point + 1 }) p)
        else patternJobs e fuel .rowEnd p
      | .rowEnd =>
        let q := takeRowEnd e x.row x.pass p
        if x.row < x.rows then patternJobs e fuel .go (updatePattern (fun y => { y with row := y.row + 1, point := 1 }) q)
        else if x.pass < x.passes then
          patternJobs e fuel .go (updatePattern (fun y => { y with pass := y.pass + 1, row := 1, point := 1 }) q)
        else takeExhausted e (updatePattern (fun y => { y with status := .halted .exhausted }) q)

/-- Enough for a chain through every point and row of every pass: at most 3 jobs a point and 4 a row.
DESIGN CHOICE, notes/assumptions/38.md. -/
def patternFuel (e : Env) : Nat := 4 * (cfgOf e).passes * (cfgOf e).rows * ((cfgOf e).points + 1) + 8

/-- The effective mode: SWEEP with LINKED source gives STEP (R136). -/
def effectiveMode (e : Env) : PatternMode := if linked e then .step else (cfgOf e).mode

/-- A pattern written whole at its origin and begun (R136). -/
def startPattern (e : Env) (origin : HeadPoint) (p : Plant) : Plant :=
  let c := cfgOf e
  let x : Pattern :=
    { status := .running .toPoint, origin := origin, sigma := c.sigma, rows := c.rows, points := c.points, passes := c.passes, mode := effectiveMode e,
      row := 1, point := 1, pass := 1, targets := origin, moveList := [], blocked := false, barred := false, measurement := .blank, found := none }
  let q := { p with pat := some x }
  let r := if linked e ∧ c.mode = .sweep then postDwell e .sweepDegraded origin.pan origin.tilt levelMin q else q
  patternJobs e (patternFuel e) .go r

/-- The pattern is under way: RUNNING, SUSPENDED or in RESUME_WAIT. -/
def patternUnderWay (p : Plant) : Bool :=
  match p.pat with
  | some x => match x.status with
    | .halted _ => false
    | .running _ | .suspended _ | .resumeWait _ _ => true
  | none => false

/-- What a halt and a suspend stop: the moves, the dwell, the handing (R146, R147). -/
def stopPattern (e : Env) (p : Plant) : Plant := setHanding false (cancelDwell .pat (cancelMoves e .pat pointAxes p))

/-- A halt handed by PNT (R146). -/
def haltPattern (e : Env) (cause : PatternCause) (p : Plant) : Plant :=
  if patternUnderWay p then updatePattern (fun x => { x with status := .halted cause, moveList := [], measurement := .blank }) (stopPattern e p) else p

/-- A suspend handed by PNT (R147). -/
def suspendPattern (e : Env) (p : Plant) : Plant :=
  match p.pat with
  | some x =>
    match x.status with
    | .running st => updatePattern (fun y => { y with status := .suspended st, moveList := [], measurement := .blank }) (stopPattern e p)
    | .resumeWait st _ => updatePattern (fun y => { y with status := .suspended st }) p
    | .suspended _ | .halted _ => p
  | none => p

/-- A resume handed by PNT: the resume delay begins (R147). -/
def resumePattern (e : Env) (p : Plant) : Plant :=
  match p.pat with
  | some x =>
    match x.status with
    | .suspended st => updatePattern (fun y => { y with status := .resumeWait st e.clock }) p
    | .running _ | .resumeWait _ _ | .halted _ => p
  | none => p

/-- The found point handed to PNT with the pattern HALTED (R142, R145).
DESIGN CHOICE (the spent measurement stays in the record), notes/assumptions/70.md. -/
def patternFound (e : Env) (point : HeadPoint) (level : Int) (p : Plant) : Plant :=
  takeFound e point
    (updatePattern (fun x => { x with status := .halted .found, moveList := [], found := some { point := point, level := level } }) p)

/-- A search point's level is known (R142). -/
def searchLevel (e : Env) (level : Int) (p : Plant) : Plant :=
  match p.pat with
  | some x =>
    let q := postDwellHere e .search level p
    if (cfgOf e).floor ≤ level then patternFound e x.targets level q else patternJobs e (patternFuel e) .advance q
  | none => p

/-- A dwell mean handed to PAT (R140). -/
def patternMean (e : Env) (level : Int) (p : Plant) : Plant :=
  match p.pat with
  | some x => if x.status = .running .measure then searchLevel e level p else p
  | none => p

/-- The level of a LINKED measurement taken when N reports have counted and the settle time has passed (R141). -/
def patternMeasured (e : Env) (p : Plant) : Plant :=
  match p.pat with
  | some x =>
    match measuredLevel e x.measurement with
    | some l => patternMean e l p
    | none => p
  | none => p

/-- The pattern has a measurement open to level reports (R141). -/
def patternListens (p : Plant) : Bool :=
  match p.pat with
  | some x => match x.status with
    | .running (.settle _) | .running .measure => true
    | _ => false
  | none => false

/-- A level report handed to PAT (R141). -/
def patternReport (e : Env) (r : LevelReport) (p : Plant) : Plant :=
  if patternListens p then patternMeasured e (updatePattern (fun x => { x with measurement := judgeReport e r x.measurement }) p) else p

/-- A pilot level handed on in stage SWEEP (R145): at or above the floor the found pan is the PAN position last read. -/
def sweepLevel (e : Env) (level : Int) (p : Plant) : Plant :=
  match p.pat with
  | some x =>
    if x.status = .running .sweep ∧ (cfgOf e).floor ≤ level then
      let point : HeadPoint := { pan := clampSoft e .pan (positionOrZero p .pan), tilt := x.targets.tilt }
      let q := cancelMove e .pat .pan (setHanding false p)
      patternFound e point level (postDwell e .search point.pan point.tilt level q)
    else p
  | none => p

/-- A PAT move completed (R139, R144, R145). -/
def patternCompleted (e : Env) (a : Axis) (p : Plant) : Plant :=
  match p.pat with
  | some x =>
    let q := updatePattern (fun y => { y with moveList := removeAll y.moveList a }) p
    match x.status with
    | .running .toPoint | .running .toRowStart | .running .sweep =>
      if a ∈ x.moveList ∧ removeAll x.moveList a = [] then patternJobs e (patternFuel e) .arrived q else q
    | _ => p
  | none => p

/-- PAT at an axis free event (R139, R144). -/
def patternAxisFree (e : Env) (a : Axis) (p : Plant) : Plant :=
  match p.pat with
  | some x =>
    if a ∈ x.moveList ∧ carriesMove (axisOf p a) .pat = false ∧ x.barred = false then
      match x.status with
      | .running .toPoint | .running .toRowStart =>
        let (q, m) := retryAxis e .pat a x.targets { moveList := x.moveList, blocked := x.blocked, barred := x.barred } p
        let r := updatePattern (setMoves m) q
        if m.moveList = [] then patternJobs e (patternFuel e) .arrived r else r
      | .running .sweep =>
        let (q, ended) := requestSweep e x p
        if ended then patternJobs e (patternFuel e) .rowEnd q else q
      | _ => p
    else p
  | none => p

/-- The current point or row taken up again after the resume delay (R147). -/
def takeUpPattern (e : Env) (p : Plant) : Plant :=
  patternJobs e (patternFuel e) .go (updatePattern (fun x => { x with status := .running (moveStage x), blocked := false, barred := false }) p)

/-- A measurement begun at a settle expiry (R140, R141). -/
def patternMeasure (e : Env) (p : Plant) : Plant :=
  let q := patternStage .measure p
  if linked e then patternMeasured e q else requestDwell e .pat q

end Sys2Proof.Machine
end

