-- ==== Sys2Proof/Machine/Steering.lean ====
section
/-! DEFINITION. PNT over PAT and PKE: the measurement at the preset, suspension and resumption, halts, and what PNT does
with a permissive change, a mast event and a fault event (R127 to R131). -/

namespace Sys2Proof.Machine

/-- ACQUIRING phase SEARCH entered with the configured pattern; with a need missing, HELD, and the pattern suspended right
after its start (R128, R130, R136).
DESIGN CHOICE (HELD directly), notes/assumptions/58.md. -/
def enterSearch (e : Env) (p : Plant) : Plant :=
  if needsMet e p (.acquiring .search) then startPattern e (pointingPoint e p) (setPointing e (.active (.acquiring .search)) p)
  else suspendPattern e (startPattern e (pointingPoint e p) (setPointing e (.held (.acquiring .search) (holdCauseNow p)) p))

/-- The level at the preset is known (R128). -/
def presetMeasured (e : Env) (level : Int) (p : Plant) : Plant :=
  let q := postDwellHere e .preset level p
  if (cfgOf e).floor ≤ level then enterPeaking e (pointingPoint e q) (cfgOf e).delta0 q else enterSearch e q

/-- A dwell mean handed to PNT; in any phase but MEASURE it changes nothing (R128). -/
def presetMean (e : Env) (level : Int) (p : Plant) : Plant :=
  match p.pnt.state with
  | .active (.slewing .measure) => presetMeasured e level p
  | _ => p

/-- A level report handed to PNT in phase MEASURE (R128).
DEDUCED, notes/assumptions/41.md. -/
def presetReport (e : Env) (r : LevelReport) (p : Plant) : Plant :=
  match p.pnt.state with
  | .active (.slewing .measure) =>
    let m := judgePreset e p.pnt.completedAt r p.pnt.measurement
    let q := { p with pnt := { p.pnt with measurement := m } }
    match measuredLevel e m with
    | some l => presetMeasured e l q
    | none => q
  | _ => p

/-- Phase MEASURE entered at the settle expiry: a dwell in LOCAL source, level reports in LINKED (R128). -/
def presetMeasure (e : Env) (p : Plant) : Plant :=
  let q := setPointing e (.active (.slewing .measure)) p
  if linked e then q else requestDwell e .pnt q

/-- PNT's own moves, dwell and report count stopped (R130, R131). -/
def stopSlew (e : Env) (p : Plant) : Plant :=
  let q := cancelDwell .pnt (cancelMoves e .pnt headAxes p)
  { q with pnt := { q.pnt with slewList := [], measurement := .blank } }

/-- What a suspension stops, by the activity suspended (R130). -/
def suspendWork (e : Env) (x : Activity) (p : Plant) : Plant :=
  match x with
  | .slewing _ => stopSlew e p
  | .acquiring .back => stopSlew e p
  | .acquiring .search => suspendPattern e p
  | .peaking => suspendRun e p
  | .tracking => monitorOff p

/-- An activity a need of which is missing goes to HELD (R130, R44).
DEDUCED, notes/assumptions/32.md. -/
def suspendPointing (e : Env) (x : Activity) (p : Plant) : Plant := setPointing e (.held x (holdCauseNow p)) (suspendWork e x p)

/-- The remembered activity resumes (R130, R148). -/
def resumePointing (e : Env) (x : Activity) (p : Plant) : Plant :=
  match x with
  | .slewing _ => startSlew e (setPointing e (.active (.slewing .move)) p)
  | .acquiring .back => startSlew e (setPointing e (.active (.acquiring .back)) p)
  | .acquiring .search => resumePattern e (setPointing e (.active (.acquiring .search)) p)
  | .peaking =>
    let q := setPointing e (.active .peaking) p
    match p.pnt.foundWhileHeld with
    | some found => startRun e found (cfgOf e).delta0 { q with pnt := { q.pnt with foundWhileHeld := none } }
    | none => resumeRun e q
  | .tracking => trackStart e (setPointing e (.active .tracking) p)

/-- A halt of pointing: PNT's work, the pattern with its cause, the run and the track monitor ended, the state IDLE, the
record kept; in IDLE nothing changes (R131, R133). -/
def haltPointing (e : Env) (cause : PatternCause) (p : Plant) : Plant :=
  match p.pnt.state with
  | .idle => p
  | .waitingMast | .active _ | .pointed | .held _ _ | .lost =>
    let q := discardRun e (haltPattern e cause (stopSlew e p))
    setPointing e .idle { q with pnt := { q.pnt with foundWhileHeld := none } }

/-- PNT at a permissive change (R130, R131). -/
def pointingPermissives (e : Env) (lost : List Permissive) (p : Plant) : Plant :=
  if .brakeSet ∈ lost then haltPointing e .interlock p
  else
    match p.pnt.state with
    | .active x => if needsMet e p x then p else suspendPointing e x p
    | .held x _ => if needsMet e p x then resumePointing e x p else setPointing e (.held x (holdCauseNow p)) p
    | .idle | .waitingMast | .pointed | .lost => p

/-- PNT at a mast event (R127, R131): RAISED releases a waiting AIM, PARKING and LOWERING halt. -/
def pointingMastEvent (e : Env) (p : Plant) : Plant :=
  match p.msq.state with
  | .raised => if p.pnt.state = .waitingMast then enterSlewing e p else p
  | .parking _ | .lowering _ => haltPointing e (.aborted .lower) p
  | .stowed | .raising _ _ | .halted _ => p

/-- A fault names the head when its axis is PAN, TILT, POL or ALL (R111, R131). -/
def namesHead (f : FaultAxis) : Bool := headAxes.any (faultNames f)

/-- PNT at a fault event (R131). -/
def pointingFault (e : Env) (kind : FaultKind) (axis : FaultAxis) (p : Plant) : Plant :=
  if namesHead axis then haltPointing e (if kind = .driveAway then .interlock else .fault) p else p

end Sys2Proof.Machine
end

