-- ==== Sys2Proof/Machine/Mast.lean ====
section
/-! DEFINITION. MSQ: the mast state and its events, the lowering move, parking, clearance values, the loss of a RAISE
permissive, fault events, the cradle (R102 to R119). -/

namespace Sys2Proof.Machine

/-- The mast state set (the fields of the state left fall with it), a status at a change of state or hold cause, and the
mast event handed to PNT (R102, R119). -/
def setMast (e : Env) (st : MastState) (p : Plant) : Plant :=
  let q := { p with msq := { p.msq with state := st } }
  pointingMastEvent e (postStatusIf (decide (mastKey p.msq.state ≠ mastKey st)) e q)

/-- The stranded mark written, with a status at a change in whether DRIFT is shown (R118). -/
def setStranded (e : Env) (mark : Bool) (p : Plant) : Plant :=
  let q := { p with msq := { p.msq with stranded := mark } }
  postStatusIf (decide (driftShown q ≠ driftShown p)) e q

def mastPosition (p : Plant) : Option Int := p.axd.axes.mast.position

/-- MSQ's moves in the state it leaves: the MAST move of a raise or a lowering, the parking moves (R108, R111, R115). -/
def cancelMastWork (e : Env) (p : Plant) : Plant :=
  match p.msq.state with
  | .raising _ _ | .lowering _ => cancelMove e .msq .mast p
  | .parking l => cancelMoves e .msq l p
  | .stowed | .raised | .halted _ => p

/-- The causes whose entry posts a HALT from MSQ (R103). -/
def msqPosts : HoldCause → Bool
  | .wind | .brake | .outriggers | .vanLevel | .clearance | .headNotParked => true
  | .start | .stop | .fault => false

/-- HALTED with a cause. `posts` is false for a cause BRAKE that comes with a DRIVE_AWAY fault, whose HALT stands for
MSQ's (R103). A fall below the cradle posts whatever the cause was (R117). -/
def haltMast (e : Env) (cause : HoldCause) (axis : Axis) (posts : Bool) (p : Plant) : Plant :=
  let q := setMast e (.halted cause) (cancelMastWork e p)
  if posts && msqPosts cause then postHalt e (.hold cause) (.one axis) (.halted cause) q else q

/-- The axis a HALT for HEAD_NOT_PARKED names: the first of PAN, TILT, POL outside its stow window or on the parking list
(R103).
DESIGN CHOICE, notes/assumptions/35.md. -/
def firstUnparked (e : Env) (p : Plant) : Axis :=
  let out (a : Axis) : Bool :=
    !axisInsideStow e p a || match p.msq.state with
      | .parking l => decide (a ∈ l)
      | _ => false
  if out .pan then .pan else if out .tilt then .tilt else .pol

/-- Parking cannot finish, or the mast fell below the cradle with the head out (R115, R117). -/
def headNotParked (e : Env) (p : Plant) : Plant := haltMast e .headNotParked (firstUnparked e p) true p

/-! ### Lowering (R116) -/

def mastMove (cls : MotionClass) (target : Int) : MoveRequest :=
  { axis := .mast, requester := .msq, cls := cls, target := target, cap := none, recovery := false }

/-- The MAST position judged at the end of the lowering move (R116): above the stow window, for whatever reason, the mast is RAISED.
DESIGN CHOICE (a reason other than the soft min), notes/assumptions/66.md. -/
def loweringDone (e : Env) (p : Plant) : Plant :=
  let stowed := match mastPosition p with
    | some h => decide (h ≤ ((cfgOf e).stowWindow : Int))
    | none => false
  setMast e (if stowed then .stowed else .raised) p

def setPendingMast (pending : Bool) (p : Plant) : Plant := { p with msq := { p.msq with state := .lowering pending } }

/-- The lowering move requested in LOWERING (R116); refused with RANGE the mast is judged at once, and a raise move still in
flight goes on.
DESIGN CHOICE (the raise in flight), notes/assumptions/57.md. -/
def requestLowering (e : Env) (p : Plant) : Plant :=
  let (q, answer) := moveRequest e (mastMove .lower 0) p
  match answer with
  | .accepted _ _ => setPendingMast false q
  | .stopping | .busy => setPendingMast true q
  | .range => loweringDone e q
  | .latched | .fault | .cradle => q

/-- LOWERING entered with its request (R113, R114). -/
def enterLowering (e : Env) (p : Plant) : Plant := requestLowering e (setMast e (.lowering false) p)

/-! ### Parking (R114, R115) -/

def parkingMove (e : Env) (a : Axis) : MoveRequest :=
  { axis := a, requester := .msq, cls := .lower, target := stowPosition e a, cap := none, recovery := false }

/-- The parking requests on a list of axes, in order (R114). -/
def parkingRequests (e : Env) : List Axis → Plant → Plant
  | [], p => p
  | a :: rest, p =>
    let (q, answer) := moveRequest e (parkingMove e a) p
    match answer with
    | .fault | .cradle | .range => headNotParked e q
    | .accepted _ _ | .stopping | .busy | .latched => parkingRequests e rest q

/-- PARKING entered: PNT halted by the mast event, head JOGs ended, a raise in flight cancelled, then the requests
(R113). -/
def enterParking (e : Env) (p : Plant) : Plant :=
  let wasRaising := match p.msq.state with
    | .raising _ _ => true
    | _ => false
  let p1 := setMast e (.parking headAxes) p
  let p2 := endMoves e (fun r => carriesMove r .jog) headAxes p1
  let p3 := if wasRaising then cancelMove e .msq .mast p2 else p2
  parkingRequests e headAxes p3

/-- An accepted LOWER goes on according to the head (R113). -/
def beginLower (e : Env) (p : Plant) : Plant :=
  let q := setStranded e false p
  if headInsideStow e q then enterLowering e q else enterParking e q

/-- MSQ receives Completed for its move on an axis (R107, R114, R116). -/
def mastCompleted (e : Env) (a : Axis) (p : Plant) : Plant :=
  match p.msq.state, a with
  | .raising _ _, .mast => setMast e .raised p
  | .lowering _, .mast => loweringDone e p
  | .parking l, .pan | .parking l, .tilt | .parking l, .pol =>
    let rest := removeAll l a
    let q := { p with msq := { p.msq with state := .parking rest } }
    if rest = [] then (if headInsideStow e q then enterLowering e q else headNotParked e q) else q
  | _, _ => p

/-- MSQ at an axis free event (R102, R113, R114, R116). -/
def mastAxisFree (e : Env) (a : Axis) (p : Plant) : Plant :=
  match p.msq.state with
  | .parking l => if a ∈ l ∧ carriesMove (axisOf p a) .msq = false then parkingRequests e [a] p else p
  | .lowering true => if a = .mast then requestLowering e p else p
  | _ => p

/-! ### While the mast is up -/

/-- The hold cause of a lost RAISE permissive (the table under R42). -/
def lossCause : Permissive → HoldCause
  | .brakeSet => .brake
  | .outriggersDown => .outriggers
  | .vanLevelOk => .vanLevel
  | .windRaiseOk => .wind
  | .clearanceOk => .clearance
  | .headingOk | .windMoveOk | .levelOk => .fault

/-- AXD and MSQ at the loss of RAISE permissives (R42, R91, R108, R118). `byReport` says that the change came from the
taking of a fresh CLEARANCE report, which MSQ judges by R109 instead. A raise move left in flight with the mast STOWED or RAISED goes on.
DESIGN CHOICE (that raise move), notes/assumptions/57.md. -/
def raiseLoss (e : Env) (lost : List Permissive) (byReport : Bool) (p : Plant) : Plant :=
  match lost.filter (fun x => decide (x ∈ raisePermissives)) with
  | [] => p
  | x :: _ =>
    let m := p.axd.axes.mast
    let correcting := m.correction && decide (m.cls = some .raise)
    let p1 := if correcting then endMoves e (fun _ => true) [.mast] (setStranded e true p) else p
    match p1.msq.state with
    | .raising _ .up => if byReport then p1 else haltMast e (lossCause x) .mast (decide (x ≠ .brakeSet)) p1
    | _ => p1

/-- AXD at the loss of BRAKE_SET or WIND_MOVE_OK: head JOGs and head corrections are ended (R43, R91). -/
def headLoss (e : Env) (lost : List Permissive) (p : Plant) : Plant :=
  if .brakeSet ∈ lost ∨ .windMoveOk ∈ lost then endMoves e (fun r => carriesMove r .jog || r.correction) headAxes p else p

/-- A CLEARANCE value at MSQ while RAISING upward or RAISED (R109, R110). An answer of AXD that refuses the lowered
target is dropped; an allowed top at or above the raise target changes nothing also where the position has passed it.
DEDUCED, notes/assumptions/46.md; DESIGN CHOICE, notes/assumptions/51.md, 63.md. -/
def clearanceValue (e : Env) (value : ClearanceValue) (p : Plant) : Plant :=
  match value, mastPosition p with
  | some b, some h =>
    let top := allowedTop e b
    match p.msq.state with
    | .raising target .up =>
      if target ≤ top then p
      else if h < top then
        let q := { p with msq := { p.msq with state := .raising top .up } }
        (moveRequest e (mastMove .raise top) q).1
      else haltMast e .clearance .mast true p
    | .raised => if top < h then haltMast e .clearance .mast true p else p
    | _ => p
  | _, _ => p

/-- A fault names MAST when its axis is MAST or ALL (R111). -/
def namesMast (f : FaultAxis) : Bool := faultNames f .mast

/-- The mast state that a fault event gives, and whether it is for HEAD_NOT_PARKED (R111, R115). `stored` is false for a
fault that overflowed the set. -/
def faultMastState (kind : FaultKind) (axis : FaultAxis) (stored : Bool) (st : MastState) : MastState :=
  let away := decide (kind = .driveAway)
  match st with
  | .stowed => .stowed
  | .raising _ _ | .raised | .halted _ => if away then .halted .brake else if namesMast axis then .halted .fault else st
  | .parking l =>
    if away && stored then st
    else
      match axis with
      | .all => .halted .headNotParked
      | .one .mast => .halted .fault
      | .one a => if a ∈ l then .halted .headNotParked else st
  | .lowering _ => if away && stored then st else if namesMast axis then .halted .fault else st

/-- MSQ at a fault event (R111). -/
def mastFault (e : Env) (kind : FaultKind) (axis : FaultAxis) (stored : Bool) (p : Plant) : Plant :=
  match faultMastState kind axis stored p.msq.state with
  | .halted c => if p.msq.state = .halted c then p else if c = .headNotParked then headNotParked e p else haltMast e c .mast false p
  | _ => p

/-- The latch-set event at MSQ: any state but STOWED becomes HALTED with cause STOP (R49).
DEDUCED, notes/assumptions/21.md. -/
def latchMastState : MastState → MastState
  | .stowed => .stowed
  | .raising _ _ | .raised | .parking _ | .lowering _ | .halted _ => .halted .stop

/-- The cradle judged at a servo period of MAST (R117): `before` is the position before the reading. -/
def judgeCradle (e : Env) (before : Option Int) (p : Plant) : Plant :=
  let clear : Int := (cfgOf e).cradleClear
  let fell := match before, mastPosition p with
    | some x, some y => decide (clear ≤ x) && decide (y < clear)
    | _, _ => false
  if !fell then p
  else
    match p.msq.state with
    | .raised | .halted _ =>
      let p1 := haltPointing e .interlock p
      let p2 := endMoves e (fun r => !r.recovery && carriesMove r .jog) headAxes p1
      if headInsideStow e p2 then p2 else headNotParked e p2
    | .parking _ => headNotParked e p
    | .stowed | .raising _ _ | .lowering _ => p

end Sys2Proof.Machine
end

