-- ==== Sys2Proof/Machine/Faults.lean ====
section
/-! DEFINITION. FLT: entering a fault, its halt, and CLEAR_FAULT's conditions (R96 to R100). Taking a fault is this one
shared operation: every unit that raises a fault calls `raiseFault`. -/

namespace Sys2Proof.Machine

/-- The halt of a fault on one axis, by the axis's state (R98). -/
def haltAxis (e : Env) (a : Axis) (p : Plant) : Plant :=
  let r := axisOf p a
  match r.state with
  | .idle => putAxis e a { r with state := .fault, drift := false } p
  | .waiting => abandonWaiting e a .fault p
  | .moving | .settling => toStopping e a p
  | .stopping | .fault => p

/-- The halt on every axis the fault names, each by the state it is in; a stored DRIVE_AWAY spares a LOWER; the grants returned are
handed out (R94, R98). ALL is MAST, PAN, TILT, POL in this order.
DESIGN CHOICE, notes/assumptions/52.md. -/
def haltFor (e : Env) (kind : FaultKind) (axis : FaultAxis) (stored : Bool) (p : Plant) : Plant :=
  afterLeaving e p (allAxes.foldl
    (fun x a =>
      if faultNames axis a then
        if decide (kind = .driveAway) && stored && sparedLower x (axisOf x a) then x else haltAxis e a x
      else x) p)

/-- A fault raised: a repeat of a stored record halts again and no more; a new one is stored, or overflows a full set, with a
status at a change of the count or the overflow (R59), halts, posts HALT and is handed to MSQ and PNT (R96, R97).
DESIGN CHOICE, notes/assumptions/18.md. -/
def raiseFault (e : Env) (kind : FaultKind) (axis : FaultAxis) (p : Plant) : Plant :=
  let x : FaultRecord := { kind := kind, axis := axis }
  if x ∈ p.flt.records then haltFor e kind axis true p
  else
    let stored := decide (p.flt.records.length < 8)
    let p1 :=
      if stored then { p with flt := { p.flt with records := p.flt.records ++ [x] } }
      else { p with flt := { p.flt with overflow := true, overflowAxes := insertNew p.flt.overflowAxes axis } }
    let p2 := haltFor e kind axis stored (postStatusIf (decide (faultKey p1 ≠ faultKey p)) e p1)
    let p3 := postHalt e (.fault kind) axis (faultMastState kind axis stored p2.msq.state) p2
    pointingFault e kind axis (mastFault e kind axis stored p3)

/-- The condition of a stored record holds (R99). -/
def conditionHolds (e : Env) (p : Plant) (x : FaultRecord) : Bool :=
  match x.kind with
  | .pressure | .current | .supply | .baseTilt | .pilot => ((cfgOf e).watches.zip p.watches).any fun w => watchPersists x.kind x.axis w.1 w.2
  | .sensor => allAxes.any fun a => faultNames x.axis a && !(axisOf p a).sensorValid
  | .driveAway =>
    !(isFresh p.pvw.vehicle && match p.pvw.vehicle.value with
      | some v => v.brakeSet
      | none => false)
  | .headUnparked => !headFree e p && !headInsideStow e p
  | .stall | .limit | .overtravel => false

/-- An axis in FAULT that is no longer held goes to IDLE; with an invalid sensor it stays, with SENSOR raised anew
(R100, R89). -/
def freeAxis (e : Env) (a : Axis) (p : Plant) : Plant :=
  let r := axisOf p a
  if r.state = .fault ∧ isHeld p a = false then
    if r.sensorValid then putAxis e a { r with state := .idle, target := r.position.map (clampSoft e a) } p
    else raiseFault e .sensor (.one a) p
  else p

/-- The latch-set event at AXD, MSQ and PNT (R49). -/
def latchSetEvent (e : Env) (p : Plant) : Plant :=
  let p1 := latchAxes e p
  let p2 := setMast e (latchMastState p1.msq.state) p1
  haltPointing e (.aborted .stop) p2

end Sys2Proof.Machine
end

