-- ==== Sys2Proof/Machine/Operands.lean ====
section
/-! DEFINITION. The operand forms: the fields an owner reads from a payload (R165 to R167, R32 to R34), the lengths DEC
holds a notice to (R166), and the arithmetic of an AIM (R123 to R125). -/

namespace Sys2Proof.Machine

/-! ### Peer values (R32 to R34) -/

/-- A VEHICLE value brought into range (R32). -/
def vehicleOf (x : List Byte) : VehicleValue :=
  let heading := (word16At x 5).toNat
  { brakeSet := bitAt x 0 0, outriggersDown := bitAt x 0 1, pitch := clampInt (-1000) 1000 (word16At x 1).toInt,
    roll := clampInt (-1000) 1000 (word16At x 3).toInt, heading := if heading < 36000 then heading else 0,
    headingValid := bitAt x 0 2 && decide (heading < 36000) }

/-- A WIND value brought into range, the gust no lower than the mean (R33). -/
def windOf (x : List Byte) : WindValue :=
  let mean := min 1000 (word16At x 0).toNat
  let gust := min 1000 (word16At x 2).toNat
  { mean := mean, gust := max mean gust }

/-- A CLEARANCE value (R34). -/
def clearanceOf (x : List Byte) : ClearanceValue := if bitAt x 0 0 then none else some (word16At x 1).toNat

/-- A LEVEL value (R34). -/
def levelOf (x : List Byte) : LevelValue :=
  { level := if bitAt x 0 0 then clampLevel (word16At x 1).toInt else levelMin, sequence := (byteAt x 3).toNat }

/-! ### Commands (Table 11-2) -/

/-- The command codes of Table 11-2. -/
inductive CommandCode where
  | resume | clearFault | report | raise | lower | aim | peak | cancelPointing | jog
  deriving DecidableEq, Repr

def commandCode (x : List Byte) : Option CommandCode :=
  match (byteAt x 0).toNat with
  | 1 => some .resume
  | 2 => some .clearFault
  | 3 => some .report
  | 4 => some .raise
  | 5 => some .lower
  | 6 => some .aim
  | 7 => some .peak
  | 8 => some .cancelPointing
  | 9 => some .jog
  | _ => none

/-- The length Table 11-2 gives each code. -/
def CommandCode.length : CommandCode → Nat
  | .raise => 4
  | .aim => 9
  | .jog => 7
  | .resume | .clearFault | .report | .lower | .peak | .cancelPointing => 2

/-- The motion commands of Table 4-3. -/
def CommandCode.isMotion : CommandCode → Bool
  | .raise | .lower | .aim | .peak | .cancelPointing | .jog => true
  | .resume | .clearFault | .report => false

/-- The sequence byte of a COMMAND. -/
def sequenceOf (x : List Byte) : Byte := byteAt x 1

/-- The height operand of a RAISE, mm. -/
def raiseHeight (x : List Byte) : Nat := (word16At x 2).toNat

/-- The operands of an AIM. -/
structure AimOperands where
  bearing : Nat
  elevation : Int
  pol : Int
  peak : Bool
  track : Bool
  keepOffsets : Bool
  deriving DecidableEq, Repr

def aimOf (x : List Byte) : AimOperands :=
  { bearing := (word16At x 2).toNat, elevation := (word16At x 4).toInt, pol := (word16At x 6).toInt, peak := bitAt x 8 0, track := bitAt x 8 1,
    keepOffsets := bitAt x 8 2 }

/-- The axis byte of a JOG; a byte above 3 names no axis (R167). -/
def jogAxis (x : List Byte) : Option Axis :=
  match (byteAt x 2).toNat with
  | 0 => some .mast
  | 1 => some .pan
  | 2 => some .tilt
  | 3 => some .pol
  | _ => none

def jogDistance (x : List Byte) : Int := (word24At x 3).toInt

def jogRecovery (x : List Byte) : Bool := bitAt x 6 0

/-! ### What DEC knows of each kind (R5, R166) -/

/-- The kinds another station may send for an effect: their fixed urgency (R5). -/
def kindUrgency : Nat → Option Nat
  | 0 => some 0
  | 1 | 2 | 3 | 4 => some 1
  | 8 | 9 | 10 | 11 | 12 => some 2
  | 16 | 17 | 18 => some 3
  | _ => none

/-- The kinds the part posts and takes from no other station: HALT, REPLY, AXIS_REPORT, POINTING_REPORT, DWELL_REPORT,
LINK_REPORT (R13). -/
def partPosted (kind : Nat) : Bool := decide (kind ∈ [1, 9, 11, 12, 17, 18])

/-- The length of a payload fits its kind (R166). A kind the part posts itself is dropped whatever its length. -/
def lengthFits (kind : Nat) (x : List Byte) : Bool :=
  match kind with
  | 0 => decide (x.length = 0)
  | 2 => decide (x.length = 7)
  | 3 | 16 => decide (x.length = 4)
  | 4 => decide (x.length = 3)
  | 10 => decide (x.length = 10)
  | 8 =>
    match commandCode x with
    | some c => decide (x.length = c.length)
    | none => decide (2 ≤ x.length) && decide (x.length ≤ 10)
  | _ => true

/-! ### AIM arithmetic -/

/-- S(X) for X in 0..18000 (R123). -/
def sineHalf (x : Nat) : Int :=
  let p : Int := ((x * (18000 - x) : Nat) : Int)
  roundUp (16384 * p) (405000000 - p)

/-- The integer sine, 4096 standing for 1 (R123). -/
def sine (x : Nat) : Int := if x ≤ 18000 then sineHalf x else -sineHalf (x - 18000)

/-- The cosine as the sine a quarter turn on (R123). -/
def cosine (x : Nat) : Int := sine ((x + 9000) % 36000)

/-- The basis of a preset: heading, pitch, roll (R41). -/
structure Basis where
  heading : Nat
  pitch : Int
  roll : Int
  deriving DecidableEq, Repr

/-- The VEHICLE value as a basis; zeros for a NOT_FITTED entry (R31, R41). -/
def basisOf (p : Plant) : Basis :=
  match p.pvw.vehicle.value with
  | some v => { heading := v.heading, pitch := v.pitch, roll := v.roll }
  | none => { heading := 0, pitch := 0, roll := 0 }

/-- (B − H) mod 36000 (R124 step 1). -/
def relativeBearing (bearing heading : Nat) : Nat := (((bearing : Int) - (heading : Int)) % 36000).toNat

/-- The platform correction (R124 step 2). -/
def platformCorrection (b : Basis) (rel : Nat) : Int := roundAway (b.pitch * cosine rel + b.roll * sine rel) 4096

/-- The legal pan candidates, rel first (R125). -/
def panCandidates (e : Env) (rel : Nat) : List Int :=
  [(rel : Int), rel - 36000, rel + 36000].filter fun x => decide ((cfgOf e).pan.softMin ≤ x) && decide (x ≤ (cfgOf e).pan.softMax)

/-- Candidate `x` is taken before `y` from a pan position: nearer, or as near and of smaller absolute value (R125). -/
def panBetter (position x y : Int) : Bool :=
  let dx := (x - position).natAbs
  let dy := (y - position).natAbs
  decide (dx < dy) || (decide (dx = dy) && decide (x.natAbs < y.natAbs))

/-- The pan preset; rel stands first, so it is kept against a candidate that ties it in both measures (R125). -/
def panPreset (e : Env) (position : Int) (rel : Nat) : Option Int :=
  (panCandidates e rel).foldl (fun best x => match best with
    | none => some x
    | some y => if panBetter position x y then some x else some y) none

/-- What R124 and R125 compute, and the reply's value when a field was clamped. -/
structure Preset where
  pan : Int
  tilt : Int
  pol : Int
  clampedValue : Option Int
  deriving DecidableEq, Repr

/-- The preset of an AIM, absent without a legal pan candidate (R124, R125). -/
def presetOf (e : Env) (p : Plant) (a : AimOperands) : Option Preset :=
  let b := basisOf p
  let rel := relativeBearing a.bearing b.heading
  let wanted := a.elevation - platformCorrection b rel
  let tilt := clampSoft e .tilt wanted
  let pol := clampSoft e .pol a.pol
  (panPreset e (positionOrZero p .pan) rel).map fun pan =>
    { pan := pan, tilt := tilt, pol := pol, clampedValue := if tilt ≠ wanted then some tilt else if pol ≠ a.pol then some pol else none }

end Sys2Proof.Machine
end

