-- ==== Sys2Proof/Machine/Authority.lean ====
section
/-! DEFINITION. What the takings share (R16): the head entry, the common checks (R56), the verdict and its REPLY (R57), the
holder (R55); AUT's STOP, duplicate event and timers left (R48, R51, R53); the report round and LINK_REPORT (R58, R11); a
permissive change and what comes with it (R38, R45); CFG's entry to SAFE (R25). -/

namespace Sys2Proof.Machine

/-! ### The head of the arrival queue (R16) -/

/-- The head entry when it is of this kind. -/
def headOf (k : ArrivalKind) (s : State) : Option ArrivalEntry :=
  match s.arrivals with
  | [] => none
  | x :: _ => if x.kind = k then some x else none

/-- The head entry when it is a COMMAND with this code; absent code, a code of no command. -/
def headCommand (c : Option CommandCode) (s : State) : Option ArrivalEntry :=
  match headOf .command s with
  | some x => if commandCode x.payload = c then some x else none
  | none => none

/-- The plant replaced. -/
def withPlant (q : Plant) (s : State) : State := { s with plant := q }

/-- The head entry applied and gone from the queue (R16). -/
def applyHead (q : Plant) (s : State) : State := { withPlant q s with arrivals := s.arrivals.tail }

/-! ### Verdicts (R57) -/

/-- What a REPLY says of a command. -/
structure Verdict where
  outcome : ReplyOutcome
  reason : Reason
  value : Int
  deriving DecidableEq, Repr

def accepted (value : Int) : Verdict := { outcome := .accepted, reason := .none, value := value }

def clampedTo (value : Int) : Verdict := { outcome := .clamped, reason := .none, value := value }

def refuse (reason : Reason) (value : Int) : Verdict := { outcome := .refused, reason := reason, value := value }

/-- Refused with PERMISSIVE and the code of the lowest one missing (R40). -/
def refusePermissive (x : Permissive) : Verdict := refuse .permissive (x.code : Int)

/-- Refused with FAULT and the fault count (R57). -/
def refuseFault (p : Plant) : Verdict := refuse .fault (faultCount p : Int)

/-! ### Timers left (R51, R54) -/

/-- Milliseconds left in the STOP window, 1..500 (R51). -/
def windowLeft (e : Env) (stamp : Stamp) : Nat := max 1 (500 - stampAge (stampOf e.clock) stamp)

/-- Milliseconds left on the quiet timer, 1..10000 (R54). -/
def quietLeft (e : Env) (since : Clock) : Nat := max 1 (10000 - elapsed e.clock since)

/-! ### Common checks (R56, Table 4-4) -/

/-- The value of a CONFIG refusal (R25). -/
def configCause (e : Env) : Int :=
  match e.setup.result with
  | .fault c => (configFaultCode c : Int)
  | .pending | .loaded | .clamped => 0

/-- Check 3. -/
def checkLatch (p : Plant) : Option Verdict :=
  match p.aut.latch with
  | none => none
  | some (.stop s) => some (refuse .stopLatched (s : Int))
  | some .start => some (refuse .stopLatched 0)
  | some .duplicate => some (refuse .stopLatched 0)

/-- Check 4. -/
def checkDuplicate (e : Env) (p : Plant) : Option Verdict := p.aut.duplicate.map fun since => refuse .duplicate (quietLeft e since : Int)

/-- Check 5. -/
def checkHolder (source : Nat) (p : Plant) : Option Verdict :=
  match p.aut.holder with
  | some h => if busy p ∧ h ≠ source then some (refuse .notHolder (h : Int)) else none
  | none => none

/-- The first common check that fails, for a code of the command set. -/
def commonChecks (e : Env) (c : CommandCode) (source : Nat) (p : Plant) : Option Verdict :=
  if isSafe e then some (refuse .config (configCause e))
  else if c.isMotion then (checkLatch p).or ((checkDuplicate e p).or (checkHolder source p))
  else if c = .resume then checkDuplicate e p
  else none

/-- The holder after a command: its source when a motion command was taken (R55). -/
def newHolder (c : CommandCode) (source : Nat) (v : Verdict) (old : Option Nat) : Option Nat :=
  if c.isMotion ∧ v.outcome ≠ .refused then some source else old

def setHolder (h : Option Nat) (p : Plant) : Plant := { p with aut := { p.aut with holder := h } }

/-- A command judged by the common checks and then by its owner. -/
def judge (e : Env) (c : CommandCode) (owner : Env → ArrivalEntry → Plant → Plant × Verdict) (x : ArrivalEntry) (p : Plant) : Plant × Verdict :=
  match commonChecks e c x.source p with
  | some v => (p, v)
  | none => owner e x p

/-- The completion of a command's taking: judged by the common checks and its owner, who acts; the holder settled; then the
REPLY posted (R56, R55, R57).
DEDUCED, notes/assumptions/19.md. -/
def commandDone (e : Env) (c : CommandCode) (owner : Env → ArrivalEntry → Plant → Plant × Verdict) (x : ArrivalEntry) (p : Plant) : Plant :=
  let (q, v) := judge e c owner x p
  postReply e (sequenceOf x.payload) v.outcome v.reason v.value (setHolder (newHolder c x.source v q.aut.holder) q)

/-- The taking of a COMMAND of code `c` at the head; with another head, nothing. -/
def takeCommand (c : CommandCode) (owner : Env → ArrivalEntry → Plant → Plant × Verdict) (s : State) : State :=
  match headCommand (some c) s with
  | some x => applyHead (commandDone (envOf s) c owner x s.plant) s
  | none => s

/-! ### STOP and the duplicate event (R48, R53) -/

/-- The latch cause after a STOP: DUPLICATE stays while the condition is held (R47). -/
def stopCause (source : Nat) (p : Plant) : LatchCause :=
  if p.aut.duplicate.isSome ∧ p.aut.latch = some .duplicate then .duplicate else .stop source

/-- A STOP handed over at arrival (R48): the window, the latch with a status at a change of its cause (R47), and with the latch
CLEAR before, HALT and the latch-set event. -/
def stopArrival (e : Env) (source : Nat) (stamp : Stamp) (p : Plant) : Plant :=
  let cause := stopCause source p
  let q := postStatusIf (decide (p.aut.latch ≠ some cause)) e { p with aut := { p.aut with window := some stamp, latch := some cause } }
  if p.aut.latch.isNone then latchSetEvent e (postHalt e .stop .all (latchMastState p.msq.state) q) else q

/-- AUT's entry to the duplicate condition (R53 steps 1 and 2): the quiet timer, the latch, HALT with this mast state, and then
the status, before anything is handed on. -/
def enterDuplicate (e : Env) (mast : MastState) (p : Plant) : Plant :=
  postStatus e (postHalt e .duplicate .all mast { p with aut := { p.aut with duplicate := some e.clock, latch := some .duplicate } })

/-- A duplicate event (R53): the quiet timer, and on entry step 2 and, with the latch CLEAR before, the latch-set event. -/
def duplicateEvent (e : Env) (p : Plant) : Plant :=
  if p.aut.duplicate.isSome then { p with aut := { p.aut with duplicate := some e.clock } }
  else if p.aut.latch.isNone then latchSetEvent e (enterDuplicate e (latchMastState p.msq.state) p)
  else enterDuplicate e p.msq.state p

/-! ### LINK_REPORT and the report round (R11, R58) -/

/-- A LINK_REPORT posted, its fields taken now; the group number advances (R11).
DEDUCED, notes/assumptions/39.md. -/
def postLink (s : State) : State :=
  { s with
    line := { s.line with group := (s.line.group + 1) % 3 }, plant := post (envOf s) .link (linkPayload s.line s.plant.posts.drops) s.plant }

def roundKey : RoundItem → PostKey
  | .status => .status
  | .pointing => .pointing
  | .axis a => .axisReport a
  | .link => .link

/-- The seven items in order (R58). -/
def fullRound : List RoundItem := [.status, .pointing, .axis .mast, .axis .pan, .axis .tilt, .axis .pol, .link]

/-- An item finds room: the queue is not full, or a waiting entry has the item's key (R58). -/
def hasRoom (k : PostKey) (q : PostQueue) : Bool := decide (q.entries.length < queueSize) || hasWaiting k q.entries

def postItem (i : RoundItem) (s : State) : State :=
  match i with
  | .status => { s with plant := postStatus (envOf s) s.plant }
  | .pointing => { s with plant := postPointing (envOf s) s.plant }
  | .axis a => { s with plant := postAxisReport (envOf s) a s.plant }
  | .link => postLink s

def setRound (l : List RoundItem) (s : State) : State := { s with plant := { s.plant with aut := { s.plant.aut with round := l } } }

/-- The items at the front of a round posted while each finds room; the others are the round's list (R58). -/
def postRound : List RoundItem → State → State
  | [], s => setRound [] s
  | i :: rest, s => if hasRoom (roundKey i) s.plant.posts then postRound rest (postItem i s) else setRound (i :: rest) s

/-! ### Permissive changes (R38) and DRIVE_AWAY (R45) -/

/-- PNT, MSQ and AXD at one permissive change from `before` (R42, R43, R91, R130).
DESIGN CHOICE, notes/assumptions/20.md. -/
def changeUsers (e : Env) (before : PermissiveSet) (byReport : Bool) (p : Plant) : Plant :=
  let lost := lostOf before p.pvw.permissives allPermissives
  pointingPermissives e lost (headLoss e lost (raiseLoss e lost byReport p))

/-- The permissives of a role's entry evaluated, and one permissive change handed on when any changed (R38). `byReport`
marks the taking of a fresh CLEARANCE report (R42). -/
def evaluate (e : Env) (r : Role) (byReport : Bool) (p : Plant) : Plant :=
  let before := p.pvw.permissives
  let q := { p with pvw := { p.pvw with permissives := evalRole e p r } }
  if evalRole e p r = before then q else changeUsers e before byReport q

/-- DRIVE_AWAY at a released brake or the VEHICLE expiry, with the mast not STOWED (R45). -/
def driveAway (e : Env) (p : Plant) : Plant := if p.msq.state = .stowed then p else raiseFault e .driveAway .all p

/-! ### Level reports (R44) -/

/-- A level report handed to the block whose measurement is under way: PNT at the preset, PAT, PKE's run, or tracking. -/
def handReport (e : Env) (r : LevelReport) (p : Plant) : Plant :=
  if p.pnt.state = .active (.slewing .measure) then presetReport e r p
  else if patternListens p then patternReport e r p
  else if runListens p then runReport e r p
  else if p.monitor.state = .off then p
  else trackReport e r p

/-! ### CFG -/

/-- SAFE entered (R25): the first POSITIONER_STATUS posted and the 200 ms period begun. -/
def enterSafe (cause : ConfigFault) (s : State) : State :=
  let setup := { s.setup with phase := .safe, result := .fault cause, cfg := .blank }
  let p := postStatus { clock := s.clock, setup := setup } s.plant
  { s with setup := setup, plant := { p with aut := { p.aut with statusStart := some s.clock } } }

/-- A part whose straps gave no legal station number (R20). -/
def strapFault (s : State) : Bool := decide (s.setup.result = .fault .strap)

/-- LNK watches the line: from step 5 of the start sequence, or from the entry to SAFE (R26, R25). -/
def watching (s : State) : Bool := decide (s.setup.phase = .running) || decide (s.setup.phase = .safe)

end Sys2Proof.Machine
end

