-- ==== Sys2Proof/Machine/Record.lean ====
section
/-! DEFINITION. The configuration load (R21 to R24, R169): the record's check, its fields, the ranges of R22, the agreement
of R23, the structural check of R24. -/

namespace Sys2Proof.Machine

/-! ### The bit stream (R169) -/

/-- The bytes as one big-endian number. -/
def streamOf (bytes : List Byte) : Nat := bytes.foldl (fun n b => n * 256 + b.toNat) 0

/-- The unsigned field of `width` bits at bit offset `offset` of a 1280-bit stream. -/
def fieldAt (stream offset width : Nat) : Nat := stream / 2 ^ (1280 - offset - width) % 2 ^ width

def signedAt (stream offset width : Nat) : Int := (BitVec.ofNat width (fieldAt stream offset width)).toInt

/-- A time field stored in units of 10 ms. -/
def timeAt (stream offset width : Nat) : Nat := 10 * fieldAt stream offset width

/-- The axis block at a bit offset (Table 11-6). -/
def axisBlockAt (s o : Nat) : AxisCfg :=
  { softMin := signedAt s o 17, softMax := signedAt s (o + 17) 17, fullScale := fieldAt s (o + 34) 16, vmax := fieldAt s (o + 50) 16,
    speedStep := fieldAt s (o + 66) 16, stopStep := fieldAt s (o + 82) 16, stallSpeed := fieldAt s (o + 98) 16, gain := fieldAt s (o + 114) 8,
    window := fieldAt s (o + 122) 10, settleTime := timeAt s (o + 132) 9, stallTime := timeAt s (o + 141) 9, stallDelta := fieldAt s (o + 150) 11,
    margin := fieldAt s (o + 161) 11 }

def axisOfCode : Nat → Axis
  | 0 => .mast
  | 1 => .pan
  | 2 => .tilt
  | _ => .pol

def actionOfCode : Nat → WatchAction
  | 0 => .none
  | 1 => .report
  | 2 => .haltAxis
  | _ => .haltAll

/-- The watch definition at a bit offset (Table 11-5 order 8). -/
def watchAt (s o : Nat) : WatchCfg :=
  { channel := fieldAt s o 3, threshold := fieldAt s (o + 3) 12, edgeCode := fieldAt s (o + 15) 2, depth := fieldAt s (o + 17) 4,
    action := actionOfCode (fieldAt s (o + 21) 2), axis := axisOfCode (fieldAt s (o + 23) 2), kindCode := fieldAt s (o + 25) 3 }

/-- Every field as stored (Table 11-5), times in ms. -/
def recordOf (s : Nat) : ConfigRecord :=
  { vehicleStation := fieldAt s 0 5, windStation := fieldAt s 5 5, clearanceStation := fieldAt s 10 5, levelStation := fieldAt s 15 5,
    panel1 := fieldAt s 20 5, panel2 := fieldAt s 25 5, panel3 := fieldAt s 30 5,
    vehicleLimit := timeAt s 35 10, windLimit := timeAt s 45 10, clearanceLimit := timeAt s 55 10, levelLimit := timeAt s 65 10,
    source := if fieldAt s 75 1 = 0 then .localSource else .linked, pilot := fieldAt s 76 3, enabled := BitVec.ofNat 8 (fieldAt s 79 8),
    budget := fieldAt s 87 2,
    windRaise := fieldAt s 89 10, windHold := fieldAt s 99 10, windAlarm := fieldAt s 109 10, hysteresis := fieldAt s 119 7, windDepth := fieldAt s 126 4,
    vanLevel := fieldAt s 130 10, clearanceMargin := fieldAt s 140 13, headHeight := fieldAt s 153 12, cradleClear := fieldAt s 165 14,
    stowWindow := fieldAt s 179 9,
    stowPan := fieldAt s 188 10, stowTiltWindow := fieldAt s 198 10, stowPol := fieldAt s 208 10, stowTilt := signedAt s 218 15,
    mast := axisBlockAt s 233, pan := axisBlockAt s 405, tilt := axisBlockAt s 577, pol := axisBlockAt s 749,
    watches := [watchAt s 921, watchAt s 949, watchAt s 977, watchAt s 1005, watchAt s 1033, watchAt s 1061],
    lZero := signedAt s 1089 12, lGain := fieldAt s 1101 12, floor := signedAt s 1113 12, fadeDrop := fieldAt s 1125 10, fadeTime := timeAt s 1135 12,
    lossTime := timeAt s 1147 12,
    sigma := fieldAt s 1159 10, rows := fieldAt s 1169 4, points := fieldAt s 1173 6, passes := fieldAt s 1179 3,
    mode := if fieldAt s 1182 1 = 0 then .step else .sweep,
    peakN := fieldAt s 1183 4, settle := timeAt s 1187 9, lag := timeAt s 1196 9, delta0 := fieldAt s 1205 10, deltaMin := fieldAt s 1215 10,
    deltaTrack := fieldAt s 1225 10, tolerance := fieldAt s 1235 10, roundLimit := fieldAt s 1245 7 }

/-! ### Ranges (R22) -/

/-- The nearest of 1, 2, 4, 8, the lower of two equally near. -/
def clampDepth (n : Nat) : Nat := if n ≤ 1 then 1 else if n ≤ 3 then 2 else if n ≤ 6 then 4 else 8

/-- The nearest odd number of 1..top (top odd), the lower of two equally near. -/
def clampOdd (top n : Nat) : Nat := if top ≤ n then top else if n % 2 = 1 then n else max 1 (n - 1)

/-- One axis block in its ranges; the soft limits have their range by axis. -/
def clampAxis (lo hi : Int) (c : AxisCfg) : AxisCfg :=
  { softMin := clampInt lo hi c.softMin, softMax := clampInt lo hi c.softMax, fullScale := clampNat 1 65535 c.fullScale, vmax := clampNat 1 65535 c.vmax,
    speedStep := clampNat 1 65535 c.speedStep, stopStep := clampNat 1 65535 c.stopStep, stallSpeed := clampNat 1 65535 c.stallSpeed,
    gain := clampNat 1 255 c.gain, window := clampNat 1 1000 c.window, settleTime := clampNat 0 5000 c.settleTime, stallTime := clampNat 10 5000 c.stallTime,
    stallDelta := clampNat 0 2000 c.stallDelta, margin := clampNat 0 2000 c.margin }

/-- One watch in its ranges; an edge or kind code beyond the last takes the last. -/
def clampWatch (c : WatchCfg) : WatchCfg :=
  { channel := clampNat 0 7 c.channel, threshold := clampNat 0 4095 c.threshold, edgeCode := min 2 c.edgeCode, depth := clampDepth c.depth, action := c.action,
    axis := c.axis, kindCode := min 4 c.kindCode }

/-- Every field brought into its legal range (R22). -/
def clampRanges (c : ConfigRecord) : ConfigRecord :=
  { vehicleStation := clampNat 0 30 c.vehicleStation, windStation := clampNat 0 30 c.windStation, clearanceStation := clampNat 0 30 c.clearanceStation,
    levelStation := clampNat 0 30 c.levelStation, panel1 := clampNat 0 30 c.panel1, panel2 := clampNat 0 30 c.panel2, panel3 := clampNat 0 30 c.panel3,
    vehicleLimit := clampNat 100 10000 c.vehicleLimit, windLimit := clampNat 100 10000 c.windLimit, clearanceLimit := clampNat 100 10000 c.clearanceLimit,
    levelLimit := clampNat 100 10000 c.levelLimit, source := c.source, pilot := clampNat 0 7 c.pilot, enabled := c.enabled, budget := clampNat 1 2 c.budget,
    windRaise := clampNat 0 1000 c.windRaise, windHold := clampNat 0 1000 c.windHold, windAlarm := clampNat 0 1000 c.windAlarm,
    hysteresis := clampNat 0 100 c.hysteresis, windDepth := clampDepth c.windDepth, vanLevel := clampNat 0 1000 c.vanLevel,
    clearanceMargin := clampNat 0 5000 c.clearanceMargin, headHeight := clampNat 0 3000 c.headHeight, cradleClear := clampNat 0 16000 c.cradleClear,
    stowWindow := clampNat 0 500 c.stowWindow, stowPan := clampNat 1 1000 c.stowPan, stowTiltWindow := clampNat 1 1000 c.stowTiltWindow,
    stowPol := clampNat 1 1000 c.stowPol, stowTilt := c.stowTilt,
    mast := clampAxis 0 16000 c.mast, pan := clampAxis (-35000) 35000 c.pan, tilt := clampAxis (-2000) 9000 c.tilt, pol := clampAxis (-9500) 9500 c.pol,
    watches := c.watches.map clampWatch, lZero := clampInt (-1500) 0 c.lZero, lGain := clampNat 0 4095 c.lGain, floor := clampInt (-1500) 300 c.floor,
    fadeDrop := clampNat 1 600 c.fadeDrop, fadeTime := clampNat 100 30000 c.fadeTime, lossTime := clampNat 100 30000 c.lossTime,
    sigma := clampNat 10 1000 c.sigma, rows := clampOdd 15 c.rows, points := clampOdd 31 c.points, passes := clampNat 1 4 c.passes, mode := c.mode,
    peakN := clampNat 1 8 c.peakN, settle := clampNat 0 5000 c.settle, lag := clampNat 0 5000 c.lag, delta0 := clampNat 1 1000 c.delta0,
    deltaMin := clampNat 1 1000 c.deltaMin, deltaTrack := clampNat 1 1000 c.deltaTrack, tolerance := clampNat 1 1000 c.tolerance,
    roundLimit := clampNat 1 64 c.roundLimit }

/-! ### Agreement (R23), step by step -/

/-- Step 1 on one axis. -/
def agreeLimits (c : AxisCfg) : AxisCfg := { c with softMax := max c.softMin c.softMax }

/-- Step 2 on one axis. -/
def agreeSpeeds (c : AxisCfg) : AxisCfg :=
  let v := min c.vmax c.fullScale
  { c with vmax := v, speedStep := min c.speedStep v, stopStep := min c.stopStep v, stallSpeed := min c.stallSpeed v }

def agreeAxes (f : AxisCfg → AxisCfg) (c : ConfigRecord) : ConfigRecord := { c with mast := f c.mast, pan := f c.pan, tilt := f c.tilt, pol := f c.pol }

/-- Step 3: the cradle clear height under the maximum height, the stow window under the cradle clear height. -/
def agreeCradle (c : ConfigRecord) : ConfigRecord :=
  let clear := min c.cradleClear c.mast.softMax.toNat
  { c with cradleClear := clear, stowWindow := min c.stowWindow clear }

/-- Step 4. -/
def agreeStowTilt (c : ConfigRecord) : ConfigRecord := { c with stowTilt := clampInt c.tilt.softMin c.tilt.softMax c.stowTilt }

/-- Step 5. -/
def agreeSteps (c : ConfigRecord) : ConfigRecord :=
  let low := min c.deltaMin c.delta0
  { c with deltaMin := low, deltaTrack := clampNat low c.delta0 c.deltaTrack }

/-- Step 6: with LOCAL source the pilot channel is enabled. -/
def agreePilot (c : ConfigRecord) : ConfigRecord :=
  match c.source with
  | .localSource => { c with enabled := c.enabled ||| (1#8 <<< c.pilot) }
  | .linked => c

/-- R23, its six steps in order. -/
def agreeFields (c : ConfigRecord) : ConfigRecord :=
  agreePilot (agreeSteps (agreeStowTilt (agreeCradle (agreeAxes agreeSpeeds (agreeAxes agreeLimits c)))))

/-! ### The structural check (R24) -/

def rolesOf (c : ConfigRecord) : List Nat := [c.vehicleStation, c.windStation, c.clearanceStation, c.levelStation]

def panelsOf (c : ConfigRecord) : List Nat := [c.panel1, c.panel2, c.panel3]

def structurallyWrong (station : Nat) (c : ConfigRecord) : Bool :=
  let roles := (rolesOf c).filter fun r => decide (r ≠ 0)
  roles.any (fun r => decide (r = station)) || !decide roles.Nodup || (panelsOf c).any fun x => decide (x ≠ 0) && decide (x ∈ roles)

/-! ### The load -/

/-- The CRC over bytes 0..157 against bytes 158..159 (R21). -/
def recordChecks (bytes : List Byte) : Bool := decide (crcOf (bitsOfBytes (bytes.take 158)) = word16At bytes 158)

/-- The record read to its end: its load result and the record in use, blank after a CONFIG_FAULT (R21 to R25). -/
def loadOf (station : Nat) (bytes : List Byte) : LoadResult × ConfigRecord :=
  if recordChecks bytes then
    let raw := recordOf (streamOf bytes)
    let ranged := clampRanges raw
    let c := agreeFields ranged
    if structurallyWrong station c then (.fault .structural, .blank) else (if c = raw then .loaded else .clamped, c)
  else (.fault .check, .blank)

end Sys2Proof.Machine
end

