-- ==== Sys2Proof/Machine/ExecStart.lean ====
section
/-! DEFINITION. The start-up commands (spec/02): COLD_START, RESET_RELEASE, CONFIG_LOAD_COMPLETE, CONFIG_LOAD_TIMEOUT,
MEMORY_NO_ANSWER, START_SEQUENCE. A command whose event cannot happen in the phase the part is in leaves the state as it is
(DESIGN CHOICE, notes/assumptions/1.md). -/

namespace Sys2Proof.Machine

/-- COLD_START (R19): every block at its cold-start values, all activity abandoned, the reason recorded. The commands that
wait in the model's queue are no activity of the part and stay.
DESIGN CHOICE, notes/assumptions/6.md; DESIGN CHOICE, notes/assumptions/42.md. -/
def execColdStart (reason : ResetReason) (s : State) : Host.Outcome State Fault Refusal :=
  .next { State.reset with pending := s.pending, setup := .cold reason }

/-- The straps' station number is legal (R20). -/
def legalStation (n : Nat) : Bool := decide (1 ≤ n) && decide (n ≤ 30)

/-- RESET_RELEASE (R20): the straps read; a strap fault enters SAFE, otherwise the record load begins. -/
def execResetRelease (station : BitVec 5) (mastPinHigh : Bool) (s : State) : Host.Outcome State Fault Refusal :=
  if s.setup.phase = .reset then
    let setup := { s.setup with station := station.toNat, mastNumber := if mastPinHigh then 2 else 1, phase := .loading, releasedAt := s.clock }
    let strapped := { s with setup := setup }
    .next (if legalStation station.toNat then strapped else enterSafe .strap strapped)
  else .next s

/-- The peer view once the load has bound the roles: fitted entries UNHEARD, the rest without a state (R46). -/
def boundView (e : Env) : PeerView :=
  let fresh (r : Role) : Option Freshness := if fitted e r then some .unheard else none
  { vehicle := { state := fresh .vehicle, value := none, stamp := none }, wind := { state := fresh .wind, value := none, stamp := none },
    clearance := { state := fresh .clearance, value := none, stamp := none }, level := { state := fresh .level, value := none, stamp := none },
    raiseFilter := .cold, holdFilter := .cold, alarm := false, permissives := loadedPermissives e }

/-- The record in use (R21 to R24, R46). -/
def acceptRecord (result : LoadResult) (c : ConfigRecord) (s : State) : State :=
  let setup := { s.setup with phase := .loaded, result := result, cfg := c }
  { s with setup := setup, plant := { s.plant with pvw := boundView { clock := s.clock, setup := setup } } }

/-- The load is under way and its 30 ms have not passed (R21).
DESIGN CHOICE, notes/assumptions/48.md. -/
def loadOpen (s : State) : Bool := decide (s.setup.phase = .loading) && decide (elapsed s.clock s.setup.releasedAt ≤ 30)

/-- CONFIG_LOAD_COMPLETE (R21 to R25): the 160 bytes are read; a fault enters SAFE, a good record is put in use. -/
def execConfigLoadComplete (record : List Byte) (s : State) : Host.Outcome State Fault Refusal :=
  if loadOpen s ∧ record.length = 160 then
    match loadOf s.setup.station record with
    | (.fault c, _) => .next (enterSafe c s)
    | (r, c) => .next (acceptRecord r c s)
  else .next s

/-- CONFIG_LOAD_TIMEOUT (R21): 30 ms have passed since the release and the record is not complete. -/
def execConfigLoadTimeout (s : State) : Host.Outcome State Fault Refusal :=
  if s.setup.phase = .loading ∧ 30 ≤ elapsed s.clock s.setup.releasedAt then .next (enterSafe .noAnswer s) else .next s

/-- MEMORY_NO_ANSWER (R21): the memory does not acknowledge the read. -/
def execMemoryNoAnswer (s : State) : Host.Outcome State Fault Refusal :=
  if s.setup.phase = .loading then .next (enterSafe .noAnswer s) else .next s

/-! ### START_SEQUENCE (R26, R27, R101) -/

/-- A position beyond the soft max, or below the soft min, by more than the overtravel margin (R86). -/
def beyondHigh (e : Env) (a : Axis) (x : Int) : Bool := decide ((axisCfg e a).softMax + ((axisCfg e a).margin : Int) < x)

def beyondLow (e : Env) (a : Axis) (x : Int) : Bool := decide (x < (axisCfg e a).softMin - ((axisCfg e a).margin : Int))

/-- The inputs of one axis taken into its record: position, sensor, switches, and at a first valid reading the hold target
and the outside marks (R89, R86, R101).
DEDUCED, notes/assumptions/29.md. -/
def readAxis (e : Env) (a : Axis) (x : AxisPins) (r : AxisRec) : AxisRec :=
  let q := { r with sensorValid := x.reading.isSome, switchLow := x.low, switchHigh := x.high }
  match x.reading with
  | none => q
  | some w =>
    match r.position with
    | some _ => { q with position := some w.toInt }
    | none =>
      { q with position := some w.toInt, target := some (clampSoft e a w.toInt), outsideLow := beyondLow e a w.toInt, outsideHigh := beyondHigh e a w.toInt }

/-- A fault of the start sequence: stored, its axis FAULT, the report period begun; nothing posted or handed on (R26). -/
def enterAtStart (e : Env) (kind : FaultKind) (a : Axis) (p : Plant) : Plant :=
  let q := { p with flt := { p.flt with records := p.flt.records ++ [{ kind := kind, axis := .one a }] } }
  setAxisRaw a { axisOf q a with state := .fault, reportStart := some e.clock } q

/-- Step 2 for one axis. -/
def startAxis (e : Env) (a : Axis) (x : AxisPins) (p : Plant) : Plant :=
  let q := setAxisRaw a (readAxis e a x (axisOf p a)) p
  if x.reading.isNone then enterAtStart e .sensor a q else q

/-- Step 3: the mast state and HEAD_UNPARKED (R27). -/
def deriveMast (e : Env) (p : Plant) : Plant :=
  let m := axisOf p .mast
  let height := if m.sensorValid then m.position else none
  match height with
  | none => { p with msq := { p.msq with state := .halted .start } }
  | some h =>
    if h ≤ ((cfgOf e).stowWindow : Int) ∧ headInsideStow e p then { p with msq := { p.msq with state := .stowed } }
    else
      let q := { p with msq := { p.msq with state := .halted .start } }
      if h < ((cfgOf e).cradleClear : Int) ∧ headInsideStow e p = false then enterAtStart e .headUnparked .mast q else q

/-- Step 1: the scan round begins with the lowest enabled channel, the watches UNKNOWN (R26, R62, R77). -/
def beginScan (e : Env) (p : Plant) : Plant :=
  { p with smp := beginConversion e false { p.smp with scanPointer := (scanRound e).headD 0 }, watches := List.replicate 6 .cold }

/-- START_SEQUENCE (R26): its six steps in order. Step 2 takes the axes, and so enters the SENSOR records, in the order MAST, PAN,
TILT, POL.
DESIGN CHOICE, notes/assumptions/52.md. -/
def execStartSequence (mast pan tilt pol : AxisPins) (s : State) : Host.Outcome State Fault Refusal :=
  if s.setup.phase = .loaded then
    let setup := { s.setup with phase := .running }
    let e : Env := { clock := s.clock, setup := setup }
    let p1 := beginScan e s.plant
    let p2 := startAxis e .pol pol (startAxis e .tilt tilt (startAxis e .pan pan (startAxis e .mast mast p1)))
    let p3 := deriveMast e p2
    let p4 := { p3 with aut := { p3.aut with latch := some .start, statusStart := some s.clock } }
    .next { s with setup := setup, plant := postStatus e p4 }
  else .next s

end Sys2Proof.Machine
end

