-- ==== Sys2Proof/Machine/ExecAxes.lean ====
section
/-! DEFINITION. AXD and ARB's commands (spec/06): SERVO_PERIOD, STALL_TIMEOUT, SETTLE_TIME_EXPIRY,
AXIS_REPORT_PERIOD_EXPIRY, AXIS_FREE, DRIVE_GRANT. -/

namespace Sys2Proof.Machine

/-! ### The servo period (R82, R86 to R89) -/

/-- The marks of R86 at a period; a mark that sets raises OVERTRAVEL. -/
def overtravelCheck (e : Env) (a : Axis) (p : Plant) : Plant :=
  let r := axisOf p a
  match r.position with
  | none => p
  | some x =>
    let high := beyondHigh e a x
    let low := beyondLow e a x
    let q := setAxisRaw a { r with outsideHigh := high, outsideLow := low } p
    if (high && !r.outsideHigh) || (low && !r.outsideLow) then raiseFault e .overtravel (.one a) q else q

/-- The axis drives toward an active switch (R87). -/
def atSwitch (r : AxisRec) : Bool :=
  (match r.state with
    | .moving | .settling | .stopping => true
    | .idle | .waiting | .fault => false)
    && ((decide (0 < r.v) && r.switchHigh) || (decide (r.v < 0) && r.switchLow))

def limitCheck (e : Env) (a : Axis) (p : Plant) : Plant := if atSwitch (axisOf p a) then raiseFault e .limit (.one a) p else p

/-- SENSOR at an invalid reading after a valid one (R89). -/
def sensorCheck (e : Env) (a : Axis) (wasValid : Bool) (p : Plant) : Plant :=
  if wasValid && !(axisOf p a).sensorValid then raiseFault e .sensor (.one a) p else p

/-- The checks of R86 to R89 after a reading, and MSQ's judgement of the cradle for MAST (R117). Their faults enter in the order
OVERTRAVEL, LIMIT, SENSOR, and STALL by its own command; the cradle is judged after them. The stall count stands after the halts of
OVERTRAVEL and LIMIT, which take the axis out of MOVING, and before that of SENSOR.
DESIGN CHOICE (the order of the records; no STALL in a period in which OVERTRAVEL or LIMIT halts the axis, while SENSOR does not
suppress it), notes/assumptions/62.md; DESIGN CHOICE (the cradle after the checks), notes/assumptions/65.md. -/
def periodChecks (e : Env) (a : Axis) (before : AxisRec) (p : Plant) : Plant :=
  let p1 := sensorCheck e a before.sensorValid (stallCount e a (limitCheck e a (overtravelCheck e a p)))
  match a with
  | .mast => judgeCradle e before.position p1
  | .pan | .tilt | .pol => p1

/-- The drive step, and then in IDLE the drift check. A period that makes the stall timeout due leaves its drive step to
STALL_TIMEOUT, which ends the period (R82, R88). An axis that was WAITING at the beginning of the period and has been granted in it,
as MAST is when the cradle loss returns the head's grants, makes its first drive step at its next period (R94).
DESIGN CHOICE (the stall timeout), notes/assumptions/25.md. -/
def periodDrive (e : Env) (a : Axis) (before : AxisState) (p : Plant) : Plant :=
  if (axisOf p a).state = .moving ∧ ((axisOf p a).stallDue ∨ before = .waiting) then p
  else
    let q := driveStep e a p
    if (axisOf q a).state = .idle then driftCheck e a q else q

/-- One servo period of one axis while the blocks run. -/
def servoPeriod (e : Env) (a : Axis) (x : AxisPins) (p : Plant) : Plant :=
  let before := axisOf p a
  periodDrive e a before.state (periodChecks e a before (setAxisRaw a (readAxis e a x before) p))

/-- The reading alone, as SAFE makes it for reporting (R25).
DESIGN CHOICE, notes/assumptions/23.md. -/
def readOnly (a : Axis) (x : AxisPins) (p : Plant) : Plant :=
  let r := axisOf p a
  setAxisRaw a { r with sensorValid := x.reading.isSome, position := match x.reading with
    | some w => some w.toInt
    | none => r.position } p

/-- SERVO_PERIOD (R82) of one axis.
DESIGN CHOICE, notes/assumptions/23.md. -/
def execServoPeriod (a : Axis) (x : AxisPins) (s : State) : Host.Outcome State Fault Refusal :=
  match s.setup.phase with
  | .running => .next (withPlant (servoPeriod (envOf s) a x s.plant) s)
  | .safe => .next { s with plant := readOnly a x s.plant }
  | .reset | .loading | .loaded => .next s

/-! ### STALL_TIMEOUT (R88) -/

/-- The stall timeout taken: STALL raised, and an axis that was MOVING makes the drive step of its period as STOPPING. -/
def takeStall (e : Env) (a : Axis) (p : Plant) : Plant :=
  let r := axisOf p a
  let q := raiseFault e .stall (.one a) (setAxisRaw a { r with stallDue := false } p)
  if r.state = .moving ∧ (axisOf q a).state = .stopping then stopStep e a q else q

/-- STALL_TIMEOUT (R88). -/
def execStallTimeout (a : Axis) (s : State) : Host.Outcome State Fault Refusal :=
  if (axisOf s.plant a).stallDue then .next (withPlant (takeStall (envOf s) a s.plant) s) else .next s

/-! ### SETTLE_TIME_EXPIRY (R83) -/

/-- The Completed event handed to the requester of the move (R81). -/
def handCompleted (e : Env) (q : Requester) (a : Axis) (p : Plant) : Plant :=
  match q with
  | .msq => mastCompleted e a p
  | .pnt => slewCompleted e a p
  | .pat => patternCompleted e a p
  | .pke => runCompleted e a p
  | .jog => p

/-- The move of a settled axis completes; Completed goes to the requester unless the move was a correction (R83). -/
def takeSettled (e : Env) (a : Axis) (p : Plant) : Plant :=
  let r := axisOf p a
  let q := completeMove e a p
  match r.requester with
  | some x => if r.correction then q else handCompleted e x a q
  | none => q

/-- SETTLE_TIME_EXPIRY (R83). -/
def execSettleTimeExpiry (a : Axis) (s : State) : Host.Outcome State Fault Refusal :=
  if settleExpired (envOf s) a (axisOf s.plant a) then .next (withPlant (takeSettled (envOf s) a s.plant) s) else .next s

/-! ### Reports, axis free, grants -/

/-- AXIS_REPORT_PERIOD_EXPIRY (R85): an AXIS_REPORT, and the 500 ms period restarts. -/
def execAxisReportPeriodExpiry (a : Axis) (s : State) : Host.Outcome State Fault Refusal :=
  let r := axisOf s.plant a
  match r.reportStart with
  | some t =>
    if 500 ≤ elapsed s.clock t ∧ r.state ≠ .idle then
      .next { s with plant := postAxisReport (envOf s) a (setAxisRaw a { r with reportStart := some s.clock } s.plant) }
    else .next s
  | none => .next s

/-- The axis free event handed to a requester, taken: it requests again (R81). -/
def handAxisFree (e : Env) (q : Requester) (a : Axis) (p : Plant) : Plant :=
  match q with
  | .msq => mastAxisFree e a p
  | .pnt => slewAxisFree e a p
  | .pat => patternAxisFree e a p
  | .pke => runAxisFree e a p
  | .jog => p

def takeAxisFree (e : Env) (q : Requester) (a : Axis) (p : Plant) : Plant :=
  let r := axisOf p a
  handAxisFree e q a (setAxisRaw a { r with freed := removeAll r.freed q } p)

/-- AXIS_FREE (R81). -/
def execAxisFree (a : Axis) (q : Requester) (s : State) : Host.Outcome State Fault Refusal :=
  if q ∈ (axisOf s.plant a).freed then .next (withPlant (takeAxisFree (envOf s) q a s.plant) s) else .next s

/-- DRIVE_GRANT (R94): one free grant to the waiting axis chosen by R95. A grant goes out in the step that frees it or in which an
axis joins, so a run finds no axis waiting beside a free grant.
DEDUCED, notes/assumptions/49.md. -/
def execDriveGrant (s : State) : Host.Outcome State Fault Refusal := .next (withPlant (tryGrant (envOf s) s.plant) s)

end Sys2Proof.Machine
end

