-- ==== Sys2Proof/Machine/ExecCommands.lean ====
section
/-! DEFINITION. The takings of COMMANDs and of POSITIONER_STATUS (spec/04): RESUME, CLEAR_FAULT, REPORT, RAISE, LOWER, AIM,
PEAK, CANCEL_POINTING, JOG, UNKNOWN_COMMAND_CODE, POSITIONER_STATUS, and AUT's timers STOP_WINDOW_EXPIRY,
DUPLICATE_QUIET_EXPIRY, REPORT_ROUND_POST, STATUS_PERIOD_EXPIRY. Each owner answers the plant and its verdict. -/

namespace Sys2Proof.Machine

/-! ### RESUME (R51, R52) -/

def setLatch (l : Option LatchCause) (p : Plant) : Plant := { p with aut := { p.aut with latch := l } }

/-- AUT's judgement of a RESUME; one that clears a SET latch posts a status (R52). -/
def ownResume (e : Env) (_x : ArrivalEntry) (p : Plant) : Plant × Verdict :=
  match p.aut.window with
  | some stamp => (p, refuse .stopActive (windowLeft e stamp : Int))
  | none => (postStatusIf p.aut.latch.isSome e (setLatch none p), accepted 0)

/-- RESUME (R51). -/
def execResume (s : State) : Host.Outcome State Fault Refusal := .next (takeCommand .resume ownResume s)

/-! ### CLEAR_FAULT (R99, R100) -/

/-- The records that stay at a CLEAR_FAULT. -/
def remaining (e : Env) (p : Plant) : List FaultRecord := p.flt.records.filter (conditionHolds e p)

/-- FLT's judgement of a CLEAR_FAULT, with a status at a change of the count or the overflow (R59). The axes are freed in the
order MAST, PAN, TILT, POL.
DEDUCED, notes/assumptions/33.md; DESIGN CHOICE, notes/assumptions/52.md. -/
def ownClearFault (e : Env) (_x : ArrivalEntry) (p : Plant) : Plant × Verdict :=
  let left := remaining e p
  if left.length = p.flt.records.length then (p, refuse .fault (left.length : Int))
  else
    let cleared := { p with flt := { records := left, overflow := false, overflowAxes := [] } }
    (allAxes.foldl (fun q a => freeAxis e a q) (postStatusIf (decide (faultKey cleared ≠ faultKey p)) e cleared), accepted (left.length : Int))

/-- CLEAR_FAULT (R99). -/
def execClearFault (s : State) : Host.Outcome State Fault Refusal := .next (takeCommand .clearFault ownClearFault s)

/-! ### REPORT (R58) -/

/-- AUT's judgement of a REPORT: the round holds all seven items; they are posted after the REPLY. -/
def ownReport (_e : Env) (_x : ArrivalEntry) (p : Plant) : Plant × Verdict := ({ p with aut := { p.aut with round := fullRound } }, accepted 0)

/-- REPORT (R58): the REPLY, and then the front items of the round for which there is room. -/
def execReport (s : State) : Host.Outcome State Fault Refusal :=
  let q := takeCommand .report ownReport s
  .next (if (headCommand (some .report) s).isSome ∧ isSafe (envOf s) = false then postRound fullRound q else q)

/-- REPORT_ROUND_POST (R58): the round goes on when an entry has left the post queue. -/
def execReportRoundPost (s : State) : Host.Outcome State Fault Refusal := .next (postRound s.plant.aut.round s)

/-! ### RAISE (R104 to R106) -/

/-- The allowed top of the CLEARANCE entry, when FRESH with an obstacle (R105 step 2). -/
def topNow (e : Env) (p : Plant) : Option Int :=
  match isFresh p.pvw.clearance, p.pvw.clearance.value with
  | true, some (some b) => some (allowedTop e b)
  | _, _ => none

/-- The maximum height (R105 step 1). -/
def maxHeight (e : Env) : Int := (cfgOf e).mast.softMax

/-- The lowest raise target F (R105 step 3). -/
def lowestTarget (e : Env) : Int := min (((cfgOf e).cradleClear + (cfgOf e).stowWindow : Nat) : Int) (maxHeight e)

/-- The target t of a RAISE (R105 steps 1 to 3). -/
def raiseTarget (e : Env) (p : Plant) (h : Nat) : Int :=
  let t1 := min (h : Int) (maxHeight e)
  let t2 := match topNow e p with
    | some top => min t1 top
    | none => t1
  max t2 (lowestTarget e)

/-- The effective target (R105 step 4). -/
def effectiveHeight (e : Env) (p : Plant) (h : Nat) : Int := clampSoft e .mast (raiseTarget e p h)

/-- The direction of a RAISE (R104 step 3). -/
def raiseDirection (e : Env) (p : Plant) (h : Nat) : RaiseDirection :=
  if positionOrZero p .mast < effectiveHeight e p h then .up else .down

def classOf : RaiseDirection → MotionClass
  | .up => .raise
  | .down => .lower

/-- Steps 4 and 5 of R104, for direction UP. The value of a refusal by step 5 is the allowed top, as R104 says beside R57.
DEDUCED, notes/assumptions/60.md. -/
def raiseObstacle (e : Env) (p : Plant) (h : Nat) : Option Verdict :=
  match raiseDirection e p h with
  | .down => none
  | .up =>
    match lowestMissing p raisePermissives with
    | some x => some (refusePermissive x)
    | none =>
      match topNow e p with
      | some top => if top < effectiveHeight e p h then some (refuse .range top) else none
      | none => none

/-- Steps 1 to 5 of R104. -/
def raiseRefusal (e : Env) (p : Plant) (h : Nat) : Option Verdict :=
  if mastBusy p.msq.state then some (refuse .state 0)
  else if isHeld p .mast then some (refuseFault p)
  else raiseObstacle e p h

/-- The move request of R106 and what AXD's answer makes of the RAISE. A RAISE that AXD refuses with STOPPING or BUSY leaves MSQ
noted on MAST, as R79 notes every such requester.
DEDUCED, notes/assumptions/53.md. -/
def raiseMove (e : Env) (h : Nat) (p : Plant) : Plant × Verdict :=
  let d := raiseDirection e p h
  let (q, answer) := moveRequest e (mastMove (classOf d) (raiseTarget e p h)) p
  match answer with
  | .accepted effective _ =>
    (setMast e (.raising effective d) (setStranded e false q), if effective = (h : Int) then accepted 0 else clampedTo effective)
  | .stopping | .busy => (q, refuse .state 0)
  | .range => (q, refuse .range 0)
  | .fault => (q, refuseFault p)
  | .latched | .cradle => (q, refuse .state 0)

/-- MSQ's judgement of a RAISE (R104). -/
def ownRaise (e : Env) (x : ArrivalEntry) (p : Plant) : Plant × Verdict :=
  match raiseRefusal e p (raiseHeight x.payload) with
  | some v => (p, v)
  | none => raiseMove e (raiseHeight x.payload) p

/-- RAISE (R104). -/
def execRaise (s : State) : Host.Outcome State Fault Refusal := .next (takeCommand .raise ownRaise s)

/-! ### LOWER (R112, R113) -/

/-- The refusals of R112 for a mast that is not STOWED. -/
def lowerRefusal (e : Env) (p : Plant) : Option Verdict :=
  if mastBringingDown p.msq.state then some (refuse .state 0)
  else if heldBeyondDriveAway p .mast then some (refuseFault p)
  else if headInsideStow e p then none
  else if (match p.axd.axes.mast.position with | some h => decide (h < ((cfgOf e).cradleClear : Int)) | none => false) then some (refuse .state 0)
  else if headAxes.any (heldBeyondDriveAway p) then some (refuseFault p)
  else none

/-- MSQ's judgement of a LOWER (R112). One accepted in STOWED changes nothing, the stranded mark included.
DESIGN CHOICE, notes/assumptions/54.md. -/
def ownLower (e : Env) (_x : ArrivalEntry) (p : Plant) : Plant × Verdict :=
  if p.msq.state = .stowed then (p, accepted 0)
  else
    match lowerRefusal e p with
    | some v => (p, v)
    | none => (beginLower e p, accepted 0)

/-- LOWER (R112). -/
def execLower (s : State) : Host.Outcome State Fault Refusal := .next (takeCommand .lower ownLower s)

/-! ### AIM (R122, R126) -/

/-- A head axis carries a JOG in WAITING, MOVING or SETTLING (R122 step 6, R132 step 5). -/
def headJogged (p : Plant) : Bool := headAxes.any fun a => carriesMove (axisOf p a) .jog

/-- The offsets an AIM uses (R126 step 2). -/
def aimOffsets (p : Plant) (keep : Bool) : Int × Int :=
  match keep, p.pnt.record with
  | true, some r => (r.panOffset, r.tiltOffset)
  | _, _ => (0, 0)

/-- The record an AIM writes (R126 step 2). -/
def aimRecord (p : Plant) (a : AimOperands) (x : Preset) : PointingRecord :=
  let o := aimOffsets p a.keepOffsets
  { pan := x.pan, tilt := x.tilt, pol := x.pol, panOffset := o.1, tiltOffset := o.2, peak := none, quality := none, flagPeak := a.peak, flagTrack := a.track,
    roundCount := 0, rowEnd := 0, passEnd := 0 }

/-- A head axis's target of this record lies toward an active hard limit switch (R122 step 8). -/
def aimMeetsSwitch (e : Env) (p : Plant) (r : PointingRecord) : Bool :=
  let q := { p with pnt := { p.pnt with record := some r } }
  headAxes.any fun a => switchBlocks (axisOf p a) (pointingTarget e q a)

/-- Steps 3 and 4 of R122. -/
def aimMast (e : Env) (p : Plant) : Bool :=
  match p.msq.state with
  | .stowed | .parking _ | .lowering _ => false
  | .raising _ _ => true
  | .raised | .halted _ => headFree e p

/-- Steps 1 to 6 of R122. -/
def aimRefusal (e : Env) (p : Plant) (a : AimOperands) : Option Verdict :=
  if 36000 ≤ a.bearing ∨ a.elevation < -2000 ∨ 9000 < a.elevation then some (refuse .range 0)
  else
    match lowestMissing p [.brakeSet, .headingOk, .windMoveOk] with
    | some x => some (refusePermissive x)
    | none =>
      if aimMast e p = false then some (refuse .state 0)
      else if headAxes.any (isHeld p) then some (refuseFault p)
      else if headJogged p then some (refuse .state 0)
      else none

/-- What of an activity an AIM ends, the moves of PNT apart (R126 step 1). -/
def aimEnds (e : Env) (x : Activity) (p : Plant) : Plant :=
  match x with
  | .slewing _ => cancelDwell .pnt { p with pnt := { p.pnt with measurement := .blank } }
  | .acquiring .search => haltPattern e (.aborted .aim) p
  | .acquiring .back => p
  | .peaking | .tracking => discardRun e p

/-- The activity that the AIM replaces ended, by the pointing state (R126 step 1). -/
def endForAim (e : Env) (p : Plant) : Plant :=
  match p.pnt.state with
  | .active x => aimEnds e x p
  | .held x _ => aimEnds e x p
  | .lost => discardRun e p
  | .idle | .waitingMast | .pointed => p

/-- The AIM taken up to its REPLY: the activity it replaces ended, the record written (R126 steps 1 and 2). -/
def takeAim (e : Env) (r : PointingRecord) (p : Plant) : Plant :=
  let q := endForAim e p
  { q with pnt := { q.pnt with record := some r, foundWhileHeld := none } }

/-- The AIM taken up after its REPLY (R126 steps 4 and 5). -/
def beginAim (e : Env) (p : Plant) : Plant :=
  match p.msq.state with
  | .raising _ _ =>
    let c := cancelMoves e .pnt headAxes p
    setPointing e .waitingMast { c with pnt := { c.pnt with slewList := [] } }
  | .stowed | .raised | .parking _ | .lowering _ | .halted _ => enterSlewing e p

/-- PNT's judgement of an AIM (R122), and of one that passes steps 1 and 2 of R126. -/
def ownAim (e : Env) (x : ArrivalEntry) (p : Plant) : Plant × Verdict :=
  let a := aimOf x.payload
  match aimRefusal e p a with
  | some v => (p, v)
  | none =>
    match presetOf e p a with
    | none => (p, refuse .unreachable 0)
    | some preset =>
      let r := aimRecord p a preset
      if aimMeetsSwitch e p r then (p, refuse .range 0)
      else
        (takeAim e r p, match preset.clampedValue with
          | some v => clampedTo v
          | none => accepted 0)

/-- The completion of an AIM's taking: its REPLY stands before the new state and the slew (R126 steps 3 to 5). -/
def aimDone (e : Env) (x : ArrivalEntry) (p : Plant) : Plant :=
  let q := commandDone e .aim ownAim x p
  if (judge e .aim ownAim x p).2.outcome = .refused then q else beginAim e q

/-- AIM (R122, R126). -/
def execAim (s : State) : Host.Outcome State Fault Refusal :=
  match headCommand (some .aim) s with
  | some x => .next (applyHead (aimDone (envOf s) x s.plant) s)
  | none => .next s

/-! ### PEAK (R132) -/

def peakable : PointState → Bool
  | .pointed | .active .tracking | .lost => true
  | .idle | .waitingMast | .active (.slewing _) | .active (.acquiring _) | .active .peaking | .held _ _ => false

/-- The permissives a PEAK needs, lowest code first (R132 step 2). -/
def peakNeeds (e : Env) : List Permissive := if linked e then [.brakeSet, .windMoveOk, .levelOk] else [.brakeSet, .windMoveOk]

def peakRefusal (e : Env) (p : Plant) : Option Verdict :=
  if peakable p.pnt.state = false then some (refuse .state 0)
  else
    match lowestMissing p (peakNeeds e) with
    | some x => some (refusePermissive x)
    | none =>
      if headFree e p = false then some (refuse .state 0)
      else if headAxes.any (isHeld p) then some (refuseFault p)
      else if headJogged p then some (refuse .state 0)
      else none

/-- PNT's judgement of a PEAK (R132). The run's start ends tracking and clears the round count (R150). -/
def ownPeak (e : Env) (_x : ArrivalEntry) (p : Plant) : Plant × Verdict :=
  match peakRefusal e p with
  | some v => (p, v)
  | none =>
    let q := withRecord (fun r => { r with flagPeak := true }) p
    (enterPeaking e (pointingPoint e q) (cfgOf e).delta0 q, accepted 0)

/-- PEAK (R132). -/
def execPeak (s : State) : Host.Outcome State Fault Refusal := .next (takeCommand .peak ownPeak s)

/-! ### CANCEL_POINTING (R133) -/

/-- PNT's judgement of a CANCEL_POINTING. -/
def ownCancelPointing (e : Env) (_x : ArrivalEntry) (p : Plant) : Plant × Verdict := (haltPointing e (.aborted .cancel) p, accepted 0)

/-- CANCEL_POINTING (R133). -/
def execCancelPointing (s : State) : Host.Outcome State Fault Refusal := .next (takeCommand .cancelPointing ownCancelPointing s)

/-! ### JOG (R92, R93, R167) -/

/-- The pointing states that keep the head for an activity (R92 step 2). -/
def pointingKeepsHead : PointState → Bool
  | .active _ | .held _ _ | .waitingMast => true
  | .idle | .pointed | .lost => false

/-- The head axis belongs to an active activity (R92 step 2).
DEDUCED, notes/assumptions/45.md. -/
def jogBlocked (p : Plant) (a : Axis) : Bool :=
  pointingKeepsHead p.pnt.state || (match p.msq.state with | .parking _ => true | _ => false)
    || (decide ((axisOf p a).state ≠ .idle) && decide ((axisOf p a).state ≠ .fault) && decide ((axisOf p a).requester ≠ some .jog))

/-- The target of a JOG before the clamp (R92 step 6). -/
def jogTarget (p : Plant) (a : Axis) (distance : Int) : Int := positionOrZero p a + distance

/-- R93: a RECOVERY JOG brings the axis nearer its stow position, with the mast HALTED or STOWED.
DEDUCED, notes/assumptions/34.md. -/
def recoveryAllowed (e : Env) (p : Plant) (a : Axis) (distance : Int) : Bool :=
  (match p.msq.state with | .halted _ | .stowed => true | _ => false)
    && match (axisOf p a).position with
      | some x => decide ((clampSoft e a (jogTarget p a distance) - stowPosition e a).natAbs < (x - stowPosition e a).natAbs)
      | none => true

/-- Steps 1 to 5 of R92 with R93, on an axis. -/
def jogRefusal (e : Env) (p : Plant) (a : Axis) (distance : Int) (recovery : Bool) : Option Verdict :=
  if isHead a = false then some (refuse .state 0)
  else if jogBlocked p a then some (refuse .state 0)
  else
    match lowestMissing p [.brakeSet, .windMoveOk] with
    | some x => some (refusePermissive x)
    | none =>
      if headFree e p = false ∧ recovery = false then some (refuse .state 0)
      else if headFree e p = false ∧ recoveryAllowed e p a distance = false then some (refuse .range 0)
      else if (axisOf p a).state = .fault then some (refuseFault p)
      else none

/-- R79 steps 2, 5, 6 and 7 for a JOG (R92 step 6). -/
def jogRequest (e : Env) (q : MoveRequest) (p : Plant) : Plant × Answer :=
  if (axisOf p q.axis).state = .stopping then (noteRequester .jog q.axis p, .stopping) else requestFromClamp e q p

/-- The move of a JOG and what AXD's answer makes of it (R92 step 6). The RECOVERY flag counts only while the head is not
free (R93). -/
def jogMove (e : Env) (a : Axis) (distance : Int) (recovery : Bool) (p : Plant) : Plant × Verdict :=
  let request : MoveRequest :=
    { axis := a, requester := .jog, cls := .headMove, target := jogTarget p a distance, cap := none, recovery := recovery && !headFree e p }
  let (q, answer) := jogRequest e request p
  match answer with
  | .accepted effective wasClamped =>
    (q, if wasClamped then clampedTo (clampInt (-32768) 32767 (effective - positionOrZero p a)) else accepted 0)
  | .range => (q, refuse .range 0)
  | .fault => (q, refuseFault p)
  | .stopping | .busy | .latched | .cradle => (q, refuse .state 0)

/-- AXD's judgement of a JOG: an axis byte above 3 is refused RANGE before R92 (R167). -/
def ownJog (e : Env) (x : ArrivalEntry) (p : Plant) : Plant × Verdict :=
  match jogAxis x.payload with
  | none => (p, refuse .range 0)
  | some a =>
    match jogRefusal e p a (jogDistance x.payload) (jogRecovery x.payload) with
    | some v => (p, v)
    | none => jogMove e a (jogDistance x.payload) (jogRecovery x.payload) p

/-- JOG (R92). -/
def execJog (s : State) : Host.Outcome State Fault Refusal := .next (takeCommand .jog ownJog s)

/-! ### UNKNOWN_COMMAND_CODE (R56 check 2) -/

/-- The verdict on a code that is none of Table 4-3: CONFIG in SAFE, UNKNOWN with the code otherwise. -/
def unknownVerdict (e : Env) (x : ArrivalEntry) : Verdict :=
  if isSafe e then refuse .config (configCause e) else refuse .unknown ((byteAt x.payload 0).toNat : Int)

/-- UNKNOWN_COMMAND_CODE (R56). -/
def execUnknownCommandCode (s : State) : Host.Outcome State Fault Refusal :=
  match headCommand none s with
  | some x =>
    let v := unknownVerdict (envOf s) x
    .next (applyHead (postReply (envOf s) (sequenceOf x.payload) v.outcome v.reason v.value s.plant) s)
  | none => .next s

/-! ### POSITIONER_STATUS (R53) and AUT's timers -/

/-- POSITIONER_STATUS (R53): a duplicate event when its mast number is the part's. -/
def execPositionerStatus (s : State) : Host.Outcome State Fault Refusal :=
  match headOf .positionerStatus s with
  | some x =>
    .next (applyHead (if (byteAt x.payload 0).toNat = s.setup.mastNumber then duplicateEvent (envOf s) s.plant else s.plant) s)
  | none => .next s

/-- STOP_WINDOW_EXPIRY (R48): the window closes 500 ms after its stamp. -/
def execStopWindowExpiry (s : State) : Host.Outcome State Fault Refusal :=
  match s.plant.aut.window with
  | some stamp =>
    if 500 ≤ stampAge (stampOf s.clock) stamp then .next { s with plant := { s.plant with aut := { s.plant.aut with window := none } } } else .next s
  | none => .next s

/-- DUPLICATE_QUIET_EXPIRY (R54): the condition is CLEAR 10000 ms after the latest duplicate event, with a status. -/
def execDuplicateQuietExpiry (s : State) : Host.Outcome State Fault Refusal :=
  match s.plant.aut.duplicate with
  | some since =>
    if 10000 ≤ elapsed s.clock since then .next (withPlant (postStatus (envOf s) { s.plant with aut := { s.plant.aut with duplicate := none } }) s) else .next s
  | none => .next s

/-- STATUS_PERIOD_EXPIRY (R59): a POSITIONER_STATUS, and the 200 ms period restarts. -/
def execStatusPeriodExpiry (s : State) : Host.Outcome State Fault Refusal :=
  match s.plant.aut.statusStart with
  | some t =>
    if 200 ≤ elapsed s.clock t then
      .next { s with plant := postStatus (envOf s) { s.plant with aut := { s.plant.aut with statusStart := some s.clock } } }
    else .next s
  | none => .next s

end Sys2Proof.Machine
end

