-- ==== Sys2Proof/Machine/ExecLine.lean ====
section
/-! DEFINITION. The line commands (spec/01): LINE_IDLE, START_BIT, STUCK_EVENT, NOTICE_ARRIVAL, NOTICE_DISCARD,
START_OUTSIDE_IDLE, NOTICE_BEGIN, CONTENTION_LOST, SEND_FAULT, SENT_WHOLE, WITHDRAWAL_EXPIRY, LINK_REPORT_PERIOD_EXPIRY. Until
LNK watches the line (R26, R25) they leave the state as it is. -/

namespace Sys2Proof.Machine

/-! ### The line's counts and counters -/

/-- The line after a mark: both counts of R1 and R2 as a mark leaves them. -/
def markCounts (l : Line) : Line := { l with releasedBits := 0, drivenBits := 0 }

/-- A receive fault counted (R4). -/
def countReceiveFault (l : Line) : Line := { l with counters := { l.counters with receiveFaults := bump l.counters.receiveFaults } }

def countIgnored (l : Line) : Line := { l with counters := { l.counters with ignored := bump l.counters.ignored } }

def countForeign (l : Line) : Line := { l with counters := { l.counters with foreign := bump l.counters.foreign } }

/-- The part is sending: an entry is in transmission. -/
def isSending (s : State) : Bool := (sendingEntry s.plant.posts).isSome

/-- The assembled notice discarded (R4). -/
def discardNotice (l : Line) : Line := { countReceiveFault l with receiver := .afterDiscard }

/-- LINE_IDLE (R1): 12 released bit times. The first one begins the LINK_REPORT period (R11). A notice being assembled is
truncated by the released bit times (R4). While the part is sending it drives marks, so this cannot occur.
DEDUCED, notes/assumptions/15.md. -/
def execLineIdle (s : State) : Host.Outcome State Fault Refusal :=
  if watching s ∧ isSending s = false ∧ s.line.condition ≠ .idle then
    let l := if s.line.receiver = .assembling then discardNotice s.line else s.line
    .next
      { s with
        line := { l with condition := .idle, releasedBits := 12, drivenBits := 0, receiver := .quiet, reportStart := some (l.reportStart.getD s.clock) } }
  else .next s

/-- START_BIT (R1): a mark of another station in IDLE; the line is BUSY and a notice is being assembled. -/
def execStartBit (s : State) : Host.Outcome State Fault Refusal :=
  if watching s ∧ s.line.condition = .idle then .next { s with line := { markCounts s.line with condition := .busy, receiver := .assembling } } else .next s

/-! ### Send faults (R8, R10) -/

/-- The entry in transmission back to waiting (R18). -/
def returnEntry (s : State) : State := { s with plant := { s.plant with posts := returnSending s.plant.posts } }

/-- The score and the link state at a send fault (R8, R10). -/
def scoreFault (now : Clock) (l : Line) : Line :=
  let score := l.score + 8
  { l with
    score := score, counters := { l.counters with sendFaults := bump l.counters.sendFaults },
    linkState := if 128 ≤ score then .withdrawn now else l.linkState }

/-- The effects of a send fault on the line and the queue (R8). -/
def sendFaultEffects (s : State) : State :=
  let q := returnEntry s
  { q with line := scoreFault s.clock q.line }

/-- STUCK_EVENT (R2): 1000 driven bit times. A notice being assembled is truncated, a notice being sent is a send fault
and no receive fault besides.
DESIGN CHOICE, notes/assumptions/56.md. -/
def execStuckEvent (s : State) : Host.Outcome State Fault Refusal :=
  if watching s ∧ s.line.condition ≠ .stuck then
    let q := if isSending s then sendFaultEffects s else s
    let l := if q.line.receiver = .assembling then countReceiveFault q.line else q.line
    .next
      { q with
        line := { l with
          condition := .stuck, releasedBits := 0, drivenBits := 1000, receiver := .quiet, counters := { l.counters with stuckEvents := bump l.counters.stuckEvents } } }
  else .next s

/-! ### NOTICE_ARRIVAL: DEC's judgement (R12 to R15) -/

/-- What DEC does with a well-formed notice (R12 to R14). -/
inductive Judgement where
  | ownNumber | stop
  | ignored | foreign
  | accepted (kind : ArrivalKind)
  deriving DecidableEq, Repr

/-- The role a kind is tied to (R14). -/
def roleOfKind : Nat → Option Role
  | 2 => some .vehicle
  | 3 => some .wind
  | 4 => some .clearance
  | 16 => some .level
  | _ => none

/-- A station of the panel set (R14); in SAFE any station commands. -/
def mayCommand (e : Env) (source : Nat) : Bool :=
  isSafe e || decide (source ≠ 0 ∧ (source = (cfgOf e).panel1 ∨ source = (cfgOf e).panel2 ∨ source = (cfgOf e).panel3))

/-- A role notice from the station configured for its role; none in SAFE (R14, R25). -/
def fromRoleStation (e : Env) (r : Role) (source : Nat) : Bool := !isSafe e && decide (source ≠ 0) && decide (roleStation e r = source)

/-- A notice that passes R12 and R13, judged by its source (R14). -/
def judgeSource (e : Env) (kind source : Nat) : Judgement :=
  if kind = 10 then .accepted .positionerStatus
  else if kind = 8 then (if mayCommand e source then .accepted .command else .foreign)
  else
    match roleOfKind kind with
    | some r => if fromRoleStation e r source then .accepted (.role r) else .foreign
    | none => .ignored

/-- The judgement of a well-formed notice; the first case that matches decides (R12 to R14). A part with a strap fault has
no own number (R20). -/
def judgeNotice (e : Env) (f : Frame) : Judgement :=
  let kind := tagKind f.tag
  let source := tagSource f.tag
  if source = e.setup.station ∧ e.setup.result ≠ .fault .strap then .ownNumber
  else if source = 0 ∨ source = 31 then .ignored
  else if kindUrgency kind ≠ some (tagUrgency f.tag) then .ignored
  else if lengthFits kind f.payload = false then .ignored
  else if partPosted kind then .ignored
  else if kind = 0 then .stop
  else judgeSource e kind source

/-- An arrival overrun marked on the LINK_REPORT entries whose fields were taken before it (R11). -/
def markOverrun (q : PostQueue) : PostQueue := { q with entries := q.entries.map fun x => { x with overrunSince := true } }

/-- An accepted notice joins the tail, or with the queue full is discarded and counted (R15). -/
def joinArrivals (k : ArrivalKind) (f : Frame) (s : State) : State :=
  if s.arrivals.length < queueSize then
    { s with arrivals := s.arrivals ++ [{ kind := k, source := tagSource f.tag, payload := f.payload, stamp := stampOf s.clock }] }
  else
    { s with
      line := { s.line with overrunFlag := true, counters := { s.line.counters with overruns := bump s.line.counters.overruns } },
      plant := { s.plant with posts := markOverrun s.plant.posts } }

/-- A well-formed notice acted on by DEC at its arrival (R12 to R15). -/
def actOnNotice (f : Frame) (s : State) : State :=
  match judgeNotice (envOf s) f with
  | .ownNumber => withPlant (duplicateEvent (envOf s) s.plant) s
  | .stop => withPlant (stopArrival (envOf s) (tagSource f.tag) (stampOf s.clock) s.plant) s
  | .ignored => { s with line := countIgnored s.line }
  | .foreign => { s with line := countForeign s.line }
  | .accepted k => joinArrivals k f s

/-- The line at the end of a tail: both counts restart, the notice is at its end (R1, R4). -/
def endOfTail (l : Line) : Line := { l with releasedBits := 0, drivenBits := 0, receiver := .afterNotice }

/-- NOTICE_ARRIVAL (R4): the notice assembled is whole. The command carries its bits; a length of 11..15, a payload of
another length or a check that differs makes it the discard of R4 instead.
DESIGN CHOICE, notes/assumptions/14.md. -/
def execNoticeArrival (f : Frame) (s : State) : Host.Outcome State Fault Refusal :=
  if watching s ∧ s.line.receiver = .assembling ∧ s.line.condition ≠ .stuck then
    if f.wf ∧ checkMatches f then .next (actOnNotice f { s with line := endOfTail s.line }) else .next { s with line := discardNotice s.line }
  else .next s

/-- NOTICE_DISCARD (R4): a bad length, a bad check, or a truncation, with the same effect. -/
def execNoticeDiscard (_cause : DiscardCause) (s : State) : Host.Outcome State Fault Refusal :=
  if watching s ∧ s.line.receiver = .assembling then .next { s with line := discardNotice s.line } else .next s

/-- START_OUTSIDE_IDLE (R4): a mark in BUSY after the tail of a well-formed notice.
DEDUCED, notes/assumptions/17.md. -/
def execStartOutsideIdle (s : State) : Host.Outcome State Fault Refusal :=
  if watching s ∧ s.line.condition = .busy ∧ s.line.receiver = .afterNotice then .next { s with line := countReceiveFault (markCounts s.line) } else .next s

/-! ### Sending (R6 to R9) -/

/-- The transmitter may begin (R6); a part with a strap fault begins no notice (R20). -/
def mayBegin (s : State) : Bool :=
  watching s && !isSending s && decide (s.line.condition = .idle) && decide (s.line.linkState = .active) && !strapFault s

/-- NOTICE_BEGIN (R6, R18): the oldest waiting entry of the lowest tag is in transmission, the start bit driven. -/
def execNoticeBegin (s : State) : Host.Outcome State Fault Refusal :=
  match mayBegin s, lowestWaiting s.plant.posts.entries with
  | true, some t =>
    .next
      { s with
        line := { markCounts s.line with condition := .busy, receiver := .quiet },
        plant := { s.plant with posts := { s.plant.posts with entries := markFirst t s.plant.posts.entries } } }
  | _, _ => .next s

/-- CONTENTION_LOST (R7): a 1 of the tag read as 0. `bit` counts from the tag's first bit. -/
def execContentionLost (bit : Fin 12) (s : State) : Host.Outcome State Fault Refusal :=
  match sendingEntry s.plant.posts with
  | some x => if x.tag.getMsbD bit then .next (let q := returnEntry s; { q with line := { q.line with receiver := .assembling } }) else .next s
  | none => .next s

/-- The read-back can show this mismatch in this notice (R8). -/
def mismatchPossible (x : PostEntry) : Mismatch → Bool
  | .sentZero bit => decide ((sentBits x)[bit]? = some false)
  | .sentOne bit => decide (13 ≤ bit) && decide ((sentBits x)[bit]? = some true)
  | .markInTail => true

/-- SEND_FAULT (R8): the line is released, the entry returns, the score rises by 8 (R10). The notice the other stations see
broken off is truncated for this part as well: a receiver waiting for 12 released bit times.
DEDUCED, notes/assumptions/16.md. -/
def execSendFault (m : Mismatch) (s : State) : Host.Outcome State Fault Refusal :=
  match sendingEntry s.plant.posts with
  | some x =>
    if mismatchPossible x m then
      let q := sendFaultEffects s
      .next { q with line := { q.line with receiver := .assembling } }
    else .next s
  | none => .next s

/-- The entry sent was a LINK_REPORT that carried the overrun flag set, with no overrun since (R11). -/
def settlesOverrun (x : PostEntry) : Bool := decide (x.key = .link) && bitAt x.payload 2 0 && !x.overrunSince

/-- SENT_WHOLE (R9): the entry leaves the queue, the score falls by 1, a LINK_REPORT settles the overrun flag (R11).
DEDUCED, notes/assumptions/16.md. -/
def execSentWhole (s : State) : Host.Outcome State Fault Refusal :=
  match sendingEntry s.plant.posts with
  | some x =>
    .next
      { s with
        line := { endOfTail s.line with score := s.line.score - 1, overrunFlag := s.line.overrunFlag && !settlesOverrun x },
        plant := { s.plant with posts := removeSending s.plant.posts } }
  | none => .next s

/-- WITHDRAWAL_EXPIRY (R10): 2000 ms after the withdrawal the score is 0 and the link ACTIVE. -/
def execWithdrawalExpiry (s : State) : Host.Outcome State Fault Refusal :=
  match s.line.linkState with
  | .withdrawn since => if 2000 ≤ elapsed s.clock since then .next { s with line := { s.line with linkState := .active, score := 0 } } else .next s
  | .active => .next s

/-- LINK_REPORT_PERIOD_EXPIRY (R11): one LINK_REPORT, and the 5000 ms period restarts. -/
def execLinkReportPeriodExpiry (s : State) : Host.Outcome State Fault Refusal :=
  match s.line.reportStart with
  | some t =>
    if 5000 ≤ elapsed s.clock t then .next (let q := postLink s; { q with line := { q.line with reportStart := some s.clock } }) else .next s
  | none => .next s

end Sys2Proof.Machine
end

