-- ==== Sys2Proof/Machine/ExecPeers.lean ====
section
/-! DEFINITION. PVW's commands (spec/03): the takings VEHICLE, WIND, CLEARANCE, LEVEL, and FRESHNESS_EXPIRY. -/

namespace Sys2Proof.Machine

/-- An entry as a taking leaves it: FRESH, with its value and the notice's arrival stamp (R29 steps 1 to 3). -/
def takenEntry {α : Type} (value : α) (stamp : Stamp) : PeerEntry α := { state := some .fresh, value := some value, stamp := some stamp }

/-- An entry as an expiry leaves it: STALE, the value and the stamp kept (R30). -/
def staleEntry {α : Type} (x : PeerEntry α) : PeerEntry α := { x with state := some .stale }

/-- The taking of a role notice at the head, applied to the plant; with another head, nothing (R16, R29). -/
def takeRole (r : Role) (act : Env → ArrivalEntry → Plant → Plant) (s : State) : State :=
  match headOf (.role r) s with
  | some x => applyHead (act (envOf s) x s.plant) s
  | none => s

/-! ### VEHICLE -/

def storeVehicle (x : PeerEntry VehicleValue) (p : Plant) : Plant := { p with pvw := { p.pvw with vehicle := x } }

/-- R29 for VEHICLE: the value stored, the permissives, then DRIVE_AWAY for a released brake (R32, R38, R45). -/
def takeVehicle (e : Env) (x : ArrivalEntry) (p : Plant) : Plant :=
  let v := vehicleOf x.payload
  let q := evaluate e .vehicle false (storeVehicle (takenEntry v x.stamp) p)
  if v.brakeSet then q else driveAway e q

/-- VEHICLE (R32). -/
def execVehicle (s : State) : Host.Outcome State Fault Refusal := .next (takeRole .vehicle takeVehicle s)

/-! ### WIND -/

/-- Both filters and the alarm stepped with the stored gust (R35, R37). -/
def stepWind (c : ConfigRecord) (gust : Nat) (v : PeerView) : PeerView :=
  { v with
    raiseFilter := stepFilter c.windRaise c.hysteresis c.windDepth gust v.raiseFilter,
    holdFilter := stepFilter c.windHold c.hysteresis c.windDepth gust v.holdFilter, alarm := decide (c.windAlarm ≤ gust) }

/-- The peer view replaced, with a status at a change of the wind alarm (R37). -/
def setPeerView (e : Env) (v : PeerView) (p : Plant) : Plant := postStatusIf (decide (v.alarm ≠ p.pvw.alarm)) e { p with pvw := v }

/-- R29 for WIND: the filters and the alarm, with its status, before the permissives are evaluated. -/
def takeWind (e : Env) (x : ArrivalEntry) (p : Plant) : Plant :=
  let w := windOf x.payload
  evaluate e .wind false (setPeerView e (stepWind (cfgOf e) w.gust { p.pvw with wind := takenEntry w x.stamp }) p)

/-- WIND (R33, R35). -/
def execWind (s : State) : Host.Outcome State Fault Refusal := .next (takeRole .wind takeWind s)

/-! ### CLEARANCE -/

/-- R29 for CLEARANCE: CLEARANCE_OK evaluated, then the value handed to MSQ (R39, R109, R110). -/
def takeClearance (e : Env) (x : ArrivalEntry) (p : Plant) : Plant :=
  let c := clearanceOf x.payload
  clearanceValue e c (evaluate e .clearance true { p with pvw := { p.pvw with clearance := takenEntry c x.stamp } })

/-- CLEARANCE (R34). -/
def execClearance (s : State) : Host.Outcome State Fault Refusal := .next (takeRole .clearance takeClearance s)

/-! ### LEVEL -/

/-- R29 for LEVEL: with LOCAL source the notice is discarded (R31); with LINKED the entry is stored, LEVEL_OK evaluated, and
the level report handed on (R44). -/
def takeLevel (e : Env) (x : ArrivalEntry) (p : Plant) : Plant :=
  if linked e then
    let v := levelOf x.payload
    handReport e { level := v.level, sequence := v.sequence, stamp := x.stamp }
      (evaluate e .level false { p with pvw := { p.pvw with level := takenEntry v x.stamp } })
  else p

/-- LEVEL (R34, R44). -/
def execLevel (s : State) : Host.Outcome State Fault Refusal := .next (takeRole .level takeLevel s)

/-! ### FRESHNESS_EXPIRY -/

/-- An entry that is FRESH and older than its limit (R30). -/
def expired {α : Type} (now : Stamp) (limit : Nat) (x : PeerEntry α) : Bool :=
  match x.state, x.stamp with
  | some .fresh, some t => decide (limit < stampAge now t)
  | _, _ => false

/-- The expiry of a role's entry is due. -/
def expiryDue (e : Env) (p : Plant) (r : Role) : Bool :=
  let now := stampOf e.clock
  match r with
  | .vehicle => expired now (freshLimit e .vehicle) p.pvw.vehicle
  | .wind => expired now (freshLimit e .wind) p.pvw.wind
  | .clearance => expired now (freshLimit e .clearance) p.pvw.clearance
  | .level => expired now (freshLimit e .level) p.pvw.level

/-- The peer view with a role's entry STALE; for WIND the filters and the alarm fall with it (R30, R36, R37). -/
def expireEntry (r : Role) (v : PeerView) : PeerView :=
  match r with
  | .vehicle => { v with vehicle := staleEntry v.vehicle }
  | .wind => { v with wind := staleEntry v.wind, raiseFilter := .cold, holdFilter := .cold, alarm := false }
  | .clearance => { v with clearance := staleEntry v.clearance }
  | .level => { v with level := staleEntry v.level }

/-- R30: the entry STALE, its permissives evaluated, and for VEHICLE DRIVE_AWAY (R45). -/
def expireRole (e : Env) (r : Role) (p : Plant) : Plant :=
  let q := evaluate e r false (setPeerView e (expireEntry r p.pvw) p)
  if r = .vehicle then driveAway e q else q

/-- FRESHNESS_EXPIRY (R30). -/
def execFreshnessExpiry (r : Role) (s : State) : Host.Outcome State Fault Refusal :=
  if expiryDue (envOf s) s.plant r then .next (withPlant (expireRole (envOf s) r s.plant) s) else .next s

end Sys2Proof.Machine
end

