-- ==== Sys2Proof/Machine/ExecPointing.lean ====
section
/-! DEFINITION. The timers of PNT, PAT and PKE (spec/08 to spec/10): PRESET_SETTLE_EXPIRY, SEARCH_SETTLE_EXPIRY,
PATTERN_RESUME_DELAY_EXPIRY, CROSS_SETTLE_EXPIRY, CLOSING_SETTLE_EXPIRY, RUN_RESUME_DELAY_EXPIRY, TRACK_SAMPLE_PERIOD_EXPIRY,
FADE_TIMER_EXPIRY, LOSS_TIMER_EXPIRY. -/

namespace Sys2Proof.Machine

/-- The resume delay of PAT and PKE, ms (R147, R157). -/
def resumeDelay : Nat := 1000

/-- `wait` milliseconds have passed since `start`. -/
def due (s : State) (start : Clock) (wait : Nat) : Bool := decide (wait ≤ elapsed s.clock start)

/-- PRESET_SETTLE_EXPIRY (R128): the peaking settle time after the slew has passed. -/
def execPresetSettleExpiry (s : State) : Host.Outcome State Fault Refusal :=
  if s.plant.pnt.state = .active (.slewing .settle) ∧ due s s.plant.pnt.completedAt s.setup.cfg.settle then
    .next (withPlant (presetMeasure (envOf s) s.plant) s)
  else .next s

/-- The status of the pattern, if there is one. -/
def patternStatus (p : Plant) : Option PatternStatus := p.pat.map fun x => x.status

/-- SEARCH_SETTLE_EXPIRY (R140, R141): the settle time at a search point has passed. -/
def execSearchSettleExpiry (s : State) : Host.Outcome State Fault Refusal :=
  match patternStatus s.plant with
  | some (.running (.settle since)) =>
    if due s since s.setup.cfg.settle then .next (withPlant (patternMeasure (envOf s) s.plant) s) else .next s
  | _ => .next s

/-- PATTERN_RESUME_DELAY_EXPIRY (R147): the current point or row is taken up again. -/
def execPatternResumeDelayExpiry (s : State) : Host.Outcome State Fault Refusal :=
  match patternStatus s.plant with
  | some (.resumeWait _ since) => if due s since resumeDelay then .next (withPlant (takeUpPattern (envOf s) s.plant) s) else .next s
  | _ => .next s

/-- CROSS_SETTLE_EXPIRY (R152): the settle time at a cross point has passed. -/
def execCrossSettleExpiry (s : State) : Host.Outcome State Fault Refusal :=
  match s.plant.run.status with
  | .running (.settle since) =>
    if due s since s.setup.cfg.settle then .next (withPlant (runMeasure (envOf s) .measure s.plant) s) else .next s
  | _ => .next s

/-- CLOSING_SETTLE_EXPIRY (R155): the settle time at the closing centre has passed. -/
def execClosingSettleExpiry (s : State) : Host.Outcome State Fault Refusal :=
  match s.plant.run.status with
  | .running (.closeSettle since) =>
    if due s since s.setup.cfg.settle then .next (withPlant (runMeasure (envOf s) .closeMeasure s.plant) s) else .next s
  | _ => .next s

/-- The suspended work of the run taken up again (R157). -/
def takeUpRun (e : Env) (st : RunStage) (p : Plant) : Plant := runJobs e (runFuel e) (.go (takenUpStage st)) p

/-- RUN_RESUME_DELAY_EXPIRY (R157). -/
def execRunResumeDelayExpiry (s : State) : Host.Outcome State Fault Refusal :=
  match s.plant.run.status with
  | .resumeWait st since => if due s since resumeDelay then .next (withPlant (takeUpRun (envOf s) st s.plant) s) else .next s
  | _ => .next s

def setMonitor (m : Monitor) (p : Plant) : Plant := { p with monitor := m }

/-- The sample period restarted and a pilot mean read; no mean gives no sample (R160, R70). -/
def takeSamplePeriod (e : Env) (p : Plant) : Plant :=
  let q := setMonitor { p.monitor with periodStart := some e.clock } p
  match pilotMean q.smp (cfgOf e).peakN with
  | some mean => trackSample e mean q
  | none => q

/-- TRACK_SAMPLE_PERIOD_EXPIRY (R160): 100 ms in LOCAL source. -/
def execTrackSamplePeriodExpiry (s : State) : Host.Outcome State Fault Refusal :=
  match s.plant.monitor.periodStart with
  | some t =>
    if s.plant.monitor.state ≠ .off ∧ linked (envOf s) = false ∧ due s t 100 then .next (withPlant (takeSamplePeriod (envOf s) s.plant) s) else .next s
  | none => .next s

/-- A timer of the WATCHING monitor is due (R162). -/
def timerDue (s : State) (start : Option Clock) (wait : Nat) : Bool :=
  match start with
  | some t => decide (s.plant.monitor.state = .watching) && due s t wait
  | none => false

/-- The fade: the monitor OFF, PEAKING from the pointing position with δtrack (R162, R129, R150). -/
def takeFade (e : Env) (p : Plant) : Plant :=
  let q := monitorOff p
  if q.pnt.state = .active .tracking then enterPeaking e (pointingPoint e q) (cfgOf e).deltaTrack q else q

/-- FADE_TIMER_EXPIRY (R162). -/
def execFadeTimerExpiry (s : State) : Host.Outcome State Fault Refusal :=
  if timerDue s s.plant.monitor.fadeStart s.setup.cfg.fadeTime then .next (withPlant (takeFade (envOf s) s.plant) s) else .next s

/-- The loss: both timers stopped, the monitor in RECOVERY, pointing LOST (R162, R129). -/
def takeLoss (e : Env) (p : Plant) : Plant :=
  let q := setMonitor { p.monitor with state := .recovery, fadeStart := none, lossStart := none } p
  if q.pnt.state = .active .tracking then setPointing e .lost q else q

/-- LOSS_TIMER_EXPIRY (R162). -/
def execLossTimerExpiry (s : State) : Host.Outcome State Fault Refusal :=
  if timerDue s s.plant.monitor.lossStart s.setup.cfg.lossTime then .next (withPlant (takeLoss (envOf s) s.plant) s) else .next s

end Sys2Proof.Machine
end

