-- ==== Sys2Proof/Machine/ExecSampler.lean ====
section
/-! DEFINITION. SMP and WCH's commands (spec/05): SCAN_CONVERSION_COMPLETE, DWELL_CONVERSION_COMPLETE, DWELL_FREE. -/

namespace Sys2Proof.Machine

/-! ### Watches (R72 to R75) -/

def setWatch (i : Nat) (w : WatchState) (p : Plant) : Plant := { p with watches := p.watches.set i w }

/-- A watch event: the action of watch `i + 1` (R74, R75). -/
def watchAction (e : Env) (i : Nat) (c : WatchCfg) (entered : Side) (result : Count) (p : Plant) : Plant :=
  match c.action with
  | .none => p
  | .report => postDwellHere e (.watch (i + 1) entered) (result.toNat : Int) p
  | .haltAxis => raiseFault e (watchKind c) (.one c.axis) p
  | .haltAll => raiseFault e (watchKind c) .all p

/-- An edge that matches the selection is a watch event, and its side the fault side (R73). -/
def watchEdge (e : Env) (i : Nat) (c : WatchCfg) (w : WatchState) (entered : Side) (result : Count) (p : Plant) : Plant :=
  if edgeSelected c entered then watchAction e i c entered result (setWatch i { w with faultSide := some entered } p) else setWatch i w p

/-- Watch `i + 1` given a result of a channel (R63 step 2, R72). -/
def runWatch (e : Env) (channel : Nat) (result : Count) (i : Nat) (p : Plant) : Plant :=
  match (cfgOf e).watches[i]?, p.watches[i]? with
  | some c, some w =>
    if c.channel = channel ∧ c.action ≠ .none then
      match stepWatch c result w with
      | (w1, some entered) => watchEdge e i c w1 entered result p
      | (w1, none) => setWatch i w1 p
    else p
  | _, _ => p

/-- Every watch in number order (R63 step 2). -/
def runWatches (e : Env) (channel : Nat) (result : Count) (p : Plant) : Plant := [0, 1, 2, 3, 4, 5].foldl (fun q i => runWatch e channel result i q) p

/-- Steps 1 and 2 of R63. -/
def takeResult (e : Env) (channel : Nat) (result : Count) (p : Plant) : Plant :=
  runWatches e channel result { p with smp := storeResult channel result p.smp }

/-- A pilot level in LOCAL source (R63 step 3): PAT's handing. -/
def handLevel (e : Env) (level : Int) (p : Plant) : Plant := if p.smp.sweepHanding then sweepLevel e level p else p

def withSampler (f : Sampler → Sampler) (p : Plant) : Plant := { p with smp := f p.smp }

/-- A result is a pilot level: LOCAL source and the pilot channel (R63 step 3). -/
def isPilot (e : Env) (channel : Nat) : Bool := !linked e && decide (channel = (cfgOf e).pilot)

/-- The result of a scan conversion (R63): with no dwell active a pilot level joins the history (R65). -/
def scanResult (e : Env) (channel : Nat) (result : Count) (p : Plant) : Plant :=
  let q := takeResult e channel result p
  if isPilot e channel then
    let level := pilotLevel e result
    handLevel e level (if q.smp.dwell = none then withSampler (ringWrite level) q else q)
  else q

/-- SCAN_CONVERSION_COMPLETE (R63): the conversion in progress is a scan conversion; the next one begins at once (R61), its purpose
fixed by the dwell as the result's effects leave it.
DESIGN CHOICE, notes/assumptions/55.md. -/
def execScanConversionComplete (result : Count) (s : State) : Host.Outcome State Fault Refusal :=
  match s.plant.smp.converter with
  | some { channel := c, purpose := .scan } =>
    .next (withPlant (withSampler (beginConversion (envOf s) true) (scanResult (envOf s) c result s.plant)) s)
  | _ => .next s

/-! ### The dwell (R68, R69) -/

/-- A dwell mean handed to its requester (R68 step 2). -/
def handMean (e : Env) (q : Requester) (mean : Int) (p : Plant) : Plant :=
  match q with
  | .pnt => presetMean e mean p
  | .pat => patternMean e mean p
  | .pke => runMean e mean p
  | .msq | .jog => p

/-- A level into the active dwell `d`; at the N-th the dwell ends, its mean is handed on, and the dwell is free (R68).
DEDUCED, notes/assumptions/47.md. -/
def dwellLevel (e : Env) (d : Dwell) (level : Int) (p : Plant) : Plant :=
  let s := ringWrite level p.smp
  if s.count = d.samples then
    handMean e d.requester (meanOf (sumLevels (lastLevels s d.samples)) d.samples) { p with smp := dwellFreed { s with dwell := none } }
  else { p with smp := s }

/-- The level of a dwell conversion begun for the dwell `identity`: into that dwell while it is active, into the history
when none is active, and nowhere when another is (R68, R69).
DESIGN CHOICE (a dwell accepted and ended again meanwhile), notes/assumptions/61.md. -/
def placeLevel (e : Env) (identity : Nat) (level : Int) (p : Plant) : Plant :=
  match p.smp.dwell with
  | some d => if d.identity = identity then dwellLevel e d level p else p
  | none => withSampler (ringWrite level) p

/-- The result of a dwell conversion (R63, R68). -/
def dwellResult (e : Env) (channel identity : Nat) (result : Count) (p : Plant) : Plant :=
  let q := takeResult e channel result p
  if isPilot e channel then handLevel e (pilotLevel e result) (placeLevel e identity (pilotLevel e result) q) else q

/-- DWELL_CONVERSION_COMPLETE (R68): the conversion in progress is a dwell conversion; a scan conversion follows (R67), begun after
the result's effects.
DESIGN CHOICE, notes/assumptions/55.md. -/
def execDwellConversionComplete (result : Count) (s : State) : Host.Outcome State Fault Refusal :=
  match s.plant.smp.converter with
  | some { channel := c, purpose := .dwell identity } =>
    .next (withPlant (withSampler (beginConversion (envOf s) false) (dwellResult (envOf s) c identity result s.plant)) s)
  | _ => .next s

/-- The requester is in a measurement that wants a dwell it does not have (R66). -/
def wantsDwell (q : Requester) (p : Plant) : Bool :=
  !dwellIs q p &&
    match q with
    | .pnt => decide (p.pnt.state = .active (.slewing .measure))
    | .pat => (match p.pat with | some x => decide (x.status = .running .measure) | none => false)
    | .pke => decide (p.run.status = .running .measure) || decide (p.run.status = .running .closeMeasure)
    | .msq | .jog => false

/-- A requester's dwell free event, taken (R66). -/
def takeDwellFree (e : Env) (q : Requester) (p : Plant) : Plant :=
  let r := withSampler (fun s => { s with freed := removeAll s.freed q }) p
  if wantsDwell q r then requestDwell e q r else r

/-- DWELL_FREE (R66): a requester to whom the event was handed asks again. -/
def execDwellFree (q : Requester) (s : State) : Host.Outcome State Fault Refusal :=
  if q ∈ s.plant.smp.freed then .next (withPlant (takeDwellFree (envOf s) q s.plant) s) else .next s

end Sys2Proof.Machine
end

