-- ==== Sys2Proof/Machine/Dispatch.lean ====
section
/-! DEFINITION. The meaning of each command: one arm per constructor of `Instr`, one direct call each. -/

namespace Sys2Proof.Machine

/-- The effect of a command on everything but the queue of commands. -/
def exec (i : Instr) (s : State) : Host.Outcome State Fault Refusal :=
  match i with
  -- start-up (spec/02)
  | .coldStart reason => Sys2Proof.Machine.execColdStart reason s
  | .resetRelease station mastPinHigh => Sys2Proof.Machine.execResetRelease station mastPinHigh s
  | .configLoadComplete record => Sys2Proof.Machine.execConfigLoadComplete record s
  | .configLoadTimeout => Sys2Proof.Machine.execConfigLoadTimeout s
  | .memoryNoAnswer => Sys2Proof.Machine.execMemoryNoAnswer s
  | .startSequence mast pan tilt pol => Sys2Proof.Machine.execStartSequence mast pan tilt pol s
  -- the line (spec/01)
  | .lineIdle => Sys2Proof.Machine.execLineIdle s
  | .startBit => Sys2Proof.Machine.execStartBit s
  | .stuckEvent => Sys2Proof.Machine.execStuckEvent s
  | .noticeArrival frame => Sys2Proof.Machine.execNoticeArrival frame s
  | .noticeDiscard cause => Sys2Proof.Machine.execNoticeDiscard cause s
  | .startOutsideIdle => Sys2Proof.Machine.execStartOutsideIdle s
  | .noticeBegin => Sys2Proof.Machine.execNoticeBegin s
  | .contentionLost bit => Sys2Proof.Machine.execContentionLost bit s
  | .sendFault mismatch => Sys2Proof.Machine.execSendFault mismatch s
  | .sentWhole => Sys2Proof.Machine.execSentWhole s
  | .withdrawalExpiry => Sys2Proof.Machine.execWithdrawalExpiry s
  | .linkReportPeriodExpiry => Sys2Proof.Machine.execLinkReportPeriodExpiry s
  -- takings of the arrival queue's head (R16)
  | .vehicle => Sys2Proof.Machine.execVehicle s
  | .wind => Sys2Proof.Machine.execWind s
  | .clearance => Sys2Proof.Machine.execClearance s
  | .level => Sys2Proof.Machine.execLevel s
  | .positionerStatus => Sys2Proof.Machine.execPositionerStatus s
  | .resume => Sys2Proof.Machine.execResume s
  | .clearFault => Sys2Proof.Machine.execClearFault s
  | .report => Sys2Proof.Machine.execReport s
  | .raise => Sys2Proof.Machine.execRaise s
  | .lower => Sys2Proof.Machine.execLower s
  | .aim => Sys2Proof.Machine.execAim s
  | .peak => Sys2Proof.Machine.execPeak s
  | .cancelPointing => Sys2Proof.Machine.execCancelPointing s
  | .jog => Sys2Proof.Machine.execJog s
  | .unknownCommandCode => Sys2Proof.Machine.execUnknownCommandCode s
  -- peer view and authority timers (spec/03, spec/04)
  | .freshnessExpiry role => Sys2Proof.Machine.execFreshnessExpiry role s
  | .stopWindowExpiry => Sys2Proof.Machine.execStopWindowExpiry s
  | .duplicateQuietExpiry => Sys2Proof.Machine.execDuplicateQuietExpiry s
  | .reportRoundPost => Sys2Proof.Machine.execReportRoundPost s
  | .statusPeriodExpiry => Sys2Proof.Machine.execStatusPeriodExpiry s
  -- sampler (spec/05)
  | .scanConversionComplete result => Sys2Proof.Machine.execScanConversionComplete result s
  | .dwellConversionComplete result => Sys2Proof.Machine.execDwellConversionComplete result s
  | .dwellFree requester => Sys2Proof.Machine.execDwellFree requester s
  -- axis drives (spec/06)
  | .servoPeriod axis pins => Sys2Proof.Machine.execServoPeriod axis pins s
  | .stallTimeout axis => Sys2Proof.Machine.execStallTimeout axis s
  | .settleTimeExpiry axis => Sys2Proof.Machine.execSettleTimeExpiry axis s
  | .axisReportPeriodExpiry axis => Sys2Proof.Machine.execAxisReportPeriodExpiry axis s
  | .axisFree axis requester => Sys2Proof.Machine.execAxisFree axis requester s
  | .driveGrant => Sys2Proof.Machine.execDriveGrant s
  -- pointing, search, peaking, tracking (spec/08, spec/09, spec/10)
  | .presetSettleExpiry => Sys2Proof.Machine.execPresetSettleExpiry s
  | .searchSettleExpiry => Sys2Proof.Machine.execSearchSettleExpiry s
  | .patternResumeDelayExpiry => Sys2Proof.Machine.execPatternResumeDelayExpiry s
  | .crossSettleExpiry => Sys2Proof.Machine.execCrossSettleExpiry s
  | .closingSettleExpiry => Sys2Proof.Machine.execClosingSettleExpiry s
  | .runResumeDelayExpiry => Sys2Proof.Machine.execRunResumeDelayExpiry s
  | .trackSamplePeriodExpiry => Sys2Proof.Machine.execTrackSamplePeriodExpiry s
  | .fadeTimerExpiry => Sys2Proof.Machine.execFadeTimerExpiry s
  | .lossTimerExpiry => Sys2Proof.Machine.execLossTimerExpiry s

end Sys2Proof.Machine
end

