-- ==== Sys2Proof/Machine/Step.lean ====
section
/-! DEFINITION. One step: the command at the front of the queue, or on an empty queue one millisecond of the part's clock. -/

namespace Sys2Proof.Machine

/-- One millisecond passes; what falls due at it comes as a command (DESIGN CHOICE, notes/assumptions/2.md). -/
def tick (s : State) : State := { s with clock := s.clock + 1 }

/-- The command at the front of the queue is taken and run with the queue's rest; with none waiting, the clock advances. -/
def step (s : State) : Host.Outcome State Fault Refusal :=
  match s.pending with
  | [] => .next (tick s)
  | c :: rest => exec c { s with pending := rest }

/-- The command a word spells put at the front of the queue; no word spells one, since the table gives no row bits. -/
def State.withFetchWord (s : State) (nbits w : Nat) : State :=
  match decodeTableWord nbits w with
  | some c => { s with pending := c :: s.pending }
  | none => s

end Sys2Proof.Machine
end

