-- ==== Sys2Proof/Safety.lean ====
section
/-! DEFINITION. What counts as a sound state of the part, in the terms the statements use: bounds the spec gives the queues,
the score, the fault set, the ring, and the outputs of an axis at rest. -/

namespace Sys2Proof.Machine

/-- No two waiting entries share a key, and at most one entry is in transmission (R17). -/
def postsSound (q : PostQueue) : Bool :=
  decide (q.entries.length ≤ queueSize) && decide ((q.entries.filter fun x => x.sending).length ≤ 1)
    && decide ((q.entries.filter fun x => !x.sending).map fun x => x.key).Nodup && decide (q.drops ≤ 65535)

/-- The score and the link state agree (R10, Table 1-3). -/
def scoreSound (l : Line) : Bool :=
  match l.linkState with
  | .active => decide (l.score ≤ 127)
  | .withdrawn _ => decide (128 ≤ l.score) && decide (l.score ≤ 135)

/-- At most 8 records, no two alike (R96). -/
def faultsSound (f : FaultSet) : Bool := decide (f.records.length ≤ 8) && decide f.records.Nodup

/-! ### The phases before the part runs, and SAFE (R19, R25, R26) -/

/-- An axis record at its cold-start values but for the reading (R25). -/
def axisCold (r : AxisRec) : Bool := decide (r = { AxisRec.cold with position := r.position, sensorValid := r.sensorValid })

/-- No block but AUT and the post queue has left its cold-start values, the readings of the sensors apart (R25). -/
def dormant (p : Plant) : Bool :=
  allAxes.all (fun a => axisCold (axisOf p a)) && decide (p.axd.grants = []) && decide (p.axd.waiting = []) && decide (p.smp = .cold)
    && decide (p.watches = List.replicate 6 .cold) && decide (p.flt = .cold) && decide (p.pnt = .cold) && decide (p.pat = none) && decide (p.run = .cold)
    && decide (p.monitor = .cold) && decide (p.aut.round = []) && decide (p.pvw = .cold)

/-- No role notice waits to be taken: in SAFE every one is dropped (R14, R25). -/
def noRoleWaits (l : List ArrivalEntry) : Bool := l.all fun x => match x.kind with
  | .role _ => false
  | .command | .positionerStatus => true

/-- Until the start sequence nothing has happened to the part but its load, which binds the roles of the peer view; in SAFE
nothing happens beyond LNK, DEC and AUT (R19, R25, R26, R46). -/
def quiet (s : State) : Bool :=
  match s.setup.phase with
  | .reset | .loading => decide (s.arrivals = []) && decide (s.line = .cold) && decide (s.plant = .cold)
  | .loaded => decide (s.arrivals = []) && decide (s.line = .cold) && decide (s.plant = { Plant.cold with pvw := boundView (envOf s) })
  | .safe => dormant s.plant && noRoleWaits s.arrivals
  | .running => true

/-! ### The queues and the link -/

/-- The bounds of the arrival queue and of the post queue (R15, R17). -/
def queuesSound (s : State) : Bool := decide (s.arrivals.length ≤ queueSize) && postsSound s.plant.posts

/-- The score agrees with the link state, and a withdrawn link sends nothing (R10). -/
def linkSound (s : State) : Bool :=
  scoreSound s.line && match s.line.linkState with
    | .active => true
    | .withdrawn _ => decide (sendingEntry s.plant.posts = none)

/-! ### Axes -/

/-- An axis at rest drives nothing (R78). -/
def axisAtRest (r : AxisRec) : Bool := r.brakeSet && decide (r.v = 0)

/-- The outputs of an axis follow its state and its speed: in IDLE, WAITING and FAULT the brake is set and v is 0, in the
others the brake is released; the speed code and the direction are those of v (R78, R82). -/
def axisSound (e : Env) (a : Axis) (r : AxisRec) : Bool :=
  decide (r.code = speedCode e a r.v) && decide (r.dirDriven = decide (r.v < 0)) &&
    match r.state with
    | .idle | .waiting | .fault => axisAtRest r
    | .moving | .settling | .stopping => !r.brakeSet

def axesSound (s : State) : Bool := allAxes.all fun a => axisSound (envOf s) a (axisOf s.plant a)

/-- The soft limits of every axis are in order (R23 step 1). -/
def limitsOrdered (c : ConfigRecord) : Bool :=
  decide (c.mast.softMin ≤ c.mast.softMax) && decide (c.pan.softMin ≤ c.pan.softMax) && decide (c.tilt.softMin ≤ c.tilt.softMax)
    && decide (c.pol.softMin ≤ c.pol.softMax)

/-- A target lies within the soft limits of its axis (R79 step 5). -/
def targetWithin (c : AxisCfg) (r : AxisRec) : Bool :=
  match r.target with
  | some x => decide (c.softMin ≤ x) && decide (x ≤ c.softMax)
  | none => true

def targetsSound (s : State) : Bool := limitsOrdered s.setup.cfg && allAxes.all fun a => targetWithin (axisCfg (envOf s) a) (axisOf s.plant a)

/-- ARB's lists agree with the axis states: a grant is held exactly in MOVING and SETTLING, and an axis waits exactly in
WAITING; neither list repeats an axis (R94). -/
def arbiterSound (p : Plant) : Bool :=
  decide p.axd.grants.Nodup && decide p.axd.waiting.Nodup && allAxes.all fun a =>
    decide (a ∈ p.axd.grants ↔ ((axisOf p a).state = .moving ∨ (axisOf p a).state = .settling)) &&
      decide (a ∈ p.axd.waiting ↔ (axisOf p a).state = .waiting)

/-- No more grants are held than the drive budget (R94). -/
def budgetSound (s : State) : Bool := decide (s.plant.axd.grants.length ≤ s.setup.cfg.budget)

/-- While the STOP latch is SET no axis is WAITING, MOVING or SETTLING (R50). -/
def latchSound (p : Plant) : Bool :=
  p.aut.latch.isNone || allAxes.all fun a => match (axisOf p a).state with
    | .waiting | .moving | .settling => false
    | .idle | .stopping | .fault => true

/-- An active dwell is one that PNT, PAT or PKE asked for (R66). -/
def dwellSound (p : Plant) : Bool := p.smp.dwell.all fun d => decide (d.requester = .pnt ∨ d.requester = .pat ∨ d.requester = .pke)

/-! ### The configuration in use (R22, R23) -/

def inRange (lo hi x : Nat) : Bool := decide (lo ≤ x) && decide (x ≤ hi)

def inRangeInt (lo hi x : Int) : Bool := decide (lo ≤ x) && decide (x ≤ hi)

def depthLegal (n : Nat) : Bool := decide (n ∈ [1, 2, 4, 8])

def axisCfgLegal (lo hi : Int) (c : AxisCfg) : Bool :=
  inRangeInt lo hi c.softMin && inRangeInt lo hi c.softMax && decide (c.softMin ≤ c.softMax) && inRange 1 65535 c.fullScale && inRange 1 65535 c.vmax
    && decide (c.vmax ≤ c.fullScale) && inRange 1 65535 c.speedStep && decide (c.speedStep ≤ c.vmax) && inRange 1 65535 c.stopStep
    && decide (c.stopStep ≤ c.vmax) && inRange 1 65535 c.stallSpeed && decide (c.stallSpeed ≤ c.vmax) && inRange 1 255 c.gain && inRange 1 1000 c.window
    && inRange 0 5000 c.settleTime && inRange 10 5000 c.stallTime && inRange 0 2000 c.stallDelta && inRange 0 2000 c.margin

def watchLegal (c : WatchCfg) : Bool :=
  inRange 0 7 c.channel && inRange 0 4095 c.threshold && inRange 0 2 c.edgeCode && depthLegal c.depth && inRange 0 4 c.kindCode

/-- Every field in its range of R22 and in agreement by R23. -/
def cfgLegal (c : ConfigRecord) : Bool :=
  [c.vehicleStation, c.windStation, c.clearanceStation, c.levelStation, c.panel1, c.panel2, c.panel3].all (inRange 0 30)
    && [c.vehicleLimit, c.windLimit, c.clearanceLimit, c.levelLimit].all (inRange 100 10000)
    && inRange 0 7 c.pilot && inRange 1 2 c.budget && [c.windRaise, c.windHold, c.windAlarm, c.vanLevel].all (inRange 0 1000) && inRange 0 100 c.hysteresis
    && depthLegal c.windDepth && inRange 0 5000 c.clearanceMargin && inRange 0 3000 c.headHeight && inRange 0 16000 c.cradleClear
    && decide ((c.cradleClear : Int) ≤ c.mast.softMax) && inRange 0 500 c.stowWindow && decide (c.stowWindow ≤ c.cradleClear)
    && [c.stowPan, c.stowTiltWindow, c.stowPol].all (inRange 1 1000) && inRangeInt c.tilt.softMin c.tilt.softMax c.stowTilt
    && axisCfgLegal 0 16000 c.mast && axisCfgLegal (-35000) 35000 c.pan && axisCfgLegal (-2000) 9000 c.tilt && axisCfgLegal (-9500) 9500 c.pol
    && c.watches.all watchLegal && inRangeInt (-1500) 0 c.lZero && inRange 0 4095 c.lGain && inRangeInt (-1500) 300 c.floor
    && inRange 1 600 c.fadeDrop && inRange 100 30000 c.fadeTime && inRange 100 30000 c.lossTime && inRange 10 1000 c.sigma
    && inRange 1 15 c.rows && decide (c.rows % 2 = 1) && inRange 1 31 c.points && decide (c.points % 2 = 1) && inRange 1 4 c.passes && inRange 1 8 c.peakN
    && inRange 0 5000 c.settle && inRange 0 5000 c.lag && [c.delta0, c.deltaMin, c.deltaTrack, c.tolerance].all (inRange 1 1000)
    && decide (c.deltaMin ≤ c.deltaTrack) && decide (c.deltaTrack ≤ c.delta0) && inRange 1 64 c.roundLimit
    && (decide (c.source = .linked) || c.enabled.getLsbD c.pilot)

/-! ### Forms the statements use -/

/-- The part has entered SAFE from `s` with this cause: the first POSITIONER_STATUS posted, the 200 ms period begun, nothing
else changed (R25). -/
def safeEntered (cause : ConfigFault) (s t : State) : Prop :=
  t.setup = { s.setup with phase := .safe, result := .fault cause, cfg := .blank } ∧
    t.plant = { s.plant with
      posts := postTo .status (postTag (envOf t) .status) (statusPayload (envOf t) s.plant) s.plant.posts,
      aut := { s.plant.aut with statusStart := some s.clock } } ∧
    t = { s with setup := t.setup, plant := t.plant }

/-- A post under this key was made between `p` and `q`, and no later one lost it uncounted: an entry waits under it, or a drop has
been counted; the counter stays at 65535 (R17). -/
def madePost (k : PostKey) (p q : Plant) : Prop :=
  hasWaiting k q.posts.entries = true ∨ p.posts.drops < q.posts.drops ∨ 65535 ≤ p.posts.drops

/-- A post under this key with this payload was made between `p` and `q`, no later one took its place in the queue, and none lost it
uncounted (R17). -/
def postedWith (k : PostKey) (x : List Byte) (p q : Plant) : Prop :=
  (∃ y ∈ q.posts.entries, y.key = k ∧ y.sending = false ∧ y.payload = x) ∨ p.posts.drops < q.posts.drops ∨ 65535 ≤ p.posts.drops

/-- A DWELL_REPORT with this point kind and level, at the PAN and TILT positions last read, was posted between `p` and `q` (R142, R152). -/
def dwellPosted (kind : PointKind) (level : Int) (p q : Plant) : Prop :=
  postedWith .dwell (dwellPayload kind (positionOrZero p .pan) (positionOrZero p .tilt) level) p q

/-- A fault record stands in the set, or its axis among the overflow axes of a full one (R96). -/
def faultEntered (kind : FaultKind) (axis : FaultAxis) (f : FaultSet) : Prop :=
  { kind := kind, axis := axis } ∈ f.records ∨ (f.overflow = true ∧ axis ∈ f.overflowAxes)

/-- An axis state with its move ended: WAITING falls to IDLE, MOVING and SETTLING to STOPPING (R49, R81, R84). -/
def endedState : AxisState → AxisState
  | .waiting => .idle
  | .moving | .settling | .stopping => .stopping
  | .idle => .idle
  | .fault => .fault

/-- An IDLE axis would be granted a move to `target`: the latch CLEAR, no switch in the way, a head axis free (R79). -/
def mayMoveTo (e : Env) (p : Plant) (a : Axis) (target : Int) : Prop :=
  p.aut.latch = none ∧ (axisOf p a).state = .idle ∧ switchBlocks (axisOf p a) (clampSoft e a target) = false ∧ (a ≠ .mast → headFree e p = true)

/-- The axis has taken a request: WAITING, or MOVING where a grant was free at once (R79, R94). -/
def movesTo (who : Requester) (cls : MotionClass) (e : Env) (p : Plant) (a : Axis) (target : Int) : Prop :=
  ((axisOf p a).state = .waiting ∨ (axisOf p a).state = .moving) ∧ (axisOf p a).requester = some who ∧ (axisOf p a).cls = some cls ∧
    (axisOf p a).target = some (clampSoft e a target) ∧ (axisOf p a).correction = false

/-- What ARB may do to an axis at an event that is not its own: nothing, or a grant, which sets its move MOVING (R94). -/
def grantedOrSame (r r' : AxisRec) : Prop :=
  r' = r ∨ r' = { r with state := .moving, brakeSet := false, v := 0, stallTimer := 0, stallRef := r.position, reportStart := r'.reportStart }

/-- The axis that stands first among the waiting ones (R95): MAST; of PAN and TILT both waiting the one the flag does not name; PAN or
TILT; POL. -/
def standsFirst (d : Drives) (a : Axis) : Prop :=
  (a = .mast ∧ .mast ∈ d.waiting) ∨
    (a = .pan ∧ .mast ∉ d.waiting ∧ .pan ∈ d.waiting ∧ (.tilt ∉ d.waiting ∨ d.lastGranted = .tilt)) ∨
    (a = .tilt ∧ .mast ∉ d.waiting ∧ .tilt ∈ d.waiting ∧ (.pan ∉ d.waiting ∨ d.lastGranted = .pan)) ∨
    (a = .pol ∧ d.waiting ≠ [] ∧ ∀ b ∈ d.waiting, b = .pol)

/-- Every axis but `a` is as it was, or was waiting and has been granted (R94). -/
def othersKept (a : Axis) (p q : Plant) : Prop :=
  ∀ b, b ≠ a → grantedOrSame (axisOf p b) (axisOf q b) ∧ (b ∉ p.axd.waiting → axisOf q b = axisOf p b)

/-- PAN and TILT would be granted moves to a point. -/
def mayMoveToPoint (e : Env) (p : Plant) (x : HeadPoint) : Prop :=
  arbiterSound p = true ∧ mayMoveTo e p .pan x.pan ∧ mayMoveTo e p .tilt x.tilt

/-- PAN and TILT have taken the requests of PAT or PKE to a point (R139, R151). -/
def moveToPoint (who : Requester) (e : Env) (p : Plant) (x : HeadPoint) : Prop :=
  movesTo who .headMove e p .pan x.pan ∧ movesTo who .headMove e p .tilt x.tilt

/-- WIND_MOVE_OK and, with LINKED source, LEVEL_OK are given: the needs of ACQUIRING and PEAKING (R130). -/
def activityMay (e : Env) (p : Plant) : Prop := given p .windMoveOk = true ∧ ((cfgOf e).source = .linked → given p .levelOk = true)

/-- A run begun from a centre with a step: PAN and TILT on their way to its first point (R150, R151). -/
def runBegun (e : Env) (centre : HeadPoint) (delta : Nat) (q : Plant) : Prop :=
  q.run.status = .running .toPoint ∧ q.run.centre = centre ∧ q.run.delta = some delta ∧ q.run.index = 1 ∧ q.run.best = none ∧ q.run.moveList = [.pan, .tilt] ∧
    q.run.levels = { centre := none, panPlus := none, panMinus := none, tiltPlus := none, tiltMinus := none } ∧ moveToPoint .pke e q centre

/-- The level reports counted by a measurement after one more (R128, R141): `inTime` says its stamp is late enough. -/
def counted (n : Nat) (r : LevelReport) (inTime : Bool) (m : Measurement) : Measurement :=
  if m.lastSequence ≠ some r.sequence ∧ inTime = true ∧ m.count < n then
    { m with count := m.count + 1, sum := m.sum + r.level, lastSequence := some r.sequence }
  else { m with lastSequence := some r.sequence }

/-- What the duplicate event makes of `s` (R53): the quiet timer restarts; on entry to the condition the latch is SET with cause
DUPLICATE and HALT and then a status are posted; the latch CLEAR before, the latch-set event comes after them: it stops every
axis, halts the mast unless STOWED and halts pointing (R49). -/
def duplicateTaken (s t : State) : Prop :=
  let aut : Authority := { s.plant.aut with duplicate := some s.clock }
  t = { s with plant := t.plant } ∧
    (s.plant.aut.duplicate.isSome = true → t.plant = { s.plant with aut := aut }) ∧
    (s.plant.aut.duplicate = none →
      t.plant.aut = { aut with latch := some .duplicate } ∧ t.plant.pvw = s.plant.pvw ∧ t.plant.flt = s.plant.flt ∧
      (s.plant.aut.latch.isSome = true →
        t.plant = postStatus (envOf s) (postHalt (envOf s) .duplicate .all s.plant.msq.state { s.plant with aut := { aut with latch := some .duplicate } })) ∧
      (s.plant.aut.latch = none →
        t.plant = latchSetEvent (envOf s) (postStatus (envOf s)
          (postHalt (envOf s) .duplicate .all (if s.plant.msq.state = .stowed then .stowed else .halted .stop)
            { s.plant with aut := { aut with latch := some .duplicate } })) ∧
        madePost .halt s.plant t.plant ∧ madePost .status s.plant t.plant ∧
        (arbiterSound s.plant = true → ∀ a, (axisOf t.plant a).state = endedState (axisOf s.plant a).state) ∧
        t.plant.msq.state = (if s.plant.msq.state = .stowed then .stowed else .halted .stop) ∧
        t.plant.pnt.state = .idle ∧ t.plant.pnt.record = s.plant.pnt.record))

/-- The state after the taking of the command `x` at the head that left the plant `q` and was answered with `v` (R16, R57). -/
def replied (x : ArrivalEntry) (v : Verdict) (q : Plant) (s : State) : State :=
  applyHead (postReply (envOf s) (sequenceOf x.payload) v.outcome v.reason v.value q) s

/-- The taking that judges a COMMAND of each code (R16, Table 4-3). -/
def instrOf : CommandCode → Instr
  | .resume => .resume
  | .clearFault => .clearFault
  | .report => .report
  | .raise => .raise
  | .lower => .lower
  | .aim => .aim
  | .peak => .peak
  | .cancelPointing => .cancelPointing
  | .jog => .jog

/-! ### An AIM over the work it replaces (R126) -/

/-- Whose work an AIM ends, by the pointing state (R126 step 1): PNT's measurement, PAT's pattern, PKE's run or its monitoring. -/
def replacedWork (p : Plant) : Option Requester :=
  match p.pnt.state with
  | .active (.slewing _) | .held (.slewing _) _ => some .pnt
  | .active (.acquiring .search) | .held (.acquiring .search) _ => if patternUnderWay p then some .pat else none
  | .active .peaking | .held .peaking _ | .active .tracking | .held .tracking _ | .lost => some .pke
  | .active (.acquiring .back) | .held (.acquiring .back) _ | .idle | .waitingMast | .pointed => none

/-- What step 1 of R126 ends between `p` and `q`: the pattern HALTED with cause ABORTED (AIM), the run and the monitor ended, the
dwell or the wait of their owner cancelled, PNT's reports discarded; nothing of another owner. -/
def workReplaced (p q : Plant) : Prop :=
  let w := replacedWork p
  (w = some .pat → q.pat.map (fun y => (y.status, y.moveList)) = some (.halted (.aborted .aim), []) ∧ q.smp.sweepHanding = false) ∧
    (w ≠ some .pat → q.pat = p.pat) ∧
    q.run = (if w = some .pke then .cold else p.run) ∧ q.monitor = (if w = some .pke then .cold else p.monitor) ∧
    (w = some .pnt → q.pnt.measurement = .blank) ∧
    (∀ r, w = some r → r ∉ q.smp.noted ∧ q.smp.dwell = p.smp.dwell.filter fun d => decide (d.requester ≠ r)) ∧ (w = none → q.smp = p.smp)

/-- The axis carries a move of the pattern or the run that an AIM ends. -/
def endedByAim (p : Plant) (a : Axis) : Bool :=
  decide (a ∈ pointAxes) && match replacedWork p with
    | some .pat => carriesMove (axisOf p a) .pat
    | some .pke => carriesMove (axisOf p a) .pke
    | _ => false

/-- The axes after an AIM that begins no slew, WAITING_MAST or HELD (R126 step 4, R130): the moves of the work replaced and PNT's
own are ended; another axis stays, unless it takes a returned grant. -/
def axesRested (p q : Plant) : Prop :=
  ∀ a, (endedByAim p a = true → (axisOf q a).state = endedState (axisOf p a).state) ∧
    (a ≠ .mast → carriesMove (axisOf p a) .pnt = true → (axisOf q a).state = endedState (axisOf p a).state ∨
      ((axisOf p a).state = .waiting ∧ replacedWork p ≠ some .pnt ∧ p.axd.grants ≠ [] ∧ (axisOf q a).state = .stopping)) ∧
    (endedByAim p a = false → a = .mast ∨ carriesMove (axisOf p a) .pnt = false → grantedOrSame (axisOf p a) (axisOf q a))

/-- The head axes after an AIM that slews to `goal` (R126 step 5, R80, R127): PNT has a move there on every axis that was IDLE, that
waited for the work replaced, or that carried PNT's own move or a correction, replaced in its place; an axis in STOPPING, or sent
there with the work replaced, notes PNT. -/
def axesSlewed (e : Env) (goal : Axis → Int) (p q : Plant) : Prop :=
  ∀ a, a ≠ .mast →
    let r := axisOf p a
    let t := axisOf q a
    let far : Bool := match r.position with
      | some x => decide ((axisCfg e a).window < (goal a - x).natAbs)
      | none => false
    let underWay : Prop := r.state = .waiting ∨ r.state = .moving ∨ r.state = .settling
    (r.state = .idle ∨ (r.state = .waiting ∧ endedByAim p a = true) ∨ (underWay ∧ (r.correction = true ∨ r.requester = some .pnt)) →
      t.requester = some .pnt ∧ t.cls = some .headMove ∧ t.target = some (goal a) ∧ t.correction = false ∧
        (r.state = .moving → t.state = .moving) ∧ (r.state = .settling → t.state = if far then .moving else .settling) ∧
        (r.state = .idle ∨ r.state = .waiting → t.state = .waiting ∨ t.state = .moving)) ∧
    (r.state = .stopping ∨ (endedByAim p a = true ∧ r.state ≠ .waiting) → t.state = .stopping ∧ .pnt ∈ t.noted)

/-- The part runs with the latch CLEAR, no duplicate held, and no motion of another panel in the way: a motion command from
`source` passes the common checks (R55, R56). -/
def mayMove (source : Nat) (s : State) : Bool :=
  decide (s.setup.phase = .running) && s.plant.aut.latch.isNone && s.plant.aut.duplicate.isNone && (!busy s.plant || decide (s.plant.aut.holder = some source))

/-- The line assembles a notice (R4). -/
def receiving (s : State) : Bool := watching s && decide (s.line.receiver = .assembling) && decide (s.line.condition ≠ .stuck)

/-- A reading inside a window about a point; without a reading, outside (R27). -/
def readingWithin (reading : Option SensorWord) (about : Int) (window : Nat) : Bool :=
  match reading with
  | some w => decide ((w.toInt - about).natAbs ≤ window)
  | none => false

end Sys2Proof.Machine
end

