-- ==== Sys2Proof/Certificates/Slice0/Obligations.lean ====
section
/-! DEFINITION. The statements about the J440: one `Prop` per obligation of OBLIGATIONS.json. -/

section

open Sys2Proof Sys2Proof.Machine

/-! ## Steps and invariants -/

/-- With a command at the front of the queue, a step is that command run on the state with the queue's rest; on an empty queue it is one
millisecond of the clock and nothing else, which is the model's choice: notes/assumptions/2.md. -/
def Obligations.StepRunsTheFrontCommandOrTicks : Prop :=
  (∀ (c : Instr) (rest : List Instr) (s : State), step { s with pending := c :: rest } = exec c { s with pending := rest }) ∧
  (∀ s : State, s.pending = [] → step s = .next { s with clock := s.clock + 1 })

/-- The state after a power-on meets every invariant stated below (R19, R46, R60, R101).
The values the spec does not state are the model's: notes/assumptions/4.md, 6.md, 7.md, 8.md, 71.md. -/
def Obligations.ResetMeetsEveryInvariant : Prop :=
  quiet State.reset = true ∧ queuesSound State.reset = true ∧ linkSound State.reset = true ∧ faultsSound State.reset.plant.flt = true ∧
    axesSound State.reset = true ∧ arbiterSound State.reset.plant = true ∧ budgetSound State.reset = true ∧ latchSound State.reset.plant = true ∧
    targetsSound State.reset = true ∧ dwellSound State.reset.plant = true

/-- Until the start sequence every block stays at its cold-start values, the peer view bound by the load apart, and in SAFE every block
but LNK, DEC, AUT, the posts, the mast state and the readings of the sensors does, no permissive given: no command leaves that (R19, R25, R26, R46).
The cold-start values the spec does not state are the model's: notes/assumptions/7.md, 8.md, 71.md. -/
def Obligations.BlocksStayColdUntilTheyRun : Prop :=
  ∀ s t : State, quiet s = true → step s = .next t → quiet t = true

/-- Every step keeps the bounds of both queues (R15, R17): at most 6 arrivals; at most 6 posts, one in transmission, no two
waiting under one key, and a drop counter of 16 bits. Every step keeps at most 8 fault records, no two alike (R96), and keeps it so that
an active dwell is one that PNT, PAT or PKE asked for (R66). -/
def Obligations.QueuesAndFaultSetKeepTheirBounds : Prop :=
  (∀ s t : State, queuesSound s = true → step s = .next t → queuesSound t = true) ∧
  (∀ s t : State, quiet s = true → faultsSound s.plant.flt = true → step s = .next t → faultsSound t.plant.flt = true) ∧
  (∀ s t : State, dwellSound s.plant = true → step s = .next t → dwellSound t.plant = true)

/-- Every step keeps the score within the range of the link state, and a withdrawn link sends nothing (R10, Table 1-3). -/
def Obligations.ScoreAgreesWithTheLinkState : Prop :=
  ∀ s t : State, linkSound s = true → step s = .next t → linkSound t = true

/-- Every step keeps the outputs of every axis those of its state and speed: the brake set and v 0 in IDLE, WAITING and
FAULT, the brake released in the others, the speed code and the direction those of v (R78, R82). ARB's lists are those of the axis states (R94), as every step
keeps them: a grant given to an axis that moves already would leave its code behind. -/
def Obligations.AxisOutputsFollowStateAndSpeed : Prop :=
  ∀ s t : State, quiet s = true → axesSound s = true → arbiterSound s.plant = true → step s = .next t → axesSound t = true

/-- Every step keeps ARB's lists those of the axis states: a grant held exactly in MOVING and SETTLING, the waiting list
exactly the axes in WAITING (R94). Every step keeps the grants held within the drive budget (R94). -/
def Obligations.ArbiterListsAndGrantsStaySound : Prop :=
  (∀ s t : State, quiet s = true → arbiterSound s.plant = true → step s = .next t → arbiterSound t.plant = true) ∧
  (∀ s t : State, quiet s = true → budgetSound s = true → step s = .next t → budgetSound t = true)

/-- Every step keeps it so that, while the STOP latch is SET, no axis is WAITING, MOVING or SETTLING (R50). -/
def Obligations.NoAxisMovesUnderASetLatch : Prop :=
  ∀ s t : State, quiet s = true → arbiterSound s.plant = true → latchSound s.plant = true → step s = .next t → latchSound t.plant = true

/-- Every step keeps the target of every axis within its soft limits (R79 step 5). -/
def Obligations.TargetsStayWithinTheSoftLimits : Prop :=
  ∀ s t : State, quiet s = true → targetsSound s = true → step s = .next t → targetsSound t = true

/-- Of all commands only RESUME and a cold start make a SET latch CLEAR (R47, R52). -/
def Obligations.OnlyResumeOrAColdStartClearsTheLatch : Prop :=
  ∀ (c : Instr) (s t : State), exec c s = .next t → s.plant.aut.latch.isSome = true → t.plant.aut.latch = none →
    c = .resume ∨ ∃ reason, c = .coldStart reason

/-- Of all commands only the motion commands and a cold start change the holder (R55). -/
def Obligations.OnlyMotionCommandsChangeTheHolder : Prop :=
  ∀ (c : Instr) (s t : State), exec c s = .next t → t.plant.aut.holder ≠ s.plant.aut.holder →
    c = .raise ∨ c = .lower ∨ c = .aim ∨ c = .peak ∨ c = .cancelPointing ∨ c = .jog ∨ ∃ reason, c = .coldStart reason

/-! ## The line (spec/01) -/

/-- A post is handled as R17 lays down: a waiting entry of its key takes the payload; otherwise it joins while there are
fewer than 6; otherwise it displaces the newest entry of the highest waiting tag when its own tag is lower, or is dropped,
and either way a drop is counted. -/
def Obligations.APostIsHandledAtTheMomentItIsMade : Prop :=
  ∀ (k : PostKey) (t : Tag) (x : List Byte) (q : PostQueue),
    (∀ a y b, q.entries = a ++ y :: b → y.key = k → y.sending = false → hasWaiting k a = false → hasWaiting k b = false →
      postTo k t x q = { q with entries := a ++ { y with payload := x, overrunSince := false } :: b }) ∧
    (hasWaiting k q.entries = false → q.entries.length < 6 →
      postTo k t x q = { q with entries := q.entries ++ [{ key := k, tag := t, payload := x, sending := false, overrunSince := false }] }) ∧
    (∀ a y b, hasWaiting k q.entries = false → 6 ≤ q.entries.length → q.entries = a ++ y :: b → y.sending = false →
      (∀ z ∈ a, z.sending = false → z.tag ≤ y.tag) → (∀ z ∈ b, z.sending = false → z.tag < y.tag) → t < y.tag →
      postTo k t x q =
        { entries := a ++ b ++ [{ key := k, tag := t, payload := x, sending := false, overrunSince := false }],
          drops := min 65535 (q.drops + 1) }) ∧
    (hasWaiting k q.entries = false → 6 ≤ q.entries.length → (∀ z ∈ q.entries, z.sending = false → z.tag ≤ t) →
      postTo k t x q = { q with drops := min 65535 (q.drops + 1) })

/-- LINE_IDLE, START_BIT and STUCK_EVENT on a watched line (R1, R2): 12 released bit times make it IDLE, a mark in IDLE
begins a notice, 1000 driven bit times make it STUCK; a notice being assembled is a receive fault, and one being sent is a send fault, whose
entry returns to waiting (R8, R10, R18). The first IDLE begins the LINK_REPORT period (R11).
That LINE_IDLE truncates a notice being assembled is DEDUCED: notes/assumptions/15.md. That a notice being sent at STUCK is no notice being assembled,
so that no receive fault comes beside its send fault, is the model's choice: notes/assumptions/56.md. -/
def Obligations.TheLineConditionFollowsTheLine : Prop :=
  ∀ s : State, watching s = true →
    let truncated : Counters :=
      if s.line.receiver = .assembling then { s.line.counters with receiveFaults := bump s.line.counters.receiveFaults } else s.line.counters
    (sendingEntry s.plant.posts = none → s.line.condition ≠ .idle →
      exec .lineIdle s = .next { s with line := { s.line with
        condition := .idle, releasedBits := 12, drivenBits := 0, receiver := .quiet, counters := truncated,
        reportStart := some (s.line.reportStart.getD s.clock) } }) ∧
    (s.line.condition = .idle →
      exec .startBit s = .next { s with line := { s.line with condition := .busy, releasedBits := 0, drivenBits := 0, receiver := .assembling } }) ∧
    (sendingEntry s.plant.posts = none → s.line.condition ≠ .stuck →
      exec .stuckEvent s = .next { s with line := { s.line with
        condition := .stuck, releasedBits := 0, drivenBits := 1000, receiver := .quiet,
        counters := { truncated with stuckEvents := bump s.line.counters.stuckEvents } } }) ∧
    (∀ a x b, s.plant.posts.entries = a ++ x :: b → x.sending = true → (∀ y ∈ a ++ b, y.sending = false) → s.line.condition ≠ .stuck →
      exec .stuckEvent s = .next { s with
        line := { s.line with
          condition := .stuck, releasedBits := 0, drivenBits := 1000, receiver := .quiet, score := s.line.score + 8,
          linkState := if 128 ≤ s.line.score + 8 then .withdrawn s.clock else s.line.linkState,
          counters := { truncated with
            sendFaults := bump s.line.counters.sendFaults, stuckEvents := bump s.line.counters.stuckEvents } },
        plant := { s.plant with posts := { s.plant.posts with
          entries := if ∃ y ∈ a ++ b, y.key = x.key then a ++ b else a ++ { x with sending := false } :: b } } })

/-- A notice discarded, a notice that arrives ill-formed, and a start outside IDLE each raise the receive-fault counter by 1
and assemble nothing more (R4). A well-formed notice from another station that DEC does not accept is dropped and counted: ignored for its source, kind,
urgency or length or as a kind the part posts itself (R13), foreign for a role kind or a COMMAND from a station it is not
tied to (R14).
That an ill-formed arrival is a discard is the model's choice (notes/assumptions/14.md), and that every mark outside IDLE counts is DEDUCED (17.md). -/
def Obligations.ANoticeNotTakenIsCounted : Prop :=
  (∀ s : State,
      let faulted : Counters := { s.line.counters with receiveFaults := bump s.line.counters.receiveFaults }
      (∀ cause, watching s = true → s.line.receiver = .assembling →
        exec (.noticeDiscard cause) s = .next { s with line := { s.line with receiver := .afterDiscard, counters := faulted } }) ∧
      (∀ f : Frame, receiving s = true → (10 < f.length.toNat ∨ f.payload.length ≠ f.length.toNat ∨ checkMatches f = false) →
        exec (.noticeArrival f) s = .next { s with line := { s.line with receiver := .afterDiscard, counters := faulted } }) ∧
      (watching s = true → s.line.condition = .busy → s.line.receiver = .afterNotice →
        exec .startOutsideIdle s = .next { s with line := { s.line with releasedBits := 0, drivenBits := 0, counters := faulted } })) ∧
  (∀ (s : State) (f : Frame), receiving s = true → f.wf = true → checkMatches f = true → (tagSource f.tag ≠ s.setup.station ∨ s.setup.result = .fault .strap) →
      let l : Line := { s.line with releasedBits := 0, drivenBits := 0, receiver := .afterNotice }
      let e := envOf s
      let ignored : Prop := tagSource f.tag = 0 ∨ tagSource f.tag = 31 ∨ kindUrgency (tagKind f.tag) ≠ some (tagUrgency f.tag) ∨
        lengthFits (tagKind f.tag) f.payload = false ∨ tagKind f.tag ∈ [1, 9, 11, 12, 17, 18]
      let tied : Prop := (∃ r, roleOfKind (tagKind f.tag) = some r ∧ s.setup.phase ≠ .safe ∧ roleStation e r = tagSource f.tag) ∨
        (tagKind f.tag = 8 ∧ (s.setup.phase = .safe ∨ tagSource f.tag ∈ [s.setup.cfg.panel1, s.setup.cfg.panel2, s.setup.cfg.panel3]))
      (ignored → exec (.noticeArrival f) s = .next { s with line := { l with counters := { l.counters with ignored := bump l.counters.ignored } } }) ∧
      (¬ ignored → tagKind f.tag ∈ [2, 3, 4, 8, 16] → ¬ tied →
        exec (.noticeArrival f) s = .next { s with line := { l with counters := { l.counters with foreign := bump l.counters.foreign } } }))

/-- A well-formed notice from the station its kind is tied to, a COMMAND from a panel-set station and a POSITIONER_STATUS from
another station join the tail of the arrival queue with their arrival stamp, or with 6 entries there are lost: the overrun is
counted, the overrun flag set, and a LINK_REPORT whose fields were taken before it will not clear the flag (R11, R14, R15). In SAFE a COMMAND
from any other station 1..30 and a POSITIONER_STATUS join it too; with a strap fault that is every station 1..30, for the part has no own number then (R13, R20, R25). -/
def Obligations.AcceptedNoticesJoinTheArrivalQueue : Prop :=
  ∀ (s : State) (f : Frame) (k : ArrivalKind), receiving s = true → f.wf = true → checkMatches f = true →
    (tagSource f.tag ≠ s.setup.station ∨ s.setup.result = .fault .strap) → 1 ≤ tagSource f.tag → tagSource f.tag ≤ 30 →
    kindUrgency (tagKind f.tag) = some (tagUrgency f.tag) → lengthFits (tagKind f.tag) f.payload = true →
    let safe : Prop := s.setup.phase = .safe
    ((tagKind f.tag = 2 ∧ k = .role .vehicle ∧ ¬ safe ∧ tagSource f.tag = s.setup.cfg.vehicleStation) ∨
      (tagKind f.tag = 3 ∧ k = .role .wind ∧ ¬ safe ∧ tagSource f.tag = s.setup.cfg.windStation) ∨
      (tagKind f.tag = 4 ∧ k = .role .clearance ∧ ¬ safe ∧ tagSource f.tag = s.setup.cfg.clearanceStation) ∨
      (tagKind f.tag = 16 ∧ k = .role .level ∧ ¬ safe ∧ tagSource f.tag = s.setup.cfg.levelStation) ∨
      (tagKind f.tag = 8 ∧ k = .command ∧ (safe ∨ tagSource f.tag ∈ [s.setup.cfg.panel1, s.setup.cfg.panel2, s.setup.cfg.panel3])) ∨
      (tagKind f.tag = 10 ∧ k = .positionerStatus)) →
    let l : Line := { s.line with releasedBits := 0, drivenBits := 0, receiver := .afterNotice }
    (s.arrivals.length < 6 →
      exec (.noticeArrival f) s = .next { s with
        line := l,
        arrivals := s.arrivals ++ [{ kind := k, source := tagSource f.tag, payload := f.payload, stamp := s.clock.setWidth 16 }] }) ∧
    (6 ≤ s.arrivals.length →
      exec (.noticeArrival f) s = .next { s with
        line := { l with overrunFlag := true, counters := { l.counters with overruns := bump l.counters.overruns } },
        plant := { s.plant with posts := { s.plant.posts with
          entries := s.plant.posts.entries.map fun x => { x with overrunSince := true } } } })

/-- A STOP that finds the latch CLEAR opens the window with its stamp, sets the latch with its station, sends every WAITING
axis to IDLE and every MOVING or SETTLING axis to STOPPING, halts the mast with cause STOP unless STOWED, halts pointing
with its record kept, and posts HALT and a status, whatever waits in the arrival queue (R12, R48, R49, R59).
That a discarded run and an ended monitor return to their cold values in every field is the model's choice (notes/assumptions/8.md); that the mast of a
part in SAFE takes the cause STOP too is DEDUCED (21.md); where the status stands among the posts is the model's choice (18.md). -/
def Obligations.AStopActsAtItsArrival : Prop :=
  ∀ (s : State) (f : Frame), receiving s = true → f.wf = true → checkMatches f = true → tagKind f.tag = 0 → tagUrgency f.tag = 0 → f.payload = [] →
    1 ≤ tagSource f.tag → tagSource f.tag ≤ 30 → tagSource f.tag ≠ s.setup.station → s.plant.aut.latch = none →
    ∃ t, exec (.noticeArrival f) s = .next t ∧
      t = { s with line := { s.line with releasedBits := 0, drivenBits := 0, receiver := .afterNotice }, plant := t.plant } ∧
      t.plant.aut = { s.plant.aut with latch := some (.stop (tagSource f.tag)), window := some (s.clock.setWidth 16) } ∧
      t.plant.pvw = s.plant.pvw ∧ t.plant.flt = s.plant.flt ∧
      madePost .halt s.plant t.plant ∧ madePost .status s.plant t.plant ∧
      (arbiterSound s.plant = true → ∀ a, (axisOf t.plant a).state = match (axisOf s.plant a).state with
        | .waiting => .idle
        | .moving | .settling => .stopping
        | x => x) ∧
      t.plant.msq.state = (if s.plant.msq.state = .stowed then .stowed else .halted .stop) ∧
      t.plant.pnt.state = .idle ∧ t.plant.pnt.record = s.plant.pnt.record ∧
      (s.plant.pnt.state ≠ .idle → t.plant.run = .cold ∧ t.plant.monitor = .cold ∧
        (patternUnderWay s.plant = true → t.plant.pat.map (·.status) = some (.halted (.aborted .stop))))

/-- A STOP that finds the latch SET restarts the window and replaces the cause, unless the duplicate condition holds the cause
DUPLICATE; nothing moves or halts, and a changed cause posts a POSITIONER_STATUS (R47, R48, R59). The STOP window closes 500 ms after the stamp it holds and not before, and nothing else changes (R48). -/
def Obligations.TheStopWindowIsRenewedAndCloses : Prop :=
  (∀ (s : State) (f : Frame) (cause : LatchCause), receiving s = true → f.wf = true → checkMatches f = true → tagKind f.tag = 0 → tagUrgency f.tag = 0 →
      f.payload = [] → 1 ≤ tagSource f.tag → tagSource f.tag ≤ 30 → tagSource f.tag ≠ s.setup.station → s.plant.aut.latch = some cause →
      let after : LatchCause := if s.plant.aut.duplicate.isSome ∧ cause = .duplicate then .duplicate else .stop (tagSource f.tag)
      let q : Plant := { s.plant with aut := { s.plant.aut with latch := some after, window := some (s.clock.setWidth 16) } }
      exec (.noticeArrival f) s = .next { s with
        line := { s.line with releasedBits := 0, drivenBits := 0, receiver := .afterNotice },
        plant := if after = cause then q else postStatus (envOf s) q }) ∧
  (∀ (s : State) (stamp : Stamp), s.plant.aut.window = some stamp →
      (500 ≤ (s.clock.setWidth 16 - stamp).toNat →
        exec .stopWindowExpiry s = .next { s with plant := { s.plant with aut := { s.plant.aut with window := none } } }) ∧
      ((s.clock.setWidth 16 - stamp).toNat < 500 → exec .stopWindowExpiry s = .next s))

/-- NOTICE_BEGIN puts the oldest waiting entry of the lowest tag in transmission when the transmitter is quiet, the line IDLE
and the link ACTIVE; with a notice already being sent, the line not IDLE, the link withdrawn or nothing waiting, none begins
(R6, R18). -/
def Obligations.TheLowestTagIsSentFirst : Prop :=
  ∀ s : State,
    (∀ a x b, watching s = true → strapFault s = false → s.line.condition = .idle → s.line.linkState = .active → s.plant.posts.entries = a ++ x :: b →
      (∀ y ∈ a ++ x :: b, y.sending = false) → (∀ y ∈ a, x.tag < y.tag) → (∀ y ∈ b, x.tag ≤ y.tag) →
      exec .noticeBegin s = .next { s with
        line := { s.line with condition := .busy, releasedBits := 0, drivenBits := 0, receiver := .quiet },
        plant := { s.plant with posts := { s.plant.posts with entries := a ++ { x with sending := true } :: b } } }) ∧
    (((∃ y ∈ s.plant.posts.entries, y.sending = true) ∨ (∀ y ∈ s.plant.posts.entries, y.sending = true) ∨ s.line.condition ≠ .idle ∨
        s.line.linkState ≠ .active) →
      exec .noticeBegin s = .next s)

/-- A notice sent whole: its entry leaves the post queue and the transmitter is quiet, the score falls by 1 but not below 0,
nothing is passed to DEC, and a LINK_REPORT that carried the overrun flag clears it when no overrun came since (R9, R11).
That the receiver then stands behind a notice as after one received is DEDUCED: notes/assumptions/16.md. -/
def Obligations.ANoticeSentWholeLeavesTheQueue : Prop :=
  ∀ (s : State) (a : List PostEntry) (x : PostEntry) (b : List PostEntry), s.plant.posts.entries = a ++ x :: b → x.sending = true →
    (∀ y ∈ a ++ b, y.sending = false) →
    exec .sentWhole s = .next { s with
      line := { s.line with
        releasedBits := 0, drivenBits := 0, receiver := .afterNotice, score := if 0 < s.line.score then s.line.score - 1 else 0,
        overrunFlag := s.line.overrunFlag && !(decide (x.key = .link) && bitAt x.payload 2 0 && !x.overrunSince) },
      plant := { s.plant with posts := { s.plant.posts with entries := a ++ b } } }

/-- CONTENTION_LOST and SEND_FAULT return the entry in transmission to waiting in its old place, or remove it when a waiting
entry of its key joined meanwhile, and the part assembles the notice on the line. Contention changes no score and no counter;
a send fault raises the score by 8 and its counter by 1, and at 128 or more withdraws the link from now (R7, R8, R10, R18). The withdrawal ends 2000 ms after it began, with score 0 and the link ACTIVE, and not before (R10).
That the part assembles the line after a send fault is DEDUCED: notes/assumptions/16.md. -/
def Obligations.AnEntryNotSentWholeReturns : Prop :=
  (∀ (s : State) (a : List PostEntry) (x : PostEntry) (b : List PostEntry), s.plant.posts.entries = a ++ x :: b → x.sending = true →
      (∀ y ∈ a ++ b, y.sending = false) →
      let left : List PostEntry := if ∃ y ∈ a ++ b, y.key = x.key then a ++ b else a ++ { x with sending := false } :: b
      let plant : Plant := { s.plant with posts := { s.plant.posts with entries := left } }
      (∀ bit : Fin 12, x.tag.getMsbD bit = true →
        exec (.contentionLost bit) s = .next { s with plant := plant, line := { s.line with receiver := .assembling } }) ∧
      (∀ m : Mismatch, mismatchPossible x m = true →
        exec (.sendFault m) s = .next { s with
          plant := plant,
          line := { s.line with
            receiver := .assembling, score := s.line.score + 8, counters := { s.line.counters with sendFaults := bump s.line.counters.sendFaults },
            linkState := if 128 ≤ s.line.score + 8 then LinkState.withdrawn s.clock else s.line.linkState } })) ∧
  (∀ (s : State) (since : Clock), s.line.linkState = .withdrawn since →
      (2000 ≤ (s.clock - since).toNat → exec .withdrawalExpiry s = .next { s with line := { s.line with linkState := .active, score := 0 } }) ∧
      ((s.clock - since).toNat < 2000 → exec .withdrawalExpiry s = .next s))

/-- The periodic posts: LINK_REPORT every 5000 ms with the group number advanced, POSITIONER_STATUS every 200 ms, AXIS_REPORT
every 500 ms for an axis not IDLE; each posts its fields as they are now and restarts its period (R11, R59, R85).
That the group advances although the post may be dropped is DEDUCED: notes/assumptions/39.md. -/
def Obligations.PeriodicReportsArePosted : Prop :=
  ∀ (s : State) (start : Clock),
    (s.line.reportStart = some start → 5000 ≤ (s.clock - start).toNat →
      exec .linkReportPeriodExpiry s = .next { s with
        line := { s.line with group := (s.line.group + 1) % 3, reportStart := some s.clock },
        plant := { s.plant with
          posts := postTo .link (postTag (envOf s) .link) (linkPayload s.line s.plant.posts.drops) s.plant.posts } }) ∧
    (s.plant.aut.statusStart = some start → 200 ≤ (s.clock - start).toNat →
      exec .statusPeriodExpiry s = .next { s with plant := { s.plant with
        aut := { s.plant.aut with statusStart := some s.clock },
        posts := postTo .status (postTag (envOf s) .status) (statusPayload (envOf s) s.plant) s.plant.posts } }) ∧
    (∀ a : Axis, (axisOf s.plant a).reportStart = some start → 500 ≤ (s.clock - start).toNat → (axisOf s.plant a).state ≠ .idle →
      ∃ t, exec (.axisReportPeriodExpiry a) s = .next t ∧ t = { s with plant := t.plant } ∧
        t.plant = { s.plant with posts := t.plant.posts, axd := t.plant.axd } ∧
        t.plant.axd = (setAxisRaw a { axisOf s.plant a with reportStart := some s.clock } s.plant).axd ∧
        t.plant.posts = postTo (.axisReport a) (postTag (envOf s) (.axisReport a)) (axisReportPayload a (axisOf s.plant a)) s.plant.posts)

/-! ## Start-up (spec/02) -/

/-- A cold start, from whatever state, leaves every block at its cold-start values, with the reason recorded; the commands that
wait in the model's queue stay (R19).
The values of State.reset that the spec does not state are the model's choice: the blank record (notes/assumptions/4.md), the clock at 0 (6.md), station 0,
mast number 1 and the scan pointer (7.md), the fields of blocks at rest (8.md, 71.md); that the queue stays is its choice too (42.md). -/
def Obligations.AColdStartAbandonsEverything : Prop :=
  ∀ (reason : ResetReason) (s : State),
    exec (.coldStart reason) s = .next { State.reset with pending := s.pending, setup := { State.reset.setup with resetReason := reason } }

/-- The straps read at the release: a station of 1..30 begins the load, 0 or 31 is a strap fault and enters SAFE (R20). The load ends in SAFE with cause NO_ANSWER when the memory does not answer or 30 ms pass, CHECK when the check differs,
STRUCTURE when the clamped record is structurally wrong (R21, R24, R25).
The blank record in SAFE is the model's choice (notes/assumptions/4.md), as are the post under a strapped number that is none (37.md) and both
sides of the 30 ms boundary (48.md). -/
def Obligations.AFailedStartEntersSafe : Prop :=
  (∀ (station : BitVec 5) (high : Bool) (s : State), s.setup.phase = .reset →
      let strapped : State := { s with setup := { s.setup with
        station := station.toNat, mastNumber := if high then 2 else 1, phase := .loading, releasedAt := s.clock } }
      (1 ≤ station.toNat ∧ station.toNat ≤ 30 → exec (.resetRelease station high) s = .next strapped) ∧
      (station.toNat = 0 ∨ station.toNat = 31 → ∃ t, exec (.resetRelease station high) s = .next t ∧ safeEntered .strap strapped t)) ∧
  (∀ s : State, s.setup.phase = .loading →
      (∃ t, exec .memoryNoAnswer s = .next t ∧ safeEntered .noAnswer s t) ∧
      (30 ≤ (s.clock - s.setup.releasedAt).toNat → ∃ t, exec .configLoadTimeout s = .next t ∧ safeEntered .noAnswer s t) ∧
      (∀ record : List Byte, (s.clock - s.setup.releasedAt).toNat ≤ 30 → record.length = 160 → recordChecks record = false →
        ∃ t, exec (.configLoadComplete record) s = .next t ∧ safeEntered .check s t) ∧
      (∀ record : List Byte, (s.clock - s.setup.releasedAt).toNat ≤ 30 → record.length = 160 → recordChecks record = true →
        structurallyWrong s.setup.station (agreeFields (clampRanges (recordOf (streamOf record)))) = true →
        ∃ t, exec (.configLoadComplete record) s = .next t ∧ safeEntered .structural s t))

/-- A record that passes is in use as clamped, LOADED when nothing changed and CLAMPED otherwise; every fitted role is UNHEARD,
the permissives of roles not fitted are given and the others are not (R21, R22, R24, R46). -/
def Obligations.AGoodRecordIsPutInUse : Prop :=
  ∀ (record : List Byte) (s : State), s.setup.phase = .loading → (s.clock - s.setup.releasedAt).toNat ≤ 30 → record.length = 160 → recordChecks record = true →
    let raw := recordOf (streamOf record)
    let c := agreeFields (clampRanges raw)
    structurallyWrong s.setup.station c = false →
    ∃ t, exec (.configLoadComplete record) s = .next t ∧
      t.setup = { s.setup with phase := .loaded, result := if c = raw then .loaded else .clamped, cfg := c } ∧
      t.plant = { s.plant with pvw := t.plant.pvw } ∧ t = { s with setup := t.setup, plant := t.plant } ∧
      t.plant.pvw.vehicle = { state := if c.vehicleStation = 0 then none else some .unheard, value := none, stamp := none } ∧
      t.plant.pvw.wind = { state := if c.windStation = 0 then none else some .unheard, value := none, stamp := none } ∧
      t.plant.pvw.clearance = { state := if c.clearanceStation = 0 then none else some .unheard, value := none, stamp := none } ∧
      t.plant.pvw.level = { state := if c.levelStation = 0 ∨ c.source = .localSource then none else some .unheard, value := none, stamp := none } ∧
      t.plant.pvw.raiseFilter = { side := .above, run := 0 } ∧ t.plant.pvw.holdFilter = { side := .above, run := 0 } ∧ t.plant.pvw.alarm = false ∧
      (∀ x ∈ [Permissive.brakeSet, .outriggersDown, .vanLevelOk, .headingOk], t.plant.pvw.permissives.given x = decide (c.vehicleStation = 0)) ∧
      (∀ x ∈ [Permissive.windRaiseOk, .windMoveOk], t.plant.pvw.permissives.given x = decide (c.windStation = 0)) ∧
      t.plant.pvw.permissives.clearanceOk = decide (c.clearanceStation = 0) ∧
      t.plant.pvw.permissives.levelOk = decide (c.levelStation = 0 ∨ c.source = .localSource)

/-- Every record comes out of the clamping within the ranges of R22 and in the agreement of R23, and a record that already
lies so is not changed. -/
def Obligations.ClampingMakesARecordLegalAndKeepsALegalOne : Prop :=
  ∀ raw : ConfigRecord, cfgLegal (agreeFields (clampRanges raw)) = true ∧ (cfgLegal raw = true → agreeFields (clampRanges raw) = raw)

/-- The start sequence (R26, R27): the watches UNKNOWN and the scan begun, every axis with a valid sensor IDLE at its reading
and its target there within the soft limits, every other one FAULT with SENSOR; the mast STOWED when its height is within the
stow window and the head inside stow, HALTED with cause START otherwise; HEAD_UNPARKED on MAST when it stands below the cradle
clear height with the head outside; the latch SET with cause START and one POSITIONER_STATUS posted.
A valid reading is a signed word of 24 bits: notes/assumptions/24.md. That the SENSOR records stand in the order MAST, PAN, TILT, POL is the
model's choice: notes/assumptions/52.md; so are the cold values of the blocks that the spec does not state: notes/assumptions/8.md. -/
def Obligations.TheStartSequenceBringsThePartUp : Prop :=
  ∀ (pins : Axis → AxisPins) (s : State), s.setup.phase = .loaded → quiet s = true →
    let c := s.setup.cfg
    let inside := readingWithin (pins .pan).reading 0 c.stowPan && readingWithin (pins .tilt).reading c.stowTilt c.stowTiltWindow &&
      readingWithin (pins .pol).reading 0 c.stowPol
    let stowed := (match (pins .mast).reading with | some h => decide (h.toInt ≤ c.stowWindow) | none => false) && inside
    let unparked := (match (pins .mast).reading with | some h => decide (h.toInt < c.cradleClear) | none => false) && !inside
    ∃ t, exec (.startSequence (pins .mast) (pins .pan) (pins .tilt) (pins .pol)) s = .next t ∧
      t = { s with setup := { s.setup with phase := .running }, plant := t.plant } ∧
      t.plant.aut = { s.plant.aut with latch := some .start, statusStart := some s.clock } ∧
      t.plant.watches = List.replicate 6 { side := none, run := 0, runSide := none, faultSide := none } ∧
      t.plant.smp.converter = ((List.range 8).find? fun i => c.enabled.getLsbD i).map (fun i => { channel := i, purpose := .scan }) ∧
      t.plant.msq = { state := if stowed then .stowed else .halted .start, stranded := false } ∧
      t.plant.flt.records = (([Axis.mast, .pan, .tilt, .pol].filter fun a => (pins a).reading.isNone).map fun a => { kind := .sensor, axis := .one a }) ++
        (if unparked then [{ kind := .headUnparked, axis := .one .mast }] else []) ∧
      (∀ a, (axisOf t.plant a).state = (if (pins a).reading.isNone ∨ (unparked = true ∧ a = .mast) then .fault else .idle) ∧
        (axisOf t.plant a).position = (pins a).reading.map (·.toInt) ∧
        (axisOf t.plant a).target = (pins a).reading.map (fun w => clampSoft (envOf s) a w.toInt) ∧
        axisAtRest (axisOf t.plant a) = true) ∧
      t.plant.pvw = s.plant.pvw ∧ t.plant.pnt = .cold ∧ t.plant.pat = none ∧ t.plant.run = .cold ∧ t.plant.monitor = .cold ∧
      t.plant.posts.drops = 0 ∧ t.plant.posts.entries.map (fun x => (x.key, x.sending)) = [(.status, false)]

/-! ## Peer view (spec/03) -/

/-- A VEHICLE notice taken: its value brought into range, the entry FRESH with the arrival stamp, its four permissives formed from
the value, and DRIVE_AWAY on ALL for a released brake unless the mast is STOWED. Nothing else of PVW or AUT changes, and with
no permissive changed and no DRIVE_AWAY nothing else at all (R29, R32, R38, R45). A mast RAISING upward that loses BRAKE_SET, OUTRIGGERS_DOWN or
VAN_LEVEL_OK is HALTED with the cause of the lowest code lost; an upward correction of MAST is ended and leaves the stranded mark; the loss of
BRAKE_SET halts pointing, its record kept (R42, R43, R91, R108, R118, R131). -/
def Obligations.AVehicleNoticeIsStoredAndJudged : Prop :=
  ∀ (s : State) (x : ArrivalEntry) (rest : List ArrivalEntry), s.arrivals = x :: rest → x.kind = .role .vehicle →
    let heading := (word16At x.payload 5).toNat
    let v : VehicleValue :=
      { brakeSet := bitAt x.payload 0 0, outriggersDown := bitAt x.payload 0 1, pitch := clampInt (-1000) 1000 (word16At x.payload 1).toInt,
        roll := clampInt (-1000) 1000 (word16At x.payload 3).toInt, heading := if heading < 36000 then heading else 0,
        headingValid := bitAt x.payload 0 2 && decide (heading < 36000) }
    let after : PermissiveSet := { s.plant.pvw.permissives with
      brakeSet := v.brakeSet, outriggersDown := v.outriggersDown, headingOk := v.headingValid,
      vanLevelOk := decide (v.pitch.natAbs ≤ s.setup.cfg.vanLevel) && decide (v.roll.natAbs ≤ s.setup.cfg.vanLevel) }
    let away : Prop := v.brakeSet = false ∧ s.plant.msq.state ≠ .stowed
    let lost (x : Permissive) : Prop := s.plant.pvw.permissives.given x = true ∧ after.given x = false
    let mast := axisOf s.plant .mast
    ∃ t, exec .vehicle s = .next t ∧ t = { s with arrivals := rest, plant := t.plant } ∧
      t.plant.pvw = { s.plant.pvw with vehicle := { state := some .fresh, value := some v, stamp := some x.stamp }, permissives := after } ∧
      t.plant.aut = s.plant.aut ∧
      (away → { kind := .driveAway, axis := .all } ∈ t.plant.flt.records ∨ (t.plant.flt.overflow = true ∧ .all ∈ t.plant.flt.overflowAxes)) ∧
      (¬ away → t.plant.flt = s.plant.flt) ∧
      (¬ away → after = s.plant.pvw.permissives → t.plant = { s.plant with pvw := t.plant.pvw }) ∧
      (∀ target, s.plant.msq.state = .raising target .up →
        (lost .brakeSet → t.plant.msq.state = .halted .brake) ∧
        (v.brakeSet = true → lost .outriggersDown → t.plant.msq.state = .halted .outriggers) ∧
        (v.brakeSet = true → ¬ lost .outriggersDown → lost .vanLevelOk → t.plant.msq.state = .halted .vanLevel)) ∧
      (arbiterSound s.plant = true → v.brakeSet = true → lost .outriggersDown ∨ lost .vanLevelOk → mast.correction = true → mast.cls = some .raise →
        t.plant.msq.stranded = true ∧ (axisOf t.plant .mast).state = endedState mast.state) ∧
      (lost .brakeSet → t.plant.pnt.state = .idle ∧ t.plant.pnt.record = s.plant.pnt.record)

/-- A WIND value: mean and gust each clamped to 0..1000, and a gust below the mean stored as the mean (R33). -/
def Obligations.AWindValueIsBroughtIntoRange : Prop :=
  ∀ payload : List Byte,
    let mean := min 1000 (word16At payload 0).toNat
    let gust := min 1000 (word16At payload 2).toNat
    windOf payload = { mean := mean, gust := if gust < mean then mean else gust } ∧
      ∀ (s : State) (x : ArrivalEntry) (rest : List ArrivalEntry), s.arrivals = x :: rest → x.kind = .role .wind → x.payload = payload →
        ∃ t, exec .wind s = .next t ∧ t.plant.pvw.wind.value = some (windOf payload) ∧
          t.plant.pvw.alarm = decide (s.setup.cfg.windAlarm ≤ (windOf payload).gust) ∧
          t.plant.pvw.raiseFilter =
            stepFilter s.setup.cfg.windRaise s.setup.cfg.hysteresis s.setup.cfg.windDepth (windOf payload).gust s.plant.pvw.raiseFilter ∧
          t.plant.pvw.holdFilter =
            stepFilter s.setup.cfg.windHold s.setup.cfg.hysteresis s.setup.cfg.windDepth (windOf payload).gust s.plant.pvw.holdFilter

/-- A wind filter steps by the table of R35: ABOVE counts gusts under limit − hysteresis up to the depth and then goes BELOW;
any other gust clears its run; BELOW goes ABOVE at a gust at or over the limit. Where limit − hysteresis is 0 or less, ABOVE is
never left. -/
def Obligations.AWindFilterStepsByItsTable : Prop :=
  ∀ (limit hysteresis depth gust : Nat) (f : WindFilter),
    let under : Prop := gust + hysteresis < limit
    (f.side = .above → ¬ under → stepFilter limit hysteresis depth gust f = { side := .above, run := 0 }) ∧
    (f.side = .above → under → f.run + 1 < depth → stepFilter limit hysteresis depth gust f = { side := .above, run := f.run + 1 }) ∧
    (f.side = .above → under → depth ≤ f.run + 1 → stepFilter limit hysteresis depth gust f = { side := .below, run := 0 }) ∧
    (f.side = .below → limit ≤ gust → stepFilter limit hysteresis depth gust f = { side := .above, run := 0 }) ∧
    (f.side = .below → gust < limit → stepFilter limit hysteresis depth gust f = f) ∧
    (limit ≤ hysteresis → f.side = .above → (stepFilter limit hysteresis depth gust f).side = .above) ∧
    (f.run ≤ depth → (stepFilter limit hysteresis depth gust f).run ≤ depth)

/-- A WIND notice taken: the entry FRESH with value and stamp, the filters and the alarm stepped, WIND_RAISE_OK and WIND_MOVE_OK
given exactly with their filter BELOW; nothing else of PVW, AUT or FLT changes. When WIND_RAISE_OK falls (and no RAISE permissive
of a lower code with it, since they are VEHICLE's) a mast RAISING upward is HALTED with cause WIND; when WIND_MOVE_OK falls, an
activity of PNT other than tracking is HELD with cause WIND, and every JOG and correction of a head axis is ended: one that waits goes to IDLE, or to
STOPPING where the grant that a raise halted in the same step returns reaches it first (R29, R35, R37, R38, R42, R43, R91, R94).
That the parts of one event hand out their grants one after another is the model's choice: notes/assumptions/27.md. -/
def Obligations.AWindNoticeGatesMastAndHead : Prop :=
  ∀ (s : State) (x : ArrivalEntry) (rest : List ArrivalEntry), s.arrivals = x :: rest → x.kind = .role .wind →
    let g := (windOf x.payload).gust
    let c := s.setup.cfg
    let raise := stepFilter c.windRaise c.hysteresis c.windDepth g s.plant.pvw.raiseFilter
    let hold := stepFilter c.windHold c.hysteresis c.windDepth g s.plant.pvw.holdFilter
    ∃ t, exec .wind s = .next t ∧ t = { s with arrivals := rest, plant := t.plant } ∧
      t.plant.pvw = { s.plant.pvw with
        wind := { state := some .fresh, value := some (windOf x.payload), stamp := some x.stamp }, raiseFilter := raise, holdFilter := hold,
        alarm := decide (c.windAlarm ≤ g),
        permissives := { s.plant.pvw.permissives with windRaiseOk := decide (raise.side = .below), windMoveOk := decide (hold.side = .below) } } ∧
      t.plant.aut = s.plant.aut ∧ t.plant.flt = s.plant.flt ∧
      (∀ target, s.plant.msq.state = .raising target .up → s.plant.pvw.permissives.windRaiseOk = true → raise.side = .above →
        t.plant.msq.state = .halted .wind ∧
          (arbiterSound s.plant = true → (axisOf s.plant .mast).state = .moving → carriesMove (axisOf s.plant .mast) .msq = true → (axisOf t.plant .mast).state = .stopping)) ∧
      (∀ activity, s.plant.pnt.state = .active activity → activity ≠ .tracking → s.plant.pvw.permissives.windMoveOk = true → hold.side = .above →
        t.plant.pnt.state = .held activity .wind) ∧
      (∀ a, a ≠ .mast → s.plant.pvw.permissives.windMoveOk = true → hold.side = .above →
        (axisOf s.plant a).correction = true ∨ carriesMove (axisOf s.plant a) .jog = true → arbiterSound s.plant = true →
        (axisOf t.plant a).state = endedState (axisOf s.plant a).state ∨
          ((axisOf s.plant a).state = .waiting ∧ s.plant.axd.grants ≠ [] ∧ (axisOf t.plant a).state = .stopping))

/-- A CLEARANCE notice taken: none detected by the flag, otherwise the height as sent; CLEARANCE_OK given when none is detected, or
the obstacle stands more than the margin above mast and head at the position last read. A mast RAISING upward to a target above
the allowed top takes the top as its target while it is below it, and otherwise, like a RAISED mast above the top, is HALTED with
cause CLEARANCE (R34, R38, R39, R109, R110).
Three sides of the clause on RAISING are the model's: that an allowed top at or above the target changes nothing also where the position has passed it is a
DESIGN CHOICE (notes/assumptions/63.md); that the mast state holds the allowed top as computed, not clamped to the soft limits of MAST, is
DEDUCED (notes/assumptions/46.md), and that it takes the top as its target also where AXD refuses the replaced move, whose answer is dropped, is a
DESIGN CHOICE (notes/assumptions/51.md). -/
def Obligations.AClearanceNoticeLimitsTheMast : Prop :=
  ∀ (s : State) (x : ArrivalEntry) (rest : List ArrivalEntry), s.arrivals = x :: rest → x.kind = .role .clearance →
    let value : ClearanceValue := if bitAt x.payload 0 0 then none else some (word16At x.payload 1).toNat
    let c := s.setup.cfg
    let ok : Bool := match value, (axisOf s.plant .mast).position with
      | none, _ => true
      | some b, some h => decide ((c.clearanceMargin : Int) < b - (h + c.headHeight))
      | some _, none => false
    ∃ t, exec .clearance s = .next t ∧ t = { s with arrivals := rest, plant := t.plant } ∧
      t.plant.pvw = { s.plant.pvw with
        clearance := { state := some .fresh, value := some value, stamp := some x.stamp },
        permissives := { s.plant.pvw.permissives with clearanceOk := ok } } ∧
      t.plant.aut = s.plant.aut ∧ t.plant.flt = s.plant.flt ∧
      (∀ b h, value = some b → (axisOf s.plant .mast).position = some h →
        let top : Int := b - c.headHeight - c.clearanceMargin
        (∀ target, s.plant.msq.state = .raising target .up →
          t.plant.msq.state = if target ≤ top then .raising target .up else if h < top then .raising top .up else .halted .clearance) ∧
        (s.plant.msq.state = .raised → t.plant.msq.state = if top < h then .halted .clearance else .raised))

/-- A LEVEL notice taken: with LOCAL source it is discarded and nothing changes; with LINKED source the entry is FRESH with the
level clamped, or −1500 when its valid flag is clear, and LEVEL_OK is given; nothing else of PVW, AUT or FLT changes
(R29, R31, R34, R38). LEVEL_OK given before, the level report goes to the measurement under way: PNT's at the preset, else PAT's, else PKE's,
which counts it when its sequence is new and its stamp past settle plus lag (at the preset: its arrival later than the slew's completion by more than that), and at N takes the mean; the sequence is noted either way. With none,
or a repeat while tracking, only the entry is updated (R44, R128, R141, R160).
That the arrival lies the age of its 16-bit stamp before the clock is DEDUCED: notes/assumptions/31.md; so is that a report while the slew settles only updates the entry: 41.md.
That the first N that count form the mean, where more arrive before the settle time ends, is the model's choice: 64.md. -/
def Obligations.ALevelNoticeRefreshesTheEntry : Prop :=
  ∀ (s : State) (x : ArrivalEntry) (rest : List ArrivalEntry), s.arrivals = x :: rest → x.kind = .role .level →
    let v : LevelValue :=
      { level := if bitAt x.payload 0 0 then clampInt (-1500) 300 (word16At x.payload 1).toInt else -1500, sequence := (byteAt x.payload 3).toNat }
    (s.setup.cfg.source = .localSource → exec .level s = .next { s with arrivals := rest }) ∧
    (s.setup.cfg.source = .linked → ∃ t, exec .level s = .next t ∧ t = { s with arrivals := rest, plant := t.plant } ∧
      t.plant.pvw = { s.plant.pvw with
        level := { state := some .fresh, value := some v, stamp := some x.stamp }, permissives := { s.plant.pvw.permissives with levelOk := true } } ∧
      t.plant.aut = s.plant.aut ∧ t.plant.flt = s.plant.flt) ∧
    (s.setup.cfg.source = .linked → s.plant.pvw.permissives.levelOk = true →
      let c := s.setup.cfg
      let p : Plant := { s.plant with pvw := { s.plant.pvw with level := { state := some .fresh, value := some v, stamp := some x.stamp } } }
      let r : LevelReport := { level := v.level, sequence := v.sequence, stamp := x.stamp }
      let age (m : Measurement) : Nat := (x.stamp - m.openedAt).toNat
      let late (m : Measurement) : Bool := decide (c.settle + c.lag < age m)
      let waited : Nat := (s.clock.setWidth 16 - x.stamp).toNat
      let lateAtPreset : Bool := decide (c.settle + c.lag + waited < (s.clock - p.pnt.completedAt).toNat)
      let mean (m : Measurement) : Int := (m.sum + ((c.peakN / 2 : Nat) : Int)) / (c.peakN : Int)
      let atPreset : Prop := p.pnt.state = .active (.slewing .measure)
      let becomes (q : Plant) : Prop := exec .level s = .next { s with arrivals := rest, plant := q }
      let hands (q : Plant) : Prop := exec .level s = .next (applyHead q s)
      (atPreset →
        let m := counted c.peakN r lateAtPreset p.pnt.measurement
        let q : Plant := { p with pnt := { p.pnt with measurement := m } }
        if c.peakN ≤ m.count then hands (handMean (envOf s) .pnt (mean m) q) else becomes q) ∧
      (∀ y, ¬ atPreset → p.pat = some y →
        let m := counted c.peakN r (late y.measurement) y.measurement
        let q : Plant := { p with pat := some { y with measurement := m } }
        (∀ since, y.status = .running (.settle since) → becomes q) ∧
        (y.status = .running .measure → if c.peakN ≤ m.count then hands (handMean (envOf s) .pat (mean m) q) else becomes q)) ∧
      (¬ atPreset → patternListens p = false →
        let m := counted c.peakN r (late p.run.measurement) p.run.measurement
        let q : Plant := { p with run := { p.run with measurement := m } }
        (∀ since, p.run.status = .running (.settle since) ∨ p.run.status = .running (.closeSettle since) → becomes q) ∧
        (p.run.status = .running .measure ∨ p.run.status = .running .closeMeasure →
          if c.peakN ≤ m.count then hands (handMean (envOf s) .pke (mean m) q) else becomes q)) ∧
      (¬ atPreset → patternListens p = false → runListens p = false →
        p.monitor.state = .off ∨ p.monitor.lastSequence = some v.sequence → becomes p))

/-- A FRESH entry older than its limit goes STALE with value and stamp kept, and its permissives are not given; for WIND the filters
return to ABOVE with run 0 and the alarm clears; for VEHICLE DRIVE_AWAY is raised unless the mast is STOWED. An entry no older
than its limit, or not FRESH, does not expire (R30, R36, R37, R45). A mast RAISING upward is HALTED with cause BRAKE, WIND or CLEARANCE by the loss; that
of BRAKE_SET halts pointing, that of WIND_MOVE_OK or LEVEL_OK holds the activity that needs it, and tracking ends its monitor
(R42, R43, R44, R108, R130, R131, R164).
That a TRACKING held while WIND_MOVE_OK is not given has cause WIND too is DEDUCED: notes/assumptions/50.md.
That an ended monitor keeps no sequence seen is the model's choice: notes/assumptions/8.md. -/
def Obligations.AnEntryExpiresPastItsLimit : Prop :=
  ∀ (s : State) (stamp : Stamp),
    let v := s.plant.pvw
    let c := s.setup.cfg
    let age := (s.clock.setWidth 16 - stamp).toNat
    (v.vehicle.state = some .fresh → v.vehicle.stamp = some stamp → c.vehicleLimit < age →
      ∃ t, exec (.freshnessExpiry .vehicle) s = .next t ∧ t = { s with plant := t.plant } ∧ t.plant.aut = s.plant.aut ∧
        t.plant.pvw = { v with
          vehicle := { v.vehicle with state := some .stale },
          permissives := { v.permissives with brakeSet := false, outriggersDown := false, vanLevelOk := false, headingOk := false } } ∧
        (s.plant.msq.state ≠ .stowed →
          { kind := .driveAway, axis := .all } ∈ t.plant.flt.records ∨ (t.plant.flt.overflow = true ∧ .all ∈ t.plant.flt.overflowAxes)) ∧
        (s.plant.msq.state = .stowed → t.plant.flt = s.plant.flt) ∧
        (v.permissives.brakeSet = true → t.plant.pnt.state = .idle ∧ t.plant.pnt.record = s.plant.pnt.record ∧
          ∀ target, s.plant.msq.state = .raising target .up → t.plant.msq.state = .halted .brake)) ∧
    (v.wind.state = some .fresh → v.wind.stamp = some stamp → c.windLimit < age →
      ∃ t, exec (.freshnessExpiry .wind) s = .next t ∧ t = { s with plant := t.plant } ∧ t.plant.aut = s.plant.aut ∧ t.plant.flt = s.plant.flt ∧
        t.plant.pvw = { v with
          wind := { v.wind with state := some .stale }, raiseFilter := { side := .above, run := 0 }, holdFilter := { side := .above, run := 0 },
          alarm := false, permissives := { v.permissives with windRaiseOk := false, windMoveOk := false } } ∧
        (∀ target, v.permissives.windRaiseOk = true → s.plant.msq.state = .raising target .up → t.plant.msq.state = .halted .wind) ∧
        (∀ activity, v.permissives.windMoveOk = true → activity ≠ .tracking → s.plant.pnt.state = .active activity →
          t.plant.pnt.state = .held activity .wind)) ∧
    (v.clearance.state = some .fresh → v.clearance.stamp = some stamp → c.clearanceLimit < age →
      ∃ t, exec (.freshnessExpiry .clearance) s = .next t ∧ t = { s with plant := t.plant } ∧ t.plant.aut = s.plant.aut ∧ t.plant.flt = s.plant.flt ∧
        t.plant.pvw = { v with clearance := { v.clearance with state := some .stale }, permissives := { v.permissives with clearanceOk := false } } ∧
        (∀ target, v.permissives.clearanceOk = true → s.plant.msq.state = .raising target .up → t.plant.msq.state = .halted .clearance)) ∧
    (v.level.state = some .fresh → v.level.stamp = some stamp → c.levelLimit < age →
      ∃ t, exec (.freshnessExpiry .level) s = .next t ∧ t = { s with plant := t.plant } ∧ t.plant.aut = s.plant.aut ∧ t.plant.flt = s.plant.flt ∧
        t.plant.pvw = { v with level := { v.level with state := some .stale }, permissives := { v.permissives with levelOk := false } } ∧
        (∀ activity, c.source = .linked → v.permissives.levelOk = true → s.plant.pnt.state = .active activity →
          ((∃ phase, activity = .slewing phase) → flagPeakSet s.plant = true) →
          t.plant.pnt.state = .held activity (if v.permissives.windMoveOk = true then .level else .wind) ∧
            (activity = .tracking → t.plant.monitor = .cold))) ∧
    (v.vehicle.state ≠ some .fresh ∨ (v.vehicle.stamp = some stamp ∧ age ≤ c.vehicleLimit) → exec (.freshnessExpiry .vehicle) s = .next s) ∧
    (v.wind.state ≠ some .fresh ∨ (v.wind.stamp = some stamp ∧ age ≤ c.windLimit) → exec (.freshnessExpiry .wind) s = .next s) ∧
    (v.clearance.state ≠ some .fresh ∨ (v.clearance.stamp = some stamp ∧ age ≤ c.clearanceLimit) → exec (.freshnessExpiry .clearance) s = .next s) ∧
    (v.level.state ≠ some .fresh ∨ (v.level.stamp = some stamp ∧ age ≤ c.levelLimit) → exec (.freshnessExpiry .level) s = .next s)

/-! ## Stop, authority and replies (spec/04) -/

/-- The common checks in their order (R56, Table 4-4): in SAFE every command is refused CONFIG with the fault's cause; otherwise a
motion command is refused STOP_LATCHED under a SET latch with the station of a STOP or 0, NOT_HOLDER while the part is busy
for another panel; the plant takes the REPLY and nothing else. A COMMAND of an unknown code is refused UNKNOWN with the code, in SAFE CONFIG; the plant takes the REPLY and nothing else
(R56, R57). -/
def Obligations.TheCommonChecksRefuseInOrder : Prop :=
  (∀ (s : State) (x : ArrivalEntry) (c : CommandCode), headCommand (some c) s = some x →
      (∀ cause, s.setup.phase = .safe → s.setup.result = .fault cause →
        exec (instrOf c) s = .next (replied x (refuse .config (configFaultCode cause)) s.plant s)) ∧
      (∀ cause, s.setup.phase ≠ .safe → c.isMotion = true → s.plant.aut.latch = some cause →
        exec (instrOf c) s = .next (replied x (refuse .stopLatched (match cause with | .stop n => (n : Int) | .start | .duplicate => 0)) s.plant s)) ∧
      (∀ since, s.setup.phase ≠ .safe → c.isMotion = true → s.plant.aut.latch = none → s.plant.aut.duplicate = some since →
        exec (instrOf c) s = .next (replied x (refuse .duplicate (max 1 (10000 - (s.clock - since).toNat) : Nat)) s.plant s)) ∧
      (∀ h, s.setup.phase ≠ .safe → c.isMotion = true → s.plant.aut.latch = none → s.plant.aut.duplicate = none → busy s.plant = true →
        s.plant.aut.holder = some h → h ≠ x.source →
        exec (instrOf c) s = .next (replied x (refuse .notHolder (h : Int)) s.plant s))) ∧
  (∀ (s : State) (x : ArrivalEntry), headCommand none s = some x →
      (s.setup.phase ≠ .safe → exec .unknownCommandCode s = .next (replied x (refuse .unknown (byteAt x.payload 0).toNat) s.plant s)) ∧
      (∀ cause, s.setup.phase = .safe → s.setup.result = .fault cause →
        exec .unknownCommandCode s = .next (replied x (refuse .config (configFaultCode cause)) s.plant s)))

/-- An accepted RESUME makes the latch CLEAR, posts a POSITIONER_STATUS and then its REPLY, ACCEPTED, and leaves every other state as it was;
with the window OPEN it is refused STOP_ACTIVE with the milliseconds left; with the latch CLEAR it is accepted and changes
nothing (R51, R52, R56).
That the REPLY stands after the status, as R56 says, though a worked sequence lists it first, is DEDUCED: notes/assumptions/19.md. -/
def Obligations.ResumeClearsTheLatchAndStartsNothing : Prop :=
  ∀ (s : State) (x : ArrivalEntry), headCommand (some .resume) s = some x → s.setup.phase ≠ .safe → s.plant.aut.duplicate = none →
    (∀ cause, s.plant.aut.window = none → s.plant.aut.latch = some cause →
      exec .resume s = .next { s with
        arrivals := s.arrivals.tail,
        plant := postReply (envOf s) (sequenceOf x.payload) .accepted .none 0
          (postStatus (envOf s) { s.plant with aut := { s.plant.aut with latch := none } }) }) ∧
    (s.plant.aut.window = none → s.plant.aut.latch = none →
      exec .resume s = .next { s with
        arrivals := s.arrivals.tail, plant := postReply (envOf s) (sequenceOf x.payload) .accepted .none 0 s.plant }) ∧
    (∀ stamp, s.plant.aut.window = some stamp →
      exec .resume s = .next (replied x (refuse .stopActive (max 1 (500 - (s.clock.setWidth 16 - stamp).toNat) : Nat)) s.plant s))

/-- CLEAR_FAULT with at least one record whose condition no longer holds, every sensor valid: exactly those records and the
overflow leave, every axis in FAULT that nothing holds any more goes to IDLE with its position as hold target, every other axis
keeps its state, the answer is ACCEPTED with the records that remain. With none to remove it is refused FAULT with their number
(R99, R100).
The value is taken after the removal and the REPLY posted last (DEDUCED, notes/assumptions/33.md, 19.md); the axis free events stand in a list of the model's own (28.md). -/
def Obligations.ClearFaultRemovesWhatNoLongerHolds : Prop :=
  ∀ (s : State) (x : ArrivalEntry), headCommand (some .clearFault) s = some x → s.setup.phase ≠ .safe →
    let left := s.plant.flt.records.filter (conditionHolds (envOf s) s.plant)
    (left = s.plant.flt.records → exec .clearFault s = .next (replied x (refuse .fault left.length) s.plant s)) ∧
    (left ≠ s.plant.flt.records → (∀ a, (axisOf s.plant a).sensorValid = true) →
      ∃ q, exec .clearFault s = .next (replied x (accepted left.length) q s) ∧
        q.flt = { records := left, overflow := false, overflowAxes := [] } ∧
        q = { s.plant with posts := q.posts, axd := q.axd, flt := q.flt } ∧
        q.axd = { s.plant.axd with axes := q.axd.axes } ∧
        ∀ a, if (axisOf s.plant a).state = .fault ∧ left.all (fun r => !faultNames r.axis a) = true then
            (axisOf q a).state = .idle ∧ (axisOf q a).target = (axisOf s.plant a).position.map (clampSoft (envOf s) a) ∧
              (axisOf q a).freed = addNew (axisOf s.plant a).freed (axisOf s.plant a).noted
          else axisOf q a = axisOf s.plant a)

/-- REPORT: the REPLY is posted and the round of seven items begun; it and REPORT_ROUND_POST post the items at the front of the list
while each finds room, so that no round drops a post; the round keeps the rest, and only the post queue and the LINK_REPORT
group change (R58). -/
def Obligations.ARoundPostsWhatFindsRoom : Prop :=
  let advances (items : List RoundItem) (s t : State) : Prop :=
    ∃ done left, items = done ++ left ∧
      t = { s with
        line := { s.line with group := if .link ∈ done then (s.line.group + 1) % 3 else s.line.group },
        plant := { s.plant with posts := t.plant.posts, aut := { s.plant.aut with round := left } } } ∧
      t.plant.posts.drops = s.plant.posts.drops ∧ (∀ i ∈ done, hasWaiting (roundKey i) t.plant.posts.entries = true) ∧
      ∀ i more, left = i :: more → 6 ≤ t.plant.posts.entries.length ∧ hasWaiting (roundKey i) t.plant.posts.entries = false
  (∀ s : State, s.plant.aut.round.count .link ≤ 1 → ∃ t, exec .reportRoundPost s = .next t ∧ advances s.plant.aut.round s t) ∧
  (∀ (s : State) (x : ArrivalEntry), headCommand (some .report) s = some x → s.setup.phase ≠ .safe →
    ∃ t, exec .report s = .next t ∧ advances fullRound (replied x (accepted 0) s.plant s) t)

/-- A POSITIONER_STATUS of another mast changes nothing. One of the part's own mast, and any well-formed notice with the part's own station number, is
a duplicate event: it restarts the quiet timer, and on entry to the condition it sets the latch with cause DUPLICATE and posts HALT and then a status
and after them, the latch CLEAR before, stops every axis, halts the mast unless STOWED and halts pointing (R12, R20, R49, R53).
In SAFE as notes/assumptions/21.md says. -/
def Obligations.ASecondPositionerSetsTheDuplicateCondition : Prop :=
  (∀ (s : State) (x : ArrivalEntry) (rest : List ArrivalEntry), s.arrivals = x :: rest → x.kind = .positionerStatus →
    ((byteAt x.payload 0).toNat ≠ s.setup.mastNumber → exec .positionerStatus s = .next { s with arrivals := rest }) ∧
    ((byteAt x.payload 0).toNat = s.setup.mastNumber → ∃ t, exec .positionerStatus s = .next t ∧ duplicateTaken { s with arrivals := rest } t)) ∧
  (∀ (s : State) (f : Frame), receiving s = true → f.wf = true → checkMatches f = true → tagSource f.tag = s.setup.station →
    s.setup.result ≠ .fault .strap →
    ∃ t, exec (.noticeArrival f) s = .next t ∧
      duplicateTaken { s with line := { s.line with releasedBits := 0, drivenBits := 0, receiver := .afterNotice } } t)

/-- The duplicate condition becomes CLEAR 10000 ms after the latest duplicate event and not before, a POSITIONER_STATUS is posted, and
the latch stays as it was; while it is HELD, a RESUME is refused DUPLICATE with the milliseconds left, 1..10000 (R54). -/
def Obligations.TheDuplicateConditionOutlastsTheLastEvent : Prop :=
  ∀ (s : State) (since : Clock), s.plant.aut.duplicate = some since →
    (10000 ≤ (s.clock - since).toNat →
      exec .duplicateQuietExpiry s = .next { s with plant := postStatus (envOf s) { s.plant with aut := { s.plant.aut with duplicate := none } } }) ∧
    ((s.clock - since).toNat < 10000 → exec .duplicateQuietExpiry s = .next s) ∧
    (∀ x, headCommand (some .resume) s = some x → s.setup.phase ≠ .safe →
      ∃ n : Nat, 1 ≤ n ∧ n ≤ 10000 ∧ n = max 1 (10000 - (s.clock - since).toNat) ∧
        exec .resume s = .next (replied x (refuse .duplicate n) s.plant s))

/-! ## Sampler and watches (spec/05) -/

/-- A scan conversion that no watch follows: its result is the channel's latest, in LOCAL source a pilot result with
no dwell active joins the history at the next position of the ring, and the next conversion is a dwell conversion of the pilot
while a dwell is active, otherwise a scan of the channel at the pointer, which moves on. Nothing else changes (R61, R62, R63, R64, R65, R67), nor by a pilot level
below the acquire floor handed to a sweep. At or above the floor such a level ends the sweep: the handing stops, the pattern halts FOUND with the PAN position
last read, clamped, and the row's tilt target, PAN goes to STOPPING, a DWELL_REPORT of kind SEARCH with that point and level is posted, and pointing is PEAKING with a run from that point with δ0, TILT
on its way (R129, R144, R145, R150).
The identity of a dwell is a number of the model's own: notes/assumptions/40.md; that a spent measurement stays in its record is its choice too: notes/assumptions/70.md. -/
def Obligations.AScanResultIsStoredAndTheScanGoesOn : Prop :=
  ∀ (s : State) (channel : Nat) (result : Count),
    let c := s.setup.cfg
    let m := s.plant.smp
    let pilot : Prop := c.source = .localSource ∧ channel = c.pilot
    let level := clampInt (-1500) 300 (c.lZero + ((result.toNat * c.lGain + 2048) / 4096 : Nat))
    let joins : Prop := pilot ∧ m.dwell = none
    let stored : Sampler := { m with latest := m.latest.set channel (some result) }
    let ringed : Sampler := { stored with
      ring := m.ring.set (m.next - 1) (some level), next := if m.next = 8 then 1 else m.next + 1, count := if m.count < 8 then m.count + 1 else m.count }
    let floorReached : Prop := m.sweepHanding = true ∧ ∃ x, s.plant.pat = some x ∧ x.status = .running .sweep ∧ c.floor ≤ level
    m.converter = some { channel := channel, purpose := .scan } → (∀ w ∈ c.watches, w.channel = channel → w.action = .none) →
    (¬ (pilot ∧ floorReached) →
      (joins → ∃ next, exec (.scanConversionComplete result) s = .next { s with plant := { s.plant with smp := { ringed with
        converter := next, scanPointer := if next = none then m.scanPointer else nextChannel (envOf s) m.scanPointer } } } ∧
      (next = if c.enabled = 0 then none else some { channel := m.scanPointer, purpose := .scan })) ∧
      (∀ d, m.dwell = some d → exec (.scanConversionComplete result) s = .next { s with plant := { s.plant with smp := { stored with
        converter := some { channel := c.pilot, purpose := .dwell d.identity } } } }) ∧
      (¬ joins → m.dwell = none → c.enabled ≠ 0 → exec (.scanConversionComplete result) s = .next { s with plant := { s.plant with smp := { stored with
        converter := some { channel := m.scanPointer, purpose := .scan }, scanPointer := nextChannel (envOf s) m.scanPointer } } })) ∧
    (∀ x, joins → m.sweepHanding = true → s.plant.pat = some x → x.status = .running .sweep → c.floor ≤ level → c.enabled ≠ 0 →
      s.plant.pnt.state = .active (.acquiring .search) → activityMay (envOf s) s.plant → arbiterSound s.plant = true →
      (axisOf s.plant .pan).state = .moving → carriesMove (axisOf s.plant .pan) .pat = true → mayMoveTo (envOf s) s.plant .tilt x.targets.tilt →
      let point : HeadPoint := { pan := clampSoft (envOf s) .pan (positionOrZero s.plant .pan), tilt := x.targets.tilt }
      ∃ t, exec (.scanConversionComplete result) s = .next t ∧ t = { s with plant := t.plant } ∧
        postedWith .dwell (dwellPayload .search point.pan point.tilt level) s.plant t.plant ∧
        t.plant.smp = { ringed with
          sweepHanding := false, noted := m.noted.filter fun b => decide (b ≠ .pke), converter := some { channel := m.scanPointer, purpose := .scan }, scanPointer := nextChannel (envOf s) m.scanPointer } ∧
        t.plant.pat = some { x with status := .halted .found, moveList := [], found := some { point := point, level := level } } ∧
        t.plant.pnt = { s.plant.pnt with state := .active .peaking, record := s.plant.pnt.record.map fun r => { r with roundCount := 0 } } ∧
        t.plant.run.status = .running .toPoint ∧ t.plant.run.centre = point ∧ t.plant.run.delta = some c.delta0 ∧ t.plant.run.index = 1 ∧
        t.plant.run.moveList = [.pan, .tilt] ∧ (axisOf t.plant .pan).state = .stopping ∧ movesTo .pke .headMove (envOf s) t.plant .tilt x.targets.tilt)

/-- A dwell conversion of the active dwell, with no watch on the pilot channel: the level goes into the ring; short of N nothing else
follows; the N-th ends the dwell, hands floor((sum + floor(N/2)) / N) of the N levels to the requester and the dwell free event to
the noted requesters. A level of a dwell since ended joins the history when none is active and goes nowhere when another is. A
scan conversion follows (R63, R67, R68, R69). The mean taken by PNT in phase MEASURE is posted as PRESET at the positions last read: at or above the floor
it begins a peaking run from the pointing position with δ0, below it the configured pattern there, whose SWEEP_DEGRADED, posted for SWEEP with LINKED source, takes the
place of that report in the queue; with a need missing it is HELD before. In any other phase it changes nothing (R17, R128, R130, R136, R150).
The identity of a dwell is a number of the model's own (notes/assumptions/40.md); the dwell ends and its events are listed before the mean is handed on (47.md, 28.md);
the next conversion is begun after the result's effects (55.md); that the level of an ended dwell joins the history when no dwell is active, also where
another dwell was begun and ended in between, is the model's choice (61.md); that a search or a run entered with a need missing is begun and suspended at once is DEDUCED (32.md). -/
def Obligations.ADwellCollectsItsSamplesAndHandsTheirMean : Prop :=
  (∀ (s : State) (identity : Nat) (result : Count),
    let c := s.setup.cfg
    let m := s.plant.smp
    let level := clampInt (-1500) 300 (c.lZero + ((result.toNat * c.lGain + 2048) / 4096 : Nat))
    let stored : Sampler := { m with latest := m.latest.set c.pilot (some result) }
    let ringed : Sampler := { stored with
      ring := m.ring.set (m.next - 1) (some level), next := if m.next = 8 then 1 else m.next + 1, count := if m.count < 8 then m.count + 1 else m.count }
    let scanOn (x : Sampler) : Sampler := { x with
      converter := some { channel := x.scanPointer, purpose := .scan }, scanPointer := nextChannel (envOf s) x.scanPointer }
    m.converter = some { channel := c.pilot, purpose := .dwell identity } → c.source = .localSource → c.enabled ≠ 0 →
    (m.sweepHanding = true → ∀ x, s.plant.pat = some x → x.status = .running .sweep → level < c.floor) →
    (∀ w ∈ c.watches, w.channel = c.pilot → w.action = .none) →
    (∀ d, m.dwell = some d → d.identity = identity → m.count < 8 → m.count + 1 ≠ d.samples →
      exec (.dwellConversionComplete result) s = .next { s with plant := { s.plant with smp := scanOn ringed } }) ∧
    (∀ (d : Dwell) (levels : List Int), m.dwell = some d → d.identity = identity → m.ring.length = 8 → m.ring.take levels.length = levels.map some → levels.length ≤ 7 →
      d.samples = levels.length + 1 → m.count = levels.length → m.next = levels.length + 1 →
      let q := handMean (envOf s) d.requester ((levels.sum + level + ((d.samples / 2 : Nat) : Int)) / (d.samples : Int))
        { s.plant with smp := { ringed with dwell := none, freed := addNew m.freed m.noted, noted := [] } }
      q.smp.sweepHanding = false → exec (.dwellConversionComplete result) s = .next (withPlant { q with smp := scanOn q.smp } s)) ∧
    (m.dwell = none → exec (.dwellConversionComplete result) s = .next { s with plant := { s.plant with smp := scanOn ringed } }) ∧
    (∀ d, m.dwell = some d → d.identity ≠ identity →
      exec (.dwellConversionComplete result) s = .next { s with plant := { s.plant with smp := scanOn stored } })) ∧
  (∀ (e : Env) (level : Int) (p : Plant),
    let c := cfgOf e
    let q := handMean e .pnt level p
    let point : HeadPoint := { pan := pointingTarget e p .pan, tilt := pointingTarget e p .tilt }
    let first : HeadPoint := { point with pan := point.pan - ((c.sigma * ((c.points - 1) / 2) : Nat) : Int) }
    let cause : PointHold := if given p .windMoveOk = true then .level else .wind
    (p.pnt.state ≠ .active (.slewing .measure) → q = p) ∧
    (p.pnt.state = .active (.slewing .measure) → c.floor ≤ level → mayMoveToPoint e p point →
      dwellPosted .preset level p q ∧ (activityMay e p → q.pnt.state = .active .peaking ∧ runBegun e point c.delta0 q) ∧
        (¬ activityMay e p → q.pnt.state = .held .peaking cause ∧ q.run.status = .suspended .toPoint)) ∧
    (p.pnt.state = .active (.slewing .measure) → level < c.floor → mayMoveToPoint e p first →
      (if c.source = .linked ∧ c.mode = .sweep then postedWith .dwell (dwellPayload .sweepDegraded point.pan point.tilt (-1500)) p q
        else dwellPosted .preset level p q) ∧
      ∃ y, q.pat = some y ∧ y.origin = point ∧ y.row = 1 ∧ y.point = 1 ∧ y.pass = 1 ∧ y.found = none ∧
        y.sigma = c.sigma ∧ y.rows = c.rows ∧ y.points = c.points ∧ y.passes = c.passes ∧
        (activityMay e p → q.pnt.state = .active (.acquiring .search) ∧ moveToPoint .pat e q first ∧
          y.status = .running (if c.source = .linked ∨ c.mode = .step then .toPoint else .toRowStart)) ∧
        (¬ activityMay e p → q.pnt.state = .held (.acquiring .search) cause ∧
          y.status = .suspended (if c.source = .linked ∨ c.mode = .step then .toPoint else .toRowStart))))

/-- A DWELL_FREE taken by a requester whose measurement still wants its dwell: with no dwell active a new one is accepted, every
position of the ring emptied; with another requester's dwell active it is refused and noted again. A requester that wants none
has only taken the event (R66, R67). An axis free event taken with the axis IDLE and nothing in the way of a move: the axis is requested again by PNT for an axis
still on the list of its slew or return, by MSQ for one on the parking list or for the pending lowering, by PAT and PKE for one on the move list of their point
(R81, R114, R116, R127, R129, R139, R151). Taken by a requester with nothing left to ask, or by JOG, it changes nothing but that it is taken.
The events not yet taken stand in lists of the model's own (notes/assumptions/28.md); the identity of a dwell is a number of the model's own (40.md). -/
def Obligations.AFreedRequesterAsksAgain : Prop :=
  (∀ (s : State) (q : Requester), q ∈ s.plant.smp.freed → s.setup.cfg.source = .localSource →
      let m : Sampler := { s.plant.smp with freed := s.plant.smp.freed.filter fun r => decide (r ≠ q) }
      (wantsDwell q s.plant = true → m.dwell = none →
        exec (.dwellFree q) s = .next { s with plant := { s.plant with smp := { m with
          ring := List.replicate 8 none, next := 1, count := 0, nextIdentity := m.nextIdentity + 1,
          dwell := some { identity := m.nextIdentity, requester := q, samples := s.setup.cfg.peakN } } } }) ∧
      (∀ d, wantsDwell q s.plant = true → m.dwell = some d → d.requester ≠ q → q ∉ m.noted →
        exec (.dwellFree q) s = .next { s with plant := { s.plant with smp := { m with noted := m.noted ++ [q] } } }) ∧
      (wantsDwell q s.plant = false → exec (.dwellFree q) s = .next { s with plant := { s.plant with smp := m } })) ∧
  (∀ (s : State) (a : Axis), .pnt ∈ (axisOf s.plant a).freed → a ∈ [Axis.pan, .tilt, .pol] →
      let taken := setAxisRaw a { axisOf s.plant a with freed := (axisOf s.plant a).freed.filter fun r => decide (r ≠ .pnt) } s.plant
      (s.plant.pnt.state = .active (.slewing .move) ∨ s.plant.pnt.state = .active (.acquiring .back) → a ∈ s.plant.pnt.slewList → s.plant.aut.latch = none → (axisOf s.plant a).state = .idle →
        headFree (envOf s) s.plant = true → (axisOf s.plant a).switchLow = false → (axisOf s.plant a).switchHigh = false →
        ∃ t, exec (.axisFree a .pnt) s = .next t ∧ t = { s with plant := { s.plant with posts := t.plant.posts, axd := t.plant.axd } } ∧
          ((axisOf t.plant a).state = .waiting ∨ (axisOf t.plant a).state = .moving) ∧ (axisOf t.plant a).requester = some .pnt ∧
          (axisOf t.plant a).cls = some .headMove ∧ (axisOf t.plant a).target = some (pointingTarget (envOf s) s.plant a) ∧
          .pnt ∉ (axisOf t.plant a).freed) ∧
      (s.plant.pnt.state = .idle ∨ a ∉ s.plant.pnt.slewList → exec (.axisFree a .pnt) s = .next { s with plant := taken })) ∧
  (∀ (s : State) (a : Axis) (q : Requester), q ∈ (axisOf s.plant a).freed →
      let p := s.plant
      let e := envOf s
      let taken := setAxisRaw a { axisOf p a with freed := (axisOf p a).freed.filter fun r => decide (r ≠ q) } p
      let asks (cls : MotionClass) (target : Int) (msq : Mast) : Prop := ∃ t, exec (.axisFree a q) s = .next t ∧
        t = { s with plant := { p with posts := t.plant.posts, axd := t.plant.axd, msq := msq, pat := t.plant.pat, run := t.plant.run } } ∧
        movesTo q cls e t.plant a target ∧ q ∉ (axisOf t.plant a).freed ∧ t.plant.pat.map (·.status) = p.pat.map (·.status) ∧ t.plant.run.status = p.run.status
      (q = .jog → exec (.axisFree a q) s = .next { s with plant := taken }) ∧
      (∀ l, q = .msq → p.msq.state = .parking l → a ∈ l → a ≠ .mast → mayMoveTo e p a (stowPosition e a) → asks .lower (stowPosition e a) p.msq) ∧
      (q = .msq → p.msq.state = .lowering true → a = .mast → mayMoveTo e p a 0 → asks .lower 0 { p.msq with state := .lowering false }) ∧
      (∀ y, q = .pat → p.pat = some y → y.status = .running .toPoint ∨ y.status = .running .toRowStart → a ∈ y.moveList → y.barred = false → a = .pan ∨ a = .tilt →
        mayMoveTo e p a (if a = .tilt then y.targets.tilt else y.targets.pan) → asks .headMove (if a = .tilt then y.targets.tilt else y.targets.pan) p.msq) ∧
      (∀ st, q = .pke → p.run.status = .running st → a ∈ p.run.moveList → p.run.barred = false → a = .pan ∨ a = .tilt →
        mayMoveTo e p a (if a = .tilt then p.run.targets.tilt else p.run.targets.pan) → asks .headMove (if a = .tilt then p.run.targets.tilt else p.run.targets.pan) p.msq))

/-- A watch steps by the table of R72: a result on its own side breaks the run; a result on the other side, or any result from
UNKNOWN, counts toward that side, from 1 after a result on the other; at the depth the side is entered, with an edge unless it was
UNKNOWN. The fault side does not change at a step. A watch event (an edge of the selected direction) makes the side entered the fault side; HALT_AXIS and HALT_ALL then enter a fault
of the watch's kind on the named axis or ALL, unless the record stands already or 8 stand; REPORT posts a DWELL_REPORT of the
watch's point kind with the result as its level. An edge not selected changes only the watch (R73, R74, R75). A scan conversion of a channel that one watch
follows runs that watch on its result, stored first, and then begins the next conversion (R61, R63).
The next conversion is begun after the result's effects: notes/assumptions/55.md. -/
def Obligations.AWatchStepsByItsTableAndActs : Prop :=
  (∀ (c : WatchCfg) (result : Count) (w : WatchState),
      let side : Side := if c.threshold ≤ result.toNat then .above else .below
      let run := if w.runSide = some side then w.run + 1 else 1
      (w.side = some side → stepWatch c result w = ({ w with run := 0, runSide := none }, none)) ∧
      (w.side ≠ some side → run < c.depth → stepWatch c result w = ({ w with run := run, runSide := some side }, none)) ∧
      (w.side = none → c.depth ≤ run → stepWatch c result w = ({ w with side := some side, run := 0, runSide := none }, none)) ∧
      (∀ old, w.side = some old → old ≠ side → c.depth ≤ run →
        stepWatch c result w = ({ w with side := some side, run := 0, runSide := none }, some side))) ∧
  (∀ (e : Env) (i : Nat) (c : WatchCfg) (w : WatchState) (entered : Side) (result : Count) (p : Plant),
      let selected : Prop := c.edgeCode ≥ 2 ∨ (c.edgeCode = 0 ∧ entered = .above) ∨ (c.edgeCode = 1 ∧ entered = .below)
      let kind : FaultKind := match c.kindCode with | 0 => .pressure | 1 => .current | 2 => .supply | 3 => .baseTilt | _ => .pilot
      let marked : List WatchState := p.watches.set i { w with faultSide := some entered }
      let q := watchEdge e i c w entered result p
      (¬ selected → q = { p with watches := p.watches.set i w }) ∧
      (selected → q = watchAction e i c entered result { p with watches := marked }) ∧
      (selected → c.action = .report → q = { p with
        watches := marked,
        posts := postTo .dwell (postTag e .dwell)
          (dwellPayload (.watch (i + 1) entered) (positionOrZero p .pan) (positionOrZero p .tilt) (result.toNat : Int)) p.posts }) ∧
      (∀ f, selected → watchScope c = some f → p.flt.records.length < 8 ∨ { kind := kind, axis := f } ∈ p.flt.records →
        { kind := kind, axis := f } ∈ q.flt.records)) ∧
  (∀ (s : State) (channel i : Nat) (c : WatchCfg) (w : WatchState) (result : Count),
      let cfg := s.setup.cfg
      s.plant.smp.converter = some { channel := channel, purpose := .scan } → i < 6 → cfg.watches[i]? = some c → s.plant.watches[i]? = some w →
      c.channel = channel → c.action ≠ .none → (∀ j d, j ≠ i → cfg.watches[j]? = some d → d.channel = channel → d.action = .none) →
      (cfg.source = .linked ∨ channel ≠ cfg.pilot) →
      let p : Plant := { s.plant with smp := { s.plant.smp with latest := s.plant.smp.latest.set channel (some result) } }
      let q := match stepWatch c result w with
        | (w1, some entered) => watchEdge (envOf s) i c w1 entered result p
        | (w1, none) => { p with watches := p.watches.set i w1 }
      exec (.scanConversionComplete result) s = .next (withPlant { q with smp := beginConversion (envOf s) true q.smp } s))

/-! ## Axis drives and faults (spec/06) -/

/-- The answers to a move request in their order (R79): LATCHED under a SET latch, STOPPING for a stopping axis, FAULT for one in FAULT
that no DRIVE_AWAY alone holds against a LOWER, CRADLE for a head axis with the mast below the cradle clear height, RANGE for a clamped
target toward an active switch, BUSY for an axis with another requester's move; STOPPING and BUSY note the requester, and no
refusal changes more. From IDLE the request is accepted with its clamped target. In WAITING, MOVING and SETTLING the same requester's request replaces its move,
and any requester's a correction: the record takes the new class and target, the speed stays, and SETTLING goes back to MOVING for a target outside the window or
restarts its timer (R80).
That a restarted settle timer keeps the count of SETTLING periods is DEDUCED: notes/assumptions/26.md. -/
def Obligations.AMoveRequestIsJudgedInOrder : Prop :=
  ∀ (e : Env) (q : MoveRequest) (p : Plant),
    let r := axisOf p q.axis
    let target := clampSoft e q.axis q.target
    let noted := setAxisRaw q.axis { r with noted := if q.requester ∈ r.noted then r.noted else r.noted ++ [q.requester] } p
    let cradled : Prop := q.axis ≠ .mast ∧ q.requester ≠ .jog ∧ headFree e p = false
    let exempt : Prop := q.requester = .msq ∧ q.cls = .lower ∧ mastBringingDown p.msq.state = true ∧ heldBeyondDriveAway p q.axis = false
    (p.aut.latch ≠ none → moveRequest e q p = (p, .latched)) ∧
    (p.aut.latch = none → r.state = .stopping → moveRequest e q p = (noted, .stopping)) ∧
    (p.aut.latch = none → r.state = .fault → ¬ exempt → moveRequest e q p = (p, .fault)) ∧
    (p.aut.latch = none → (r.state ≠ .stopping ∧ (r.state ≠ .fault ∨ exempt)) →
      (cradled → moveRequest e q p = (p, .cradle)) ∧
      (¬ cradled → switchBlocks r target = true → moveRequest e q p = (p, .range)) ∧
      (¬ cradled → switchBlocks r target = false → r.state ≠ .idle → r.state ≠ .fault → r.correction = false → r.requester ≠ some q.requester →
        moveRequest e q p = (noted, .busy)) ∧
      (¬ cradled → switchBlocks r target = false → (r.state = .idle ∨ r.state = .fault) →
        (moveRequest e q p).2 = .accepted target (decide (target ≠ q.target)) ∧
        ((axisOf (moveRequest e q p).1 q.axis).state = .waiting ∨ (axisOf (moveRequest e q p).1 q.axis).state = .moving) ∧
        (axisOf (moveRequest e q p).1 q.axis).requester = some q.requester ∧ (axisOf (moveRequest e q p).1 q.axis).cls = some q.cls ∧
        (axisOf (moveRequest e q p).1 q.axis).target = some target ∧ (axisOf (moveRequest e q p).1 q.axis).drift = false) ∧
      (¬ cradled → switchBlocks r target = false → (r.state = .waiting ∨ r.state = .moving ∨ r.state = .settling) →
        (r.correction = true ∨ r.requester = some q.requester) →
        let t := (moveRequest e q p).1
        let far : Prop := ∃ x, r.position = some x ∧ (axisCfg e q.axis).window < (target - x).natAbs
        (moveRequest e q p).2 = .accepted target (decide (target ≠ q.target)) ∧
        t = { p with posts := t.posts, axd := { p.axd with axes := t.axd.axes } } ∧ (∀ b, b ≠ q.axis → axisOf t b = axisOf p b) ∧
        (axisOf t q.axis).requester = some q.requester ∧ (axisOf t q.axis).cls = some q.cls ∧ (axisOf t q.axis).target = some target ∧
        (axisOf t q.axis).correction = false ∧ (axisOf t q.axis).cap = q.cap ∧ (axisOf t q.axis).v = r.v ∧ (axisOf t q.axis).brakeSet = r.brakeSet ∧
        (r.state ≠ .settling → (axisOf t q.axis).state = r.state) ∧
        (r.state = .settling → (axisOf t q.axis).settleTimer = 0 ∧ (far → (axisOf t q.axis).state = .moving) ∧
          (¬ far → (axisOf t q.axis).state = .settling ∧ (axisOf t q.axis).settlePeriods = r.settlePeriods))))

/-- A servo period with a valid reading within the margins (in STOPPING within the soft limits), no switch active, the stall time not reached and MAST not below the
cradle clear height. In MOVING the speed goes toward the demand (the error times the gain over 16, rounded, under vmax or the sweep's cap)
by at most the speed step, with its code and direction, and the axis settles inside the window at a speed within the step; in STOPPING the speed
goes to 0 by the stop step and at 0 the axis comes to rest, in FAULT when held; in SETTLING the timer counts while inside the window. No
other axis and nothing but this axis's record and posts change (R82, R83, R84, R89). In IDLE a position more than twice the window from the hold target begins a
correction when the latch is CLEAR and, for MAST upward, every RAISE permissive or, for a head axis, the HEAD_MOVE permissives and a free head are given;
otherwise the drift flag is set; nearer it is clear (R90).
The period is one axis's (notes/assumptions/23.md), and one that makes the stall timeout due leaves its drive step to STALL_TIMEOUT (25.md). -/
def Obligations.AServoPeriodDrivesTheAxis : Prop :=
  (∀ (s : State) (a : Axis) (w : SensorWord) (x target : Int),
    let e := envOf s
    let r := axisOf s.plant a
    let c := axisCfg e a
    let err := target - w.toInt
    let top : Int := (r.cap.getD c.vmax : Nat)
    let toward (demand : Int) : Int := r.v + clampInt (-(c.speedStep : Int)) c.speedStep (demand - r.v)
    let outputs (q : AxisRec) (v : Int) : Prop :=
      q.v = v ∧ q.code = min 1023 (roundUp ((v.natAbs : Int) * 1023) (c.fullScale : Int)).toNat ∧ q.dirDriven = decide (v < 0)
    s.setup.phase = .running → r.position = some x → r.target = some target → c.softMin - c.margin ≤ w.toInt → w.toInt ≤ c.softMax + c.margin →
    (r.state = .stopping → c.softMin ≤ w.toInt ∧ w.toInt ≤ c.softMax) →
    (a = .mast → (s.setup.cfg.cradleClear : Int) ≤ w.toInt) → (r.v.natAbs < c.stallSpeed ∨ r.stallTimer + 1 < c.stallTime) →
    (r.state = .moving ∨ r.state = .settling ∨ r.state = .stopping) →
    ∃ t, exec (.servoPeriod a { reading := some w, low := false, high := false }) s = .next t ∧
      t = { s with plant := { s.plant with posts := t.plant.posts, axd := { s.plant.axd with axes := t.plant.axd.axes } } } ∧
      (∀ b, b ≠ a → axisOf t.plant b = axisOf s.plant b) ∧
      (axisOf t.plant a).position = some w.toInt ∧
      ((axisOf t.plant a).state = r.state → (axisOf t.plant a).drift = r.drift → t.plant.posts = s.plant.posts) ∧
      (r.state = .moving →
        let v := toward (clampInt (-top) top (roundAway (err * (c.gain : Int)) 16))
        outputs (axisOf t.plant a) v ∧ (axisOf t.plant a).brakeSet = r.brakeSet ∧ (axisOf t.plant a).target = some target ∧
          (axisOf t.plant a).state = if err.natAbs ≤ c.window ∧ v.natAbs ≤ c.speedStep then .settling else .moving) ∧
      (r.state = .settling →
        outputs (axisOf t.plant a) (toward 0) ∧ (axisOf t.plant a).brakeSet = r.brakeSet ∧
          if c.window < err.natAbs then (axisOf t.plant a).state = .moving
          else (axisOf t.plant a).state = .settling ∧ (axisOf t.plant a).settleTimer = r.settleTimer + 1 ∧
            (axisOf t.plant a).settlePeriods = r.settlePeriods + 1) ∧
      (r.state = .stopping →
        let v := if (c.stopStep : Int) < r.v then r.v - c.stopStep else if r.v < -(c.stopStep : Int) then r.v + c.stopStep else 0
        if v ≠ 0 then outputs (axisOf t.plant a) v ∧ (axisOf t.plant a).state = .stopping ∧ (axisOf t.plant a).brakeSet = r.brakeSet
        else axisAtRest (axisOf t.plant a) = true ∧ (axisOf t.plant a).code = 0 ∧ (axisOf t.plant a).dirDriven = false ∧
          (axisOf t.plant a).state = (if isHeld s.plant a then .fault else .idle) ∧
          (axisOf t.plant a).target = some (clampInt c.softMin c.softMax w.toInt) ∧
          (axisOf t.plant a).requester = none ∧ (axisOf t.plant a).lastOwner = r.requester.getD r.lastOwner)) ∧
  (∀ (s : State) (a : Axis) (w : SensorWord) (x target : Int),
    let p := s.plant
    let r := axisOf p a
    let c := axisCfg (envOf s) a
    let drifted : Prop := 2 * c.window < (w.toInt - target).natAbs
    let cls : MotionClass := if a ≠ .mast then .headMove else if w.toInt < target then .raise else .lower
    let may : Prop := p.aut.latch = none ∧ (cls = .raise → raiseGiven p = true) ∧ (a ≠ .mast → headMoveGiven p = true ∧ headFree (envOf s) p = true)
    s.setup.phase = .running → r.state = .idle → r.position = some x → r.target = some target → c.softMin - c.margin ≤ w.toInt →
    w.toInt ≤ c.softMax + c.margin → (a = .mast → (s.setup.cfg.cradleClear : Int) ≤ w.toInt) →
    ∃ t, exec (.servoPeriod a { reading := some w, low := false, high := false }) s = .next t ∧
      t = { s with plant := { p with posts := t.plant.posts, axd := t.plant.axd } } ∧ (axisOf t.plant a).position = some w.toInt ∧
      (axisOf t.plant a).target = some target ∧
      (drifted → may → ((axisOf t.plant a).state = .waiting ∨ (axisOf t.plant a).state = .moving) ∧ (axisOf t.plant a).requester = some r.lastOwner ∧
        (axisOf t.plant a).cls = some cls ∧ (axisOf t.plant a).correction = true ∧ (axisOf t.plant a).drift = false) ∧
      (¬ (drifted ∧ may) → (axisOf t.plant a).state = .idle ∧ ((axisOf t.plant a).drift = true ↔ drifted) ∧ ∀ b, b ≠ a → axisOf t.plant b = axisOf p b))

/-- A fault raised (R96, R97, R98): a repeat of a stored record leaves the set, the mast and pointing as they were; a new one is stored, or
with 8 records sets the overflow indication and adds its axis to the overflow axes. Every named axis, a LOWER spared by a stored
DRIVE_AWAY apart, goes from IDLE or WAITING to FAULT and from MOVING or SETTLING to STOPPING. A stall timeout enters STALL on its axis, and an axis that was MOVING takes one stop step as STOPPING, at rest in FAULT when that brings
it to 0 (R84, R88, R98). A servo period raises OVERTRAVEL at a reading newly beyond a soft limit by more than the margin, LIMIT at the active switch the axis
moves toward, SENSOR at an invalid reading after a valid one, and no other fault (R86, R87, R89). MAST falling below the cradle clear height while RAISED, HALTED or
PARKING halts pointing and ends the JOGs, those of recovery apart, and with the head outside stow the mast is HALTED with cause HEAD_NOT_PARKED and a HALT posted,
also where that was its cause before (R117).
That a JOG that waits may take the grant pointing returns before it is ended follows notes/assumptions/27.md. Which moves are spared is DEDUCED (notes/assumptions/22.md), and the stall timeout ends its period by notes/assumptions/25.md. -/
def Obligations.AFaultIsEnteredAndHaltsItsAxes : Prop :=
  (∀ (e : Env) (kind : FaultKind) (axis : FaultAxis) (p : Plant),
      let x : FaultRecord := { kind := kind, axis := axis }
      let q := raiseFault e kind axis p
      (x ∈ p.flt.records → q.flt = p.flt ∧ q.msq = p.msq ∧ q.pnt = p.pnt) ∧
      (x ∉ p.flt.records → p.flt.records.length < 8 → q.flt = { p.flt with records := p.flt.records ++ [x] }) ∧
      (x ∉ p.flt.records → 8 ≤ p.flt.records.length →
        q.flt = { p.flt with
          overflow := true, overflowAxes := if axis ∈ p.flt.overflowAxes then p.flt.overflowAxes else p.flt.overflowAxes ++ [axis] }) ∧
      (∀ a, arbiterSound p = true → faultNames axis a = true → (kind ≠ .driveAway ∨ sparedLower p (axisOf p a) = false) →
        (axisOf q a).state = match (axisOf p a).state with
          | .idle | .waiting | .fault => .fault
          | .moving | .settling | .stopping => .stopping)) ∧
  (∀ (s : State) (a : Axis), arbiterSound s.plant = true → (axisOf s.plant a).stallDue = true → (axisOf s.plant a).state = .moving →
      let v := stopRamp (axisOf s.plant a).v (axisCfg (envOf s) a).stopStep
      ∃ t, exec (.stallTimeout a) s = .next t ∧ t = { s with plant := t.plant } ∧ t.plant.aut = s.plant.aut ∧ t.plant.pvw = s.plant.pvw ∧
        (s.plant.flt.records.length < 8 ∨ { kind := .stall, axis := .one a } ∈ s.plant.flt.records →
          { kind := .stall, axis := .one a } ∈ t.plant.flt.records) ∧
        (axisOf t.plant a).v = v ∧ (axisOf t.plant a).stallDue = false ∧
        (axisOf t.plant a).state = if v = 0 then .fault else .stopping) ∧
  (∀ (s : State) (a : Axis) (pins : AxisPins) (x : Int), s.setup.phase = .running → (axisOf s.plant a).position = some x →
      let r := axisOf s.plant a
      let c := axisCfg (envOf s) a
      let y : Int := (pins.reading.map (·.toInt)).getD x
      let beyond : Prop := (c.softMax + c.margin < y ∧ r.outsideHigh = false) ∨ (y < c.softMin - c.margin ∧ r.outsideLow = false)
      let atEnd : Prop := (r.state = .moving ∨ r.state = .settling ∨ r.state = .stopping) ∧ ((0 < r.v ∧ pins.high = true) ∨ (r.v < 0 ∧ pins.low = true))
      let gone : Prop := r.sensorValid = true ∧ pins.reading = none
      ∃ t, exec (.servoPeriod a pins) s = .next t ∧ t = { s with plant := t.plant } ∧ t.plant.aut = s.plant.aut ∧ t.plant.pvw = s.plant.pvw ∧
        (beyond → faultEntered .overtravel (.one a) t.plant.flt) ∧ (arbiterSound s.plant = true → atEnd → faultEntered .limit (.one a) t.plant.flt) ∧
        (gone → faultEntered .sensor (.one a) t.plant.flt) ∧ (¬ beyond → ¬ atEnd → ¬ gone → t.plant.flt = s.plant.flt) ∧
        (a = .mast → (s.setup.cfg.cradleClear : Int) ≤ x → y < s.setup.cfg.cradleClear → ¬ beyond → ¬ atEnd → ¬ gone →
          ((s.plant.msq.state = .raised ∨ ∃ cause, s.plant.msq.state = .halted cause) →
            t.plant.pnt.state = .idle ∧ t.plant.pnt.record = s.plant.pnt.record ∧
            t.plant.msq.state = (if headInsideStow (envOf s) s.plant = true then s.plant.msq.state else .halted .headNotParked) ∧
            (headInsideStow (envOf s) s.plant = false → madePost .halt s.plant t.plant) ∧
            ∀ b, arbiterSound s.plant = true → b ≠ .mast → carriesMove (axisOf s.plant b) .jog = true → (axisOf s.plant b).recovery = false →
              (axisOf t.plant b).state = endedState (axisOf s.plant b).state ∨
                ((axisOf s.plant b).state = .waiting ∧ s.plant.axd.grants ≠ [] ∧ (axisOf t.plant b).state = .stopping)) ∧
          (∀ l, s.plant.msq.state = .parking l → t.plant.msq.state = .halted .headNotParked ∧ madePost .halt s.plant t.plant)))

/-- A settle time reached with v 0 completes the move of a correction or a JOG: the axis IDLE (or at once FAULT when held), the brake set, the
grant returned and given at once to the waiting axis that stands first, the target kept, the requester the last owner; nothing is handed on and nothing else
changes but reports (R83, R94, R95, R98). MSQ's move ends a raise in RAISED and a lowering
in STOWED at or below the stow window, in RAISED above it; the last slew move of PNT ends the slew, in POINTED without the PEAK flag, or the return, in
LOST (R107, R116, R127, R129). RAISED releases a waiting AIM. A parking move leaves the parking list, whose end goes on to LOWERING with the head inside stow, to
HALTED otherwise; the last move of a search point, a cross point or the closing opens the measurement; that to the best centre ends the run ROUGH, without the TRACK flag in POINTED (R114, R115, R139, R151, R155, R156). In SWEEP mode the last move to a row's start begins the sweep at once: PAN requested to the row's last point under
the cap floor(vmax / 4), at least 1, and the handing begun, a blocked row start being reported and its row ended; the sweep's own Completed stops the handing and ends the row, and the pattern goes on to the next row or pass, or
halts EXHAUSTED with the head sent back (R139, R143, R144, R145).
That no axis completes before its second SETTLING period is DEDUCED (notes/assumptions/26.md); the lists of events (28.md), RAISED above the stow window for
whatever reason (66.md) and the record's PAN target during a sweep (67.md) are the model's choice.
That an ended monitor keeps no sequence seen is the model's choice: notes/assumptions/8.md. -/
def Obligations.ASettledMoveCompletes : Prop :=
  (∀ (s : State) (a : Axis), (axisOf s.plant a).state ≠ .settling ∨ (axisOf s.plant a).v ≠ 0 ∨
      (axisOf s.plant a).settleTimer < max 1 (axisCfg (envOf s) a).settleTime ∨ (axisOf s.plant a).settlePeriods < 2 → exec (.settleTimeExpiry a) s = .next s) ∧
  (∀ (s : State) (a : Axis), (axisOf s.plant a).state = .settling → (axisOf s.plant a).v = 0 →
      max 1 (axisCfg (envOf s) a).settleTime ≤ (axisOf s.plant a).settleTimer → 2 ≤ (axisOf s.plant a).settlePeriods →
      ((axisOf s.plant a).correction = true ∨ (axisOf s.plant a).requester = some .jog) → arbiterSound s.plant = true → budgetSound s = true →
      let d := s.plant.axd
      let left := d.grants.filter fun b => decide (b ≠ a)
      ∃ t, exec (.settleTimeExpiry a) s = .next t ∧
        t = { s with plant := { s.plant with posts := t.plant.posts, axd := t.plant.axd } } ∧ othersKept a s.plant t.plant ∧
        (d.waiting = [] → t.plant.axd = { d with axes := t.plant.axd.axes, grants := left }) ∧
        (∀ b, standsFirst d b → (axisOf t.plant b).state = .moving ∧ (∀ c, c ≠ a → c ≠ b → axisOf t.plant c = axisOf s.plant c) ∧
          t.plant.axd = {
            axes := t.plant.axd.axes, grants := left ++ [b], waiting := d.waiting.filter (fun c => decide (c ≠ b)),
            lastGranted := match b with | .pan => .pan | .tilt => .tilt | .mast | .pol => d.lastGranted }) ∧
        (axisOf t.plant a).state = (if isHeld s.plant a then .fault else .idle) ∧
        axisAtRest (axisOf t.plant a) = true ∧ (axisOf t.plant a).code = 0 ∧ (axisOf t.plant a).dirDriven = false ∧
        (axisOf t.plant a).target = (axisOf s.plant a).target ∧ (axisOf t.plant a).requester = none ∧ (axisOf t.plant a).cls = none ∧
        (axisOf t.plant a).correction = false ∧
        (axisOf t.plant a).lastOwner = (axisOf s.plant a).requester.getD (axisOf s.plant a).lastOwner) ∧
  (∀ (s : State) (a : Axis), (axisOf s.plant a).state = .settling → (axisOf s.plant a).v = 0 → (axisOf s.plant a).correction = false →
      max 1 (axisCfg (envOf s) a).settleTime ≤ (axisOf s.plant a).settleTimer → 2 ≤ (axisOf s.plant a).settlePeriods → s.plant.pnt.state ≠ .waitingMast → arbiterSound s.plant = true →
      let opened (s : State) : Measurement :=
        { count := 0, sum := 0, lastSequence := s.plant.pvw.level.value.map (·.sequence), openedAt := s.clock.setWidth 16 }
      let rest (t : State) : Prop := (axisOf t.plant a).state = (if isHeld s.plant a then .fault else .idle) ∧ axisAtRest (axisOf t.plant a) = true ∧
        (axisOf t.plant a).target = (axisOf s.plant a).target ∧ othersKept a s.plant t.plant
      (∀ target direction, a = .mast → (axisOf s.plant a).requester = some .msq → s.plant.msq.state = .raising target direction →
        ∃ t, exec (.settleTimeExpiry a) s = .next t ∧ rest t ∧ t.plant.msq = { s.plant.msq with state := .raised } ∧ t.plant.pnt = s.plant.pnt) ∧
      (∀ pending h, a = .mast → (axisOf s.plant a).requester = some .msq → s.plant.msq.state = .lowering pending → (axisOf s.plant a).position = some h →
        ∃ t, exec (.settleTimeExpiry a) s = .next t ∧ rest t ∧ t.plant.pnt = s.plant.pnt ∧
          t.plant.msq = { s.plant.msq with state := if h ≤ s.setup.cfg.stowWindow then .stowed else .raised }) ∧
      (∀ r, (axisOf s.plant a).requester = some .pnt → s.plant.pnt.state = .active (.slewing .move) → s.plant.pnt.slewList = [a] → s.plant.pnt.record = some r →
        ∃ t, exec (.settleTimeExpiry a) s = .next t ∧ rest t ∧ t.plant.msq = s.plant.msq ∧ t.plant.pnt.record = some r ∧ t.plant.pnt.slewList = [] ∧
          t.plant.pnt.state = if r.flagPeak then .active (.slewing .settle) else .pointed) ∧
      (∀ r, (axisOf s.plant a).requester = some .pnt → s.plant.pnt.state = .active (.acquiring .back) → s.plant.pnt.slewList = [a] → s.plant.pnt.record = some r →
        ∃ t, exec (.settleTimeExpiry a) s = .next t ∧ rest t ∧ t.plant.msq = s.plant.msq ∧ t.plant.pnt.state = .lost ∧
          t.plant.pnt.record = some { r with peak := none }) ∧
      (∀ y, (axisOf s.plant a).requester = some .pat → s.plant.pat = some y → y.status = .running .toPoint → a ∈ y.moveList → y.blocked = false →
        let left := y.moveList.filter fun b => decide (b ≠ a)
        ∃ t, exec (.settleTimeExpiry a) s = .next t ∧ rest t ∧ t.plant.msq = s.plant.msq ∧ t.plant.pnt = s.plant.pnt ∧
          t.plant.pat = some (if left = [] then { y with moveList := [], status := .running (.settle s.clock), measurement := opened s } else { y with moveList := left })) ∧
      (∀ st, (axisOf s.plant a).requester = some .pke → s.plant.run.status = .running st → st = .toPoint ∨ st = .toClose → a ∈ s.plant.run.moveList →
        s.plant.run.blocked = false →
        let left := s.plant.run.moveList.filter fun b => decide (b ≠ a)
        ∃ t, exec (.settleTimeExpiry a) s = .next t ∧ rest t ∧ t.plant.msq = s.plant.msq ∧ t.plant.pnt = s.plant.pnt ∧
          t.plant.run = if left = [] then
              { s.plant.run with
                moveList := [], status := .running (if st = .toPoint then .settle s.clock else .closeSettle s.clock), measurement := opened s }
            else { s.plant.run with moveList := left }) ∧
      (∀ best r, (axisOf s.plant a).requester = some .pke → s.plant.run.status = .running .toBest → s.plant.run.moveList = [a] → s.plant.run.best = some best →
        s.plant.pnt.record = some r → s.plant.pnt.state = .active .peaking → r.flagTrack = false →
        ∃ t, exec (.settleTimeExpiry a) s = .next t ∧ rest t ∧ t.plant.run.status = .ended ∧ t.plant.pnt.state = .pointed ∧ t.plant.monitor = .cold ∧
          t.plant.pnt.record = some { r with
            panOffset := best.point.pan - r.pan, tiltOffset := best.point.tilt - r.tilt, peak := some best.level, quality := some .rough })) ∧
  (∀ (s : State) (a : Axis), (axisOf s.plant a).state = .settling → (axisOf s.plant a).v = 0 → (axisOf s.plant a).correction = false →
      max 1 (axisCfg (envOf s) a).settleTime ≤ (axisOf s.plant a).settleTimer → 2 ≤ (axisOf s.plant a).settlePeriods → (axisOf s.plant a).requester = some .msq → arbiterSound s.plant = true →
      let p := s.plant
      let e := envOf s
      (∀ l, a ≠ .mast → p.msq.state = .parking l →
        let left := l.filter fun b => decide (b ≠ a)
        ∃ t, exec (.settleTimeExpiry a) s = .next t ∧ t.plant.pnt.record = p.pnt.record ∧
          (left ≠ [] → t.plant.msq = { p.msq with state := .parking left } ∧ t.plant.pnt = p.pnt) ∧
          (left = [] → headInsideStow e p = false → t.plant.msq.state = .halted .headNotParked ∧ t.plant.pnt = p.pnt) ∧
          (left = [] → headInsideStow e p = true → mayMoveTo e p .mast 0 →
            t.plant.msq.state = .lowering false ∧ movesTo .msq .lower e t.plant .mast 0 ∧ t.plant.pnt.state = .idle)) ∧
      (∀ target direction r, a = .mast → p.msq.state = .raising target direction → p.pnt.state = .waitingMast → p.pnt.record = some r →
        given p .windMoveOk = true → (r.flagPeak = true → s.setup.cfg.source = .linked → given p .levelOk = true) →
        (∀ b, b ≠ .mast → mayMoveTo e p b (pointingTarget e p b)) →
        ∃ t, exec (.settleTimeExpiry a) s = .next t ∧ t.plant.msq = { p.msq with state := .raised } ∧ t.plant.pnt.state = .active (.slewing .move) ∧
          t.plant.pnt.slewList = [.pan, .tilt, .pol] ∧ t.plant.pnt.record = some r ∧
          ∀ b, b ≠ .mast → movesTo .pnt .headMove e t.plant b (pointingTarget e p b))) ∧
  (∀ (s : State) (a : Axis) (y : Pattern), (axisOf s.plant a).state = .settling → (axisOf s.plant a).v = 0 → (axisOf s.plant a).correction = false →
      max 1 (axisCfg (envOf s) a).settleTime ≤ (axisOf s.plant a).settleTimer → 2 ≤ (axisOf s.plant a).settlePeriods → (axisOf s.plant a).requester = some .pat → arbiterSound s.plant = true →
      s.plant.pat = some y → y.mode = .sweep → a ∈ y.moveList →
      let p := s.plant
      let e := envOf s
      let left := y.moveList.filter fun b => decide (b ≠ a)
      let may (b : Axis) (target : Int) : Prop := p.aut.latch = none ∧ headFree e p = true ∧ isHeld p a = false ∧ (b = a ∨ (axisOf p b).state = .idle) ∧
        switchBlocks (axisOf p b) (clampSoft e b target) = false
      let last := patternTarget y y.points
      let rowEnded (t : State) : Prop :=
        t.plant.smp = { p.smp with sweepHanding := if y.status = .running .sweep then false else p.smp.sweepHanding } ∧
        t.plant.pnt.record = p.pnt.record.map fun r => { r with rowEnd := y.row, passEnd := y.pass }
      let goesTo (z : Pattern) (t : State) : Prop :=
        may .pan (patternTarget z 1).pan → may .tilt (patternTarget z 1).tilt →
          rowEnded t ∧ moveToPoint .pat e t.plant (patternTarget z 1) ∧ t.plant.pnt.state = p.pnt.state ∧
          t.plant.pat = some { z with
            point := 1, status := .running .toRowStart, targets := clampPoint e (patternTarget z 1), moveList := [.pan, .tilt], blocked := false, barred := false }
      let goesOn (t : State) : Prop :=
        (y.row < y.rows → goesTo { y with row := y.row + 1 } t) ∧ (y.rows ≤ y.row → y.pass < y.passes → goesTo { y with pass := y.pass + 1, row := 1 } t) ∧
        (y.rows ≤ y.row → y.passes ≤ y.pass → p.pnt.state = .active (.acquiring .search) → (∀ b, b ≠ .mast → may b (pointingTarget e p b)) →
          rowEnded t ∧ (t.plant.pat.map fun z => z.status) = some (.halted .exhausted) ∧ t.plant.pnt.state = .active (.acquiring .back) ∧
            ∀ b, b ≠ .mast → movesTo .pnt .headMove e t.plant b (pointingTarget e p b))
      ∃ t, exec (.settleTimeExpiry a) s = .next t ∧ t = { s with plant := t.plant } ∧
        (y.status = .running .toRowStart → left ≠ [] → t.plant.pat = some { y with moveList := left } ∧ t.plant.smp = p.smp ∧ t.plant.pnt = p.pnt) ∧
        (y.status = .running .toRowStart → left = [] → y.blocked = false → may .pan last.pan →
          t.plant.smp = { p.smp with sweepHanding := true } ∧ t.plant.pnt = p.pnt ∧
          movesTo .pat .headMove e t.plant .pan last.pan ∧ (axisOf t.plant .pan).cap = some (max 1 (s.setup.cfg.pan.vmax / 4)) ∧
          t.plant.pat = some { y with status := .running .sweep, moveList := [.pan], targets := { y.targets with pan := clampSoft e .pan last.pan } }) ∧
        (y.status = .running .toRowStart → left = [] → y.blocked = true → madePost .dwell p t.plant ∧ goesOn t) ∧
        (y.status = .running .sweep → left = [] → goesOn t))

/-- A free grant goes to the waiting axis that stands first by the order of R95 (MAST; of PAN and TILT both waiting the one the flag does not name;
PAN or TILT; POL): it goes to MOVING with the brake released and v 0, leaves the waiting list, joins the grant list, and the flag comes to
name it if it is PAN or TILT. With no grant free or nothing waiting nothing changes (R94, R95).
A returned grant is handed out in the step that returns it, so that in a run this command finds no axis waiting beside a free grant: DEDUCED, notes/assumptions/49.md. -/
def Obligations.AFreeGrantGoesByTheOrder : Prop :=
  ∀ s : State,
    let d := s.plant.axd
    (∀ a : Axis, d.grants.length < s.setup.cfg.budget → a ∉ d.grants → standsFirst d a →
      ∃ t, exec .driveGrant s = .next t ∧
        t = { s with plant := { s.plant with posts := t.plant.posts, axd := t.plant.axd } } ∧
        t.plant.axd = {
          axes := t.plant.axd.axes, grants := d.grants ++ [a], waiting := d.waiting.filter (fun b => decide (b ≠ a)),
          lastGranted := match a with | .pan => .pan | .tilt => .tilt | .mast | .pol => d.lastGranted } ∧
        (∀ b, b ≠ a → axisOf t.plant b = axisOf s.plant b) ∧
        (axisOf t.plant a).state = .moving ∧ (axisOf t.plant a).brakeSet = false ∧ (axisOf t.plant a).v = 0 ∧ (axisOf t.plant a).stallTimer = 0 ∧
        (axisOf t.plant a).target = (axisOf s.plant a).target ∧ (axisOf t.plant a).requester = (axisOf s.plant a).requester) ∧
    (s.setup.cfg.budget ≤ d.grants.length ∨ d.waiting = [] → exec .driveGrant s = .next s)

/-! ## Mast sequencing (spec/07) -/

/-- A RAISE past the common checks: refused STATE while the mast is busy, FAULT with the fault count for a held MAST, for direction UP PERMISSIVE
with the lowest RAISE permissive missing and RANGE with the allowed top below its target; otherwise its target is the height, at most the maximum
height and the allowed top of a FRESH obstacle, at least the lowest raise target, within the soft limits, and AXD's answer decides: STOPPING
and BUSY give STATE, an active switch RANGE 0, and acceptance (as by an IDLE axis) puts the mast in RAISING, CLAMPED when the target is not
the height, with its source the holder (R55, R104, R105, R106).
That a RAISE refused for STOPPING or BUSY leaves MSQ noted on MAST, as R79 notes every requester, is DEDUCED: notes/assumptions/53.md; so is that the allowed
top is the value of its RANGE, for which the table of R57 gives 0: 60.md. -/
def Obligations.ARaiseIsJudgedAndGoesToItsTarget : Prop :=
  ∀ (s : State) (x : ArrivalEntry), headCommand (some .raise) s = some x → mayMove x.source s = true →
    let p := s.plant
    let c := s.setup.cfg
    let h : Int := (word16At x.payload 2).toNat
    let top : Option Int := match p.pvw.clearance.state, p.pvw.clearance.value with
      | some .fresh, some (some b) => some (b - c.headHeight - c.clearanceMargin)
      | _, _ => none
    let capped : Int := match top with
      | some a => min (min h c.mast.softMax) a
      | none => min h c.mast.softMax
    let lowest : Int := min (((c.cradleClear + c.stowWindow : Nat) : Int)) c.mast.softMax
    let wanted := max capped lowest
    let target : Int := clampInt c.mast.softMin c.mast.softMax wanted
    let up : Prop := positionOrZero p .mast < target
    let direction : RaiseDirection := if up then .up else .down
    let cls : MotionClass := if up then .raise else .lower
    let goes : Prop := mastBusy p.msq.state = false ∧ isHeld p .mast = false ∧ (up → raiseGiven p = true) ∧ ∀ a, top = some a → up → target ≤ a
    let r := axisOf p .mast
    (mastBusy p.msq.state = true → exec .raise s = .next (replied x (refuse .state 0) p s)) ∧
    (mastBusy p.msq.state = false → isHeld p .mast = true → exec .raise s = .next (replied x (refuse .fault (faultCount p)) p s)) ∧
    (mastBusy p.msq.state = false → isHeld p .mast = false → up →
      (∀ before y after, raisePermissives = before ++ y :: after → (∀ z ∈ before, p.pvw.permissives.given z = true) → p.pvw.permissives.given y = false →
        exec .raise s = .next (replied x (refuse .permissive y.code) p s)) ∧
      (∀ a, raiseGiven p = true → top = some a → a < target → exec .raise s = .next (replied x (refuse .range a) p s))) ∧
    (goes → r.state = .stopping ∨ (r.state ≠ .idle ∧ r.state ≠ .fault ∧ r.correction = false ∧ r.requester ≠ some .msq ∧ switchBlocks r target = false) →
      exec .raise s = .next (replied x (refuse .state 0)
        (setAxisRaw .mast { r with noted := if .msq ∈ r.noted then r.noted else r.noted ++ [.msq] } p) s)) ∧
    (goes → r.state ≠ .stopping → r.state ≠ .fault → switchBlocks r target = true → exec .raise s = .next (replied x (refuse .range 0) p s)) ∧
    (goes → r.state = .idle → switchBlocks r target = false →
      ∃ q, exec .raise s = .next (replied x (if target = h then accepted 0 else clampedTo target) q s) ∧
        q = { p with
          posts := q.posts, axd := q.axd, aut := { p.aut with holder := some x.source }, msq := { state := .raising target direction, stranded := false } } ∧
        (axisOf q .mast).state = (if p.axd.grants.length < c.budget then .moving else .waiting) ∧ (axisOf q .mast).requester = some .msq ∧
        (axisOf q .mast).cls = some cls ∧ (axisOf q .mast).target = some target ∧ (axisOf q .mast).correction = false ∧
        ∀ b, b ≠ .mast → axisOf q b = axisOf p b)

/-- A LOWER past the common checks: refused STATE in PARKING and LOWERING, FAULT for a MAST held beyond DRIVE_AWAY, STATE with the head outside
stow below the cradle clear height, FAULT for a head axis so held with the head outside stow. Accepted it makes its source the holder: in STOWED
nothing else changes; with the head inside stow the mast is LOWERING with its move to 0; with the head outside it is PARKING with a move
on PAN, TILT and POL each to stow. Pointing goes to IDLE and keeps its record (R112, R113, R114, R116).
That a LOWER accepted in STOWED leaves the stranded mark too is the model's choice: notes/assumptions/54.md. -/
def Obligations.ALowerGoesOnAccordingToTheHead : Prop :=
  ∀ (s : State) (x : ArrivalEntry), headCommand (some .lower) s = some x → mayMove x.source s = true → arbiterSound s.plant = true →
    let p := s.plant
    let e := envOf s
    let below : Prop := ∃ h, (axisOf p .mast).position = some h ∧ h < s.setup.cfg.cradleClear
    let mastMay : Prop := p.msq.state ≠ .stowed ∧ mastBringingDown p.msq.state = false ∧ heldBeyondDriveAway p .mast = false
    let asked (q : Plant) (a : Axis) (target : Int) : Prop :=
      ((axisOf q a).state = .waiting ∨ (axisOf q a).state = .moving) ∧ (axisOf q a).requester = some .msq ∧ (axisOf q a).cls = some .lower ∧
        (axisOf q a).target = some target
    let handedOn (q : Plant) : Prop :=
      q.aut = { p.aut with holder := some x.source } ∧ q.flt = p.flt ∧ q.pvw = p.pvw ∧ q.msq.stranded = false ∧ q.pnt.state = .idle ∧ q.pnt.record = p.pnt.record
    (p.msq.state = .stowed →
      exec .lower s = .next (replied x (accepted 0) { p with aut := { p.aut with holder := some x.source } } s)) ∧
    (mastBringingDown p.msq.state = true → exec .lower s = .next (replied x (refuse .state 0) p s)) ∧
    (p.msq.state ≠ .stowed → mastBringingDown p.msq.state = false → heldBeyondDriveAway p .mast = true →
      exec .lower s = .next (replied x (refuse .fault (faultCount p)) p s)) ∧
    (mastMay → headInsideStow e p = false → below → exec .lower s = .next (replied x (refuse .state 0) p s)) ∧
    (mastMay → headInsideStow e p = false → ¬ below → (∃ a, a ≠ .mast ∧ heldBeyondDriveAway p a = true) →
      exec .lower s = .next (replied x (refuse .fault (faultCount p)) p s)) ∧
    (mastMay → headInsideStow e p = true → (axisOf p .mast).state = .idle → switchBlocks (axisOf p .mast) (clampSoft e .mast 0) = false →
      ∃ q, exec .lower s = .next (replied x (accepted 0) q s) ∧ handedOn q ∧ q.msq.state = .lowering false ∧ asked q .mast (clampSoft e .mast 0) ∧
        (p.pnt.state = .idle → ∀ b, b ≠ .mast → axisOf q b = axisOf p b)) ∧
    (mastMay → headInsideStow e p = false → headFree e p = true → (∀ a, a ≠ .mast → heldBeyondDriveAway p a = false ∧ (axisOf p a).state = .idle) →
      (∀ a, a ≠ .mast → switchBlocks (axisOf p a) (clampSoft e a (if a = .tilt then s.setup.cfg.stowTilt else 0)) = false) →
      ∃ q, exec .lower s = .next (replied x (accepted 0) q s) ∧ handedOn q ∧ q.msq.state = .parking [.pan, .tilt, .pol] ∧
        ∀ a, a ≠ .mast → asked q a (clampSoft e a (if a = .tilt then s.setup.cfg.stowTilt else 0)))

/-! ## Pointing (spec/08) -/

/-- The integer sine (R123): for X in 0..18000, with P = X × (18000 − X) and D = 405,000,000 − P, S(X) is 16384 × P / D rounded to the nearest,
halves up; for X in 18001..35999 it is −S(X − 18000). P is at most 81,000,000 and D within 324,000,000..405,000,000; S(0) = S(18000) = 0,
S(9000) = 4096 and S(3000) = 2048; the cosine of X is S((X + 9000) mod 36000). -/
def Obligations.TheIntegerSineFollowsItsFormula : Prop :=
  (∀ x : Nat, x ≤ 18000 →
    let p : Int := (x : Int) * (18000 - x)
    let d : Int := 405000000 - p
    p ≤ 81000000 ∧ 324000000 ≤ d ∧ d ≤ 405000000 ∧ (2 * sine x - 1) * d ≤ 2 * (16384 * p) ∧ 2 * (16384 * p) < (2 * sine x + 1) * d) ∧
  (∀ x : Nat, 18001 ≤ x → x ≤ 35999 → sine x = -sine (x - 18000)) ∧
  sine 0 = 0 ∧ sine 18000 = 0 ∧ sine 9000 = 4096 ∧ sine 3000 = 2048 ∧
  (∀ x : Nat, x ≤ 35999 → cosine x = sine ((x + 9000) % 36000))

/-- An AIM past the common checks, judged in its order: RANGE, PERMISSIVE, STATE for the mast or the cradle, FAULT, STATE for a JOG, UNREACHABLE
without a legal pan candidate, RANGE toward an active switch. Accepted it writes the record whole: the pan candidate nearest the position, tilt less
the platform correction and pol each clamped, the offsets kept only by KEEP_OFFSETS. It is CLAMPED with the tilt, or else the pol, when
clamping changed it, and the REPLY is posted; pointing is WAITING_MAST during a raise, otherwise SLEWING with a move on each head axis to the pointing position, or
HELD with cause LEVEL for a missing LEVEL_OK (R122, R124, R125, R126, R127, R130). The work it replaces is ended: a search HALTED with cause ABORTED (AIM), in
PEAKING, TRACKING and LOST the run discarded and the monitor ended, the dwell of that work or of PNT's measurement cancelled (R69). An earlier slew's moves
are replaced in place, or ended where no slew begins; an axis in STOPPING notes PNT (R80, R81).
MAST's axis stays as it was, unless it waits and a returned grant is given to it (R94). That a discarded run is cold in every field is the model's choice
(notes/assumptions/8.md); that corrections are kept by a cancel is DEDUCED (36.md). -/
def Obligations.AnAimWritesTheRecordAndSlews : Prop :=
  ∀ (s : State) (x : ArrivalEntry), headCommand (some .aim) s = some x → mayMove x.source s = true →
    let p := s.plant
    let e := envOf s
    let c := s.setup.cfg
    let bearing : Int := (word16At x.payload 2).toNat
    let elevation := (word16At x.payload 4).toInt
    let pol := (word16At x.payload 6).toInt
    let inside : Prop := bearing < 36000 ∧ -2000 ≤ elevation ∧ elevation ≤ 9000
    let permitted : Prop := ∀ z ∈ [Permissive.brakeSet, .headingOk, .windMoveOk], p.pvw.permissives.given z = true
    let isRaising : Prop := ∃ target direction, p.msq.state = .raising target direction
    let mastUp : Prop := isRaising ∨ ((p.msq.state = .raised ∨ ∃ cause, p.msq.state = .halted cause) ∧ headFree e p = true)
    let free : Prop := ∀ a, a ≠ .mast → isHeld p a = false
    let basis := basisOf p
    let rel : Int := (bearing - basis.heading) % 36000
    let correction := roundAway (basis.pitch * cosine rel.toNat + basis.roll * sine rel.toNat) 4096
    let legal (k : Int) : Prop := k ∈ [rel - 36000, rel, rel + 36000] ∧ c.pan.softMin ≤ k ∧ k ≤ c.pan.softMax
    let distance (k : Int) : Nat := (k - positionOrZero p .pan).natAbs
    let nearest (k : Int) : Prop := legal k ∧ ∀ y, legal y →
      distance k ≤ distance y ∧ (distance k = distance y → k.natAbs ≤ y.natAbs ∧ (k.natAbs = y.natAbs → k = rel ∨ k = y))
    let tiltPreset := clampInt c.tilt.softMin c.tilt.softMax (elevation - correction)
    let polPreset := clampInt c.pol.softMin c.pol.softMax pol
    let keep := bitAt x.payload 8 2
    let record (k : Int) : PointingRecord :=
      { pan := k, tilt := tiltPreset, pol := polPreset, panOffset := if keep then (p.pnt.record.map (·.panOffset)).getD 0 else 0,
        tiltOffset := if keep then (p.pnt.record.map (·.tiltOffset)).getD 0 else 0, peak := none, quality := none, flagPeak := bitAt x.payload 8 0,
        flagTrack := bitAt x.payload 8 1, roundCount := 0, rowEnd := 0, passEnd := 0 }
    let goal (k : Int) (a : Axis) : Int := match a with
      | .pan => clampInt c.pan.softMin c.pan.softMax (k + (record k).panOffset)
      | .tilt => clampInt c.tilt.softMin c.tilt.softMax (tiltPreset + (record k).tiltOffset)
      | .pol | .mast => polPreset
    let verdict : Verdict :=
      if tiltPreset ≠ elevation - correction then clampedTo tiltPreset else if polPreset ≠ pol then clampedTo polPreset else accepted 0
    let refused (v : Verdict) : Prop := exec .aim s = .next (replied x v p s)
    (¬ inside → refused (refuse .range 0)) ∧
    (∀ before y after, inside → [Permissive.brakeSet, .headingOk, .windMoveOk] = before ++ y :: after →
      (∀ z ∈ before, p.pvw.permissives.given z = true) → p.pvw.permissives.given y = false → refused (refuse .permissive y.code)) ∧
    (inside → permitted → ¬ mastUp → refused (refuse .state 0)) ∧
    (inside → permitted → mastUp → ¬ free → refused (refuse .fault (faultCount p))) ∧
    (inside → permitted → mastUp → free → headJogged p = true → refused (refuse .state 0)) ∧
    (inside → permitted → mastUp → free → headJogged p = false → (∀ k, ¬ legal k) → refused (refuse .unreachable 0)) ∧
    (∀ k, inside → permitted → mastUp → free → headJogged p = false → nearest k →
      ((∃ a, a ≠ .mast ∧ switchBlocks (axisOf p a) (goal k a) = true) → refused (refuse .range 0)) ∧
      ((∀ a, a ≠ .mast → switchBlocks (axisOf p a) (goal k a) = false) →
        ∃ q, exec .aim s = .next { s with arrivals := s.arrivals.tail, plant := q } ∧
          postedWith .reply (replyPayload (sequenceOf x.payload) verdict.outcome verdict.reason verdict.value) p q ∧ q.pnt.record = some (record k) ∧
          q.aut = { p.aut with holder := some x.source } ∧ q.msq = p.msq ∧ q.flt = p.flt ∧ q.pvw = p.pvw ∧ workReplaced p q ∧
          (isRaising → q.pnt.state = .waitingMast ∧ q.pnt.slewList = [] ∧ (arbiterSound p = true → axesRested p q)) ∧
          (¬ isRaising → bitAt x.payload 8 0 = true → c.source = .linked → p.pvw.permissives.levelOk = false →
            q.pnt.state = .held (.slewing .move) .level ∧ (arbiterSound p = true → axesRested p q)) ∧
          (¬ isRaising → ¬ (bitAt x.payload 8 0 = true ∧ c.source = .linked ∧ p.pvw.permissives.levelOk = false) →
            (∀ a, a ≠ .mast → (axisOf p a).state ≠ .fault) → arbiterSound p = true →
            q.pnt.state = .active (.slewing .move) ∧ q.pnt.slewList = [.pan, .tilt, .pol] ∧ axesSlewed e (goal k) p q ∧
              grantedOrSame (axisOf p .mast) (axisOf q .mast)) ∧
          (isRaising → q.pnt.state = .waitingMast ∧ grantedOrSame (axisOf p .mast) (axisOf q .mast) ∧
            (.mast ∉ p.axd.waiting → axisOf q .mast = axisOf p .mast)) ∧
          (¬ isRaising → (∀ a, a ≠ .mast → (axisOf p a).state = .idle) → p.axd.waiting = [] →
            axisOf q .mast = axisOf p .mast ∧ if bitAt x.payload 8 0 = true ∧ c.source = .linked ∧ p.pvw.permissives.levelOk = false then
              q.pnt.state = .held (.slewing .move) .level ∧ ∀ a, axisOf q a = axisOf p a
            else
              q.pnt.state = .active (.slewing .move) ∧ q.pnt.slewList = [.pan, .tilt, .pol] ∧
              ∀ a, a ≠ .mast → ((axisOf q a).state = .waiting ∨ (axisOf q a).state = .moving) ∧ (axisOf q a).requester = some .pnt ∧
                (axisOf q a).cls = some .headMove ∧ (axisOf q a).target = some (goal k a))))

/-- A PEAK past the common checks is refused STATE outside POINTED, TRACKING and LOST, PERMISSIVE with the lowest missing of those it needs, STATE with the
head not free, FAULT with a head axis held, STATE during a head JOG. Accepted it sets the PEAK flag, clears the round count and begins a run
from the pointing position with δ0: pointing PEAKING, the monitor OFF, PAN and TILT asked to the first point (R132, R150, R151). -/
def Obligations.APeakBeginsARun : Prop :=
  ∀ (s : State) (x : ArrivalEntry), headCommand (some .peak) s = some x → mayMove x.source s = true → arbiterSound s.plant = true →
    let p := s.plant
    let e := envOf s
    let ready : Prop := p.pnt.state = .pointed ∨ p.pnt.state = .active .tracking ∨ p.pnt.state = .lost
    let needs : List Permissive := if s.setup.cfg.source = .linked then [.brakeSet, .windMoveOk, .levelOk] else [.brakeSet, .windMoveOk]
    let permitted : Prop := ∀ z ∈ needs, p.pvw.permissives.given z = true
    let free : Prop := ∀ a, a ≠ .mast → isHeld p a = false
    (¬ ready → exec .peak s = .next (replied x (refuse .state 0) p s)) ∧
    (∀ before y after, ready → needs = before ++ y :: after → (∀ z ∈ before, p.pvw.permissives.given z = true) → p.pvw.permissives.given y = false →
      exec .peak s = .next (replied x (refuse .permissive y.code) p s)) ∧
    (ready → permitted → headFree e p = false → exec .peak s = .next (replied x (refuse .state 0) p s)) ∧
    (ready → permitted → headFree e p = true → ¬ free → exec .peak s = .next (replied x (refuse .fault (faultCount p)) p s)) ∧
    (ready → permitted → headFree e p = true → free → headJogged p = true → exec .peak s = .next (replied x (refuse .state 0) p s)) ∧
    (ready → permitted → headFree e p = true → free → headJogged p = false → (∀ a ∈ [Axis.pan, .tilt], (axisOf p a).state = .idle) →
      (∀ a ∈ [Axis.pan, .tilt], switchBlocks (axisOf p a) (pointingTarget e p a) = false) →
      ∃ q, exec .peak s = .next (replied x (accepted 0) q s) ∧ q.pnt.state = .active .peaking ∧
        q.pnt.record = p.pnt.record.map (fun r => { r with flagPeak := true, roundCount := 0 }) ∧
        q.run.status = .running .toPoint ∧ q.run.centre = { pan := pointingTarget e p .pan, tilt := pointingTarget e p .tilt } ∧
        q.run.delta = some s.setup.cfg.delta0 ∧ q.run.index = 1 ∧ q.run.best = none ∧ q.run.moveList = [.pan, .tilt] ∧
        q.run.levels = { centre := none, panPlus := none, panMinus := none, tiltPlus := none, tiltMinus := none } ∧ q.monitor.state = .off ∧
        q.aut = { p.aut with holder := some x.source } ∧ q.msq = p.msq ∧ q.flt = p.flt ∧ q.pvw = p.pvw ∧
        ∀ a ∈ [Axis.pan, .tilt], ((axisOf q a).state = .waiting ∨ (axisOf q a).state = .moving) ∧ (axisOf q a).requester = some .pke ∧
          (axisOf q a).cls = some .headMove ∧ (axisOf q a).target = some (pointingTarget e p a))

/-- A CANCEL_POINTING past the common checks is accepted and makes its source the holder. In IDLE it changes nothing else; in any other state it halts pointing: IDLE
with the record kept, the run and the monitor ended, a pattern under way HALTED with cause ABORTED (CANCEL), every move of PNT, PAT and PKE in MOVING or
SETTLING in STOPPING, one in WAITING in IDLE (R131, R133).
An axis of another requester stays, unless it waits and takes a returned grant (R94). That a discarded run is cold in every field is the model's choice
(notes/assumptions/8.md), as is that PNT's moves, the pattern's and the run's return their grants one after another (27.md); that corrections are kept is DEDUCED (36.md). -/
def Obligations.ACancelHaltsPointing : Prop :=
  ∀ (s : State) (x : ArrivalEntry), headCommand (some .cancelPointing) s = some x → mayMove x.source s = true → dwellSound s.plant = true →
    let p := s.plant
    let working (a : Axis) : Bool := carriesMove (axisOf p a) .pnt || carriesMove (axisOf p a) .pat || carriesMove (axisOf p a) .pke
    (p.pnt.state = .idle →
      exec .cancelPointing s = .next (replied x (accepted 0) { p with aut := { p.aut with holder := some x.source } } s)) ∧
    (p.pnt.state ≠ .idle →
      ∃ q, exec .cancelPointing s = .next (replied x (accepted 0) q s) ∧ q.pnt.state = .idle ∧ q.pnt.record = p.pnt.record ∧ q.pnt.slewList = [] ∧
        q.run = .cold ∧ q.monitor = .cold ∧ q.smp.dwell = (if p.smp.dwell.all (fun d => decide (d.requester = .pat)) ∧ patternUnderWay p = false then p.smp.dwell else none) ∧
        (patternUnderWay p = true → q.pat.map (·.status) = some (.halted (.aborted .cancel))) ∧ (patternUnderWay p = false → q.pat = p.pat) ∧
        q.aut = { p.aut with holder := some x.source } ∧ q.msq = p.msq ∧ q.flt = p.flt ∧ q.pvw = p.pvw ∧ q.watches = p.watches ∧
        (∀ a, arbiterSound p = true → working a = false → grantedOrSame (axisOf p a) (axisOf q a) ∧ (a ∉ p.axd.waiting → axisOf q a = axisOf p a)) ∧
        ∀ a, arbiterSound p = true → a ≠ .mast →
          (carriesMove (axisOf p a) .pnt = true → (axisOf q a).state = if (axisOf p a).state = .waiting then .idle else .stopping) ∧
          (a ≠ .pol → carriesMove (axisOf p a) .pke = true ∨ (patternUnderWay p = true ∧ carriesMove (axisOf p a) .pat = true) →
            ((axisOf p a).state ≠ .waiting → (axisOf q a).state = .stopping) ∧
            ((axisOf p a).state = .waiting → (axisOf q a).state = .idle ∨ (p.axd.grants ≠ [] ∧ (axisOf q a).state = .stopping))))

/-- A JOG past the common checks is refused RANGE for an axis byte above 3, STATE for MAST or an axis at work for another, PERMISSIVE, STATE with the head not
free and no RECOVERY, RANGE for a RECOVERY that the mast state or the direction forbids, FAULT for an axis in FAULT. Accepted on an IDLE axis, no switch in the way, it asks
the axis to its position plus the distance, clamped to the soft limits, CLAMPED with the distance that leaves when that differs; pointing and
the mast stay as they were (R92, R93, R167).
That an absent position is nearer than none, that the recovery mark counts only while the head is not free (notes/assumptions/34.md), and that another owner's correction
keeps its axis (45.md) are DEDUCED. -/
def Obligations.AJogMovesOneHeadAxis : Prop :=
  ∀ (s : State) (x : ArrivalEntry), headCommand (some .jog) s = some x → mayMove x.source s = true →
    let p := s.plant
    let e := envOf s
    let distance := (word24At x.payload 3).toInt
    let recovery := bitAt x.payload 6 0
    let needs : List Permissive := [.brakeSet, .windMoveOk]
    (3 < (byteAt x.payload 2).toNat → exec .jog s = .next (replied x (refuse .range 0) p s)) ∧
    ((byteAt x.payload 2).toNat = 0 → exec .jog s = .next (replied x (refuse .state 0) p s)) ∧
    ∀ a : Axis, a ≠ .mast → (byteAt x.payload 2).toNat = (match a with | .mast => 0 | .pan => 1 | .tilt => 2 | .pol => 3) →
      let r := axisOf p a
      let kept : Prop := (∃ activity, p.pnt.state = .active activity ∨ ∃ cause, p.pnt.state = .held activity cause) ∨ p.pnt.state = .waitingMast ∨
        (∃ l, p.msq.state = .parking l) ∨ (r.state ≠ .idle ∧ r.state ≠ .fault ∧ r.requester ≠ some .jog)
      let permitted : Prop := ∀ z ∈ needs, p.pvw.permissives.given z = true
      let target := clampSoft e a (positionOrZero p a + distance)
      let stow : Int := if a = .tilt then s.setup.cfg.stowTilt else 0
      let restful : Prop := p.msq.state = .stowed ∨ ∃ cause, p.msq.state = .halted cause
      let nearer : Prop := ∀ y, r.position = some y → (target - stow).natAbs < (y - stow).natAbs
      let allowed : Prop := headFree e p = true ∨ (recovery = true ∧ restful ∧ nearer)
      (kept → exec .jog s = .next (replied x (refuse .state 0) p s)) ∧
      (∀ before y after, ¬ kept → needs = before ++ y :: after → (∀ z ∈ before, p.pvw.permissives.given z = true) → p.pvw.permissives.given y = false →
        exec .jog s = .next (replied x (refuse .permissive y.code) p s)) ∧
      (¬ kept → permitted → headFree e p = false → recovery = false → exec .jog s = .next (replied x (refuse .state 0) p s)) ∧
      (¬ kept → permitted → headFree e p = false → recovery = true → ¬ (restful ∧ nearer) → exec .jog s = .next (replied x (refuse .range 0) p s)) ∧
      (¬ kept → permitted → allowed → r.state = .fault → exec .jog s = .next (replied x (refuse .fault (faultCount p)) p s)) ∧
      (¬ kept → permitted → allowed → r.state = .idle → switchBlocks r target = true → exec .jog s = .next (replied x (refuse .range 0) p s)) ∧
      (¬ kept → permitted → allowed → r.state = .idle → switchBlocks r target = false →
        ∃ q, exec .jog s = .next (replied x
            (if target = positionOrZero p a + distance then accepted 0 else clampedTo (clampInt (-32768) 32767 (target - positionOrZero p a))) q s) ∧
          q = { p with posts := q.posts, axd := q.axd, aut := { p.aut with holder := some x.source } } ∧
          ((axisOf q a).state = .waiting ∨ (axisOf q a).state = .moving) ∧ (axisOf q a).requester = some .jog ∧ (axisOf q a).cls = some .headMove ∧
          (axisOf q a).target = some target ∧ (axisOf q a).recovery = (recovery && !headFree e p) ∧
          (p.axd.waiting = [] → ∀ b, b ≠ a → axisOf q b = axisOf p b))

/-! ## Searching, peaking and tracking (spec/09, spec/10) -/

/-- The peaking settle time after a slew, at a search point, at a cross point and at the closing centre, passed: the phase or stage becomes the measuring
one, and in LOCAL source a dwell of peaking N is asked for, begun with an empty ring, or noted while another's is active; in LINKED source
a count of reports still short changes nothing more, and one that has reached N hands their mean on at once. Before the settle time nothing changes (R66, R128, R140, R141, R152, R155). The mean taken by PAT in MEASURE is
posted as SEARCH at the positions last read: at or above the floor the pattern halts FOUND and PNT begins a peaking run from its point; below it the pattern goes to its next point, row or pass, with
the row end handed to PNT, and after the last halts EXHAUSTED, PNT returning the head (R129, R142, R143, R148).
The identity of a dwell is a number of the model's own: notes/assumptions/40.md; that a spent measurement stays in its record is its choice too: notes/assumptions/70.md. -/
def Obligations.ASettleExpiryBeginsTheMeasurement : Prop :=
  (∀ s : State,
    let p := s.plant
    let c := s.setup.cfg
    let passed (since : Clock) : Prop := c.settle ≤ (s.clock - since).toNat
    let fresh (q : Requester) : Sampler := { p.smp with
      ring := List.replicate 8 none, next := 1, count := 0, nextIdentity := p.smp.nextIdentity + 1,
      dwell := some { identity := p.smp.nextIdentity, requester := q, samples := c.peakN } }
    let noted (q : Requester) : Sampler := { p.smp with noted := if q ∈ p.smp.noted then p.smp.noted else p.smp.noted ++ [q] }
    let asked (q : Requester) (m : Measurement) (before after : Sampler) : Prop :=
      (c.source = .localSource → p.smp.dwell = none → after = fresh q) ∧
      (∀ d, c.source = .localSource → p.smp.dwell = some d → d.requester = q → after = fresh q) ∧
      (∀ d, c.source = .localSource → p.smp.dwell = some d → d.requester ≠ q → after = noted q) ∧
      (c.source = .linked → m.count < c.peakN → after = before)
    let judged (m : Measurement) : Prop := c.source = .linked → m.count < c.peakN
    let counted (m : Measurement) : Prop := c.source = .linked ∧ c.peakN ≤ m.count
    let mean (m : Measurement) : Int := (m.sum + ((c.peakN / 2 : Nat) : Int)) / (c.peakN : Int)
    let handed (q : Requester) (m : Measurement) (taken : Plant) : State := withPlant (handMean (envOf s) q (mean m) taken) s
    (p.pnt.state = .active (.slewing .settle) →
      (¬ passed p.pnt.completedAt → exec .presetSettleExpiry s = .next s) ∧
      (passed p.pnt.completedAt → judged p.pnt.measurement → ∃ smp, asked .pnt p.pnt.measurement p.smp smp ∧
        exec .presetSettleExpiry s = .next { s with plant := { p with smp := smp, pnt := { p.pnt with state := .active (.slewing .measure) } } })) ∧
    (∀ y since, p.pat = some y → y.status = .running (.settle since) →
      (¬ passed since → exec .searchSettleExpiry s = .next s) ∧
      (passed since → judged y.measurement → ∃ smp, asked .pat y.measurement p.smp smp ∧
        exec .searchSettleExpiry s = .next { s with plant := { p with smp := smp, pat := some { y with status := .running .measure } } }) ∧
      (passed since → counted y.measurement →
        exec .searchSettleExpiry s = .next (handed .pat y.measurement { p with pat := some { y with status := .running .measure } }))) ∧
    (∀ since, p.run.status = .running (.settle since) →
      (¬ passed since → exec .crossSettleExpiry s = .next s) ∧
      (passed since → judged p.run.measurement → ∃ smp, asked .pke p.run.measurement p.smp smp ∧
        exec .crossSettleExpiry s = .next { s with plant := { p with smp := smp, run := { p.run with status := .running .measure } } }) ∧
      (passed since → counted p.run.measurement →
        exec .crossSettleExpiry s = .next (handed .pke p.run.measurement { p with run := { p.run with status := .running .measure } }))) ∧
    (∀ since, p.run.status = .running (.closeSettle since) →
      (¬ passed since → exec .closingSettleExpiry s = .next s) ∧
      (passed since → judged p.run.measurement → ∃ smp, asked .pke p.run.measurement p.smp smp ∧
        exec .closingSettleExpiry s = .next { s with plant := { p with smp := smp, run := { p.run with status := .running .closeMeasure } } }) ∧
      (passed since → counted p.run.measurement →
        exec .closingSettleExpiry s = .next (handed .pke p.run.measurement { p with run := { p.run with status := .running .closeMeasure } })))) ∧
  (∀ (e : Env) (level : Int) (p : Plant) (y : Pattern), p.pat = some y →
    let c := cfgOf e
    let q := handMean e .pat level p
    let goesTo (z : Pattern) : Prop :=
      q.pat = some { z with
        status := .running (match z.mode with | .step => .toPoint | .sweep => .toRowStart), targets := clampPoint e (patternTarget z z.point),
        moveList := [.pan, .tilt], blocked := false, barred := false } ∧ moveToPoint .pat e q (patternTarget z z.point)
    let may (z : Pattern) : Prop := mayMoveToPoint e p (patternTarget z z.point)
    let rowEnded : Prop := q.pnt.record = p.pnt.record.map fun r => { r with rowEnd := y.row, passEnd := y.pass }
    (y.status ≠ .running .measure → q = p) ∧
    (y.status = .running .measure →
      (c.floor ≤ level → p.pnt.state = .active (.acquiring .search) → activityMay e p → mayMoveToPoint e p y.targets →
        dwellPosted .search level p q ∧ q.pnt.state = .active .peaking ∧ runBegun e y.targets c.delta0 q ∧
          q.pat = some { y with status := .halted .found, moveList := [], found := some { point := y.targets, level := level } }) ∧
      (level < c.floor → y.point < y.points → may { y with point := y.point + 1 } → dwellPosted .search level p q ∧ goesTo { y with point := y.point + 1 } ∧ q.pnt = p.pnt) ∧
      (level < c.floor → y.points ≤ y.point →
        (y.row < y.rows → may { y with row := y.row + 1, point := 1 } → dwellPosted .search level p q ∧ goesTo { y with row := y.row + 1, point := 1 } ∧ rowEnded) ∧
        (y.rows ≤ y.row → y.pass < y.passes → may { y with pass := y.pass + 1, row := 1, point := 1 } →
          dwellPosted .search level p q ∧ goesTo { y with pass := y.pass + 1, row := 1, point := 1 } ∧ rowEnded) ∧
        (y.rows ≤ y.row → y.passes ≤ y.pass → p.pnt.state = .active (.acquiring .search) → arbiterSound p = true →
          (∀ a, a ≠ .mast → mayMoveTo e p a (pointingTarget e p a)) →
          dwellPosted .search level p q ∧ rowEnded ∧ q.pat = some { y with status := .halted .exhausted } ∧ q.pnt.state = .active (.acquiring .back) ∧
            ∀ a, a ≠ .mast → movesTo .pnt .headMove e q a (pointingTarget e p a)))))

/-- The resume delay of 1000 ms passed, the latch CLEAR, the head free, PAN and TILT IDLE and no switch in the way: the pattern takes up its current
point (STEP) or row (SWEEP), the run its current point, its closing centre or its best centre, with a move on PAN and on TILT; what was measured stays.
Before the delay nothing changes (R147, R157). -/
def Obligations.AResumeDelayTakesTheWorkUpAgain : Prop :=
  ∀ s : State, arbiterSound s.plant = true →
    let p := s.plant
    let e := envOf s
    let may (target : HeadPoint) : Prop := p.aut.latch = none ∧ headFree e p = true ∧ (axisOf p .pan).state = .idle ∧ (axisOf p .tilt).state = .idle ∧
      switchBlocks (axisOf p .pan) (clampSoft e .pan target.pan) = false ∧ switchBlocks (axisOf p .tilt) (clampSoft e .tilt target.tilt) = false
    let asked (who : Requester) (target : HeadPoint) (q : Plant) : Prop :=
      (∀ a ∈ [Axis.pan, .tilt], ((axisOf q a).state = .waiting ∨ (axisOf q a).state = .moving) ∧ (axisOf q a).requester = some who ∧
        (axisOf q a).cls = some .headMove ∧ (axisOf q a).cap = none) ∧
        (axisOf q .pan).target = some (clampSoft e .pan target.pan) ∧ (axisOf q .tilt).target = some (clampSoft e .tilt target.tilt)
    (∀ y st since, p.pat = some y → y.status = .resumeWait st since →
      let target : HeadPoint := { pan := y.origin.pan + pointOffset y.sigma y.points y.row y.point, tilt := y.origin.tilt + rowOffset y.sigma y.row }
      ((s.clock - since).toNat < 1000 → exec .patternResumeDelayExpiry s = .next s) ∧
      (1000 ≤ (s.clock - since).toNat → may target → ∃ t, exec .patternResumeDelayExpiry s = .next t ∧
        t = { s with plant := { p with posts := t.plant.posts, axd := t.plant.axd, pat := t.plant.pat } } ∧ asked .pat target t.plant ∧
        t.plant.pat = some { y with
          status := .running (match y.mode with | .step => .toPoint | .sweep => .toRowStart), blocked := false, barred := false, moveList := [.pan, .tilt],
          targets := { pan := clampSoft e .pan target.pan, tilt := clampSoft e .tilt target.tilt } })) ∧
    (∀ st since, p.run.status = .resumeWait st since →
      let r := p.run
      let stage : RunStage := match st with
        | .toPoint | .settle _ | .measure => .toPoint
        | .toClose | .closeSettle _ | .closeMeasure => .toClose
        | .toBest => .toBest
      let d : Int := (r.delta.getD 0 : Nat)
      let target : HeadPoint := match stage with
        | .toClose => r.closing.getD r.centre
        | .toBest => (r.best.map (·.point)).getD r.centre
        | _ =>
          if r.index = 2 then { r.centre with pan := r.centre.pan + d } else if r.index = 3 then { r.centre with pan := r.centre.pan - d }
          else if r.index = 4 then { r.centre with tilt := r.centre.tilt + d } else if r.index = 5 then { r.centre with tilt := r.centre.tilt - d } else r.centre
      ((s.clock - since).toNat < 1000 → exec .runResumeDelayExpiry s = .next s) ∧
      (1000 ≤ (s.clock - since).toNat → may target → ∃ t, exec .runResumeDelayExpiry s = .next t ∧
        t = { s with plant := { p with posts := t.plant.posts, axd := t.plant.axd, run := t.plant.run } } ∧ asked .pke target t.plant ∧
        t.plant.run = { r with
          status := .running stage, blocked := false, barred := false, moveList := [.pan, .tilt],
          targets := { pan := clampSoft e .pan target.pan, tilt := clampSoft e .tilt target.tilt } }))

/-- The estimator (R153): with k = L+ + L− − 2 L0 below 0 the correction is δ (L− − L+) / 2k to the nearest, halves away from zero, clamped to ±δ; otherwise
±δ toward the higher side, 0 when they are equal. It is never larger than δ, and with levels in −1500..300 and δ up to 1000, k lies within
±3600 and the products within 2,000,000. The mean taken by PKE in MEASURE is posted under the kind of its cross point at the positions last read and stored, and the next point is asked for; after the fifth the centre is
corrected on both axes, the round counted and the best centre kept, and the run goes on to its closing centre, at the round limit to its best centre, or to the next round. The mean at
the closing centre is posted as CLOSING and ends the run FINE at PNT: TRACKING with its flag, else POINTED (R129, R152, R154, R155, R156, R159, R160).
That a TRACKING held while WIND_MOVE_OK is not given has cause WIND too is DEDUCED: notes/assumptions/50.md; that a spent measurement stays in its record is the model's choice: notes/assumptions/70.md.
That an ended monitor keeps no sequence seen is the model's choice: notes/assumptions/8.md. -/
def Obligations.TheEstimatorPlacesTheCorrection : Prop :=
  (∀ (delta : Nat) (plus minus centre : Int),
    let d : Int := delta
    let k := plus + minus - 2 * centre
    let x := d * (minus - plus)
    let answer := estimate delta plus minus centre
    (k < 0 → ∃ n : Int, 2 * (n * (2 * k) - x).natAbs ≤ (2 * k).natAbs ∧ (2 * (n * (2 * k) - x).natAbs = (2 * k).natAbs → x.natAbs < (n * (2 * k)).natAbs) ∧
      answer = max (-d) (min d n)) ∧
    (0 ≤ k → answer = if minus < plus then d else if plus < minus then -d else 0) ∧
    answer.natAbs ≤ delta ∧
    ((∀ l ∈ [plus, minus, centre], -1500 ≤ l ∧ l ≤ 300) → delta ≤ 1000 → -3600 ≤ k ∧ k ≤ 3600 ∧ x.natAbs ≤ 2000000)) ∧
  (∀ (e : Env) (level : Int) (p : Plant) (rec : PointingRecord), p.pnt.record = some rec →
    let c := cfgOf e
    let r := p.run
    let q := handMean e .pke level p
    let goesTo (st : RunStage) (target : HeadPoint) (x : Run) : Prop :=
      q.run = { x with status := .running st, targets := clampPoint e target, moveList := [.pan, .tilt], blocked := false, barred := false } ∧
        moveToPoint .pke e q target
    (r.status ≠ .running .measure → r.status ≠ .running .closeMeasure → q = p) ∧
    (∀ (i : Nat) (levels : RoundLevels) (point : HeadPoint) (d : Int), r.status = .running .measure → i = r.index → d = (r.delta.getD 0 : Nat) → 1 ≤ i → i < 5 →
      levels = (if i = 1 then { r.levels with centre := some level } else if i = 2 then { r.levels with panPlus := some level }
        else if i = 3 then { r.levels with panMinus := some level } else { r.levels with tiltPlus := some level }) →
      point = (if i = 1 then { r.centre with pan := r.centre.pan + d } else if i = 2 then { r.centre with pan := r.centre.pan - d }
        else if i = 3 then { r.centre with tilt := r.centre.tilt + d } else { r.centre with tilt := r.centre.tilt - d }) →
      mayMoveToPoint e p point →
      dwellPosted (match i with | 2 => .crossPanPlus | 3 => .crossPanMinus | 4 => .crossTiltPlus | _ => .crossCentre) level p q ∧ goesTo .toPoint point { r with levels := levels, index := i + 1 } ∧ q.pnt = p.pnt) ∧
    (∀ d l0 a b u v, r.status = .running .measure → r.index = 5 → r.delta = some d →
      r.levels = { centre := some l0, panPlus := some a, panMinus := some b, tiltPlus := some u, tiltMinus := v } →
      let pan := estimate d a b l0
      let tilt := estimate d u level l0
      let centre : HeadPoint := { pan := clampInt c.pan.softMin c.pan.softMax (r.centre.pan + pan), tilt := clampInt c.tilt.softMin c.tilt.softMax (r.centre.tilt + tilt) }
      let here : FoundPoint := { point := r.centre, level := l0 }
      let best : FoundPoint := match r.best with
        | some x => if x.level < l0 then here else x
        | none => here
      let done : Prop := d = c.deltaMin ∧ pan.natAbs ≤ c.tolerance ∧ tilt.natAbs ≤ c.tolerance
      let limit : Prop := rec.roundCount + 1 = c.roundLimit
      let kept : Run := { r with best := some best, levels := { r.levels with tiltMinus := some level } }
      let next : Nat := if 2 * pan.natAbs < d ∧ 2 * tilt.natAbs < d then max c.deltaMin (d / 2) else d
      let target : HeadPoint := if ¬ done ∧ limit then best.point else centre
      mayMoveToPoint e p target → dwellPosted .crossTiltMinus level p q ∧ q.pnt = { p.pnt with record := some { rec with roundCount := rec.roundCount + 1 } } ∧
        (done → goesTo .toClose centre { kept with closing := some centre }) ∧ (¬ done → limit → goesTo .toBest best.point kept) ∧
        (¬ done → ¬ limit → goesTo .toPoint centre { kept with
          delta := some next, centre := centre, index := 1,
          levels := { centre := none, panPlus := none, panMinus := none, tiltPlus := none, tiltMinus := none } })) ∧
    (r.status = .running .closeMeasure → p.pnt.state = .active .peaking ∨ (∃ cause, p.pnt.state = .held .peaking cause) →
      let centre := r.closing.getD r.centre
      dwellPosted .closing level p q ∧ q.run = { r with status := .ended, closing := none } ∧
        q.pnt.record = some { rec with panOffset := centre.pan - rec.pan, tiltOffset := centre.tilt - rec.tilt, peak := some level, quality := some .fine } ∧
        (rec.flagTrack = false → q.pnt.state = .pointed ∧ q.monitor = .cold) ∧
        (rec.flagTrack = true → (c.source = .linked → given p .levelOk = true) →
          q.pnt.state = .active .tracking ∧ q.monitor = {
            state := .watching, fadeStart := none, lossStart := none, periodStart := if c.source = .linked then none else some e.clock,
            lastSequence := if c.source = .linked then p.pvw.level.value.map (·.sequence) else none }) ∧
        (rec.flagTrack = true → c.source = .linked → given p .levelOk = false →
          q.monitor = .cold ∧ q.pnt.state = .held .tracking (if given p .windMoveOk = true then .level else .wind))))

/-- The sample period of the monitor, LOCAL source: due every 100 ms, it restarts, and without a pilot mean changes nothing more. WATCHING, a sample more than 10
above the peak raises it and is posted, and each timer runs from the first of the samples below its line, the fade drop under the peak or the acquire floor;
in RECOVERY with pointing LOST a sample no lower than the fade line starts tracking anew. With LINKED source a level report with a new sequence is the sample, taken
when no measurement is under way (R129, R160, R161, R162, R163).
That the time of a LINKED sample is the clock at its taking is the model's choice: notes/assumptions/59.md. -/
def Obligations.ATrackingSampleIsJudged : Prop :=
  (∀ (s : State) (start : Clock),
    let p := s.plant
    let m := p.monitor
    let restarted : Monitor := { m with periodStart := some s.clock }
    let peak : Int := (p.pnt.record.bind (·.peak)).getD (-1500)
    let drop : Int := s.setup.cfg.fadeDrop
    m.periodStart = some start → s.setup.cfg.source = .localSource → m.state ≠ .off →
    ((s.clock - start).toNat < 100 → exec .trackSamplePeriodExpiry s = .next s) ∧
    (100 ≤ (s.clock - start).toNat →
      (pilotMean p.smp s.setup.cfg.peakN = none → exec .trackSamplePeriodExpiry s = .next { s with plant := { p with monitor := restarted } }) ∧
      ∀ sample, pilotMean p.smp s.setup.cfg.peakN = some sample →
        (m.state = .watching →
          let raised : Prop := peak + 10 < sample
          let record := if raised then p.pnt.record.map (fun r => { r with peak := some sample }) else p.pnt.record
          let line := (record.bind (·.peak)).getD (-1500) - drop
          exec .trackSamplePeriodExpiry s = .next { s with plant := { p with
            posts := if raised then
                postTo .dwell (postTag (envOf s) .dwell) (dwellPayload .trackPeak (positionOrZero p .pan) (positionOrZero p .tilt) sample) p.posts
              else p.posts,
            pnt := { p.pnt with record := record },
            monitor := { restarted with
              fadeStart := if sample < line then some (m.fadeStart.getD s.clock) else none,
              lossStart := if sample < s.setup.cfg.floor then some (m.lossStart.getD s.clock) else none } } }) ∧
        (m.state = .recovery → p.pnt.state = .lost →
          (sample < peak - drop → exec .trackSamplePeriodExpiry s = .next { s with plant := { p with monitor := restarted } }) ∧
          (peak - drop ≤ sample → ∃ t, exec .trackSamplePeriodExpiry s = .next t ∧
            t = { s with plant := { p with
              posts := t.plant.posts, pnt := { p.pnt with state := .active .tracking },
              monitor := { state := .watching, fadeStart := none, lossStart := none, periodStart := some s.clock, lastSequence := none } } })))) ∧
  (∀ (s : State) (x : ArrivalEntry) (rest : List ArrivalEntry), s.arrivals = x :: rest → x.kind = .role .level → s.setup.cfg.source = .linked →
    s.plant.pvw.permissives.levelOk = true → s.plant.pnt.state ≠ .active (.slewing .measure) → patternListens s.plant = false → runListens s.plant = false →
    let sequence := (byteAt x.payload 3).toNat
    let sample : Int := if bitAt x.payload 0 0 then clampInt (-1500) 300 (word16At x.payload 1).toInt else -1500
    let m := s.plant.monitor
    let noted : Monitor := { m with lastSequence := some sequence }
    let p : Plant := { s.plant with
      pvw := { s.plant.pvw with level := { state := some .fresh, value := some { level := sample, sequence := sequence }, stamp := some x.stamp } } }
    let peak : Int := (p.pnt.record.bind (·.peak)).getD (-1500)
    let drop : Int := s.setup.cfg.fadeDrop
    m.lastSequence ≠ some sequence →
    (m.state = .watching →
      let raised : Prop := peak + 10 < sample
      let record := if raised then p.pnt.record.map (fun r => { r with peak := some sample }) else p.pnt.record
      let line := (record.bind (·.peak)).getD (-1500) - drop
      exec .level s = .next { s with arrivals := rest, plant := { p with
        posts := if raised then
            postTo .dwell (postTag (envOf s) .dwell) (dwellPayload .trackPeak (positionOrZero p .pan) (positionOrZero p .tilt) sample) p.posts
          else p.posts,
        pnt := { p.pnt with record := record },
        monitor := { noted with
          fadeStart := if sample < line then some (m.fadeStart.getD s.clock) else none,
          lossStart := if sample < s.setup.cfg.floor then some (m.lossStart.getD s.clock) else none } } }) ∧
    (m.state = .recovery → p.pnt.state = .lost →
      (sample < peak - drop → exec .level s = .next { s with arrivals := rest, plant := { p with monitor := noted } }) ∧
      (peak - drop ≤ sample → ∃ t, exec .level s = .next t ∧ t = { s with arrivals := rest, plant := { p with
        posts := t.plant.posts, pnt := { p.pnt with state := .active .tracking },
        monitor := { state := .watching, fadeStart := none, lossStart := none, periodStart := none, lastSequence := some sequence } } })))

/-- The fade timer of a WATCHING monitor, due while WIND_MOVE_OK and, with LINKED source, LEVEL_OK are given, the latch CLEAR, the head free, and PAN and TILT IDLE
with no switch in the way: the monitor is OFF and pointing PEAKING with a run from the pointing position with δtrack. The loss timer, due: both timers
stopped, the monitor in RECOVERY, pointing LOST, nothing moved. A timer not yet due changes nothing (R129, R150, R162).
That an ended monitor keeps no sequence seen is the model's choice: notes/assumptions/8.md. -/
def Obligations.AFadePeaksAgainAndALossIsLost : Prop :=
  ∀ (s : State) (start : Clock), s.plant.monitor.state = .watching → s.plant.pnt.state = .active .tracking → arbiterSound s.plant = true →
    let p := s.plant
    let e := envOf s
    (p.monitor.fadeStart = some start →
      ((s.clock - start).toNat < s.setup.cfg.fadeTime → exec .fadeTimerExpiry s = .next s) ∧
      (s.setup.cfg.fadeTime ≤ (s.clock - start).toNat → p.pvw.permissives.windMoveOk = true →
        (s.setup.cfg.source = .linked → p.pvw.permissives.levelOk = true) → p.aut.latch = none → headFree e p = true →
        (∀ a ∈ [Axis.pan, .tilt], (axisOf p a).state = .idle ∧ switchBlocks (axisOf p a) (pointingTarget e p a) = false) →
        ∃ t, exec .fadeTimerExpiry s = .next t ∧
          t = { s with plant := { p with posts := t.plant.posts, axd := t.plant.axd, smp := t.plant.smp, pnt := t.plant.pnt, run := t.plant.run, monitor := .cold } } ∧
          t.plant.pnt = { p.pnt with state := .active .peaking, record := p.pnt.record.map (fun r => { r with roundCount := 0 }) } ∧
          t.plant.run.status = .running .toPoint ∧ t.plant.run.centre = { pan := pointingTarget e p .pan, tilt := pointingTarget e p .tilt } ∧
          t.plant.run.delta = some s.setup.cfg.deltaTrack ∧ t.plant.run.index = 1 ∧
          ∀ a ∈ [Axis.pan, .tilt], ((axisOf t.plant a).state = .waiting ∨ (axisOf t.plant a).state = .moving) ∧ (axisOf t.plant a).requester = some .pke ∧
            (axisOf t.plant a).target = some (pointingTarget e p a))) ∧
    (p.monitor.lossStart = some start →
      ((s.clock - start).toNat < s.setup.cfg.lossTime → exec .lossTimerExpiry s = .next s) ∧
      (s.setup.cfg.lossTime ≤ (s.clock - start).toNat → ∃ t, exec .lossTimerExpiry s = .next t ∧
        t = { s with plant := { p with
          posts := t.plant.posts, pnt := { p.pnt with state := .lost }, monitor := { p.monitor with state := .recovery, fadeStart := none, lossStart := none } } }))

end
end

