-- ==== Sys2Proof/Laws/State.lean ====
section
/-! SUPPORT. The reads of the state after each update: one lemma per field per update. -/

namespace Sys2Proof.Machine

/-! #### post -/

@[simp] theorem post_pvw (e : Env) (k : PostKey) (x : List Byte) (p : Plant) : (post e k x p).pvw = p.pvw := rfl
@[simp] theorem post_aut (e : Env) (k : PostKey) (x : List Byte) (p : Plant) : (post e k x p).aut = p.aut := rfl
@[simp] theorem post_smp (e : Env) (k : PostKey) (x : List Byte) (p : Plant) : (post e k x p).smp = p.smp := rfl
@[simp] theorem post_watches (e : Env) (k : PostKey) (x : List Byte) (p : Plant) : (post e k x p).watches = p.watches := rfl
@[simp] theorem post_axd (e : Env) (k : PostKey) (x : List Byte) (p : Plant) : (post e k x p).axd = p.axd := rfl
@[simp] theorem post_flt (e : Env) (k : PostKey) (x : List Byte) (p : Plant) : (post e k x p).flt = p.flt := rfl
@[simp] theorem post_msq (e : Env) (k : PostKey) (x : List Byte) (p : Plant) : (post e k x p).msq = p.msq := rfl
@[simp] theorem post_pnt (e : Env) (k : PostKey) (x : List Byte) (p : Plant) : (post e k x p).pnt = p.pnt := rfl
@[simp] theorem post_pat (e : Env) (k : PostKey) (x : List Byte) (p : Plant) : (post e k x p).pat = p.pat := rfl
@[simp] theorem post_run (e : Env) (k : PostKey) (x : List Byte) (p : Plant) : (post e k x p).run = p.run := rfl
@[simp] theorem post_monitor (e : Env) (k : PostKey) (x : List Byte) (p : Plant) : (post e k x p).monitor = p.monitor := rfl
@[simp] theorem post_posts (e : Env) (k : PostKey) (x : List Byte) (p : Plant) : (post e k x p).posts = postTo k (postTag e k) x p.posts := rfl

/-! #### setAxisRaw -/

@[simp] theorem setAxisRaw_posts (a : Axis) (r : AxisRec) (p : Plant) : (setAxisRaw a r p).posts = p.posts := rfl
@[simp] theorem setAxisRaw_pvw (a : Axis) (r : AxisRec) (p : Plant) : (setAxisRaw a r p).pvw = p.pvw := rfl
@[simp] theorem setAxisRaw_aut (a : Axis) (r : AxisRec) (p : Plant) : (setAxisRaw a r p).aut = p.aut := rfl
@[simp] theorem setAxisRaw_smp (a : Axis) (r : AxisRec) (p : Plant) : (setAxisRaw a r p).smp = p.smp := rfl
@[simp] theorem setAxisRaw_watches (a : Axis) (r : AxisRec) (p : Plant) : (setAxisRaw a r p).watches = p.watches := rfl
@[simp] theorem setAxisRaw_flt (a : Axis) (r : AxisRec) (p : Plant) : (setAxisRaw a r p).flt = p.flt := rfl
@[simp] theorem setAxisRaw_msq (a : Axis) (r : AxisRec) (p : Plant) : (setAxisRaw a r p).msq = p.msq := rfl
@[simp] theorem setAxisRaw_pnt (a : Axis) (r : AxisRec) (p : Plant) : (setAxisRaw a r p).pnt = p.pnt := rfl
@[simp] theorem setAxisRaw_pat (a : Axis) (r : AxisRec) (p : Plant) : (setAxisRaw a r p).pat = p.pat := rfl
@[simp] theorem setAxisRaw_run (a : Axis) (r : AxisRec) (p : Plant) : (setAxisRaw a r p).run = p.run := rfl
@[simp] theorem setAxisRaw_monitor (a : Axis) (r : AxisRec) (p : Plant) : (setAxisRaw a r p).monitor = p.monitor := rfl

/-! #### leaveGrants -/

@[simp] theorem leaveGrants_posts (a : Axis) (p : Plant) : (leaveGrants a p).posts = p.posts := rfl
@[simp] theorem leaveGrants_pvw (a : Axis) (p : Plant) : (leaveGrants a p).pvw = p.pvw := rfl
@[simp] theorem leaveGrants_aut (a : Axis) (p : Plant) : (leaveGrants a p).aut = p.aut := rfl
@[simp] theorem leaveGrants_smp (a : Axis) (p : Plant) : (leaveGrants a p).smp = p.smp := rfl
@[simp] theorem leaveGrants_watches (a : Axis) (p : Plant) : (leaveGrants a p).watches = p.watches := rfl
@[simp] theorem leaveGrants_flt (a : Axis) (p : Plant) : (leaveGrants a p).flt = p.flt := rfl
@[simp] theorem leaveGrants_msq (a : Axis) (p : Plant) : (leaveGrants a p).msq = p.msq := rfl
@[simp] theorem leaveGrants_pnt (a : Axis) (p : Plant) : (leaveGrants a p).pnt = p.pnt := rfl
@[simp] theorem leaveGrants_pat (a : Axis) (p : Plant) : (leaveGrants a p).pat = p.pat := rfl
@[simp] theorem leaveGrants_run (a : Axis) (p : Plant) : (leaveGrants a p).run = p.run := rfl
@[simp] theorem leaveGrants_monitor (a : Axis) (p : Plant) : (leaveGrants a p).monitor = p.monitor := rfl

/-! #### leaveWaiting -/

@[simp] theorem leaveWaiting_posts (a : Axis) (p : Plant) : (leaveWaiting a p).posts = p.posts := rfl
@[simp] theorem leaveWaiting_pvw (a : Axis) (p : Plant) : (leaveWaiting a p).pvw = p.pvw := rfl
@[simp] theorem leaveWaiting_aut (a : Axis) (p : Plant) : (leaveWaiting a p).aut = p.aut := rfl
@[simp] theorem leaveWaiting_smp (a : Axis) (p : Plant) : (leaveWaiting a p).smp = p.smp := rfl
@[simp] theorem leaveWaiting_watches (a : Axis) (p : Plant) : (leaveWaiting a p).watches = p.watches := rfl
@[simp] theorem leaveWaiting_flt (a : Axis) (p : Plant) : (leaveWaiting a p).flt = p.flt := rfl
@[simp] theorem leaveWaiting_msq (a : Axis) (p : Plant) : (leaveWaiting a p).msq = p.msq := rfl
@[simp] theorem leaveWaiting_pnt (a : Axis) (p : Plant) : (leaveWaiting a p).pnt = p.pnt := rfl
@[simp] theorem leaveWaiting_pat (a : Axis) (p : Plant) : (leaveWaiting a p).pat = p.pat := rfl
@[simp] theorem leaveWaiting_run (a : Axis) (p : Plant) : (leaveWaiting a p).run = p.run := rfl
@[simp] theorem leaveWaiting_monitor (a : Axis) (p : Plant) : (leaveWaiting a p).monitor = p.monitor := rfl

/-! #### noteRequester -/

@[simp] theorem noteRequester_posts (q : Requester) (a : Axis) (p : Plant) : (noteRequester q a p).posts = p.posts := rfl
@[simp] theorem noteRequester_pvw (q : Requester) (a : Axis) (p : Plant) : (noteRequester q a p).pvw = p.pvw := rfl
@[simp] theorem noteRequester_aut (q : Requester) (a : Axis) (p : Plant) : (noteRequester q a p).aut = p.aut := rfl
@[simp] theorem noteRequester_smp (q : Requester) (a : Axis) (p : Plant) : (noteRequester q a p).smp = p.smp := rfl
@[simp] theorem noteRequester_watches (q : Requester) (a : Axis) (p : Plant) : (noteRequester q a p).watches = p.watches := rfl
@[simp] theorem noteRequester_flt (q : Requester) (a : Axis) (p : Plant) : (noteRequester q a p).flt = p.flt := rfl
@[simp] theorem noteRequester_msq (q : Requester) (a : Axis) (p : Plant) : (noteRequester q a p).msq = p.msq := rfl
@[simp] theorem noteRequester_pnt (q : Requester) (a : Axis) (p : Plant) : (noteRequester q a p).pnt = p.pnt := rfl
@[simp] theorem noteRequester_pat (q : Requester) (a : Axis) (p : Plant) : (noteRequester q a p).pat = p.pat := rfl
@[simp] theorem noteRequester_run (q : Requester) (a : Axis) (p : Plant) : (noteRequester q a p).run = p.run := rfl
@[simp] theorem noteRequester_monitor (q : Requester) (a : Axis) (p : Plant) : (noteRequester q a p).monitor = p.monitor := rfl

/-! #### setHolder -/

@[simp] theorem setHolder_posts (h : Option Nat) (p : Plant) : (setHolder h p).posts = p.posts := rfl
@[simp] theorem setHolder_pvw (h : Option Nat) (p : Plant) : (setHolder h p).pvw = p.pvw := rfl
@[simp] theorem setHolder_smp (h : Option Nat) (p : Plant) : (setHolder h p).smp = p.smp := rfl
@[simp] theorem setHolder_watches (h : Option Nat) (p : Plant) : (setHolder h p).watches = p.watches := rfl
@[simp] theorem setHolder_axd (h : Option Nat) (p : Plant) : (setHolder h p).axd = p.axd := rfl
@[simp] theorem setHolder_flt (h : Option Nat) (p : Plant) : (setHolder h p).flt = p.flt := rfl
@[simp] theorem setHolder_msq (h : Option Nat) (p : Plant) : (setHolder h p).msq = p.msq := rfl
@[simp] theorem setHolder_pnt (h : Option Nat) (p : Plant) : (setHolder h p).pnt = p.pnt := rfl
@[simp] theorem setHolder_pat (h : Option Nat) (p : Plant) : (setHolder h p).pat = p.pat := rfl
@[simp] theorem setHolder_run (h : Option Nat) (p : Plant) : (setHolder h p).run = p.run := rfl
@[simp] theorem setHolder_monitor (h : Option Nat) (p : Plant) : (setHolder h p).monitor = p.monitor := rfl

/-! #### setLatch -/

@[simp] theorem setLatch_posts (l : Option LatchCause) (p : Plant) : (setLatch l p).posts = p.posts := rfl
@[simp] theorem setLatch_pvw (l : Option LatchCause) (p : Plant) : (setLatch l p).pvw = p.pvw := rfl
@[simp] theorem setLatch_smp (l : Option LatchCause) (p : Plant) : (setLatch l p).smp = p.smp := rfl
@[simp] theorem setLatch_watches (l : Option LatchCause) (p : Plant) : (setLatch l p).watches = p.watches := rfl
@[simp] theorem setLatch_axd (l : Option LatchCause) (p : Plant) : (setLatch l p).axd = p.axd := rfl
@[simp] theorem setLatch_flt (l : Option LatchCause) (p : Plant) : (setLatch l p).flt = p.flt := rfl
@[simp] theorem setLatch_msq (l : Option LatchCause) (p : Plant) : (setLatch l p).msq = p.msq := rfl
@[simp] theorem setLatch_pnt (l : Option LatchCause) (p : Plant) : (setLatch l p).pnt = p.pnt := rfl
@[simp] theorem setLatch_pat (l : Option LatchCause) (p : Plant) : (setLatch l p).pat = p.pat := rfl
@[simp] theorem setLatch_run (l : Option LatchCause) (p : Plant) : (setLatch l p).run = p.run := rfl
@[simp] theorem setLatch_monitor (l : Option LatchCause) (p : Plant) : (setLatch l p).monitor = p.monitor := rfl

/-! #### storeVehicle -/

@[simp] theorem storeVehicle_posts (x : PeerEntry VehicleValue) (p : Plant) : (storeVehicle x p).posts = p.posts := rfl
@[simp] theorem storeVehicle_aut (x : PeerEntry VehicleValue) (p : Plant) : (storeVehicle x p).aut = p.aut := rfl
@[simp] theorem storeVehicle_smp (x : PeerEntry VehicleValue) (p : Plant) : (storeVehicle x p).smp = p.smp := rfl
@[simp] theorem storeVehicle_watches (x : PeerEntry VehicleValue) (p : Plant) : (storeVehicle x p).watches = p.watches := rfl
@[simp] theorem storeVehicle_axd (x : PeerEntry VehicleValue) (p : Plant) : (storeVehicle x p).axd = p.axd := rfl
@[simp] theorem storeVehicle_flt (x : PeerEntry VehicleValue) (p : Plant) : (storeVehicle x p).flt = p.flt := rfl
@[simp] theorem storeVehicle_msq (x : PeerEntry VehicleValue) (p : Plant) : (storeVehicle x p).msq = p.msq := rfl
@[simp] theorem storeVehicle_pnt (x : PeerEntry VehicleValue) (p : Plant) : (storeVehicle x p).pnt = p.pnt := rfl
@[simp] theorem storeVehicle_pat (x : PeerEntry VehicleValue) (p : Plant) : (storeVehicle x p).pat = p.pat := rfl
@[simp] theorem storeVehicle_run (x : PeerEntry VehicleValue) (p : Plant) : (storeVehicle x p).run = p.run := rfl
@[simp] theorem storeVehicle_monitor (x : PeerEntry VehicleValue) (p : Plant) : (storeVehicle x p).monitor = p.monitor := rfl

/-! #### setHanding -/

@[simp] theorem setHanding_posts (b : Bool) (p : Plant) : (setHanding b p).posts = p.posts := rfl
@[simp] theorem setHanding_pvw (b : Bool) (p : Plant) : (setHanding b p).pvw = p.pvw := rfl
@[simp] theorem setHanding_aut (b : Bool) (p : Plant) : (setHanding b p).aut = p.aut := rfl
@[simp] theorem setHanding_watches (b : Bool) (p : Plant) : (setHanding b p).watches = p.watches := rfl
@[simp] theorem setHanding_axd (b : Bool) (p : Plant) : (setHanding b p).axd = p.axd := rfl
@[simp] theorem setHanding_flt (b : Bool) (p : Plant) : (setHanding b p).flt = p.flt := rfl
@[simp] theorem setHanding_msq (b : Bool) (p : Plant) : (setHanding b p).msq = p.msq := rfl
@[simp] theorem setHanding_pnt (b : Bool) (p : Plant) : (setHanding b p).pnt = p.pnt := rfl
@[simp] theorem setHanding_pat (b : Bool) (p : Plant) : (setHanding b p).pat = p.pat := rfl
@[simp] theorem setHanding_run (b : Bool) (p : Plant) : (setHanding b p).run = p.run := rfl
@[simp] theorem setHanding_monitor (b : Bool) (p : Plant) : (setHanding b p).monitor = p.monitor := rfl

/-! #### withSampler -/

@[simp] theorem withSampler_posts (f : Sampler → Sampler) (p : Plant) : (withSampler f p).posts = p.posts := rfl
@[simp] theorem withSampler_pvw (f : Sampler → Sampler) (p : Plant) : (withSampler f p).pvw = p.pvw := rfl
@[simp] theorem withSampler_aut (f : Sampler → Sampler) (p : Plant) : (withSampler f p).aut = p.aut := rfl
@[simp] theorem withSampler_watches (f : Sampler → Sampler) (p : Plant) : (withSampler f p).watches = p.watches := rfl
@[simp] theorem withSampler_axd (f : Sampler → Sampler) (p : Plant) : (withSampler f p).axd = p.axd := rfl
@[simp] theorem withSampler_flt (f : Sampler → Sampler) (p : Plant) : (withSampler f p).flt = p.flt := rfl
@[simp] theorem withSampler_msq (f : Sampler → Sampler) (p : Plant) : (withSampler f p).msq = p.msq := rfl
@[simp] theorem withSampler_pnt (f : Sampler → Sampler) (p : Plant) : (withSampler f p).pnt = p.pnt := rfl
@[simp] theorem withSampler_pat (f : Sampler → Sampler) (p : Plant) : (withSampler f p).pat = p.pat := rfl
@[simp] theorem withSampler_run (f : Sampler → Sampler) (p : Plant) : (withSampler f p).run = p.run := rfl
@[simp] theorem withSampler_monitor (f : Sampler → Sampler) (p : Plant) : (withSampler f p).monitor = p.monitor := rfl
@[simp] theorem withSampler_smp (f : Sampler → Sampler) (p : Plant) : (withSampler f p).smp = f p.smp := rfl

/-! #### setWatch -/

@[simp] theorem setWatch_posts (i : Nat) (w : WatchState) (p : Plant) : (setWatch i w p).posts = p.posts := rfl
@[simp] theorem setWatch_pvw (i : Nat) (w : WatchState) (p : Plant) : (setWatch i w p).pvw = p.pvw := rfl
@[simp] theorem setWatch_aut (i : Nat) (w : WatchState) (p : Plant) : (setWatch i w p).aut = p.aut := rfl
@[simp] theorem setWatch_smp (i : Nat) (w : WatchState) (p : Plant) : (setWatch i w p).smp = p.smp := rfl
@[simp] theorem setWatch_axd (i : Nat) (w : WatchState) (p : Plant) : (setWatch i w p).axd = p.axd := rfl
@[simp] theorem setWatch_flt (i : Nat) (w : WatchState) (p : Plant) : (setWatch i w p).flt = p.flt := rfl
@[simp] theorem setWatch_msq (i : Nat) (w : WatchState) (p : Plant) : (setWatch i w p).msq = p.msq := rfl
@[simp] theorem setWatch_pnt (i : Nat) (w : WatchState) (p : Plant) : (setWatch i w p).pnt = p.pnt := rfl
@[simp] theorem setWatch_pat (i : Nat) (w : WatchState) (p : Plant) : (setWatch i w p).pat = p.pat := rfl
@[simp] theorem setWatch_run (i : Nat) (w : WatchState) (p : Plant) : (setWatch i w p).run = p.run := rfl
@[simp] theorem setWatch_monitor (i : Nat) (w : WatchState) (p : Plant) : (setWatch i w p).monitor = p.monitor := rfl
@[simp] theorem setWatch_watches (i : Nat) (w : WatchState) (p : Plant) : (setWatch i w p).watches = p.watches.set i w := rfl

/-! #### setPendingMast -/

@[simp] theorem setPendingMast_posts (b : Bool) (p : Plant) : (setPendingMast b p).posts = p.posts := rfl
@[simp] theorem setPendingMast_pvw (b : Bool) (p : Plant) : (setPendingMast b p).pvw = p.pvw := rfl
@[simp] theorem setPendingMast_aut (b : Bool) (p : Plant) : (setPendingMast b p).aut = p.aut := rfl
@[simp] theorem setPendingMast_smp (b : Bool) (p : Plant) : (setPendingMast b p).smp = p.smp := rfl
@[simp] theorem setPendingMast_watches (b : Bool) (p : Plant) : (setPendingMast b p).watches = p.watches := rfl
@[simp] theorem setPendingMast_axd (b : Bool) (p : Plant) : (setPendingMast b p).axd = p.axd := rfl
@[simp] theorem setPendingMast_flt (b : Bool) (p : Plant) : (setPendingMast b p).flt = p.flt := rfl
@[simp] theorem setPendingMast_pnt (b : Bool) (p : Plant) : (setPendingMast b p).pnt = p.pnt := rfl
@[simp] theorem setPendingMast_pat (b : Bool) (p : Plant) : (setPendingMast b p).pat = p.pat := rfl
@[simp] theorem setPendingMast_run (b : Bool) (p : Plant) : (setPendingMast b p).run = p.run := rfl
@[simp] theorem setPendingMast_monitor (b : Bool) (p : Plant) : (setPendingMast b p).monitor = p.monitor := rfl

/-! #### withRecord -/

@[simp] theorem withRecord_posts (f : PointingRecord → PointingRecord) (p : Plant) : (withRecord f p).posts = p.posts := rfl
@[simp] theorem withRecord_pvw (f : PointingRecord → PointingRecord) (p : Plant) : (withRecord f p).pvw = p.pvw := rfl
@[simp] theorem withRecord_aut (f : PointingRecord → PointingRecord) (p : Plant) : (withRecord f p).aut = p.aut := rfl
@[simp] theorem withRecord_smp (f : PointingRecord → PointingRecord) (p : Plant) : (withRecord f p).smp = p.smp := rfl
@[simp] theorem withRecord_watches (f : PointingRecord → PointingRecord) (p : Plant) : (withRecord f p).watches = p.watches := rfl
@[simp] theorem withRecord_axd (f : PointingRecord → PointingRecord) (p : Plant) : (withRecord f p).axd = p.axd := rfl
@[simp] theorem withRecord_flt (f : PointingRecord → PointingRecord) (p : Plant) : (withRecord f p).flt = p.flt := rfl
@[simp] theorem withRecord_msq (f : PointingRecord → PointingRecord) (p : Plant) : (withRecord f p).msq = p.msq := rfl
@[simp] theorem withRecord_pat (f : PointingRecord → PointingRecord) (p : Plant) : (withRecord f p).pat = p.pat := rfl
@[simp] theorem withRecord_run (f : PointingRecord → PointingRecord) (p : Plant) : (withRecord f p).run = p.run := rfl
@[simp] theorem withRecord_monitor (f : PointingRecord → PointingRecord) (p : Plant) : (withRecord f p).monitor = p.monitor := rfl

/-! #### updateRun -/

@[simp] theorem updateRun_posts (f : Run → Run) (p : Plant) : (updateRun f p).posts = p.posts := rfl
@[simp] theorem updateRun_pvw (f : Run → Run) (p : Plant) : (updateRun f p).pvw = p.pvw := rfl
@[simp] theorem updateRun_aut (f : Run → Run) (p : Plant) : (updateRun f p).aut = p.aut := rfl
@[simp] theorem updateRun_smp (f : Run → Run) (p : Plant) : (updateRun f p).smp = p.smp := rfl
@[simp] theorem updateRun_watches (f : Run → Run) (p : Plant) : (updateRun f p).watches = p.watches := rfl
@[simp] theorem updateRun_axd (f : Run → Run) (p : Plant) : (updateRun f p).axd = p.axd := rfl
@[simp] theorem updateRun_flt (f : Run → Run) (p : Plant) : (updateRun f p).flt = p.flt := rfl
@[simp] theorem updateRun_msq (f : Run → Run) (p : Plant) : (updateRun f p).msq = p.msq := rfl
@[simp] theorem updateRun_pnt (f : Run → Run) (p : Plant) : (updateRun f p).pnt = p.pnt := rfl
@[simp] theorem updateRun_pat (f : Run → Run) (p : Plant) : (updateRun f p).pat = p.pat := rfl
@[simp] theorem updateRun_monitor (f : Run → Run) (p : Plant) : (updateRun f p).monitor = p.monitor := rfl
@[simp] theorem updateRun_run (f : Run → Run) (p : Plant) : (updateRun f p).run = f p.run := rfl

/-! #### updatePattern -/

@[simp] theorem updatePattern_posts (f : Pattern → Pattern) (p : Plant) : (updatePattern f p).posts = p.posts := rfl
@[simp] theorem updatePattern_pvw (f : Pattern → Pattern) (p : Plant) : (updatePattern f p).pvw = p.pvw := rfl
@[simp] theorem updatePattern_aut (f : Pattern → Pattern) (p : Plant) : (updatePattern f p).aut = p.aut := rfl
@[simp] theorem updatePattern_smp (f : Pattern → Pattern) (p : Plant) : (updatePattern f p).smp = p.smp := rfl
@[simp] theorem updatePattern_watches (f : Pattern → Pattern) (p : Plant) : (updatePattern f p).watches = p.watches := rfl
@[simp] theorem updatePattern_axd (f : Pattern → Pattern) (p : Plant) : (updatePattern f p).axd = p.axd := rfl
@[simp] theorem updatePattern_flt (f : Pattern → Pattern) (p : Plant) : (updatePattern f p).flt = p.flt := rfl
@[simp] theorem updatePattern_msq (f : Pattern → Pattern) (p : Plant) : (updatePattern f p).msq = p.msq := rfl
@[simp] theorem updatePattern_pnt (f : Pattern → Pattern) (p : Plant) : (updatePattern f p).pnt = p.pnt := rfl
@[simp] theorem updatePattern_run (f : Pattern → Pattern) (p : Plant) : (updatePattern f p).run = p.run := rfl
@[simp] theorem updatePattern_monitor (f : Pattern → Pattern) (p : Plant) : (updatePattern f p).monitor = p.monitor := rfl
@[simp] theorem updatePattern_pat (f : Pattern → Pattern) (p : Plant) : (updatePattern f p).pat = p.pat.map f := rfl

/-! #### setMonitor -/

@[simp] theorem setMonitor_posts (m : Monitor) (p : Plant) : (setMonitor m p).posts = p.posts := rfl
@[simp] theorem setMonitor_pvw (m : Monitor) (p : Plant) : (setMonitor m p).pvw = p.pvw := rfl
@[simp] theorem setMonitor_aut (m : Monitor) (p : Plant) : (setMonitor m p).aut = p.aut := rfl
@[simp] theorem setMonitor_smp (m : Monitor) (p : Plant) : (setMonitor m p).smp = p.smp := rfl
@[simp] theorem setMonitor_watches (m : Monitor) (p : Plant) : (setMonitor m p).watches = p.watches := rfl
@[simp] theorem setMonitor_axd (m : Monitor) (p : Plant) : (setMonitor m p).axd = p.axd := rfl
@[simp] theorem setMonitor_flt (m : Monitor) (p : Plant) : (setMonitor m p).flt = p.flt := rfl
@[simp] theorem setMonitor_msq (m : Monitor) (p : Plant) : (setMonitor m p).msq = p.msq := rfl
@[simp] theorem setMonitor_pnt (m : Monitor) (p : Plant) : (setMonitor m p).pnt = p.pnt := rfl
@[simp] theorem setMonitor_pat (m : Monitor) (p : Plant) : (setMonitor m p).pat = p.pat := rfl
@[simp] theorem setMonitor_run (m : Monitor) (p : Plant) : (setMonitor m p).run = p.run := rfl
@[simp] theorem setMonitor_monitor (m : Monitor) (p : Plant) : (setMonitor m p).monitor = m := rfl

/-! #### monitorOff -/

@[simp] theorem monitorOff_posts (p : Plant) : (monitorOff p).posts = p.posts := rfl
@[simp] theorem monitorOff_pvw (p : Plant) : (monitorOff p).pvw = p.pvw := rfl
@[simp] theorem monitorOff_aut (p : Plant) : (monitorOff p).aut = p.aut := rfl
@[simp] theorem monitorOff_smp (p : Plant) : (monitorOff p).smp = p.smp := rfl
@[simp] theorem monitorOff_watches (p : Plant) : (monitorOff p).watches = p.watches := rfl
@[simp] theorem monitorOff_axd (p : Plant) : (monitorOff p).axd = p.axd := rfl
@[simp] theorem monitorOff_flt (p : Plant) : (monitorOff p).flt = p.flt := rfl
@[simp] theorem monitorOff_msq (p : Plant) : (monitorOff p).msq = p.msq := rfl
@[simp] theorem monitorOff_pnt (p : Plant) : (monitorOff p).pnt = p.pnt := rfl
@[simp] theorem monitorOff_pat (p : Plant) : (monitorOff p).pat = p.pat := rfl
@[simp] theorem monitorOff_run (p : Plant) : (monitorOff p).run = p.run := rfl
@[simp] theorem monitorOff_monitor (p : Plant) : (monitorOff p).monitor = .cold := rfl

/-! #### trackStart -/

@[simp] theorem trackStart_posts (e : Env) (p : Plant) : (trackStart e p).posts = p.posts := rfl
@[simp] theorem trackStart_pvw (e : Env) (p : Plant) : (trackStart e p).pvw = p.pvw := rfl
@[simp] theorem trackStart_aut (e : Env) (p : Plant) : (trackStart e p).aut = p.aut := rfl
@[simp] theorem trackStart_smp (e : Env) (p : Plant) : (trackStart e p).smp = p.smp := rfl
@[simp] theorem trackStart_watches (e : Env) (p : Plant) : (trackStart e p).watches = p.watches := rfl
@[simp] theorem trackStart_axd (e : Env) (p : Plant) : (trackStart e p).axd = p.axd := rfl
@[simp] theorem trackStart_flt (e : Env) (p : Plant) : (trackStart e p).flt = p.flt := rfl
@[simp] theorem trackStart_msq (e : Env) (p : Plant) : (trackStart e p).msq = p.msq := rfl
@[simp] theorem trackStart_pnt (e : Env) (p : Plant) : (trackStart e p).pnt = p.pnt := rfl
@[simp] theorem trackStart_pat (e : Env) (p : Plant) : (trackStart e p).pat = p.pat := rfl
@[simp] theorem trackStart_run (e : Env) (p : Plant) : (trackStart e p).run = p.run := rfl

/-! #### tick -/

@[simp] theorem tick_pending (s : State) : (tick s).pending = s.pending := rfl
@[simp] theorem tick_setup (s : State) : (tick s).setup = s.setup := rfl
@[simp] theorem tick_line (s : State) : (tick s).line = s.line := rfl
@[simp] theorem tick_arrivals (s : State) : (tick s).arrivals = s.arrivals := rfl
@[simp] theorem tick_plant (s : State) : (tick s).plant = s.plant := rfl
@[simp] theorem tick_clock (s : State) : (tick s).clock = s.clock + 1 := rfl

/-! #### withPlant -/

@[simp] theorem withPlant_pending (q : Plant) (s : State) : (withPlant q s).pending = s.pending := rfl
@[simp] theorem withPlant_clock (q : Plant) (s : State) : (withPlant q s).clock = s.clock := rfl
@[simp] theorem withPlant_setup (q : Plant) (s : State) : (withPlant q s).setup = s.setup := rfl
@[simp] theorem withPlant_line (q : Plant) (s : State) : (withPlant q s).line = s.line := rfl
@[simp] theorem withPlant_arrivals (q : Plant) (s : State) : (withPlant q s).arrivals = s.arrivals := rfl
@[simp] theorem withPlant_plant (q : Plant) (s : State) : (withPlant q s).plant = q := rfl

/-! #### applyHead -/

@[simp] theorem applyHead_pending (q : Plant) (s : State) : (applyHead q s).pending = s.pending := rfl
@[simp] theorem applyHead_clock (q : Plant) (s : State) : (applyHead q s).clock = s.clock := rfl
@[simp] theorem applyHead_setup (q : Plant) (s : State) : (applyHead q s).setup = s.setup := rfl
@[simp] theorem applyHead_line (q : Plant) (s : State) : (applyHead q s).line = s.line := rfl
@[simp] theorem applyHead_plant (q : Plant) (s : State) : (applyHead q s).plant = q := rfl
@[simp] theorem applyHead_arrivals (q : Plant) (s : State) : (applyHead q s).arrivals = s.arrivals.tail := rfl

/-! #### postLink -/

@[simp] theorem postLink_pending (s : State) : (postLink s).pending = s.pending := rfl
@[simp] theorem postLink_clock (s : State) : (postLink s).clock = s.clock := rfl
@[simp] theorem postLink_setup (s : State) : (postLink s).setup = s.setup := rfl
@[simp] theorem postLink_arrivals (s : State) : (postLink s).arrivals = s.arrivals := rfl

/-! #### setRound -/

@[simp] theorem setRound_pending (l : List RoundItem) (s : State) : (setRound l s).pending = s.pending := rfl
@[simp] theorem setRound_clock (l : List RoundItem) (s : State) : (setRound l s).clock = s.clock := rfl
@[simp] theorem setRound_setup (l : List RoundItem) (s : State) : (setRound l s).setup = s.setup := rfl
@[simp] theorem setRound_line (l : List RoundItem) (s : State) : (setRound l s).line = s.line := rfl
@[simp] theorem setRound_arrivals (l : List RoundItem) (s : State) : (setRound l s).arrivals = s.arrivals := rfl

/-! #### returnEntry -/

@[simp] theorem returnEntry_pending (s : State) : (returnEntry s).pending = s.pending := rfl
@[simp] theorem returnEntry_clock (s : State) : (returnEntry s).clock = s.clock := rfl
@[simp] theorem returnEntry_setup (s : State) : (returnEntry s).setup = s.setup := rfl
@[simp] theorem returnEntry_line (s : State) : (returnEntry s).line = s.line := rfl
@[simp] theorem returnEntry_arrivals (s : State) : (returnEntry s).arrivals = s.arrivals := rfl

/-! #### sendFaultEffects -/

@[simp] theorem sendFaultEffects_pending (s : State) : (sendFaultEffects s).pending = s.pending := rfl
@[simp] theorem sendFaultEffects_clock (s : State) : (sendFaultEffects s).clock = s.clock := rfl
@[simp] theorem sendFaultEffects_setup (s : State) : (sendFaultEffects s).setup = s.setup := rfl
@[simp] theorem sendFaultEffects_arrivals (s : State) : (sendFaultEffects s).arrivals = s.arrivals := rfl
@[simp] theorem sendFaultEffects_line (s : State) : (sendFaultEffects s).line = scoreFault s.clock s.line := rfl

/-! #### enterSafe -/

@[simp] theorem enterSafe_pending (c : ConfigFault) (s : State) : (enterSafe c s).pending = s.pending := rfl
@[simp] theorem enterSafe_clock (c : ConfigFault) (s : State) : (enterSafe c s).clock = s.clock := rfl
@[simp] theorem enterSafe_line (c : ConfigFault) (s : State) : (enterSafe c s).line = s.line := rfl
@[simp] theorem enterSafe_arrivals (c : ConfigFault) (s : State) : (enterSafe c s).arrivals = s.arrivals := rfl

/-! #### The axis records -/

@[simp] theorem axisOf_setAxisRaw (a b : Axis) (r : AxisRec) (p : Plant) : axisOf (setAxisRaw a r p) b = if b = a then r else axisOf p b := by
  cases a <;> cases b <;> rfl

theorem axisOf_congr {p q : Plant} (h : p.axd.axes = q.axd.axes) (a : Axis) : axisOf p a = axisOf q a := by
  cases a <;> simp [axisOf, h]

@[simp] theorem axisOf_post (e : Env) (k : PostKey) (x : List Byte) (p : Plant) (a : Axis) : axisOf (post e k x p) a = axisOf p a := by
  cases a <;> rfl

@[simp] theorem axisOf_leaveGrants (a b : Axis) (p : Plant) : axisOf (leaveGrants a p) b = axisOf p b := by cases b <;> rfl

@[simp] theorem axisOf_leaveWaiting (a b : Axis) (p : Plant) : axisOf (leaveWaiting a p) b = axisOf p b := by cases b <;> rfl

@[simp] theorem axisOf_listWaiting (a b : Axis) (p : Plant) : axisOf (listWaiting a p) b = axisOf p b := by cases b <;> rfl

@[simp] theorem waiting_listWaiting (a : Axis) (p : Plant) : (listWaiting a p).axd.waiting = insertNew p.axd.waiting a := rfl

@[simp] theorem grants_setAxisRaw (a : Axis) (r : AxisRec) (p : Plant) : (setAxisRaw a r p).axd.grants = p.axd.grants := rfl

@[simp] theorem waiting_setAxisRaw (a : Axis) (r : AxisRec) (p : Plant) : (setAxisRaw a r p).axd.waiting = p.axd.waiting := rfl

@[simp] theorem lastGranted_setAxisRaw (a : Axis) (r : AxisRec) (p : Plant) : (setAxisRaw a r p).axd.lastGranted = p.axd.lastGranted := rfl

/-! #### postStatusIf and putAxis -/

@[simp] theorem postStatusIf_pvw (c : Bool) (e : Env) (p : Plant) : (postStatusIf c e p).pvw = p.pvw := by
  cases c <;> rfl
@[simp] theorem postStatusIf_aut (c : Bool) (e : Env) (p : Plant) : (postStatusIf c e p).aut = p.aut := by
  cases c <;> rfl
@[simp] theorem postStatusIf_smp (c : Bool) (e : Env) (p : Plant) : (postStatusIf c e p).smp = p.smp := by
  cases c <;> rfl
@[simp] theorem postStatusIf_watches (c : Bool) (e : Env) (p : Plant) : (postStatusIf c e p).watches = p.watches := by
  cases c <;> rfl
@[simp] theorem postStatusIf_axd (c : Bool) (e : Env) (p : Plant) : (postStatusIf c e p).axd = p.axd := by
  cases c <;> rfl
@[simp] theorem postStatusIf_flt (c : Bool) (e : Env) (p : Plant) : (postStatusIf c e p).flt = p.flt := by
  cases c <;> rfl
@[simp] theorem postStatusIf_msq (c : Bool) (e : Env) (p : Plant) : (postStatusIf c e p).msq = p.msq := by
  cases c <;> rfl
@[simp] theorem postStatusIf_pnt (c : Bool) (e : Env) (p : Plant) : (postStatusIf c e p).pnt = p.pnt := by
  cases c <;> rfl
@[simp] theorem postStatusIf_pat (c : Bool) (e : Env) (p : Plant) : (postStatusIf c e p).pat = p.pat := by
  cases c <;> rfl
@[simp] theorem postStatusIf_run (c : Bool) (e : Env) (p : Plant) : (postStatusIf c e p).run = p.run := by
  cases c <;> rfl
@[simp] theorem postStatusIf_monitor (c : Bool) (e : Env) (p : Plant) : (postStatusIf c e p).monitor = p.monitor := by
  cases c <;> rfl

@[simp] theorem axisOf_postStatusIf (c : Bool) (e : Env) (p : Plant) (a : Axis) : axisOf (postStatusIf c e p) a = axisOf p a := by
  cases c <;> cases a <;> rfl

@[simp] theorem putAxis_pvw (e : Env) (a : Axis) (r : AxisRec) (p : Plant) : (putAxis e a r p).pvw = p.pvw := by
  unfold putAxis; dsimp only; rw [postStatusIf_pvw]; split <;> rfl
@[simp] theorem putAxis_aut (e : Env) (a : Axis) (r : AxisRec) (p : Plant) : (putAxis e a r p).aut = p.aut := by
  unfold putAxis; dsimp only; rw [postStatusIf_aut]; split <;> rfl
@[simp] theorem putAxis_smp (e : Env) (a : Axis) (r : AxisRec) (p : Plant) : (putAxis e a r p).smp = p.smp := by
  unfold putAxis; dsimp only; rw [postStatusIf_smp]; split <;> rfl
@[simp] theorem putAxis_watches (e : Env) (a : Axis) (r : AxisRec) (p : Plant) : (putAxis e a r p).watches = p.watches := by
  unfold putAxis; dsimp only; rw [postStatusIf_watches]; split <;> rfl
@[simp] theorem putAxis_flt (e : Env) (a : Axis) (r : AxisRec) (p : Plant) : (putAxis e a r p).flt = p.flt := by
  unfold putAxis; dsimp only; rw [postStatusIf_flt]; split <;> rfl
@[simp] theorem putAxis_msq (e : Env) (a : Axis) (r : AxisRec) (p : Plant) : (putAxis e a r p).msq = p.msq := by
  unfold putAxis; dsimp only; rw [postStatusIf_msq]; split <;> rfl
@[simp] theorem putAxis_pnt (e : Env) (a : Axis) (r : AxisRec) (p : Plant) : (putAxis e a r p).pnt = p.pnt := by
  unfold putAxis; dsimp only; rw [postStatusIf_pnt]; split <;> rfl
@[simp] theorem putAxis_pat (e : Env) (a : Axis) (r : AxisRec) (p : Plant) : (putAxis e a r p).pat = p.pat := by
  unfold putAxis; dsimp only; rw [postStatusIf_pat]; split <;> rfl
@[simp] theorem putAxis_run (e : Env) (a : Axis) (r : AxisRec) (p : Plant) : (putAxis e a r p).run = p.run := by
  unfold putAxis; dsimp only; rw [postStatusIf_run]; split <;> rfl
@[simp] theorem putAxis_monitor (e : Env) (a : Axis) (r : AxisRec) (p : Plant) : (putAxis e a r p).monitor = p.monitor := by
  unfold putAxis; dsimp only; rw [postStatusIf_monitor]; split <;> rfl

@[simp] theorem putAxis_axd (e : Env) (a : Axis) (r : AxisRec) (p : Plant) :
    (putAxis e a r p).axd = (setAxisRaw a (settleRecord e (axisOf p a) r) p).axd := by
  unfold putAxis; dsimp only; rw [postStatusIf_axd]; split <;> rfl

@[simp] theorem axisOf_putAxis (e : Env) (a b : Axis) (r : AxisRec) (p : Plant) :
    axisOf (putAxis e a r p) b = if b = a then settleRecord e (axisOf p a) r else axisOf p b := by
  rw [axisOf_congr (congrArg Drives.axes (putAxis_axd e a r p)), axisOf_setAxisRaw]

@[simp] theorem settleRecord_state (e : Env) (x r : AxisRec) : (settleRecord e x r).state = r.state := by
  unfold settleRecord; dsimp only; split <;> rfl

end Sys2Proof.Machine
end

