-- ==== Sys2Proof/Laws/Commands.lean ====
section
/-! SUPPORT. What the takings share, said once: the head entry, the taking of a command and of a role notice, the verdict of
the common checks (R16, R29, R56). -/

namespace Sys2Proof.Machine

theorem headOf_eq_some {k : ArrivalKind} {s : State} {x : ArrivalEntry} : headOf k s = some x ↔ ∃ rest, s.arrivals = x :: rest ∧ x.kind = k := by
  unfold headOf
  cases s.arrivals with
  | nil => simp
  | cons y l =>
    dsimp only
    split
    · simp only [Option.some.injEq, List.cons.injEq, exists_and_left, exists_eq', and_true]
      constructor
      · rintro rfl; exact ⟨_, ⟨rfl, rfl⟩, ‹_›⟩
      · rintro ⟨_, ⟨rfl, _⟩, _⟩; rfl
    · simp only [reduceCtorEq, List.cons.injEq, false_iff]
      rintro ⟨_, ⟨rfl, _⟩, h⟩
      exact ‹¬ _› h

theorem headCommand_eq_some {c : Option CommandCode} {s : State} {x : ArrivalEntry} :
    headCommand c s = some x ↔ headOf .command s = some x ∧ commandCode x.payload = c := by
  unfold headCommand
  cases headOf .command s with
  | none => simp
  | some y =>
    dsimp only
    split
    · simp only [Option.some.injEq]
      constructor
      · rintro rfl; exact ⟨rfl, ‹_›⟩
      · exact fun h => h.1
    · simp only [reduceCtorEq, Option.some.injEq, false_iff, not_and]
      rintro rfl
      assumption

/-- A command at the head is judged, answered and taken. -/
theorem takeCommand_head {c : CommandCode} {s : State} {x : ArrivalEntry} (owner : Env → ArrivalEntry → Plant → Plant × Verdict)
    (h : headCommand (some c) s = some x) : takeCommand c owner s = applyHead (commandDone (envOf s) c owner x s.plant) s := by
  simp [takeCommand, h]

theorem takeCommand_other {c : CommandCode} {s : State} (owner : Env → ArrivalEntry → Plant → Plant × Verdict)
    (h : headCommand (some c) s = none) : takeCommand c owner s = s := by
  simp [takeCommand, h]

theorem takeRole_head {r : Role} {s : State} {x : ArrivalEntry} (act : Env → ArrivalEntry → Plant → Plant) (h : headOf (.role r) s = some x) :
    takeRole r act s = applyHead (act (envOf s) x s.plant) s := by
  simp [takeRole, h]

theorem takeRole_other {r : Role} {s : State} (act : Env → ArrivalEntry → Plant → Plant) (h : headOf (.role r) s = none) : takeRole r act s = s := by
  simp [takeRole, h]

/-- A command refused by the common checks changes nothing of the plant but the REPLY. -/
theorem judge_refused {e : Env} {c : CommandCode} {x : ArrivalEntry} {p : Plant} {v : Verdict} (owner : Env → ArrivalEntry → Plant → Plant × Verdict)
    (h : commonChecks e c x.source p = some v) : judge e c owner x p = (p, v) := by
  simp [judge, h]

theorem judge_owner {e : Env} {c : CommandCode} {x : ArrivalEntry} {p : Plant} (owner : Env → ArrivalEntry → Plant → Plant × Verdict)
    (h : commonChecks e c x.source p = none) : judge e c owner x p = owner e x p := by
  simp [judge, h]

/-- Outside SAFE a command that is no motion command and no RESUME passes the common checks. -/
theorem commonChecks_free {e : Env} {c : CommandCode} (source : Nat) (p : Plant) (safe : isSafe e = false) (h : c.isMotion = false) (nr : c ≠ .resume) :
    commonChecks e c source p = none := by
  simp [commonChecks, safe, h, nr]

/-- A motion command outside SAFE passes with the latch CLEAR, no duplicate held, and the part idle or the source the holder. -/
theorem commonChecks_motion {e : Env} {c : CommandCode} {source : Nat} {p : Plant} (safe : isSafe e = false) (h : c.isMotion = true)
    (latch : p.aut.latch = none) (dup : p.aut.duplicate = none) (idle : busy p = false ∨ p.aut.holder = some source ∨ p.aut.holder = none) :
    commonChecks e c source p = none := by
  simp only [commonChecks, safe, h, checkLatch, latch, checkDuplicate, dup, checkHolder, Option.map_none, Option.none_or, if_true, Bool.false_eq_true, if_false]
  rcases idle with b | b | b
  · cases p.aut.holder <;> simp [b]
  · simp [b]
  · simp [b]

end Sys2Proof.Machine
end

