-- ==== Sys2Proof/Laws/Evolves.lean ====
section
/-! SUPPORT. What a shared operation of the plant can do, said once: `Evolves e p q` holds when q comes from p by posts, by
the few ways in which a drive record may be written, by entries of faults, and by writes of the blocks that keep no
invariant of the drives. One lemma per operation; an invariant is then proved once per constructor. -/

namespace Sys2Proof.Machine

/-- The drive outputs, the state and the move of two records agree; the target may be set to a clamped position or taken away. -/
structure SameDrive (e : Env) (a : Axis) (r r' : AxisRec) : Prop where
  state : r'.state = r.state
  v : r'.v = r.v
  brake : r'.brakeSet = r.brakeSet
  code : r'.code = r.code
  dir : r'.dirDriven = r.dirDriven
  target : r'.target = r.target ∨ r'.target = none ∨ ∃ x, r'.target = some (clampSoft e a x)

/-- A fault set before and after: one new record in a set not full, an overflow, or records cleared. -/
inductive FaultStep (f : FaultSet) : FaultSet → Prop where
  | stored (x : FaultRecord) (room : f.records.length < 8) (fresh : x ∉ f.records) : FaultStep f { f with records := f.records ++ [x] }
  | overflowed (axes : List FaultAxis) : FaultStep f { f with overflow := true, overflowAxes := axes }
  | cleared (keep : FaultRecord → Bool) : FaultStep f { records := f.records.filter keep, overflow := false, overflowAxes := [] }

/-- An axis that holds no drive. -/
def restState (st : AxisState) : Prop := st = .idle ∨ st = .fault

/-- What operations of the plant can do. -/
inductive Evolves (e : Env) (p : Plant) : Plant → Prop where
  | refl : Evolves e p p
  | posted {q : Plant} (h : Evolves e p q) (k : PostKey) (payload : List Byte) : Evolves e p (post e k payload q)
  | inner {q : Plant} (h : Evolves e p q) (smp : Sampler) (watches : List WatchState) (msq : Mast) (pnt : Pointing) (pat : Option Pattern) (run : Run) (monitor : Monitor) :
      Evolves e p { q with smp := smp, watches := watches, msq := msq, pnt := pnt, pat := pat, run := run, monitor := monitor }
  | faults {q : Plant} (h : Evolves e p q) (f : FaultSet) (step : FaultStep q.flt f) : Evolves e p { q with flt := f }
  | written {q : Plant} (h : Evolves e p q) (a : Axis) (r : AxisRec) (same : SameDrive e a (axisOf q a) r) : Evolves e p (setAxisRaw a r q)
  | rested {q : Plant} (h : Evolves e p q) (a : Axis) (r : AxisRec) (before : restState (axisOf q a).state) (after : restState r.state)
      (same : SameDrive e a { axisOf q a with state := r.state } r) : Evolves e p (putAxis e a r q)
  | abandoned {q : Plant} (h : Evolves e p q) (a : Axis) (next : AxisState) (before : (axisOf q a).state = .waiting) (after : restState next) :
      Evolves e p (abandonWaiting e a next q)
  | stopped {q : Plant} (h : Evolves e p q) (a : Axis) (before : (axisOf q a).state = .moving ∨ (axisOf q a).state = .settling) :
      Evolves e p (toStopping e a q)
  | joined {q : Plant} (h : Evolves e p q) (a : Axis) (r : AxisRec) (clear : q.aut.latch = none) (before : restState (axisOf q a).state)
      (same : SameDrive e a { axisOf q a with state := r.state } r) : Evolves e p (joinWaiting e a r q)
  | replaced {q : Plant} (h : Evolves e p q) (m : MoveRequest) (x : Int) (clear : q.aut.latch = none)
      (before : (axisOf q m.axis).state = .waiting ∨ (axisOf q m.axis).state = .moving ∨ (axisOf q m.axis).state = .settling) :
      Evolves e p (replaceMove e m (clampSoft e m.axis x) q)
  | granted {q : Plant} (h : Evolves e p q) : Evolves e p (tryGrant e q)
  | stepped {q : Plant} (h : Evolves e p q) (a : Axis) : Evolves e p (driveStep e a q)
  | completed {q : Plant} (h : Evolves e p q) (a : Axis) (before : (axisOf q a).state = .settling) : Evolves e p (endSettled e a q)

theorem Evolves.trans {e : Env} {p q r : Plant} (h : Evolves e p q) (g : Evolves e q r) : Evolves e p r := by
  induction g with
  | refl => exact h
  | posted _ k x ih => exact ih.posted k x
  | inner _ a b c d f g k ih => exact ih.inner a b c d f g k
  | faults _ f s ih => exact ih.faults f s
  | written _ a r s ih => exact ih.written a r s
  | rested _ a r b c s ih => exact ih.rested a r b c s
  | abandoned _ a n b c ih => exact ih.abandoned a n b c
  | stopped _ a b ih => exact ih.stopped a b
  | joined _ a r c b s ih => exact ih.joined a r c b s
  | replaced _ m x c b ih => exact ih.replaced m x c b
  | granted _ ih => exact ih.granted
  | stepped _ a ih => exact ih.stepped a
  | completed _ a b ih => exact ih.completed a b

/-- The plant of an answer. -/
theorem fst_evolves {e : Env} {p r : Plant} {α : Type} {z : Plant × α} {x : α} (h : z = (r, x)) (g : Evolves e p z.1) : Evolves e p r := by
  rw [h] at g
  exact g

section
variable {e : Env} {p q : Plant}

/-! ### Posts and drives -/

theorem postAxisReport_evolves (h : Evolves e p q) (a : Axis) : Evolves e p (postAxisReport e a q) := h.posted _ _

theorem postStatus_evolves (h : Evolves e p q) : Evolves e p (postStatus e q) := h.posted _ _

theorem postStatusIf_evolves (h : Evolves e p q) (c : Bool) : Evolves e p (postStatusIf c e q) := by
  cases c
  · exact h
  · exact h.posted _ _

theorem postPointing_evolves (h : Evolves e p q) : Evolves e p (postPointing e q) := h.posted _ _

theorem postDwell_evolves (h : Evolves e p q) (k : PointKind) (x y z : Int) : Evolves e p (postDwell e k x y z q) := h.posted _ _

theorem postDwellHere_evolves (h : Evolves e p q) (k : PointKind) (z : Int) : Evolves e p (postDwellHere e k z q) := h.posted _ _

theorem postHalt_evolves (h : Evolves e p q) (c : HaltCause) (f : FaultAxis) (m : MastState) : Evolves e p (postHalt e c f m q) := h.posted _ _

theorem postReply_evolves (h : Evolves e p q) (b : Byte) (o : ReplyOutcome) (r : Reason) (v : Int) : Evolves e p (postReply e b o r v q) :=
  h.posted _ _

theorem endMove_evolves (h : Evolves e p q) (a : Axis) : Evolves e p (endMove e a q) := by
  unfold endMove
  split
  · exact h.abandoned a _ ‹_› (Or.inl rfl)
  · exact h.stopped a (Or.inl ‹_›)
  · exact h.stopped a (Or.inr ‹_›)
  all_goals exact h

/-- A fold of operations each of which evolves. -/
theorem foldl_evolves {α : Type} (f : Plant → α → Plant) (step : ∀ r x, Evolves e p r → Evolves e p (f r x)) (l : List α) (h : Evolves e p q) :
    Evolves e p (l.foldl f q) := by
  induction l generalizing q with
  | nil => exact h
  | cons x l ih => exact ih (step _ x h)

/-- The grants handed out at the end of an event. -/
theorem handGrants_evolves (h : Evolves e p q) (n : Nat) : Evolves e p (handGrants e n q) := by
  induction n generalizing q with
  | zero => exact h
  | succ n ih => exact ih h.granted

theorem afterLeaving_evolves (h : Evolves e p q) (r : Plant) : Evolves e p (afterLeaving e r q) := handGrants_evolves h _

theorem endMoves_evolves (h : Evolves e p q) (picks : AxisRec → Bool) (l : List Axis) : Evolves e p (endMoves e picks l q) := by
  refine afterLeaving_evolves (foldl_evolves _ (fun r a g => ?_) l h) _
  split
  · exact endMove_evolves g a
  · exact g

theorem cancelMoves_evolves (h : Evolves e p q) (r : Requester) (l : List Axis) : Evolves e p (cancelMoves e r l q) := endMoves_evolves h _ l

theorem cancelMove_evolves (h : Evolves e p q) (r : Requester) (a : Axis) : Evolves e p (cancelMove e r a q) := cancelMoves_evolves h r [a]

theorem latchAxes_evolves (h : Evolves e p q) : Evolves e p (latchAxes e q) := endMoves_evolves h _ allAxes

theorem completeMove_evolves (h : Evolves e p q) (a : Axis) (before : (axisOf q a).state = .settling) : Evolves e p (completeMove e a q) :=
  afterLeaving_evolves (h.completed a before) _

theorem noteRequester_evolves (h : Evolves e p q) (r : Requester) (a : Axis) : Evolves e p (noteRequester r a q) :=
  h.written a _ ⟨rfl, rfl, rfl, rfl, rfl, Or.inl rfl⟩

theorem requestFromClamp_evolves (h : Evolves e p q) (m : MoveRequest) (clear : q.aut.latch = none) : Evolves e p (requestFromClamp e m q).1 := by
  have same (st : AxisState) : SameDrive e m.axis { axisOf q m.axis with state := st }
      { withRequest m (clampSoft e m.axis m.target) (axisOf q m.axis) with state := st } := ⟨rfl, rfl, rfl, rfl, rfl, Or.inr (Or.inr ⟨_, rfl⟩)⟩
  unfold requestFromClamp
  dsimp only
  split
  · exact h
  · split
    · exact h.joined _ _ clear (Or.inl ‹_›) (by simpa using same (withRequest m (clampSoft e m.axis m.target) (axisOf q m.axis)).state)
    · exact h.joined _ _ clear (Or.inr ‹_›) (by simpa using same (withRequest m (clampSoft e m.axis m.target) (axisOf q m.axis)).state)
    · split
      · exact h.replaced m m.target clear (Or.inl ‹_›)
      · exact noteRequester_evolves h _ _
    · split
      · exact h.replaced m m.target clear (Or.inr (Or.inl ‹_›))
      · exact noteRequester_evolves h _ _
    · split
      · exact h.replaced m m.target clear (Or.inr (Or.inr ‹_›))
      · exact noteRequester_evolves h _ _
    · exact noteRequester_evolves h _ _

theorem moveRequest_evolves (h : Evolves e p q) (m : MoveRequest) : Evolves e p (moveRequest e m q).1 := by
  unfold moveRequest
  dsimp only
  split
  · exact h
  · split
    · exact noteRequester_evolves h _ _
    · split
      · exact h
      · split
        · exact h
        · exact requestFromClamp_evolves h m (by simpa using ‹¬ q.aut.latch.isSome = true›)

theorem driftCheck_evolves (h : Evolves e p q) (a : Axis) : Evolves e p (driftCheck e a q) := by
  unfold driftCheck
  dsimp only
  split
  · rename_i hs _ _
    split
    · split
      · rename_i allowed
        refine h.joined a _ ?_ (Or.inl hs) ⟨rfl, rfl, rfl, rfl, rfl, Or.inl rfl⟩
        simp only [correctionAllowed, Bool.and_eq_true] at allowed
        simpa using allowed.1.1
      · exact h.rested a _ (Or.inl hs) (Or.inl hs) ⟨rfl, rfl, rfl, rfl, rfl, Or.inl rfl⟩
    · exact h.rested a _ (Or.inl hs) (Or.inl hs) ⟨rfl, rfl, rfl, rfl, rfl, Or.inl rfl⟩
  · exact h

theorem stallCount_evolves (h : Evolves e p q) (a : Axis) : Evolves e p (stallCount e a q) := by
  unfold stallCount
  dsimp only
  split
  · split
    · split <;> exact h.written a _ ⟨rfl, rfl, rfl, rfl, rfl, Or.inl rfl⟩
    · split <;> exact h.written a _ ⟨rfl, rfl, rfl, rfl, rfl, Or.inl rfl⟩
  · exact h

end

end Sys2Proof.Machine
end

