-- ==== Sys2Proof/Laws/EvolvesPointing.lean ====
section
/-! SUPPORT. `Evolves` for the operations of SMP and PNT: one lemma per operation. -/

namespace Sys2Proof.Machine

section
variable {e : Env} {p q : Plant}

theorem requestDwell_evolves (h : Evolves e p q) (q0 : Requester) : Evolves e p (requestDwell e q0 q) := by
  unfold requestDwell
  try dsimp only
  repeat' split
  all_goals iterate 12 (try with_reducible first | exact h | apply Evolves.inner)

theorem cancelDwell_evolves (h : Evolves e p q) (q0 : Requester) : Evolves e p (cancelDwell q0 q) := by
  unfold cancelDwell
  try dsimp only
  repeat' split
  all_goals iterate 12 (try with_reducible first | exact h | apply Evolves.inner)

theorem setHanding_evolves (h : Evolves e p q) (on : Bool) : Evolves e p (setHanding on q) := by
  unfold setHanding
  try dsimp only
  all_goals iterate 12 (try with_reducible first | exact h | apply Evolves.inner)

theorem setPointing_evolves (h : Evolves e p q) (st : PointState) : Evolves e p (setPointing e st q) := by
  unfold setPointing
  refine postStatusIf_evolves ?_ _
  dsimp only
  split
  · exact h.inner _ _ _ _ _ _ _
  · exact postPointing_evolves (h.inner _ _ _ _ _ _ _)

theorem withRecord_evolves (h : Evolves e p q) (f : PointingRecord → PointingRecord) : Evolves e p (withRecord f q) := by
  unfold withRecord
  try dsimp only
  all_goals iterate 12 (try with_reducible first | exact h | apply Evolves.inner)

theorem monitorOff_evolves (h : Evolves e p q) : Evolves e p (monitorOff q) := by
  unfold monitorOff
  try dsimp only
  all_goals iterate 12 (try with_reducible first | exact h | apply Evolves.inner)

theorem trackStart_evolves (h : Evolves e p q) : Evolves e p (trackStart e q) := by
  unfold trackStart
  try dsimp only
  repeat' split
  all_goals iterate 12 (try with_reducible first | exact h | apply Evolves.inner)

theorem enterTracking_evolves (h : Evolves e p q) : Evolves e p (enterTracking e q) := by
  unfold enterTracking
  try dsimp only
  repeat' split
  all_goals iterate 12 (try with_reducible first | exact h | apply setPointing_evolves | apply monitorOff_evolves | apply trackStart_evolves)

theorem slewFails_evolves (h : Evolves e p q) : Evolves e p (slewFails e q) := by
  unfold slewFails
  try dsimp only
  all_goals iterate 12 (try with_reducible first | exact h | apply cancelMoves_evolves | apply setPointing_evolves | apply Evolves.inner)

theorem slewRequests_evolves (l : List Axis) : ∀ {q : Plant}, Evolves e p q → Evolves e p (slewRequests e l q) := by
  induction l with
  | nil => exact fun h => h
  | cons a rest ih =>
    intro q h
    unfold slewRequests
    dsimp only
    split
    · exact slewFails_evolves (moveRequest_evolves h _)
    · exact ih (moveRequest_evolves h _)

theorem startSlew_evolves (h : Evolves e p q) : Evolves e p (startSlew e q) := by
  unfold startSlew
  try dsimp only
  all_goals iterate 12 (try with_reducible first | exact h | apply slewRequests_evolves | apply Evolves.inner)

theorem enterSlewing_evolves (h : Evolves e p q) : Evolves e p (enterSlewing e q) := by
  unfold enterSlewing
  try dsimp only
  repeat' split
  all_goals iterate 12 (try with_reducible first | exact h | apply cancelMoves_evolves | apply setPointing_evolves | apply startSlew_evolves)

theorem enterReturn_evolves (h : Evolves e p q) : Evolves e p (enterReturn e q) := by
  unfold enterReturn
  try dsimp only
  all_goals iterate 12 (try with_reducible first | exact h | apply setPointing_evolves | apply startSlew_evolves)

theorem slewCompleted_evolves (h : Evolves e p q) (a : Axis) : Evolves e p (slewCompleted e a q) := by
  unfold slewCompleted
  try dsimp only
  repeat' split
  all_goals iterate 12 (try with_reducible first | exact h | apply setPointing_evolves | apply withRecord_evolves | apply monitorOff_evolves | apply Evolves.inner)

theorem slewAxisFree_evolves (h : Evolves e p q) (a : Axis) : Evolves e p (slewAxisFree e a q) := by
  unfold slewAxisFree
  try dsimp only
  repeat' split
  all_goals iterate 12 (try with_reducible first | exact h | apply slewRequests_evolves | apply Evolves.inner)

theorem writeRunEnd_evolves (h : Evolves e p q) (quality : Quality) (centre : HeadPoint) (level : Int) : Evolves e p (writeRunEnd quality centre level q) := by
  unfold writeRunEnd
  try dsimp only
  all_goals iterate 12 (try with_reducible first | exact h | apply withRecord_evolves | apply Evolves.inner)

theorem takeRunEnd_evolves (h : Evolves e p q) (quality : Quality) (centre : HeadPoint) (level : Int) : Evolves e p (takeRunEnd e quality centre level q) := by
  unfold takeRunEnd
  try dsimp only
  repeat' split
  all_goals iterate 12 (try with_reducible first | exact h | apply enterTracking_evolves | apply writeRunEnd_evolves | apply setPointing_evolves | apply monitorOff_evolves | apply Evolves.inner)

end

end Sys2Proof.Machine
end

