-- ==== Sys2Proof/Laws/EvolvesSearch.lean ====
section
/-! SUPPORT. `Evolves` for the operations of PKE, PAT and PNT over them: one lemma per operation. -/

namespace Sys2Proof.Machine

section
variable {e : Env} {p q : Plant}

theorem requestPointAxis_evolves {x : Plant × PointMoves} (h : Evolves e p x.1) (q0 : Requester) (a : Axis) (target : Int) :
    Evolves e p (requestPointAxis e q0 a target x).1 := by
  unfold requestPointAxis
  dsimp only
  split
  · exact h
  · have g := moveRequest_evolves h (pointMove q0 a target none)
    split <;> exact g

theorem requestPoint_evolves (h : Evolves e p q) (q0 : Requester) (target : HeadPoint) : Evolves e p (requestPoint e q0 target q).1 :=
  requestPointAxis_evolves (requestPointAxis_evolves h q0 .pan target.pan) q0 .tilt target.tilt

theorem updateRun_evolves (h : Evolves e p q) (f : Run → Run) : Evolves e p (updateRun f q) := by
  unfold updateRun
  try dsimp only
  all_goals iterate 12 (try with_reducible first | exact h | apply Evolves.inner)

theorem runStage_evolves (h : Evolves e p q) (st : RunStage) : Evolves e p (runStage st q) := by
  unfold runStage
  try dsimp only
  all_goals iterate 12 (try with_reducible first | exact h | apply updateRun_evolves | apply Evolves.inner)

theorem openRunMeasurement_evolves (h : Evolves e p q) : Evolves e p (openRunMeasurement e q) := by
  unfold openRunMeasurement
  try dsimp only
  all_goals iterate 12 (try with_reducible first | exact h | apply updateRun_evolves | apply Evolves.inner)

theorem runMoves_evolves (h : Evolves e p q) (st : RunStage) : Evolves e p (runMoves e st q) := by
  unfold runMoves
  dsimp only
  exact updateRun_evolves (requestPoint_evolves h _ _) _

theorem countRound_evolves (h : Evolves e p q) : Evolves e p (countRound q) := by
  unfold countRound
  try dsimp only
  all_goals iterate 12 (try with_reducible first | exact h | apply withRecord_evolves | apply Evolves.inner)

theorem runJobs_evolves (fuel : Nat) : ∀ (job : RunJob) {q : Plant}, Evolves e p q → Evolves e p (runJobs e fuel job q) := by
  induction fuel with
  | zero => exact fun _ _ h => h
  | succ n ih =>
    intro job q h
    unfold runJobs
    dsimp only
    repeat' split
    all_goals iterate 12 (try with_reducible first | exact h | apply ih | apply takeRunEnd_evolves | apply updateRun_evolves | apply postDwell_evolves | apply openRunMeasurement_evolves | apply runMoves_evolves | apply runStage_evolves | apply countRound_evolves)

theorem discardRun_evolves (h : Evolves e p q) : Evolves e p (discardRun e q) := by
  unfold discardRun
  try dsimp only
  all_goals iterate 12 (try with_reducible first | exact h | apply cancelMoves_evolves | apply cancelDwell_evolves | apply monitorOff_evolves | apply Evolves.inner)

theorem startRun_evolves (h : Evolves e p q) (centre : HeadPoint) (delta : Nat) : Evolves e p (startRun e centre delta q) := by
  unfold startRun
  try dsimp only
  all_goals iterate 12 (try with_reducible first | exact h | apply discardRun_evolves | apply withRecord_evolves | apply runJobs_evolves | apply Evolves.inner)

theorem suspendRun_evolves (h : Evolves e p q) : Evolves e p (suspendRun e q) := by
  unfold suspendRun
  try dsimp only
  repeat' split
  all_goals iterate 12 (try with_reducible first | exact h | apply cancelMoves_evolves | apply cancelDwell_evolves | apply updateRun_evolves | apply Evolves.inner)

theorem resumeRun_evolves (h : Evolves e p q) : Evolves e p (resumeRun e q) := by
  unfold resumeRun
  try dsimp only
  repeat' split
  all_goals iterate 12 (try with_reducible first | exact h | apply updateRun_evolves | apply Evolves.inner)

theorem runCompleted_evolves (h : Evolves e p q) (a : Axis) : Evolves e p (runCompleted e a q) := by
  unfold runCompleted
  try dsimp only
  repeat' split
  all_goals iterate 12 (try with_reducible first | exact h | apply updateRun_evolves | apply runJobs_evolves | apply Evolves.inner)

theorem retryAxis_evolves (h : Evolves e p q) (q0 : Requester) (a : Axis) (target : HeadPoint) (m : PointMoves) :
    Evolves e p (retryAxis e q0 a target m q).1 := requestPointAxis_evolves (x := (q, m)) h q0 a _

theorem runAxisFree_evolves (h : Evolves e p q) (a : Axis) : Evolves e p (runAxisFree e a q) := by
  unfold runAxisFree
  try dsimp only
  repeat' split
  all_goals iterate 12 (try with_reducible first | exact h | apply updateRun_evolves | apply retryAxis_evolves | apply runJobs_evolves | apply Evolves.inner)

theorem closingLevel_evolves (h : Evolves e p q) (l : Int) : Evolves e p (closingLevel e l q) := by
  unfold closingLevel
  try dsimp only
  all_goals iterate 12 (try with_reducible first | exact h | apply postDwellHere_evolves | apply takeRunEnd_evolves | apply updateRun_evolves | apply Evolves.inner)

theorem crossLevel_evolves (h : Evolves e p q) (l : Int) : Evolves e p (crossLevel e l q) := by
  unfold crossLevel
  try dsimp only
  all_goals iterate 12 (try with_reducible first | exact h | apply postDwellHere_evolves | apply runJobs_evolves)

theorem runMean_evolves (h : Evolves e p q) (l : Int) : Evolves e p (runMean e l q) := by
  unfold runMean
  try dsimp only
  repeat' split
  all_goals iterate 12 (try with_reducible first | exact h | apply closingLevel_evolves | apply crossLevel_evolves | apply Evolves.inner)

theorem runMeasured_evolves (h : Evolves e p q) : Evolves e p (runMeasured e q) := by
  unfold runMeasured
  try dsimp only
  repeat' split
  all_goals iterate 12 (try with_reducible first | exact h | apply runMean_evolves | apply Evolves.inner)

theorem runReport_evolves (h : Evolves e p q) (r : LevelReport) : Evolves e p (runReport e r q) := by
  have key := runMeasured_evolves (updateRun_evolves h fun x => { x with measurement := judgeReport e r x.measurement })
  generalize hs : q.run.status = st
  rcases st with _ | _ | st | st | ⟨st, _⟩
  case running => cases st <;> (simp only [runReport, hs]; first | exact key | exact h)
  all_goals simp only [runReport, hs]; exact h

theorem runMeasure_evolves (h : Evolves e p q) (st : RunStage) : Evolves e p (runMeasure e st q) := by
  unfold runMeasure
  try dsimp only
  repeat' split
  all_goals iterate 12 (try with_reducible first | exact h | apply requestDwell_evolves | apply runMeasured_evolves | apply runStage_evolves)

theorem trackSample_evolves (h : Evolves e p q) (sample : Int) : Evolves e p (trackSample e sample q) := by
  unfold trackSample
  try dsimp only
  repeat' split
  all_goals iterate 12 (try with_reducible first | exact h | apply postDwellHere_evolves | apply enterTracking_evolves | apply withRecord_evolves | apply Evolves.inner)

theorem trackReport_evolves (h : Evolves e p q) (r : LevelReport) : Evolves e p (trackReport e r q) := by
  unfold trackReport
  try dsimp only
  repeat' split
  all_goals iterate 12 (try with_reducible first | exact h | apply trackSample_evolves | apply Evolves.inner)

theorem enterPeaking_evolves (h : Evolves e p q) (centre : HeadPoint) (delta : Nat) : Evolves e p (enterPeaking e centre delta q) := by
  unfold enterPeaking
  try dsimp only
  repeat' split
  all_goals iterate 12 (try with_reducible first | exact h | apply setPointing_evolves | apply suspendRun_evolves | apply startRun_evolves)

theorem takeFound_evolves (h : Evolves e p q) (found : HeadPoint) : Evolves e p (takeFound e found q) := by
  unfold takeFound
  try dsimp only
  repeat' split
  all_goals iterate 12 (try with_reducible first | exact h | apply enterPeaking_evolves | apply Evolves.inner)

theorem takeExhausted_evolves (h : Evolves e p q) : Evolves e p (takeExhausted e q) := by
  unfold takeExhausted
  try dsimp only
  repeat' split
  all_goals iterate 12 (try with_reducible first | exact h | apply enterReturn_evolves | apply Evolves.inner)

theorem takeRowEnd_evolves (h : Evolves e p q) (row : Nat) (pass : Nat) : Evolves e p (takeRowEnd e row pass q) := by
  unfold takeRowEnd
  try dsimp only
  all_goals iterate 12 (try with_reducible first | exact h | apply postPointing_evolves | apply withRecord_evolves | apply Evolves.inner)

theorem updatePattern_evolves (h : Evolves e p q) (f : Pattern → Pattern) : Evolves e p (updatePattern f q) := by
  unfold updatePattern
  try dsimp only
  all_goals iterate 12 (try with_reducible first | exact h | apply Evolves.inner)

theorem patternStage_evolves (h : Evolves e p q) (st : PatternStage) : Evolves e p (patternStage st q) := by
  unfold patternStage
  try dsimp only
  all_goals iterate 12 (try with_reducible first | exact h | apply updatePattern_evolves | apply Evolves.inner)

theorem requestSweep_evolves (h : Evolves e p q) (x : Pattern) : Evolves e p (requestSweep e x q).1 := by
  unfold requestSweep
  dsimp only
  have g := moveRequest_evolves h (pointMove .pat .pan (patternTarget x x.points).pan (some (sweepCap e)))
  split <;> iterate 4 (try first | exact g | apply setHanding_evolves | apply updatePattern_evolves)

theorem patternJobs_evolves (fuel : Nat) : ∀ (job : PatternJob) {q : Plant}, Evolves e p q → Evolves e p (patternJobs e fuel job q) := by
  induction fuel with
  | zero => exact fun _ _ h => h
  | succ n ih =>
    intro job q h
    unfold patternJobs
    dsimp only
    repeat' split
    all_goals iterate 12 (try with_reducible first | exact h | apply ih | apply takeExhausted_evolves | apply takeRowEnd_evolves | apply updatePattern_evolves | apply postDwell_evolves | apply setHanding_evolves | refine requestSweep_evolves ?_ _ | refine requestPoint_evolves ?_ _ _ | apply patternStage_evolves)

theorem startPattern_evolves (h : Evolves e p q) (origin : HeadPoint) : Evolves e p (startPattern e origin q) := by
  unfold startPattern
  try dsimp only
  repeat' split
  all_goals iterate 12 (try with_reducible first | exact h | apply patternJobs_evolves | apply postDwell_evolves | apply Evolves.inner)

theorem stopPattern_evolves (h : Evolves e p q) : Evolves e p (stopPattern e q) := by
  unfold stopPattern
  try dsimp only
  all_goals iterate 12 (try with_reducible first | exact h | apply cancelMoves_evolves | apply cancelDwell_evolves | apply setHanding_evolves)

theorem haltPattern_evolves (h : Evolves e p q) (cause : PatternCause) : Evolves e p (haltPattern e cause q) := by
  unfold haltPattern
  try dsimp only
  repeat' split
  all_goals iterate 12 (try with_reducible first | exact h | apply updatePattern_evolves | apply stopPattern_evolves | apply Evolves.inner)

theorem suspendPattern_evolves (h : Evolves e p q) : Evolves e p (suspendPattern e q) := by
  unfold suspendPattern
  try dsimp only
  repeat' split
  all_goals iterate 12 (try with_reducible first | exact h | apply updatePattern_evolves | apply stopPattern_evolves | apply Evolves.inner)

theorem resumePattern_evolves (h : Evolves e p q) : Evolves e p (resumePattern e q) := by
  unfold resumePattern
  try dsimp only
  repeat' split
  all_goals iterate 12 (try with_reducible first | exact h | apply updatePattern_evolves | apply Evolves.inner)

theorem patternFound_evolves (h : Evolves e p q) (point : HeadPoint) (level : Int) : Evolves e p (patternFound e point level q) := by
  unfold patternFound
  try dsimp only
  all_goals iterate 12 (try with_reducible first | exact h | apply updatePattern_evolves | apply takeFound_evolves | apply Evolves.inner)

theorem searchLevel_evolves (h : Evolves e p q) (level : Int) : Evolves e p (searchLevel e level q) := by
  unfold searchLevel
  try dsimp only
  repeat' split
  all_goals iterate 12 (try with_reducible first | exact h | apply postDwellHere_evolves | apply patternFound_evolves | apply patternJobs_evolves | apply Evolves.inner)

theorem patternMean_evolves (h : Evolves e p q) (level : Int) : Evolves e p (patternMean e level q) := by
  unfold patternMean
  try dsimp only
  repeat' split
  all_goals iterate 12 (try with_reducible first | exact h | apply searchLevel_evolves | apply Evolves.inner)

theorem patternMeasured_evolves (h : Evolves e p q) : Evolves e p (patternMeasured e q) := by
  unfold patternMeasured
  try dsimp only
  repeat' split
  all_goals iterate 12 (try with_reducible first | exact h | apply patternMean_evolves | apply Evolves.inner)

theorem patternReport_evolves (h : Evolves e p q) (r : LevelReport) : Evolves e p (patternReport e r q) := by
  unfold patternReport
  try dsimp only
  repeat' split
  all_goals iterate 12 (try with_reducible first | exact h | apply patternMeasured_evolves | apply updatePattern_evolves | apply Evolves.inner)

theorem sweepLevel_evolves (h : Evolves e p q) (level : Int) : Evolves e p (sweepLevel e level q) := by
  unfold sweepLevel
  try dsimp only
  repeat' split
  all_goals iterate 12 (try with_reducible first | exact h | apply patternFound_evolves | apply cancelMove_evolves | apply setHanding_evolves | apply postDwell_evolves | apply Evolves.inner)

theorem patternCompleted_evolves (h : Evolves e p q) (a : Axis) : Evolves e p (patternCompleted e a q) := by
  unfold patternCompleted
  try dsimp only
  repeat' split
  all_goals iterate 12 (try with_reducible first | exact h | apply updatePattern_evolves | apply patternJobs_evolves | apply Evolves.inner)

theorem patternAxisFree_evolves (h : Evolves e p q) (a : Axis) : Evolves e p (patternAxisFree e a q) := by
  unfold patternAxisFree
  try dsimp only
  repeat' split
  all_goals iterate 12 (try with_reducible first | exact h | apply updatePattern_evolves | apply requestSweep_evolves | apply patternJobs_evolves | apply retryAxis_evolves | apply Evolves.inner)

theorem takeUpPattern_evolves (h : Evolves e p q) : Evolves e p (takeUpPattern e q) := by
  unfold takeUpPattern
  try dsimp only
  all_goals iterate 12 (try with_reducible first | exact h | apply updatePattern_evolves | apply patternJobs_evolves | apply Evolves.inner)

theorem patternMeasure_evolves (h : Evolves e p q) : Evolves e p (patternMeasure e q) := by
  unfold patternMeasure
  try dsimp only
  repeat' split
  all_goals iterate 12 (try with_reducible first | exact h | apply patternMeasured_evolves | apply requestDwell_evolves | apply patternStage_evolves)

theorem enterSearch_evolves (h : Evolves e p q) : Evolves e p (enterSearch e q) := by
  unfold enterSearch
  try dsimp only
  repeat' split
  all_goals iterate 12 (try with_reducible first | exact h | apply suspendPattern_evolves | apply startPattern_evolves | apply setPointing_evolves)

theorem presetMeasured_evolves (h : Evolves e p q) (level : Int) : Evolves e p (presetMeasured e level q) := by
  unfold presetMeasured
  try dsimp only
  repeat' split
  all_goals iterate 12 (try with_reducible first | exact h | apply postDwellHere_evolves | apply enterPeaking_evolves | apply enterSearch_evolves)

theorem presetMean_evolves (h : Evolves e p q) (level : Int) : Evolves e p (presetMean e level q) := by
  unfold presetMean
  try dsimp only
  repeat' split
  all_goals iterate 12 (try with_reducible first | exact h | apply presetMeasured_evolves | apply Evolves.inner)

theorem presetReport_evolves (h : Evolves e p q) (r : LevelReport) : Evolves e p (presetReport e r q) := by
  unfold presetReport
  try dsimp only
  repeat' split
  all_goals iterate 12 (try with_reducible first | exact h | apply presetMeasured_evolves | apply Evolves.inner)

theorem presetMeasure_evolves (h : Evolves e p q) : Evolves e p (presetMeasure e q) := by
  unfold presetMeasure
  try dsimp only
  repeat' split
  all_goals iterate 12 (try with_reducible first | exact h | apply requestDwell_evolves | apply setPointing_evolves)

theorem stopSlew_evolves (h : Evolves e p q) : Evolves e p (stopSlew e q) := by
  unfold stopSlew
  try dsimp only
  all_goals iterate 12 (try with_reducible first | exact h | apply cancelMoves_evolves | apply cancelDwell_evolves | apply Evolves.inner)

theorem suspendWork_evolves (h : Evolves e p q) (x : Activity) : Evolves e p (suspendWork e x q) := by
  unfold suspendWork
  try dsimp only
  repeat' split
  all_goals iterate 12 (try with_reducible first | exact h | apply suspendPattern_evolves | apply suspendRun_evolves | apply monitorOff_evolves | apply stopSlew_evolves | apply Evolves.inner)

theorem suspendPointing_evolves (h : Evolves e p q) (x : Activity) : Evolves e p (suspendPointing e x q) := by
  unfold suspendPointing
  try dsimp only
  all_goals iterate 12 (try with_reducible first | exact h | apply setPointing_evolves | apply suspendWork_evolves)

theorem resumePointing_evolves (h : Evolves e p q) (x : Activity) : Evolves e p (resumePointing e x q) := by
  unfold resumePointing
  try dsimp only
  repeat' split
  all_goals iterate 12 (try with_reducible first | exact h | apply resumePattern_evolves | apply setPointing_evolves | apply trackStart_evolves | apply startSlew_evolves | apply resumeRun_evolves | apply startRun_evolves | apply Evolves.inner)

theorem haltPointing_evolves (h : Evolves e p q) (cause : PatternCause) : Evolves e p (haltPointing e cause q) := by
  unfold haltPointing
  try dsimp only
  repeat' split
  all_goals iterate 12 (try with_reducible first | exact h | apply setPointing_evolves | apply haltPattern_evolves | apply discardRun_evolves | apply stopSlew_evolves | apply Evolves.inner)

theorem pointingPermissives_evolves (h : Evolves e p q) (lost : List Permissive) : Evolves e p (pointingPermissives e lost q) := by
  unfold pointingPermissives
  try dsimp only
  repeat' split
  all_goals iterate 12 (try with_reducible first | exact h | apply suspendPointing_evolves | apply resumePointing_evolves | apply haltPointing_evolves | apply setPointing_evolves | apply Evolves.inner)

theorem pointingMastEvent_evolves (h : Evolves e p q) : Evolves e p (pointingMastEvent e q) := by
  unfold pointingMastEvent
  try dsimp only
  repeat' split
  all_goals iterate 12 (try with_reducible first | exact h | apply enterSlewing_evolves | apply haltPointing_evolves | apply Evolves.inner)

theorem pointingFault_evolves (h : Evolves e p q) (kind : FaultKind) (axis : FaultAxis) : Evolves e p (pointingFault e kind axis q) := by
  unfold pointingFault
  try dsimp only
  repeat' split
  all_goals iterate 12 (try with_reducible first | exact h | apply haltPointing_evolves | apply driveAway_evolves)

end

end Sys2Proof.Machine
end

