-- ==== Sys2Proof/Laws/EvolvesMast.lean ====
section
/-! SUPPORT. `Evolves` for the operations of MSQ and FLT and for what a permissive change calls: one lemma per operation. -/

namespace Sys2Proof.Machine

section
variable {e : Env} {p q : Plant}

theorem setMast_evolves (h : Evolves e p q) (st : MastState) : Evolves e p (setMast e st q) := by
  unfold setMast
  exact pointingMastEvent_evolves (postStatusIf_evolves (h.inner _ _ _ _ _ _ _) _)

theorem setStranded_evolves (h : Evolves e p q) (mark : Bool) : Evolves e p (setStranded e mark q) := postStatusIf_evolves (h.inner _ _ _ _ _ _ _) _

theorem cancelMastWork_evolves (h : Evolves e p q) : Evolves e p (cancelMastWork e q) := by
  unfold cancelMastWork
  try dsimp only
  repeat' split
  all_goals iterate 12 (try with_reducible first | exact h | apply cancelMoves_evolves | apply cancelMove_evolves | apply Evolves.inner)

theorem haltMast_evolves (h : Evolves e p q) (cause : HoldCause) (axis : Axis) (posts : Bool) : Evolves e p (haltMast e cause axis posts q) := by
  unfold haltMast
  try dsimp only
  repeat' split
  all_goals iterate 12 (try with_reducible first | exact h | apply cancelMastWork_evolves | apply postHalt_evolves | apply setMast_evolves)

theorem headNotParked_evolves (h : Evolves e p q) : Evolves e p (headNotParked e q) := by
  unfold headNotParked
  try dsimp only
  all_goals iterate 12 (try with_reducible first | exact h | apply haltMast_evolves)

theorem loweringDone_evolves (h : Evolves e p q) : Evolves e p (loweringDone e q) := by
  unfold loweringDone
  try dsimp only
  repeat' split
  all_goals iterate 12 (try with_reducible first | exact h | apply setMast_evolves | apply Evolves.inner)

theorem setPendingMast_evolves (h : Evolves e p q) (pending : Bool) : Evolves e p (setPendingMast pending q) := by
  unfold setPendingMast
  try dsimp only
  all_goals iterate 12 (try with_reducible first | exact h | apply Evolves.inner)

theorem requestLowering_evolves (h : Evolves e p q) : Evolves e p (requestLowering e q) := by
  unfold requestLowering
  try dsimp only
  repeat' split
  all_goals iterate 12 (try with_reducible first | exact h | apply setPendingMast_evolves | apply loweringDone_evolves | apply moveRequest_evolves | apply Evolves.inner)

theorem enterLowering_evolves (h : Evolves e p q) : Evolves e p (enterLowering e q) := by
  unfold enterLowering
  try dsimp only
  all_goals iterate 12 (try with_reducible first | exact h | apply requestLowering_evolves | apply setMast_evolves)

theorem parkingRequests_evolves (l : List Axis) : ∀ {q : Plant}, Evolves e p q → Evolves e p (parkingRequests e l q) := by
  induction l with
  | nil => exact fun h => h
  | cons a rest ih =>
    intro q h
    unfold parkingRequests
    dsimp only
    have g := moveRequest_evolves h (parkingMove e a)
    split
    all_goals first | exact headNotParked_evolves g | exact ih g

theorem enterParking_evolves (h : Evolves e p q) : Evolves e p (enterParking e q) := by
  unfold enterParking
  try dsimp only
  repeat' split
  all_goals iterate 20 (try with_reducible first | refine foldl_evolves _ (fun r a g => ?_) _ ?_ | exact g | exact h | apply parkingRequests_evolves | apply cancelMove_evolves | apply setMast_evolves | apply endMoves_evolves | apply Evolves.inner)

theorem beginLower_evolves (h : Evolves e p q) : Evolves e p (beginLower e q) := by
  unfold beginLower
  try dsimp only
  repeat' split
  all_goals iterate 12 (try with_reducible first | exact h | apply enterLowering_evolves | apply enterParking_evolves | apply setStranded_evolves)

theorem mastCompleted_evolves (h : Evolves e p q) (a : Axis) : Evolves e p (mastCompleted e a q) := by
  unfold mastCompleted
  try dsimp only
  repeat' split
  all_goals iterate 12 (try with_reducible first | exact h | apply enterLowering_evolves | apply headNotParked_evolves | apply loweringDone_evolves | apply setMast_evolves | apply Evolves.inner)

theorem mastAxisFree_evolves (h : Evolves e p q) (a : Axis) : Evolves e p (mastAxisFree e a q) := by
  unfold mastAxisFree
  try dsimp only
  repeat' split
  all_goals iterate 12 (try with_reducible first | exact h | apply parkingRequests_evolves | apply requestLowering_evolves | apply Evolves.inner)

theorem raiseLoss_evolves (h : Evolves e p q) (lost : List Permissive) (byReport : Bool) : Evolves e p (raiseLoss e lost byReport q) := by
  unfold raiseLoss
  try dsimp only
  repeat' split
  all_goals iterate 12 (try with_reducible first | exact h | apply haltMast_evolves | apply endMoves_evolves | apply setStranded_evolves)

theorem headLoss_evolves (h : Evolves e p q) (lost : List Permissive) : Evolves e p (headLoss e lost q) := by
  unfold headLoss
  try dsimp only
  repeat' split
  all_goals iterate 20 (try with_reducible first | refine foldl_evolves _ (fun r a g => ?_) _ ?_ | exact g | exact h | apply endMoves_evolves)

theorem clearanceValue_evolves (h : Evolves e p q) (value : ClearanceValue) : Evolves e p (clearanceValue e value q) := by
  unfold clearanceValue
  try dsimp only
  repeat' split
  all_goals iterate 12 (try with_reducible first | exact h | apply moveRequest_evolves | apply haltMast_evolves | apply Evolves.inner)

theorem mastFault_evolves (h : Evolves e p q) (kind : FaultKind) (axis : FaultAxis) (stored : Bool) : Evolves e p (mastFault e kind axis stored q) := by
  unfold mastFault
  try dsimp only
  repeat' split
  all_goals iterate 12 (try with_reducible first | exact h | apply headNotParked_evolves | apply haltMast_evolves | apply Evolves.inner)

theorem judgeCradle_evolves (h : Evolves e p q) (before : Option Int) : Evolves e p (judgeCradle e before q) := by
  have ended : Evolves e p (endMoves e (fun r => !r.recovery && carriesMove r .jog) headAxes (haltPointing e .interlock q)) :=
    endMoves_evolves (haltPointing_evolves h _) _ _
  unfold judgeCradle
  dsimp only
  repeat' split
  all_goals with_reducible first | exact h | exact ended | exact headNotParked_evolves ended | exact headNotParked_evolves h

theorem haltAxis_evolves (h : Evolves e p q) (a : Axis) : Evolves e p (haltAxis e a q) := by
  unfold haltAxis
  dsimp only
  split
  · exact h.rested a _ (Or.inl ‹_›) (Or.inr rfl) ⟨rfl, rfl, rfl, rfl, rfl, Or.inl rfl⟩
  · exact h.abandoned a _ ‹_› (Or.inr rfl)
  · exact h.stopped a (Or.inl ‹_›)
  · exact h.stopped a (Or.inr ‹_›)
  all_goals exact h

theorem haltFor_evolves (h : Evolves e p q) (kind : FaultKind) (axis : FaultAxis) (stored : Bool) : Evolves e p (haltFor e kind axis stored q) := by
  refine afterLeaving_evolves (foldl_evolves _ (fun r a g => ?_) allAxes h) _
  split
  · split
    · exact g
    · exact haltAxis_evolves g a
  · exact g

theorem raiseFault_evolves (h : Evolves e p q) (kind : FaultKind) (axis : FaultAxis) : Evolves e p (raiseFault e kind axis q) := by
  unfold raiseFault
  dsimp only
  split
  · exact haltFor_evolves h _ _ _
  · rename_i fresh
    refine pointingFault_evolves (mastFault_evolves (postHalt_evolves (haltFor_evolves (postStatusIf_evolves ?_ _) _ _ _) _ _ _) _ _ _) _ _
    split
    · exact h.faults _ (.stored _ (by simpa using ‹decide (q.flt.records.length < 8) = true›) fresh)
    · exact h.faults _ (.overflowed _)

theorem freeAxis_evolves (h : Evolves e p q) (a : Axis) : Evolves e p (freeAxis e a q) := by
  unfold freeAxis
  dsimp only
  split
  · rename_i held
    split
    · refine h.rested a _ (Or.inr held.1) (Or.inl rfl) ⟨rfl, rfl, rfl, rfl, rfl, ?_⟩
      cases (axisOf q a).position
      · exact Or.inr (Or.inl rfl)
      · exact Or.inr (Or.inr ⟨_, rfl⟩)
    · exact raiseFault_evolves h _ _
  · exact h

theorem latchSetEvent_evolves (h : Evolves e p q) : Evolves e p (latchSetEvent e q) :=
  haltPointing_evolves (setMast_evolves (latchAxes_evolves h) _) _

theorem changeUsers_evolves (h : Evolves e p q) (before : PermissiveSet) (byReport : Bool) : Evolves e p (changeUsers e before byReport q) := by
  unfold changeUsers
  try dsimp only
  all_goals iterate 12 (try with_reducible first | exact h | apply pointingPermissives_evolves | apply raiseLoss_evolves | apply headLoss_evolves)

theorem driveAway_evolves (h : Evolves e p q) : Evolves e p (driveAway e q) := by
  unfold driveAway
  try dsimp only
  repeat' split
  all_goals iterate 12 (try with_reducible first | exact h | apply raiseFault_evolves)

theorem handReport_evolves (h : Evolves e p q) (r : LevelReport) : Evolves e p (handReport e r q) := by
  unfold handReport
  try dsimp only
  repeat' split
  all_goals iterate 12 (try with_reducible first | exact h | apply patternReport_evolves | apply presetReport_evolves | apply trackReport_evolves | apply runReport_evolves)

end

end Sys2Proof.Machine
end

