-- ==== Sys2Proof/Laws/EvolvesCommands.lean ====
section
/-! SUPPORT. `Evolves` for what the commands do to the plant, but for the writes of PVW and AUT: one lemma per operation. -/

namespace Sys2Proof.Machine

section
variable {e : Env} {p q : Plant}

theorem setWatch_evolves (h : Evolves e p q) (i : Nat) (w : WatchState) : Evolves e p (setWatch i w q) := by
  unfold setWatch
  try dsimp only
  all_goals iterate 12 (try with_reducible first | exact h | apply Evolves.inner)

theorem watchAction_evolves (h : Evolves e p q) (i : Nat) (c : WatchCfg) (entered : Side) (result : Count) : Evolves e p (watchAction e i c entered result q) := by
  unfold watchAction
  try dsimp only
  repeat' split
  all_goals iterate 12 (try with_reducible first | exact h | apply postDwellHere_evolves | apply raiseFault_evolves | apply haltAxis_evolves | apply Evolves.inner)

theorem watchEdge_evolves (h : Evolves e p q) (i : Nat) (c : WatchCfg) (w : WatchState) (entered : Side) (result : Count) : Evolves e p (watchEdge e i c w entered result q) := by
  unfold watchEdge
  try dsimp only
  repeat' split
  all_goals iterate 12 (try with_reducible first | exact h | apply watchAction_evolves | apply setWatch_evolves | apply Evolves.inner)

theorem runWatch_evolves (h : Evolves e p q) (channel : Nat) (result : Count) (i : Nat) : Evolves e p (runWatch e channel result i q) := by
  unfold runWatch
  try dsimp only
  repeat' split
  all_goals iterate 12 (try with_reducible first | exact h | apply watchEdge_evolves | apply setWatch_evolves | apply Evolves.inner)

theorem runWatches_evolves (h : Evolves e p q) (channel : Nat) (result : Count) : Evolves e p (runWatches e channel result q) :=
  foldl_evolves _ (fun _ i g => runWatch_evolves g channel result i) _ h

theorem takeResult_evolves (h : Evolves e p q) (channel : Nat) (result : Count) : Evolves e p (takeResult e channel result q) := by
  unfold takeResult
  try dsimp only
  all_goals iterate 12 (try with_reducible first | exact h | apply runWatches_evolves | apply Evolves.inner)

theorem handLevel_evolves (h : Evolves e p q) (level : Int) : Evolves e p (handLevel e level q) := by
  unfold handLevel
  try dsimp only
  repeat' split
  all_goals iterate 12 (try with_reducible first | exact h | apply sweepLevel_evolves)

theorem withSampler_evolves (h : Evolves e p q) (f : Sampler → Sampler) : Evolves e p (withSampler f q) := by
  unfold withSampler
  try dsimp only
  all_goals iterate 12 (try with_reducible first | exact h | apply Evolves.inner)

theorem scanResult_evolves (h : Evolves e p q) (channel : Nat) (result : Count) : Evolves e p (scanResult e channel result q) := by
  unfold scanResult
  try dsimp only
  repeat' split
  all_goals iterate 12 (try with_reducible first | exact h | apply withSampler_evolves | apply takeResult_evolves | apply handLevel_evolves | apply Evolves.inner)

theorem handMean_evolves (h : Evolves e p q) (q0 : Requester) (mean : Int) : Evolves e p (handMean e q0 mean q) := by
  unfold handMean
  try dsimp only
  repeat' split
  all_goals iterate 12 (try with_reducible first | exact h | apply patternMean_evolves | apply presetMean_evolves | apply runMean_evolves | apply Evolves.inner)

theorem dwellLevel_evolves (h : Evolves e p q) (d : Dwell) (level : Int) : Evolves e p (dwellLevel e d level q) := by
  unfold dwellLevel
  try dsimp only
  repeat' split
  all_goals iterate 12 (try with_reducible first | exact h | apply handMean_evolves | apply Evolves.inner)

theorem placeLevel_evolves (h : Evolves e p q) (identity : Nat) (level : Int) : Evolves e p (placeLevel e identity level q) := by
  unfold placeLevel
  try dsimp only
  repeat' split
  all_goals iterate 12 (try with_reducible first | exact h | apply withSampler_evolves | apply dwellLevel_evolves | apply Evolves.inner)

theorem dwellResult_evolves (h : Evolves e p q) (channel : Nat) (identity : Nat) (result : Count) : Evolves e p (dwellResult e channel identity result q) := by
  unfold dwellResult
  try dsimp only
  repeat' split
  all_goals iterate 12 (try with_reducible first | exact h | apply takeResult_evolves | apply placeLevel_evolves | apply handLevel_evolves)

theorem takeDwellFree_evolves (h : Evolves e p q) (q0 : Requester) : Evolves e p (takeDwellFree e q0 q) := by
  unfold takeDwellFree
  try dsimp only
  repeat' split
  all_goals iterate 12 (try with_reducible first | exact h | apply requestDwell_evolves | apply withSampler_evolves | apply Evolves.inner)

theorem overtravelCheck_evolves (h : Evolves e p q) (a : Axis) : Evolves e p (overtravelCheck e a q) := by
  unfold overtravelCheck
  dsimp only
  split
  · exact h
  · split
    · refine raiseFault_evolves (h.written a _ ?_) _ _
      exact ⟨rfl, rfl, rfl, rfl, rfl, Or.inl rfl⟩
    · exact h.written a _ ⟨rfl, rfl, rfl, rfl, rfl, Or.inl rfl⟩

theorem limitCheck_evolves (h : Evolves e p q) (a : Axis) : Evolves e p (limitCheck e a q) := by
  unfold limitCheck
  try dsimp only
  repeat' split
  all_goals iterate 12 (try with_reducible first | exact h | apply raiseFault_evolves)

theorem sensorCheck_evolves (h : Evolves e p q) (a : Axis) (wasValid : Bool) : Evolves e p (sensorCheck e a wasValid q) := by
  unfold sensorCheck
  try dsimp only
  repeat' split
  all_goals iterate 12 (try with_reducible first | exact h | apply raiseFault_evolves)

theorem periodChecks_evolves (h : Evolves e p q) (a : Axis) (before : AxisRec) : Evolves e p (periodChecks e a before q) := by
  unfold periodChecks
  try dsimp only
  repeat' split
  all_goals iterate 12 (try with_reducible first | exact h | apply overtravelCheck_evolves | apply sensorCheck_evolves | apply judgeCradle_evolves | apply limitCheck_evolves | apply stallCount_evolves | apply Evolves.inner)

theorem periodDrive_evolves (h : Evolves e p q) (a : Axis) (before : AxisState) : Evolves e p (periodDrive e a before q) := by
  unfold periodDrive
  dsimp only
  split
  · exact h
  · split
    · exact driftCheck_evolves (h.stepped a) a
    · exact h.stepped a

theorem readAxis_same (a : Axis) (x : AxisPins) (r : AxisRec) : SameDrive e a r (readAxis e a x r) := by
  unfold readAxis
  dsimp only
  split
  · exact ⟨rfl, rfl, rfl, rfl, rfl, Or.inl rfl⟩
  · split
    · exact ⟨rfl, rfl, rfl, rfl, rfl, Or.inl rfl⟩
    · exact ⟨rfl, rfl, rfl, rfl, rfl, Or.inr (Or.inr ⟨_, rfl⟩)⟩

theorem servoPeriod_evolves (h : Evolves e p q) (a : Axis) (x : AxisPins) : Evolves e p (servoPeriod e a x q) :=
  periodDrive_evolves (periodChecks_evolves (h.written a _ (readAxis_same a x _)) a _) a _

theorem readOnly_evolves (h : Evolves e p q) (a : Axis) (x : AxisPins) : Evolves e p (readOnly a x q) :=
  h.written a _ ⟨rfl, rfl, rfl, rfl, rfl, Or.inl rfl⟩

theorem takeStall_evolves (h : Evolves e p q) (a : Axis) : Evolves e p (takeStall e a q) := by
  have raised := raiseFault_evolves (h.written a { axisOf q a with stallDue := false } ⟨rfl, rfl, rfl, rfl, rfl, Or.inl rfl⟩) .stall (.one a)
  unfold takeStall
  dsimp only
  split
  · rename_i hs
    have step := raised.stepped a
    unfold driveStep at step
    rw [hs.2] at step
    exact step
  · exact raised

theorem handCompleted_evolves (h : Evolves e p q) (q0 : Requester) (a : Axis) : Evolves e p (handCompleted e q0 a q) := by
  unfold handCompleted
  try dsimp only
  repeat' split
  all_goals iterate 12 (try with_reducible first | exact h | apply patternCompleted_evolves | apply mastCompleted_evolves | apply slewCompleted_evolves | apply runCompleted_evolves | apply Evolves.inner)

theorem takeSettled_evolves (h : Evolves e p q) (a : Axis) (settling : (axisOf q a).state = .settling) : Evolves e p (takeSettled e a q) := by
  have done := completeMove_evolves h a settling
  unfold takeSettled
  dsimp only
  split
  · split
    · exact done
    · exact handCompleted_evolves done _ _
  · exact done

theorem handAxisFree_evolves (h : Evolves e p q) (q0 : Requester) (a : Axis) : Evolves e p (handAxisFree e q0 a q) := by
  unfold handAxisFree
  try dsimp only
  repeat' split
  all_goals iterate 12 (try with_reducible first | exact h | apply patternAxisFree_evolves | apply mastAxisFree_evolves | apply slewAxisFree_evolves | apply runAxisFree_evolves | apply Evolves.inner)

theorem takeAxisFree_evolves (h : Evolves e p q) (r : Requester) (a : Axis) : Evolves e p (takeAxisFree e r a q) :=
  handAxisFree_evolves (h.written a { axisOf q a with freed := removeAll (axisOf q a).freed r } ⟨rfl, rfl, rfl, rfl, rfl, Or.inl rfl⟩) r a

theorem takeUpRun_evolves (h : Evolves e p q) (st : RunStage) : Evolves e p (takeUpRun e st q) := by
  unfold takeUpRun
  try dsimp only
  all_goals iterate 12 (try with_reducible first | exact h | apply runJobs_evolves)

theorem setMonitor_evolves (h : Evolves e p q) (m : Monitor) : Evolves e p (setMonitor m q) := by
  unfold setMonitor
  try dsimp only
  all_goals iterate 12 (try with_reducible first | exact h | apply Evolves.inner)

theorem takeSamplePeriod_evolves (h : Evolves e p q) : Evolves e p (takeSamplePeriod e q) := by
  unfold takeSamplePeriod
  try dsimp only
  repeat' split
  all_goals iterate 12 (try with_reducible first | exact h | apply trackSample_evolves | apply setMonitor_evolves | apply Evolves.inner)

theorem takeFade_evolves (h : Evolves e p q) : Evolves e p (takeFade e q) := by
  unfold takeFade
  try dsimp only
  repeat' split
  all_goals iterate 12 (try with_reducible first | exact h | apply enterPeaking_evolves | apply monitorOff_evolves)

theorem takeLoss_evolves (h : Evolves e p q) : Evolves e p (takeLoss e q) := by
  unfold takeLoss
  try dsimp only
  repeat' split
  all_goals iterate 12 (try with_reducible first | exact h | apply setPointing_evolves | apply setMonitor_evolves | apply Evolves.inner)

theorem ownClearFault_evolves (h : Evolves e p q) (x : ArrivalEntry) : Evolves e p (ownClearFault e x q).1 := by
  unfold ownClearFault
  dsimp only
  split
  · exact h
  · dsimp only
    refine foldl_evolves _ (fun _ a g => freeAxis_evolves g a) allAxes ?_
    exact postStatusIf_evolves (h.faults { records := remaining e q, overflow := false, overflowAxes := [] } (.cleared (conditionHolds e q))) _

theorem raiseMove_evolves (h : Evolves e p q) (height : Nat) : Evolves e p (raiseMove e height q).1 := by
  have g := moveRequest_evolves h (mastMove (classOf (raiseDirection e q height)) (raiseTarget e q height))
  unfold raiseMove
  dsimp only
  split
  · dsimp only
    exact setMast_evolves (setStranded_evolves g false) _
  all_goals exact g

theorem ownRaise_evolves (h : Evolves e p q) (x : ArrivalEntry) : Evolves e p (ownRaise e x q).1 := by
  unfold ownRaise
  split
  · exact h
  · exact raiseMove_evolves h _

theorem ownLower_evolves (h : Evolves e p q) (_x : ArrivalEntry) : Evolves e p (ownLower e _x q).1 := by
  unfold ownLower
  try dsimp only
  repeat' split
  all_goals iterate 12 (try with_reducible first | exact h | apply beginLower_evolves | apply Evolves.inner)

theorem aimEnds_evolves (h : Evolves e p q) (x : Activity) : Evolves e p (aimEnds e x q) := by
  unfold aimEnds
  try dsimp only
  repeat' split
  all_goals iterate 12 (try with_reducible first | exact h | apply haltPattern_evolves | apply cancelDwell_evolves | apply discardRun_evolves | apply Evolves.inner)

theorem endForAim_evolves (h : Evolves e p q) : Evolves e p (endForAim e q) := by
  unfold endForAim
  try dsimp only
  repeat' split
  all_goals iterate 12 (try with_reducible first | exact h | apply discardRun_evolves | apply aimEnds_evolves | apply Evolves.inner)

theorem takeAim_evolves (h : Evolves e p q) (r : PointingRecord) : Evolves e p (takeAim e r q) := (endForAim_evolves h).inner _ _ _ _ _ _ _

theorem beginAim_evolves (h : Evolves e p q) : Evolves e p (beginAim e q) := by
  unfold beginAim
  try dsimp only
  repeat' split
  all_goals iterate 12 (try with_reducible first | exact h | apply enterSlewing_evolves | apply cancelMoves_evolves | apply setPointing_evolves | apply Evolves.inner)

theorem ownAim_evolves (h : Evolves e p q) (x : ArrivalEntry) : Evolves e p (ownAim e x q).1 := by
  unfold ownAim
  try dsimp only
  repeat' split
  all_goals iterate 12 (try with_reducible first | exact h | apply takeAim_evolves | apply Evolves.inner)

theorem ownPeak_evolves (h : Evolves e p q) (_x : ArrivalEntry) : Evolves e p (ownPeak e _x q).1 := by
  unfold ownPeak
  try dsimp only
  repeat' split
  all_goals iterate 12 (try with_reducible first | exact h | apply enterPeaking_evolves | apply withRecord_evolves | apply Evolves.inner)

theorem ownCancelPointing_evolves (h : Evolves e p q) (_x : ArrivalEntry) : Evolves e p (ownCancelPointing e _x q).1 := by
  unfold ownCancelPointing
  try dsimp only
  all_goals iterate 12 (try with_reducible first | exact h | apply haltPointing_evolves)

theorem jogRequest_evolves (h : Evolves e p q) (m : MoveRequest) (clear : q.aut.latch = none) : Evolves e p (jogRequest e m q).1 := by
  unfold jogRequest
  split
  · exact noteRequester_evolves h _ _
  · exact requestFromClamp_evolves h m clear

theorem jogMove_evolves (h : Evolves e p q) (a : Axis) (distance : Int) (recovery : Bool) (clear : q.aut.latch = none) :
    Evolves e p (jogMove e a distance recovery q).1 := by
  unfold jogMove
  dsimp only
  split <;> exact jogRequest_evolves h _ clear

theorem ownJog_evolves (h : Evolves e p q) (x : ArrivalEntry) (clear : q.aut.latch = none) : Evolves e p (ownJog e x q).1 := by
  unfold ownJog
  split
  · exact h
  · split
    · exact h
    · exact jogMove_evolves h _ _ _ clear

end

end Sys2Proof.Machine
end

