-- ==== Sys2Proof/Laws/Posts.lean ====
section
/-! SUPPORT. What the post queue's operations can do, and that each keeps the queue sound (R17, R18). -/

namespace Sys2Proof.Machine

/-- The entries that wait. -/
def waitingOf (l : List PostEntry) : List PostEntry := l.filter fun x => !x.sending

/-- The entries in transmission. -/
def sendingOf (l : List PostEntry) : List PostEntry := l.filter fun x => x.sending

theorem postsSound_iff (q : PostQueue) :
    postsSound q = true ↔ q.entries.length ≤ 6 ∧ (sendingOf q.entries).length ≤ 1 ∧ ((waitingOf q.entries).map (·.key)).Nodup ∧ q.drops ≤ 65535 := by
  simp only [postsSound, sendingOf, waitingOf, Bool.and_eq_true, decide_eq_true_eq, and_assoc]
  exact Iff.rfl

theorem bump_le (n : Nat) : bump n ≤ 65535 := by unfold bump; split <;> omega

/-! ### One entry at a time -/

theorem sendingOf_map (f : PostEntry → PostEntry) (hs : ∀ x, (f x).sending = x.sending) (l : List PostEntry) :
    sendingOf (l.map f) = (sendingOf l).map f := by
  simp [sendingOf, List.filter_map, Function.comp_def, hs]

theorem waitingOf_map (f : PostEntry → PostEntry) (hs : ∀ x, (f x).sending = x.sending) (l : List PostEntry) :
    waitingOf (l.map f) = (waitingOf l).map f := by
  simp [waitingOf, List.filter_map, Function.comp_def, hs]

/-- A change of the entries that leaves keys and transmission alone keeps the queue sound. -/
theorem map_sound (f : PostEntry → PostEntry) (hs : ∀ x, (f x).sending = x.sending) (hk : ∀ x, (f x).key = x.key) {q : PostQueue} (h : postsSound q = true) :
    postsSound { q with entries := q.entries.map f } = true := by
  rw [postsSound_iff] at h ⊢
  simp only [sendingOf_map f hs, waitingOf_map f hs, List.length_map, List.map_map, Function.comp_def, hk]
  exact h

/-- Fewer entries keep the queue sound. -/
theorem sublist_sound {q : PostQueue} {l : List PostEntry} (sub : l.Sublist q.entries) (h : postsSound q = true) :
    postsSound { q with entries := l } = true := by
  rw [postsSound_iff] at h ⊢
  refine ⟨sub.length_le.trans h.1, (sub.filter _).length_le.trans h.2.1, ?_, h.2.2.2⟩
  exact ((sub.filter _).map _).nodup h.2.2.1

theorem hasWaiting_iff (k : PostKey) (l : List PostEntry) : hasWaiting k l = true ↔ k ∈ (waitingOf l).map (·.key) := by
  simp only [hasWaiting, waitingOf, List.any_eq_true, List.mem_map, List.mem_filter, Bool.and_eq_true, decide_eq_true_eq]
  exact ⟨fun ⟨x, m, k, s⟩ => ⟨x, ⟨m, s⟩, k⟩, fun ⟨x, ⟨m, s⟩, k⟩ => ⟨x, m, k, s⟩⟩

/-- A new waiting entry at the end, of a key that none waits under, with room for it. -/
theorem append_sound {q : PostQueue} (k : PostKey) (t : Tag) (x : List Byte) (new : hasWaiting k q.entries = false) (room : q.entries.length < 6)
    (h : postsSound q = true) : postsSound { q with entries := q.entries ++ [newEntry k t x] } = true := by
  have fresh : k ∉ (waitingOf q.entries).map (·.key) := by rw [← hasWaiting_iff, new]; simp
  rw [postsSound_iff] at h ⊢
  refine ⟨by simp; omega, by simpa [sendingOf, newEntry] using h.2.1, ?_, h.2.2.2⟩
  have all : waitingOf (q.entries ++ [newEntry k t x]) = waitingOf q.entries ++ [newEntry k t x] := by simp [waitingOf, newEntry]
  rw [all, List.map_append, List.nodup_append]
  refine ⟨h.2.2.1, by simp, ?_⟩
  intro a ma b mb
  simp only [newEntry, List.map_cons, List.map_nil, List.mem_singleton] at mb
  rintro rfl
  exact fresh (mb ▸ ma)

/-! ### The highest waiting tag and the entry it drops -/

theorem highestWaiting_fold (l : List PostEntry) (b : Option Tag) (t : Tag)
    (h : l.foldl (fun best x => if x.sending then best else match best with
      | none => some x.tag
      | some t => if t < x.tag then some x.tag else some t) b = some t) :
    b = some t ∨ ∃ x ∈ l, x.tag = t ∧ x.sending = false := by
  induction l generalizing b with
  | nil => exact Or.inl h
  | cons y l ih =>
    rcases ih _ h with hb | ⟨x, m, hx⟩
    · dsimp only at hb
      split at hb
      · exact Or.inl hb
      · rename_i ns
        split at hb
        · exact Or.inr ⟨y, by simp, by simpa using hb, by simpa using ns⟩
        · split at hb
          · exact Or.inr ⟨y, by simp, by simpa using hb, by simpa using ns⟩
          · exact Or.inl hb
    · exact Or.inr ⟨x, List.mem_cons_of_mem _ m, hx⟩

/-- The highest waiting tag is the tag of a waiting entry. -/
theorem highestWaiting_mem {l : List PostEntry} {t : Tag} (h : highestWaiting l = some t) : ∃ x ∈ l, x.tag = t ∧ x.sending = false := by
  rcases highestWaiting_fold l none t h with h | h
  · cases h
  · exact h

theorem dropNewestWaiting_sublist (t : Tag) (l : List PostEntry) : (dropNewestWaiting t l).Sublist l := by
  have := (List.eraseP_sublist (p := fun x : PostEntry => decide (x.tag = t) && !x.sending) (l := l.reverse)).reverse
  simpa [dropNewestWaiting] using this

theorem dropNewestWaiting_length {t : Tag} {l : List PostEntry} (h : ∃ x ∈ l, x.tag = t ∧ x.sending = false) :
    (dropNewestWaiting t l).length = l.length - 1 := by
  obtain ⟨x, m, ht, hs⟩ := h
  unfold dropNewestWaiting
  rw [List.length_reverse, List.length_eraseP_of_mem (a := x) (by simpa using m) (by simp [ht, hs]), List.length_reverse]

theorem hasWaiting_sublist {k : PostKey} {l m : List PostEntry} (sub : l.Sublist m) (h : hasWaiting k m = false) : hasWaiting k l = false := by
  unfold hasWaiting at h ⊢
  rw [List.any_eq_false] at h ⊢
  exact fun x mx => h x (sub.subset mx)

/-! ### A post (R17) -/

/-- The outcomes of a post: a waiting entry of the key replaced; a new entry with room; in a full queue the newest entry of the
highest waiting tag dropped for it, or the post itself dropped. -/
theorem postTo_cases (k : PostKey) (t : Tag) (x : List Byte) (q : PostQueue) :
    (hasWaiting k q.entries = true ∧ postTo k t x q = { q with entries := replaceWaiting k x q.entries }) ∨
    (hasWaiting k q.entries = false ∧ q.entries.length < 6 ∧ postTo k t x q = { q with entries := q.entries ++ [newEntry k t x] }) ∨
    (hasWaiting k q.entries = false ∧ 6 ≤ q.entries.length ∧ ∃ high, highestWaiting q.entries = some high ∧ t < high ∧
      postTo k t x q = { entries := dropNewestWaiting high q.entries ++ [newEntry k t x], drops := bump q.drops }) ∨
    (hasWaiting k q.entries = false ∧ 6 ≤ q.entries.length ∧ (∀ high, highestWaiting q.entries = some high → ¬ t < high) ∧
      postTo k t x q = { q with drops := bump q.drops }) := by
  unfold postTo queueSize
  by_cases hw : hasWaiting k q.entries = true
  · simp [hw]
  · simp only [Bool.not_eq_true] at hw
    by_cases hl : q.entries.length < 6
    · simp [hw, hl]
    · cases hh : highestWaiting q.entries with
      | none => simp [hw, hl, Nat.le_of_not_lt hl]
      | some high =>
        by_cases ht : t < high
        · simp [hw, hl, ht, Nat.le_of_not_lt hl]
        · simp [hw, hl, ht, Nat.le_of_not_lt hl, BitVec.not_lt.1 ht]

theorem postTo_sound (k : PostKey) (t : Tag) (x : List Byte) {q : PostQueue} (h : postsSound q = true) : postsSound (postTo k t x q) = true := by
  rcases postTo_cases k t x q with ⟨_, e⟩ | ⟨hw, hl, e⟩ | ⟨hw, hl, high, hh, _, e⟩ | ⟨_, _, _, e⟩ <;> rw [e]
  · exact map_sound _ (fun y => by split <;> rfl) (fun y => by split <;> rfl) h
  · exact append_sound k t x hw hl h
  · have sub := dropNewestWaiting_sublist high q.entries
    have len := dropNewestWaiting_length (highestWaiting_mem hh)
    have six := ((postsSound_iff q).1 h).1
    have base := append_sound (q := { q with entries := dropNewestWaiting high q.entries }) k t x (hasWaiting_sublist sub hw)
      (by dsimp only; omega) (sublist_sound sub h)
    rw [postsSound_iff] at base ⊢
    exact ⟨base.1, base.2.1, base.2.2.1, bump_le _⟩
  · rw [postsSound_iff] at h ⊢
    exact ⟨h.1, h.2.1, h.2.2.1, bump_le _⟩

/-! ### Transmission (R18) -/

theorem removeSending_sound {q : PostQueue} (h : postsSound q = true) : postsSound (removeSending q) = true :=
  sublist_sound (List.filter_sublist) h

theorem markFirst_sending (t : Tag) (l : List PostEntry) : (sendingOf (markFirst t l)).length ≤ (sendingOf l).length + 1 := by
  induction l with
  | nil => simp [markFirst, sendingOf]
  | cons y l ih =>
    unfold markFirst
    split
    · rename_i c
      simp [sendingOf, c.2]
    · cases hy : y.sending <;> simp [sendingOf, hy] at ih ⊢ <;> omega

theorem markFirst_waiting (t : Tag) (l : List PostEntry) : (waitingOf (markFirst t l)).Sublist (waitingOf l) := by
  induction l with
  | nil => simp [markFirst, waitingOf]
  | cons y l ih =>
    unfold markFirst
    split
    · rename_i c
      simp [waitingOf, c.2]
    · cases hy : y.sending
      · simpa [waitingOf, hy] using ih
      · simpa [waitingOf, hy] using ih

theorem markFirst_length (t : Tag) (l : List PostEntry) : (markFirst t l).length = l.length := by
  induction l with
  | nil => rfl
  | cons y l ih => unfold markFirst; split <;> simp [ih]

/-- An entry put in transmission while none is. -/
theorem markFirst_sound (t : Tag) {q : PostQueue} (none : sendingEntry q = none) (h : postsSound q = true) :
    postsSound { q with entries := markFirst t q.entries } = true := by
  have zero : (sendingOf q.entries).length = 0 := by
    simpa [sendingEntry, sendingOf] using none
  have one := markFirst_sending t q.entries
  rw [postsSound_iff] at h ⊢
  exact ⟨by rw [markFirst_length]; exact h.1, by dsimp only; omega, ((markFirst_waiting t q.entries).map _).nodup h.2.2.1, h.2.2.2⟩

theorem released_perm (l : List PostEntry) :
    ((l.map fun y => { y with sending := false }).map (·.key)).Perm ((waitingOf l).map (·.key) ++ (sendingOf l).map (·.key)) := by
  simp only [List.map_map, Function.comp_def, ← List.map_append]
  refine List.Perm.map _ ?_
  have := (List.filter_append_perm (fun x : PostEntry => !x.sending) l).symm
  simpa [waitingOf, sendingOf] using this

/-- The entry in transmission goes back to waiting, or away. -/
theorem returnSending_sound {q : PostQueue} (h : postsSound q = true) : postsSound (returnSending q) = true := by
  unfold returnSending
  split
  · exact h
  · rename_i x found
    split
    · exact sublist_sound List.filter_sublist h
    · rename_i new
      rw [postsSound_iff] at h ⊢
      have mem : x ∈ sendingOf q.entries := by
        have m := List.mem_of_find?_eq_some found
        have s := List.find?_some found
        simpa [sendingOf] using ⟨m, s⟩
      have only : sendingOf q.entries = [x] := by
        match hs : sendingOf q.entries, h.2.1, mem with
        | [y], _, m => rw [List.mem_singleton.1 m]
        | y :: z :: r, l, _ => simp at l
      refine ⟨by simpa using h.1, ?_, ?_, h.2.2.2⟩
      · simp [sendingOf, List.filter_map, Function.comp_def]
      · have all : waitingOf (q.entries.map fun y => { y with sending := false }) = q.entries.map fun y => { y with sending := false } := by
          simp [waitingOf, List.filter_map, Function.comp_def]
        rw [all, (released_perm q.entries).nodup_iff, only, List.nodup_append]
        refine ⟨h.2.2.1, by simp, ?_⟩
        intro a ma b mb
        simp only [List.map_cons, List.map_nil, List.mem_singleton] at mb
        rintro rfl
        exact new ((hasWaiting_iff _ _).2 (mb ▸ ma))

/-- With nothing in transmission before, nothing is after a return. -/
theorem returnSending_none (q : PostQueue) : sendingEntry (returnSending q) = none := by
  unfold returnSending
  split
  · assumption
  · split <;> simp [sendingEntry]

end Sys2Proof.Machine
end

