-- ==== Sys2Proof/Laws/Requests.lean ====
section
/-! SUPPORT. What a move request on an IDLE axis does, said once: AXD accepts it, the axis goes to WAITING or, where a grant is
free, to MOVING, and no axis but one already waiting changes (R79, R94). -/

namespace Sys2Proof.Machine

/-- A grant keeps the move: its requester, class, target and marks. -/
theorem grantedOrSame_fields {r r' : AxisRec} (h : grantedOrSame r r') :
    (r'.state = r.state ∨ r'.state = .moving) ∧ r'.requester = r.requester ∧ r'.cls = r.cls ∧ r'.target = r.target ∧ r'.correction = r.correction ∧
      r'.cap = r.cap ∧ r'.recovery = r.recovery ∧ r'.position = r.position ∧ r'.drift = r.drift := by
  rcases h with h | h <;> rw [h] <;> simp

theorem grantedOrSame_trans {r r' r'' : AxisRec} (h : grantedOrSame r r') (g : grantedOrSame r' r'') : grantedOrSame r r'' := by
  rcases h with h | h
  · rw [← h]; exact g
  · rcases g with g | g
    · rw [g]; exact Or.inr h
    · refine Or.inr ?_
      rw [g, h]

theorem settleRecord_fields (e : Env) (x r : AxisRec) :
    (settleRecord e x r).requester = r.requester ∧ (settleRecord e x r).cls = r.cls ∧ (settleRecord e x r).target = r.target ∧
      (settleRecord e x r).correction = r.correction ∧ (settleRecord e x r).cap = r.cap ∧ (settleRecord e x r).recovery = r.recovery ∧
      (settleRecord e x r).position = r.position ∧ (settleRecord e x r).drift = r.drift ∧ (settleRecord e x r).v = r.v ∧
      (settleRecord e x r).brakeSet = r.brakeSet ∧ (settleRecord e x r).switchLow = r.switchLow ∧ (settleRecord e x r).switchHigh = r.switchHigh ∧
      (settleRecord e x r).settleTimer = r.settleTimer ∧ (settleRecord e x r).lastOwner = r.lastOwner := by
  unfold settleRecord
  dsimp only
  split <;> exact ⟨rfl, rfl, rfl, rfl, rfl, rfl, rfl, rfl, rfl, rfl, rfl, rfl, rfl, rfl⟩

theorem chooseWaiting_mem {d : Drives} {a : Axis} (h : chooseWaiting d = some a) : a ∈ d.waiting := by
  unfold chooseWaiting at h
  repeat' split at h
  all_goals first | (cases h; simp_all) | cases h

/-- Only an axis that waits can be granted. -/
theorem tryGrant_axis (e : Env) (p : Plant) (b : Axis) :
    grantedOrSame (axisOf p b) (axisOf (tryGrant e p) b) ∧ (b ∉ p.axd.waiting → axisOf (tryGrant e p) b = axisOf p b) := by
  unfold tryGrant
  split
  · split
    · rename_i a ha
      have ma := chooseWaiting_mem ha
      unfold grantAxis
      simp only [axisOf_putAxis]
      split
      · rename_i hb
        subst hb
        refine ⟨Or.inr ?_, fun n => absurd ma n⟩
        generalize hr : axisOf _ b = r
        rw [show axisOf p b = r from hr]
        simp [settleRecord, entersRest]
      · exact ⟨Or.inl (axisOf_congr rfl b), fun _ => axisOf_congr rfl b⟩
    · exact ⟨Or.inl rfl, fun _ => rfl⟩
  · exact ⟨Or.inl rfl, fun _ => rfl⟩

theorem putAxis_rest (e : Env) (a : Axis) (r : AxisRec) (p : Plant) : ∃ posts, putAxis e a r p = { setAxisRaw a (settleRecord e (axisOf p a) r) p with posts := posts } := by
  unfold putAxis postStatusIf
  dsimp only
  split <;> split <;> exact ⟨_, rfl⟩

/-- The blocks but the post queue and AXD, after a grant. -/
theorem tryGrant_rest (e : Env) (p : Plant) : ∃ posts axd, tryGrant e p = { p with posts := posts, axd := axd } := by
  unfold tryGrant grantAxis
  split
  · split
    · obtain ⟨x, h⟩ := putAxis_rest e _ _ _
      exact ⟨_, _, h⟩
    · exact ⟨_, _, rfl⟩
  · exact ⟨_, _, rfl⟩

theorem tryGrant_waiting (e : Env) (p : Plant) {b : Axis} (h : b ∈ (tryGrant e p).axd.waiting) : b ∈ p.axd.waiting := by
  unfold tryGrant grantAxis at h
  split at h
  · split at h
    · simp only [putAxis_axd, waiting_setAxisRaw, removeAll, List.mem_filter] at h
      exact h.1
    · exact h
  · exact h

/-- Grants handed out set waiting axes MOVING and change nothing else but posts (R94). -/
theorem handGrants_axis (e : Env) (n : Nat) : ∀ (p : Plant) (b : Axis),
    grantedOrSame (axisOf p b) (axisOf (handGrants e n p) b) ∧ (b ∉ p.axd.waiting → axisOf (handGrants e n p) b = axisOf p b) := by
  induction n with
  | zero => exact fun p b => ⟨Or.inl rfl, fun _ => rfl⟩
  | succ n ih =>
    intro p b
    have t := tryGrant_axis e p b
    have r := ih (tryGrant e p) b
    exact ⟨grantedOrSame_trans t.1 r.1, fun w => (r.2 fun m => w (tryGrant_waiting e p m)).trans (t.2 w)⟩

theorem handGrants_rest (e : Env) (n : Nat) : ∀ p : Plant, ∃ posts axd, handGrants e n p = { p with posts := posts, axd := axd } := by
  induction n with
  | zero => exact fun p => ⟨_, _, rfl⟩
  | succ n ih =>
    intro p
    obtain ⟨y, z, h⟩ := tryGrant_rest e p
    obtain ⟨y', z', h'⟩ := ih (tryGrant e p)
    exact ⟨y', z', by rw [handGrants, h', h]⟩

/-- The end of an event in which grants were returned: of the axes only waiting ones change, by a grant (R94). -/
theorem afterLeaving_axis (e : Env) (p q : Plant) (b : Axis) :
    grantedOrSame (axisOf q b) (axisOf (afterLeaving e p q) b) ∧ (b ∉ q.axd.waiting → axisOf (afterLeaving e p q) b = axisOf q b) :=
  handGrants_axis e _ q b

theorem afterLeaving_rest (e : Env) (p q : Plant) : ∃ posts axd, afterLeaving e p q = { q with posts := posts, axd := axd } := handGrants_rest e _ q

theorem joinWaiting_rest (e : Env) (a : Axis) (r : AxisRec) (p : Plant) : ∃ posts axd, joinWaiting e a r p = { p with posts := posts, axd := axd } := by
  obtain ⟨x, hx⟩ := putAxis_rest e a { r with state := .waiting } p
  unfold joinWaiting
  rw [hx]
  obtain ⟨y, z, h⟩ := tryGrant_rest e (listWaiting a { setAxisRaw a (settleRecord e (axisOf p a) { r with state := .waiting }) p with posts := x })
  exact ⟨y, z, h⟩

theorem mem_insertNew {α : Type} [DecidableEq α] {l : List α} {a b : α} : b ∈ insertNew l a ↔ b = a ∨ b ∈ l := by
  unfold insertNew
  split
  · rename_i h; constructor
    · exact Or.inr
    · rintro (rfl | m) <;> assumption
  · simp [or_comm]

theorem joinWaiting_axis (e : Env) (a b : Axis) (r : AxisRec) (p : Plant) :
    (b = a → ((axisOf (joinWaiting e a r p) b).state = .waiting ∨ (axisOf (joinWaiting e a r p) b).state = .moving) ∧
      (axisOf (joinWaiting e a r p) b).requester = r.requester ∧ (axisOf (joinWaiting e a r p) b).cls = r.cls ∧ (axisOf (joinWaiting e a r p) b).target = r.target ∧
      (axisOf (joinWaiting e a r p) b).correction = r.correction ∧ (axisOf (joinWaiting e a r p) b).cap = r.cap ∧
      (axisOf (joinWaiting e a r p) b).recovery = r.recovery ∧ (axisOf (joinWaiting e a r p) b).drift = r.drift ∧
      (axisOf (joinWaiting e a r p) b).position = r.position) ∧
    (b ≠ a → grantedOrSame (axisOf p b) (axisOf (joinWaiting e a r p) b) ∧ (b ∉ p.axd.waiting → axisOf (joinWaiting e a r p) b = axisOf p b)) := by
  unfold joinWaiting
  have t := tryGrant_axis e (listWaiting a (putAxis e a { r with state := .waiting } p)) b
  simp only [axisOf_listWaiting, axisOf_putAxis, waiting_listWaiting, putAxis_axd, waiting_setAxisRaw, mem_insertNew] at t
  have f := settleRecord_fields e (axisOf p a) { r with state := .waiting }
  constructor
  · rintro rfl
    rw [if_pos rfl] at t
    obtain ⟨h0, h1, h2, h3, h4, h5, h6, h7, h8⟩ := grantedOrSame_fields t.1
    exact ⟨h0.imp (fun h => h.trans (by simp)) id, h1.trans f.1, h2.trans f.2.1, h3.trans f.2.2.1, h4.trans f.2.2.2.1, h5.trans f.2.2.2.2.1,
      h6.trans f.2.2.2.2.2.1, h8.trans f.2.2.2.2.2.2.2.1, h7.trans f.2.2.2.2.2.2.1⟩
  · intro hb
    rw [if_neg hb] at t
    exact ⟨t.1, fun n => t.2 (by rintro (h | h); exacts [hb h, n h])⟩

/-- A request on an IDLE axis with the latch CLEAR, no switch in the way and, for a head axis, the head free is accepted (R79 step 7). -/
theorem moveRequest_idle {e : Env} {p : Plant} {q : MoveRequest} (h : mayMoveTo e p q.axis q.target) :
    moveRequest e q p = (joinWaiting e q.axis (withRequest q (clampSoft e q.axis q.target) (axisOf p q.axis)) p,
      .accepted (clampSoft e q.axis q.target) (decide (clampSoft e q.axis q.target ≠ q.target))) := by
  obtain ⟨hl, hs, hb, hf⟩ := h
  unfold moveRequest requestFromClamp
  have hh : ¬ (isHead q.axis = true ∧ q.requester ≠ .jog ∧ headFree e p = false) := by
    rintro ⟨x, -, z⟩
    have : q.axis ≠ .mast := by intro m; rw [m] at x; cases x
    rw [hf this] at z; cases z
  simp [hl, hs, hb]
  intro x y
  by_contra z
  exact hh ⟨x, y, by simpa using z⟩

/-- One accepted request: the axis on its way, no other block touched, every axis that neither waits nor is asked as it was. -/
theorem moveRequest_moves {e : Env} {p : Plant} {q : MoveRequest} (h : mayMoveTo e p q.axis q.target) :
    (∃ x c, (moveRequest e q p).2 = .accepted x c) ∧ movesTo q.requester q.cls e (moveRequest e q p).1 q.axis q.target ∧
      (axisOf (moveRequest e q p).1 q.axis).cap = q.cap ∧ (∃ posts axd, (moveRequest e q p).1 = { p with posts := posts, axd := axd }) ∧
      ∀ b, b ≠ q.axis → grantedOrSame (axisOf p b) (axisOf (moveRequest e q p).1 b) ∧ (b ∉ p.axd.waiting → axisOf (moveRequest e q p).1 b = axisOf p b) := by
  rw [moveRequest_idle h]
  have t := (joinWaiting_axis e q.axis q.axis (withRequest q (clampSoft e q.axis q.target) (axisOf p q.axis)) p).1 rfl
  exact ⟨⟨_, _, rfl⟩, ⟨t.1, t.2.1, t.2.2.1, t.2.2.2.1, t.2.2.2.2.1⟩, t.2.2.2.2.2.1, joinWaiting_rest _ _ _ _,
    fun b hb => (joinWaiting_axis e q.axis b _ p).2 hb⟩

/-- A grant keeps an axis on its way. -/
theorem movesTo_granted {who : Requester} {cls : MotionClass} {e : Env} {p p' : Plant} {a : Axis} {target : Int} (h : movesTo who cls e p a target)
    (g : grantedOrSame (axisOf p a) (axisOf p' a)) : movesTo who cls e p' a target := by
  obtain ⟨s, r, c, t, k⟩ := h
  obtain ⟨g1, g2, g3, g4, g5, -⟩ := grantedOrSame_fields g
  exact ⟨g1.elim (fun x => x ▸ s) Or.inr, g2.trans r, g3.trans c, g4.trans t, g5.trans k⟩

/-- An axis that does not wait and was not asked may still be asked. -/
theorem mayMoveTo_kept {e : Env} {p p' : Plant} {a : Axis} {target : Int} (h : mayMoveTo e p a target) (latch : p'.aut = p.aut)
    (axis : axisOf p' a = axisOf p a) (free : headFree e p' = headFree e p) : mayMoveTo e p' a target := by
  obtain ⟨l, s, b, f⟩ := h
  exact ⟨latch ▸ l, axis ▸ s, axis ▸ b, fun n => free ▸ f n⟩

theorem headFree_position {e : Env} {p p' : Plant} (h : (axisOf p' .mast).position = (axisOf p .mast).position) : headFree e p' = headFree e p := by
  unfold headFree
  rw [show p'.axd.axes.mast.position = p.axd.axes.mast.position from h]

/-- A grant moves nothing. -/
theorem grantedOrSame_position {r r' : AxisRec} (h : grantedOrSame r r') : r'.position = r.position := (grantedOrSame_fields h).2.2.2.2.2.2.2.1

theorem not_waiting {p : Plant} (h : arbiterSound p = true) {a : Axis} (s : (axisOf p a).state ≠ .waiting) : a ∉ p.axd.waiting := by
  simp only [arbiterSound, Bool.and_eq_true, List.all_eq_true, decide_eq_true_eq] at h
  have := (h.2 a (by cases a <;> decide)).2
  exact fun m => s (this.1 m)

/-- The PAN and TILT requests of a point, both accepted (R139, R151). -/
theorem requestPoint_moves {e : Env} {who : Requester} {x : HeadPoint} {p : Plant} (h : mayMoveToPoint e p x) :
    (requestPoint e who x p).2 = { moveList := [.pan, .tilt], blocked := false, barred := false } ∧ moveToPoint who e (requestPoint e who x p).1 x ∧
      (axisOf (requestPoint e who x p).1 .pan).cap = none ∧ (axisOf (requestPoint e who x p).1 .tilt).cap = none ∧
      ∃ posts axd, (requestPoint e who x p).1 = { p with posts := posts, axd := axd } := by
  obtain ⟨hs, hp, ht⟩ := h
  obtain ⟨⟨y1, c1, a1⟩, m1, k1, ⟨posts1, axd1, r1⟩, o1⟩ := moveRequest_moves (q := pointMove who .pan x.pan none) hp
  have hw : Axis.tilt ∉ p.axd.waiting := not_waiting hs (by rw [ht.2.1]; decide)
  have same : axisOf (moveRequest e (pointMove who .pan x.pan none) p).1 .tilt = axisOf p .tilt := (o1 .tilt (by simp [pointMove])).2 hw
  have mast := grantedOrSame_position (o1 .mast (by simp [pointMove])).1
  have ht' : mayMoveTo e (moveRequest e (pointMove who .pan x.pan none) p).1 .tilt x.tilt :=
    mayMoveTo_kept ht (by rw [r1]) same (headFree_position mast)
  have first : requestPointAxis e who .pan x.pan (p, { moveList := [.pan, .tilt], blocked := false, barred := false }) =
      ((moveRequest e (pointMove who .pan x.pan none) p).1, { moveList := [.pan, .tilt], blocked := false, barred := false }) := by
    simp [requestPointAxis, a1]
  generalize hz : (moveRequest e (pointMove who .pan x.pan none) p).1 = z at *
  obtain ⟨⟨y2, c2, a2⟩, m2, k2, ⟨posts2, axd2, r2⟩, o2⟩ := moveRequest_moves (q := pointMove who .tilt x.tilt none) ht'
  have second : requestPoint e who x p =
      ((moveRequest e (pointMove who .tilt x.tilt none) z).1, { moveList := [.pan, .tilt], blocked := false, barred := false }) := by
    unfold requestPoint
    rw [first]
    simp [requestPointAxis, a2]
  rw [second]
  have g := (o2 .pan (by simp [pointMove])).1
  refine ⟨rfl, ⟨movesTo_granted m1 g, m2⟩, (grantedOrSame_fields g).2.2.2.2.2.1.trans k1, k2, ?_⟩
  rw [r2, r1]
  exact ⟨_, _, rfl⟩

/-- A run's move begun, both requests accepted: PAN and TILT on their way, and nothing else changed but posts (R151). -/
theorem runJobs_go {e : Env} {n : Nat} {st : RunStage} {p : Plant} (h : mayMoveToPoint e p (runTarget st p.run)) :
    moveToPoint .pke e (runJobs e (n + 1) (.go st) p) (runTarget st p.run) ∧
      (axisOf (runJobs e (n + 1) (.go st) p) .pan).cap = none ∧ (axisOf (runJobs e (n + 1) (.go st) p) .tilt).cap = none ∧
      ∃ posts axd, runJobs e (n + 1) (.go st) p = { p with
        posts := posts, axd := axd,
        run := { p.run with
          status := .running st, targets := clampPoint e (runTarget st p.run), moveList := [.pan, .tilt], blocked := false, barred := false } } := by
  have target : runTarget st (runStage st p).run = runTarget st p.run := by cases st <;> rfl
  obtain ⟨h2, hm, hc1, hc2, posts, axd, h1⟩ := requestPoint_moves (who := .pke) (p := runStage st p) (x := runTarget st p.run) h
  have eq : runJobs e (n + 1) (.go st) p = { p with
        posts := posts, axd := axd,
        run := { p.run with
          status := .running st, targets := clampPoint e (runTarget st p.run), moveList := [.pan, .tilt], blocked := false, barred := false } } := by
    simp only [runJobs, runMoves, target, h2, h1]
    rfl
  have ax (b : Axis) : axisOf (runJobs e (n + 1) (.go st) p) b = axisOf (requestPoint e .pke (runTarget st p.run) (runStage st p)).1 b := by
    rw [eq, h1]; cases b <;> rfl
  refine ⟨?_, by rw [ax]; exact hc1, by rw [ax]; exact hc2, posts, axd, eq⟩
  unfold moveToPoint movesTo at hm ⊢
  simp only [ax]
  exact hm

/-- A pattern's move begun, both requests accepted (R139, R144). -/
theorem patternJobs_go {e : Env} {n : Nat} {p : Plant} {x : Pattern} (hx : p.pat = some x) (h : mayMoveToPoint e p (patternTarget x x.point)) :
    moveToPoint .pat e (patternJobs e (n + 1) .go p) (patternTarget x x.point) ∧
      (axisOf (patternJobs e (n + 1) .go p) .pan).cap = none ∧ (axisOf (patternJobs e (n + 1) .go p) .tilt).cap = none ∧
      ∃ posts axd, patternJobs e (n + 1) .go p = { p with
        posts := posts, axd := axd,
        pat := some { x with
          status := .running (moveStage x), targets := clampPoint e (patternTarget x x.point), moveList := [.pan, .tilt], blocked := false, barred := false } } := by
  obtain ⟨h2, hm, hc1, hc2, posts, axd, h1⟩ := requestPoint_moves (who := .pat) (p := patternStage (moveStage x) p) (x := patternTarget x x.point) h
  have eq : patternJobs e (n + 1) .go p = { p with
        posts := posts, axd := axd,
        pat := some { x with
          status := .running (moveStage x), targets := clampPoint e (patternTarget x x.point), moveList := [.pan, .tilt], blocked := false, barred := false } } := by
    simp only [patternJobs, hx, h2, h1]
    simp [updatePattern, patternStage, setMoves, hx]
  have ax (b : Axis) : axisOf (patternJobs e (n + 1) .go p) b = axisOf (requestPoint e .pat (patternTarget x x.point) (patternStage (moveStage x) p)).1 b := by
    rw [eq, h1]; cases b <;> rfl
  refine ⟨?_, by rw [ax]; exact hc1, by rw [ax]; exact hc2, posts, axd, eq⟩
  unfold moveToPoint movesTo at hm ⊢
  simp only [ax]
  exact hm

theorem moveRequest_waiting {e : Env} {p : Plant} {q : MoveRequest} (h : mayMoveTo e p q.axis q.target) {b : Axis}
    (m : b ∈ (moveRequest e q p).1.axd.waiting) : b = q.axis ∨ b ∈ p.axd.waiting := by
  rw [moveRequest_idle h] at m
  have := tryGrant_waiting _ _ m
  simpa only [waiting_listWaiting, putAxis_axd, waiting_setAxisRaw, mem_insertNew] using this

/-- PNT's requests on axes none of which waits, each accepted (R127). -/
theorem slewRequests_moves {e : Env} (l : List Axis) : ∀ {p : Plant}, l.Nodup → (∀ a ∈ l, a ≠ .mast ∧ a ∉ p.axd.waiting ∧ mayMoveTo e p a (pointingTarget e p a)) →
    (∃ posts axd, slewRequests e l p = { p with posts := posts, axd := axd }) ∧ (∀ b, b ∉ l → grantedOrSame (axisOf p b) (axisOf (slewRequests e l p) b)) ∧
      ∀ a ∈ l, movesTo .pnt .headMove e (slewRequests e l p) a (pointingTarget e p a) := by
  induction l with
  | nil => exact fun _ _ => ⟨⟨_, _, rfl⟩, fun _ _ => Or.inl rfl, by simp⟩
  | cons a l ih =>
    intro p nd h
    have ha := h a (by simp)
    obtain ⟨⟨y, c, ans⟩, mv, -, ⟨posts, axd, rest⟩, others⟩ := moveRequest_moves (q := slewMove e p a) ha.2.2
    have wait := fun b => moveRequest_waiting (q := slewMove e p a) (b := b) ha.2.2
    have step : slewRequests e (a :: l) p = slewRequests e l (moveRequest e (slewMove e p a) p).1 := by
      simp only [slewRequests, ans, refusedForGood]
      simp
    generalize hz : (moveRequest e (slewMove e p a) p).1 = z at *
    have nd' := List.nodup_cons.1 nd
    have tz (b : Axis) : pointingTarget e z b = pointingTarget e p b := by rw [rest]; rfl
    have may : ∀ b ∈ l, b ≠ .mast ∧ b ∉ z.axd.waiting ∧ mayMoveTo e z b (pointingTarget e z b) := by
      intro b mb
      have hb := h b (by simp [mb])
      have ne : b ≠ a := fun x => nd'.1 (x ▸ mb)
      have same := (others b ne).2 hb.2.1
      refine ⟨hb.1, fun w => ?_, ?_⟩
      · rcases wait b w with x | x
        · exact ne x
        · exact hb.2.1 x
      · rw [tz]
        refine mayMoveTo_kept hb.2.2 (by rw [rest]) same ?_
        exact headFree_position (grantedOrSame_position (others .mast (Ne.symm ha.1)).1)
    obtain ⟨⟨p2, a2, r2⟩, o2, m2⟩ := ih nd'.2 may
    rw [step]
    refine ⟨⟨p2, a2, by rw [r2, rest]⟩, ?_, ?_⟩
    · intro b nb
      have ne : b ≠ a := fun x => nb (by simp [x])
      exact grantedOrSame_trans (others b ne).1 (o2 b (fun m => nb (by simp [m])))
    · intro b mb
      rcases List.mem_cons.1 mb with rfl | mb
      · exact movesTo_granted mv (o2 _ nd'.1)
      · rw [← tz]; exact m2 b mb

end Sys2Proof.Machine
end

