-- ==== Sys2Proof/Laws/MadePost.lean ====
section
/-! SUPPORT. That a post once made is never lost uncounted: what `madePost` says stays true through every operation of the plant
(R17). -/

namespace Sys2Proof.Machine

/-- What later posts keep: the entry waits, or the counter has risen or stood at its end, and it never falls. -/
def postKept (k : PostKey) (drops : Nat) (q : PostQueue) : Prop :=
  min 65535 drops ≤ q.drops ∧ (hasWaiting k q.entries = true ∨ drops < q.drops ∨ 65535 ≤ drops)

theorem hasWaiting_append (k : PostKey) (l m : List PostEntry) : hasWaiting k (l ++ m) = (hasWaiting k l || hasWaiting k m) := by
  simp [hasWaiting]

theorem hasWaiting_replace (k k' : PostKey) (x : List Byte) (l : List PostEntry) : hasWaiting k (replaceWaiting k' x l) = hasWaiting k l := by
  simp only [hasWaiting, replaceWaiting, List.any_map]
  congr 1
  funext y
  simp only [Function.comp]
  split <;> rfl

/-- The post under its key is made. -/
theorem postTo_made (k : PostKey) (t : Tag) (x : List Byte) (q : PostQueue) : postKept k q.drops (postTo k t x q) := by
  have new : hasWaiting k [newEntry k t x] = true := by simp [hasWaiting, newEntry]
  have b : min 65535 q.drops ≤ bump q.drops ∧ (q.drops < bump q.drops ∨ 65535 ≤ q.drops) := by unfold bump; split <;> omega
  unfold postTo postKept
  split
  · rename_i h
    exact ⟨by dsimp only; omega, Or.inl (by rw [hasWaiting_replace]; exact h)⟩
  · split
    · exact ⟨by dsimp only; omega, Or.inl (by rw [hasWaiting_append, new]; simp)⟩
    · split
      · split
        · exact ⟨b.1, Or.inl (by rw [hasWaiting_append, new]; simp)⟩
        · exact ⟨b.1, Or.inr b.2⟩
      · exact ⟨b.1, Or.inr b.2⟩

/-- Another post keeps it. -/
theorem postTo_kept {k : PostKey} {n : Nat} (k' : PostKey) (t : Tag) (x : List Byte) {q : PostQueue} (h : postKept k n q) : postKept k n (postTo k' t x q) := by
  obtain ⟨h1, h2⟩ := h
  have b : q.drops ≤ bump q.drops ∨ 65535 ≤ bump q.drops := by unfold bump; split <;> omega
  have c : q.drops < bump q.drops ∨ 65535 = bump q.drops := by unfold bump; split <;> omega
  have drop (e : List PostEntry) : postKept k n { entries := e, drops := bump q.drops } :=
    ⟨by dsimp only; omega, Or.inr (by dsimp only; omega)⟩
  unfold postTo
  split
  · exact ⟨h1, by dsimp only; rw [hasWaiting_replace]; exact h2⟩
  · split
    · refine ⟨h1, ?_⟩
      dsimp only
      rw [hasWaiting_append]
      rcases h2 with h | h
      · exact Or.inl (by rw [h]; rfl)
      · exact Or.inr h
    · split
      · split
        · exact drop _
        · exact drop _
      · exact drop _

/-! ### What every post keeps, every operation keeps -/

section
variable {P : PostQueue → Prop} (hP : ∀ k t x q, P q → P (postTo k t x q))

include hP

theorem postStatusIf_keeps (c : Bool) (e : Env) {p : Plant} (h : P p.posts) : P (postStatusIf c e p).posts := by
  cases c
  · exact h
  · exact hP _ _ _ _ h

theorem putAxis_keeps (e : Env) (a : Axis) (r : AxisRec) {p : Plant} (h : P p.posts) : P (putAxis e a r p).posts := by
  unfold putAxis
  refine postStatusIf_keeps hP _ e ?_
  split
  · exact hP _ _ _ _ h
  · exact h

theorem tryGrant_keeps (e : Env) {p : Plant} (h : P p.posts) : P (tryGrant e p).posts := by
  unfold tryGrant grantAxis
  split
  · split
    · exact putAxis_keeps hP _ _ _ h
    · exact h
  · exact h

/-- What every post keeps of the post queue, every operation of the plant keeps. -/
theorem evolves_keeps {e : Env} {p q : Plant} (g : Evolves e p q) (h : P p.posts) : P q.posts := by
  induction g with
  | refl => exact h
  | posted _ _ _ ih => exact hP _ _ _ _ ih
  | inner _ _ _ _ _ _ _ _ ih => exact ih
  | faults _ _ _ ih => exact ih
  | written _ _ _ _ ih => exact ih
  | rested _ _ _ _ _ _ ih => exact putAxis_keeps hP _ _ _ ih
  | abandoned _ _ _ _ _ ih => exact putAxis_keeps hP e _ _ ih
  | stopped _ _ _ ih => exact putAxis_keeps hP e _ _ ih
  | joined _ a r _ _ _ ih => exact tryGrant_keeps hP e (p := listWaiting a (putAxis e a { r with state := .waiting } _)) (putAxis_keeps hP _ _ _ ih)
  | replaced _ m x _ _ ih =>
    unfold replaceMove
    dsimp only
    repeat' split
    all_goals exact putAxis_keeps hP _ _ _ ih
  | granted _ ih => exact tryGrant_keeps hP e ih
  | stepped _ a ih =>
    unfold driveStep moveStep settleStep stopStep comeToRest
    dsimp only
    repeat' split
    all_goals first | exact ih | exact putAxis_keeps hP _ _ _ ih | exact putAxis_keeps hP _ _ _ (putAxis_keeps hP _ _ _ ih)
  | completed _ a _ ih =>
    unfold endSettled
    dsimp only
    split
    · exact putAxis_keeps hP e a _ (p := leaveGrants a (putAxis e a _ _)) (putAxis_keeps hP e a _ ih)
    · exact putAxis_keeps hP e a _ ih

end

/-- The drop counter does not fall. -/
theorem evolves_drops {e : Env} {p q : Plant} (g : Evolves e p q) : min 65535 p.posts.drops ≤ q.posts.drops := by
  refine evolves_keeps (P := fun x => min 65535 p.posts.drops ≤ x.drops) ?_ g (by omega)
  intro k t x y h
  have b : y.drops ≤ bump y.drops ∨ 65535 ≤ bump y.drops := by unfold bump; split <;> omega
  unfold postTo
  repeat' split
  all_goals (dsimp only at h ⊢; omega)

/-- A post among other operations was made. -/
theorem post_made {k : PostKey} {e : Env} {x : List Byte} {p r q : Plant} (before : Evolves e p r) (after : Evolves e (post e k x r) q) : madePost k p q := by
  have d := evolves_drops before
  have h := evolves_keeps (P := postKept k r.posts.drops) (fun _ _ _ _ => postTo_kept _ _ _) after (postTo_made k (postTag e k) x r.posts)
  obtain ⟨h1, h2⟩ := h
  unfold madePost
  rcases h2 with h2 | h2
  · exact Or.inl h2
  · exact Or.inr (by omega)

end Sys2Proof.Machine
end

