-- ==== Sys2Proof/Laws/Payloads.lean ====
section
/-! SUPPORT. That a notice once posted keeps its payload while only notices of other keys are posted, and which operations of AXD,
PNT, PAT and PKE post neither a DWELL_REPORT nor a REPLY (R17, R126, R142, R152). -/

namespace Sys2Proof.Machine

/-- What later posts under other keys keep: the entry waits with its payload, or the counter has risen or stood at its end, and it
never falls. -/
def payloadKept (k : PostKey) (x : List Byte) (drops : Nat) (q : PostQueue) : Prop :=
  min 65535 drops ≤ q.drops ∧ ((∃ y ∈ q.entries, y.key = k ∧ y.sending = false ∧ y.payload = x) ∨ drops < q.drops ∨ 65535 ≤ drops)

/-- The post under its key carries its payload. -/
theorem postTo_payload (k : PostKey) (t : Tag) (x : List Byte) (q : PostQueue) : payloadKept k x q.drops (postTo k t x q) := by
  have b : min 65535 q.drops ≤ bump q.drops ∧ (q.drops < bump q.drops ∨ 65535 ≤ q.drops) := by unfold bump; split <;> omega
  unfold payloadKept
  rcases postTo_cases k t x q with ⟨h, e⟩ | ⟨-, -, e⟩ | ⟨-, -, high, -, -, e⟩ | ⟨-, -, -, e⟩ <;> rw [e] <;> dsimp only
  · refine ⟨by omega, Or.inl ?_⟩
    simp only [hasWaiting, List.any_eq_true, Bool.and_eq_true, decide_eq_true_eq, Bool.not_eq_true'] at h
    obtain ⟨y, m, hk, hs⟩ := h
    refine ⟨_, List.mem_map.2 ⟨y, m, rfl⟩, ?_⟩
    simp [hk, hs]
  · exact ⟨by omega, Or.inl ⟨newEntry k t x, by simp, rfl, rfl, rfl⟩⟩
  · exact ⟨b.1, Or.inl ⟨newEntry k t x, by simp, rfl, rfl, rfl⟩⟩
  · exact ⟨b.1, Or.inr b.2⟩

/-- A post under another key keeps it. -/
theorem postTo_payloadKept {k : PostKey} {x : List Byte} {n : Nat} {k' : PostKey} (ne : k' ≠ k) (t : Tag) (z : List Byte) {q : PostQueue}
    (h : payloadKept k x n q) : payloadKept k x n (postTo k' t z q) := by
  obtain ⟨h1, h2⟩ := h
  have b : (q.drops ≤ bump q.drops ∨ 65535 ≤ bump q.drops) ∧ (q.drops < bump q.drops ∨ 65535 = bump q.drops) := by unfold bump; split <;> omega
  unfold payloadKept
  rcases postTo_cases k' t z q with ⟨-, e⟩ | ⟨-, -, e⟩ | ⟨-, -, high, -, -, e⟩ | ⟨-, -, -, e⟩ <;> rw [e] <;> dsimp only
  · refine ⟨h1, h2.imp_left ?_⟩
    rintro ⟨y, m, hk, hs, hp⟩
    refine ⟨y, List.mem_map.2 ⟨y, m, ?_⟩, hk, hs, hp⟩
    simp [hk, Ne.symm ne]
  · exact ⟨h1, h2.imp_left fun ⟨y, m, r⟩ => ⟨y, by simp [m], r⟩⟩
  · exact ⟨by omega, Or.inr (by omega)⟩
  · exact ⟨by omega, Or.inr (by omega)⟩

/-- Between `p` and `q` nothing was posted under this key. -/
def noPostOf (k : PostKey) (p q : Plant) : Prop :=
  ∀ P : PostQueue → Prop, (∀ k' t x y, k' ≠ k → P y → P (postTo k' t x y)) → P p.posts → P q.posts

/-- A post after which none other was made under its key waits with its payload, or a drop was counted. -/
theorem post_payload {e : Env} {k : PostKey} {x : List Byte} {p r q : Plant} (before : Evolves e p r) (after : noPostOf k (post e k x r) q) :
    postedWith k x p q := by
  have d := evolves_drops before
  have h := after (payloadKept k x r.posts.drops) (fun _ t z _ ne => postTo_payloadKept ne t z) (postTo_payload k (postTag e k) x r.posts)
  unfold postedWith
  rcases h with ⟨h1, h2 | h2⟩
  · exact Or.inl h2
  · exact Or.inr (by omega)

/-! ### The operations that post neither a DWELL_REPORT nor a REPLY -/

section
variable {P : PostQueue → Prop} (hP : ∀ k t x y, k ≠ PostKey.dwell → k ≠ PostKey.reply → P y → P (postTo k t x y))

include hP

theorem postStatusIf_noDwellReply (b : Bool) (e : Env) {p : Plant} (h : P p.posts) : P (postStatusIf b e p).posts := by
  unfold postStatusIf
  split
  · exact hP _ _ _ _ (by simp) (by simp) h
  · exact h

theorem putAxis_noDwellReply (e : Env) (a : Axis) (r : AxisRec) {p : Plant} (h : P p.posts) : P (putAxis e a r p).posts := by
  unfold putAxis
  refine postStatusIf_noDwellReply hP _ e ?_
  split
  · exact hP _ _ _ _ (by simp) (by simp) h
  · exact h

theorem tryGrant_noDwellReply (e : Env) {p : Plant} (h : P p.posts) : P (tryGrant e p).posts := by
  unfold tryGrant grantAxis
  split
  · split
    · exact putAxis_noDwellReply hP _ _ _ h
    · exact h
  · exact h

theorem handGrants_noDwellReply (e : Env) (n : Nat) : ∀ {p : Plant}, P p.posts → P (handGrants e n p).posts := by
  induction n with
  | zero => exact fun h => h
  | succ n ih => exact fun h => ih (tryGrant_noDwellReply hP e h)

theorem joinWaiting_noDwellReply (e : Env) (a : Axis) (r : AxisRec) {p : Plant} (h : P p.posts) : P (joinWaiting e a r p).posts :=
  tryGrant_noDwellReply hP e (p := listWaiting a (putAxis e a { r with state := .waiting } p)) (putAxis_noDwellReply hP e a _ h)

theorem moveRequest_noDwellReply (e : Env) (q : MoveRequest) {p : Plant} (h : P p.posts) : P (moveRequest e q p).1.posts := by
  have r (t : Int) : P (replaceMove e q t p).posts := by
    unfold replaceMove
    dsimp only
    repeat' split
    all_goals exact putAxis_noDwellReply hP _ _ _ h
  unfold moveRequest requestFromClamp
  dsimp only
  repeat' split
  all_goals first | exact h | exact joinWaiting_noDwellReply hP _ _ _ h | exact r _

theorem endMove_noDwellReply (e : Env) (a : Axis) {p : Plant} (h : P p.posts) : P (endMove e a p).posts := by
  unfold endMove
  split
  · exact putAxis_noDwellReply hP e a _ h
  · exact putAxis_noDwellReply hP e a _ h
  · exact putAxis_noDwellReply hP e a _ h
  all_goals exact h

theorem endMoves_noDwellReply (e : Env) (picks : AxisRec → Bool) (l : List Axis) {p : Plant} (h : P p.posts) : P (endMoves e picks l p).posts := by
  have all (l : List Axis) : ∀ {p : Plant}, P p.posts → P (l.foldl (fun x a => if picks (axisOf x a) then endMove e a x else x) p).posts := by
    induction l with
    | nil => exact fun h => h
    | cons a l ih =>
      intro p h
      refine ih ?_
      dsimp only
      split
      · exact endMove_noDwellReply hP e a h
      · exact h
  exact handGrants_noDwellReply hP e _ (all l h)

theorem setPointing_noDwellReply (e : Env) (st : PointState) {p : Plant} (h : P p.posts) : P (setPointing e st p).posts := by
  unfold setPointing
  refine postStatusIf_noDwellReply hP _ e ?_
  split
  · exact h
  · exact hP _ _ _ _ (by simp) (by simp) h

theorem requestPoint_noDwellReply (e : Env) (q : Requester) (x : HeadPoint) {p : Plant} (h : P p.posts) : P (requestPoint e q x p).1.posts := by
  have one (a : Axis) (t : Int) (y : Plant × PointMoves) (h : P y.1.posts) : P (requestPointAxis e q a t y).1.posts := by
    have m := moveRequest_noDwellReply hP e (pointMove q a t none) h
    unfold requestPointAxis
    dsimp only
    repeat' split
    all_goals first | exact h | exact m
  exact one .tilt x.tilt _ (one .pan x.pan (p, _) h)

theorem slewFails_noDwellReply (e : Env) {p : Plant} (h : P p.posts) : P (slewFails e p).posts := by
  have c : P (cancelMoves e .pnt headAxes p).posts := endMoves_noDwellReply hP e _ headAxes h
  unfold slewFails
  generalize cancelMoves e .pnt headAxes p = q at c
  exact setPointing_noDwellReply hP e .idle (p := { q with pnt := { q.pnt with slewList := [] } }) c

theorem slewRequests_noDwellReply (e : Env) (l : List Axis) : ∀ {p : Plant}, P p.posts → P (slewRequests e l p).posts := by
  induction l with
  | nil => exact fun h => h
  | cons a l ih =>
    intro p h
    have m := moveRequest_noDwellReply hP e (slewMove e p a) h
    unfold slewRequests
    dsimp only
    split
    · exact slewFails_noDwellReply hP e m
    · exact ih m

theorem startSlew_noDwellReply (e : Env) {p : Plant} (h : P p.posts) : P (startSlew e p).posts :=
  slewRequests_noDwellReply hP e headAxes (p := { p with pnt := { p.pnt with slewList := headAxes } }) h

theorem enterSlewing_noDwellReply (e : Env) {p : Plant} (h : P p.posts) : P (enterSlewing e p).posts := by
  unfold enterSlewing
  split
  · exact startSlew_noDwellReply hP e (setPointing_noDwellReply hP e _ h)
  · exact setPointing_noDwellReply hP e _ (endMoves_noDwellReply hP e _ headAxes h)

theorem beginAim_noDwellReply (e : Env) {p : Plant} (h : P p.posts) : P (beginAim e p).posts := by
  have c : P (cancelMoves e .pnt headAxes p).posts := endMoves_noDwellReply hP e _ headAxes h
  unfold beginAim
  split
  · generalize cancelMoves e .pnt headAxes p = q at c
    exact setPointing_noDwellReply hP e .waitingMast (p := { q with pnt := { q.pnt with slewList := [] } }) c
  all_goals exact enterSlewing_noDwellReply hP e h

theorem enterReturn_noDwellReply (e : Env) {p : Plant} (h : P p.posts) : P (enterReturn e p).posts :=
  startSlew_noDwellReply hP e (setPointing_noDwellReply hP e _ h)

theorem takeRowEnd_noDwellReply (e : Env) (row pass : Nat) {p : Plant} (h : P p.posts) : P (takeRowEnd e row pass p).posts := hP _ _ _ _ (by simp) (by simp) h

omit hP in
theorem cancelDwell_posts (q : Requester) (p : Plant) : (cancelDwell q p).posts = p.posts := by
  unfold cancelDwell
  dsimp only
  repeat' split
  all_goals rfl

theorem discardRun_noDwellReply (e : Env) {p : Plant} (h : P p.posts) : P (discardRun e p).posts := by
  have c : P (cancelDwell .pke (cancelMoves e .pke pointAxes p)).posts := by
    rw [cancelDwell_posts]
    exact endMoves_noDwellReply hP e _ pointAxes h
  exact c

theorem suspendRun_noDwellReply (e : Env) {p : Plant} (h : P p.posts) : P (suspendRun e p).posts := by
  have c : P (cancelDwell .pke (cancelMoves e .pke pointAxes p)).posts := by
    rw [cancelDwell_posts]
    exact endMoves_noDwellReply hP e _ pointAxes h
  unfold suspendRun
  split <;> first | exact c | exact h

theorem suspendPattern_noDwellReply (e : Env) {p : Plant} (h : P p.posts) : P (suspendPattern e p).posts := by
  have c : P (cancelDwell .pat (cancelMoves e .pat pointAxes p)).posts := by
    rw [cancelDwell_posts]
    exact endMoves_noDwellReply hP e _ pointAxes h
  unfold suspendPattern
  repeat' split
  all_goals first | exact c | exact h

/-- A run's move begun, both requests accepted. -/
theorem runJobs_go_noDwellReply {e : Env} {n : Nat} {st : RunStage} {p : Plant} (m : mayMoveToPoint e p (runTarget st p.run)) (h : P p.posts) :
    P (runJobs e (n + 1) (.go st) p).posts := by
  have target : runTarget st (runStage st p).run = runTarget st p.run := by cases st <;> rfl
  have all := (requestPoint_moves (who := .pke) (p := runStage st p) (x := runTarget st p.run) m).1
  have r := requestPoint_noDwellReply hP e .pke (runTarget st p.run) (p := runStage st p) h
  simp only [runJobs, runMoves, target, all]
  exact r

/-- A pattern's move begun, both requests accepted. -/
theorem patternJobs_go_noDwellReply {e : Env} {n : Nat} {p : Plant} {x : Pattern} (hx : p.pat = some x) (m : mayMoveToPoint e p (patternTarget x x.point))
    (h : P p.posts) : P (patternJobs e (n + 1) .go p).posts := by
  have all := (requestPoint_moves (who := .pat) (p := patternStage (moveStage x) p) (x := patternTarget x x.point) m).1
  have r := requestPoint_noDwellReply hP e .pat (patternTarget x x.point) (p := patternStage (moveStage x) p) h
  simp only [patternJobs, hx, all]
  exact r

end

end Sys2Proof.Machine
end

