-- ==== Sys2Proof/Laws/PerInstr.lean ====
section
/-! SUPPORT. A statement about each command as syntax: the table gives no row any bits, so no table word spells it. -/

namespace Sys2Proof.Laws.TableWord

/-- No word spells the command. -/
def Statement (i : Instr) : Prop := ∀ nbits w : Nat, decodeTableWord nbits w ≠ some i

theorem none_spells (i : Instr) : Statement i := fun _ _ h => nomatch h

theorem coldStart (reason : ResetReason) : Statement (.coldStart reason) := none_spells _

theorem resetRelease (station : BitVec 5) (mastPinHigh : Bool) : Statement (.resetRelease station mastPinHigh) := none_spells _

theorem configLoadComplete (record : List Byte) : Statement (.configLoadComplete record) := none_spells _

theorem configLoadTimeout : Statement .configLoadTimeout := none_spells _

theorem memoryNoAnswer : Statement .memoryNoAnswer := none_spells _

theorem startSequence (mast pan tilt pol : AxisPins) : Statement (.startSequence mast pan tilt pol) := none_spells _

theorem lineIdle : Statement .lineIdle := none_spells _

theorem startBit : Statement .startBit := none_spells _

theorem stuckEvent : Statement .stuckEvent := none_spells _

theorem noticeArrival (frame : Frame) : Statement (.noticeArrival frame) := none_spells _

theorem noticeDiscard (cause : DiscardCause) : Statement (.noticeDiscard cause) := none_spells _

theorem startOutsideIdle : Statement .startOutsideIdle := none_spells _

theorem noticeBegin : Statement .noticeBegin := none_spells _

theorem contentionLost (bit : Fin 12) : Statement (.contentionLost bit) := none_spells _

theorem sendFault (mismatch : Mismatch) : Statement (.sendFault mismatch) := none_spells _

theorem sentWhole : Statement .sentWhole := none_spells _

theorem withdrawalExpiry : Statement .withdrawalExpiry := none_spells _

theorem linkReportPeriodExpiry : Statement .linkReportPeriodExpiry := none_spells _

theorem vehicle : Statement .vehicle := none_spells _

theorem wind : Statement .wind := none_spells _

theorem clearance : Statement .clearance := none_spells _

theorem level : Statement .level := none_spells _

theorem positionerStatus : Statement .positionerStatus := none_spells _

theorem resume : Statement .resume := none_spells _

theorem clearFault : Statement .clearFault := none_spells _

theorem report : Statement .report := none_spells _

theorem raise : Statement .raise := none_spells _

theorem lower : Statement .lower := none_spells _

theorem aim : Statement .aim := none_spells _

theorem peak : Statement .peak := none_spells _

theorem cancelPointing : Statement .cancelPointing := none_spells _

theorem jog : Statement .jog := none_spells _

theorem unknownCommandCode : Statement .unknownCommandCode := none_spells _

theorem freshnessExpiry (role : Role) : Statement (.freshnessExpiry role) := none_spells _

theorem stopWindowExpiry : Statement .stopWindowExpiry := none_spells _

theorem duplicateQuietExpiry : Statement .duplicateQuietExpiry := none_spells _

theorem reportRoundPost : Statement .reportRoundPost := none_spells _

theorem statusPeriodExpiry : Statement .statusPeriodExpiry := none_spells _

theorem scanConversionComplete (result : Count) : Statement (.scanConversionComplete result) := none_spells _

theorem dwellConversionComplete (result : Count) : Statement (.dwellConversionComplete result) := none_spells _

theorem dwellFree (requester : Requester) : Statement (.dwellFree requester) := none_spells _

theorem servoPeriod (axis : Axis) (pins : AxisPins) : Statement (.servoPeriod axis pins) := none_spells _

theorem stallTimeout (axis : Axis) : Statement (.stallTimeout axis) := none_spells _

theorem settleTimeExpiry (axis : Axis) : Statement (.settleTimeExpiry axis) := none_spells _

theorem axisReportPeriodExpiry (axis : Axis) : Statement (.axisReportPeriodExpiry axis) := none_spells _

theorem axisFree (axis : Axis) (requester : Requester) : Statement (.axisFree axis requester) := none_spells _

theorem driveGrant : Statement .driveGrant := none_spells _

theorem presetSettleExpiry : Statement .presetSettleExpiry := none_spells _

theorem searchSettleExpiry : Statement .searchSettleExpiry := none_spells _

theorem patternResumeDelayExpiry : Statement .patternResumeDelayExpiry := none_spells _

theorem crossSettleExpiry : Statement .crossSettleExpiry := none_spells _

theorem closingSettleExpiry : Statement .closingSettleExpiry := none_spells _

theorem runResumeDelayExpiry : Statement .runResumeDelayExpiry := none_spells _

theorem trackSamplePeriodExpiry : Statement .trackSamplePeriodExpiry := none_spells _

theorem fadeTimerExpiry : Statement .fadeTimerExpiry := none_spells _

theorem lossTimerExpiry : Statement .lossTimerExpiry := none_spells _

end Sys2Proof.Laws.TableWord
end

