-- ==== Sys2Proof/Tests/Slice0.lean ====
section
/-! SUPPORT. Tests of the model: the well-formedness smoke tests, the worked examples of spec/ on small states, and for every
statement with hypotheses a state and operands that meet them (`witness_…`). Expected results are the spec's own figures,
or worked by hand from its rules. -/

namespace Sys2Proof.Tests

set_option Elab.async false

open Sys2Proof Sys2Proof.Machine

/-! ### A small part

The configuration and the part of the worked examples: station 5, mast 1, panels 2 and 3, vehicle 12, weather 14,
clearance 15, return link 20. -/

def axisSettings (low high : Int) : AxisCfg :=
  { softMin := low, softMax := high, fullScale := 4000, vmax := 3000, speedStep := 10, stopStep := 50, stallSpeed := 200, gain := 32, window := 20,
    settleTime := 5, stallTime := 300, stallDelta := 5, margin := 100 }

/-- The supply watch of spec/05, on A4. -/
def supplyWatch : WatchCfg := { channel := 4, threshold := 2600, edgeCode := 1, depth := 2, action := .haltAll, axis := .mast, kindCode := 2 }

def noWatch : WatchCfg := { channel := 0, threshold := 0, edgeCode := 0, depth := 1, action := .none, axis := .mast, kindCode := 0 }

def record : ConfigRecord :=
  { vehicleStation := 12, windStation := 14, clearanceStation := 15, levelStation := 20, panel1 := 2, panel2 := 3, panel3 := 0, vehicleLimit := 500,
    windLimit := 2000, clearanceLimit := 2000, levelLimit := 2000, source := .localSource, pilot := 3, enabled := 0b01111001, budget := 2, windRaise := 150,
    windHold := 200, windAlarm := 250, hysteresis := 20, windDepth := 4, vanLevel := 300, clearanceMargin := 500, headHeight := 700, cradleClear := 900,
    stowWindow := 150, stowPan := 100, stowTiltWindow := 100, stowPol := 200, stowTilt := -1500, mast := axisSettings 0 15000,
    pan := axisSettings (-35000) 35000, tilt := axisSettings (-2000) 9000, pol := axisSettings (-9500) 9500,
    watches := [supplyWatch, noWatch, noWatch, noWatch, noWatch, noWatch], lZero := -900, lGain := 800, floor := -700, fadeDrop := 30, fadeTime := 2000,
    lossTime := 5000, sigma := 100, rows := 3, points := 3, passes := 2, mode := .step, peakN := 4, settle := 200, lag := 300, delta0 := 40, deltaMin := 10,
    deltaTrack := 20, tolerance := 3, roundLimit := 8 }

/-- An idle axis at its hold target. -/
def idleAt (x : Int) : AxisRec := { AxisRec.cold with position := some x, target := some x, sensorValid := true }

/-- An axis with a move of a requester, v 0. -/
def moveAt (state : AxisState) (who : Requester) (cls : MotionClass) (x target : Int) : AxisRec :=
  { idleAt x with state := state, target := some target, requester := some who, cls := some cls, brakeSet := decide (state = .waiting) }

def fresh {α : Type} (value : α) : PeerEntry α := { state := some .fresh, value := some value, stamp := some 1000 }

def allGiven : PermissiveSet :=
  { brakeSet := true, outriggersDown := true, vanLevelOk := true, headingOk := true, windRaiseOk := true, windMoveOk := true, clearanceOk := true, levelOk := true }

/-- Every role fresh, every permissive given, both filters BELOW. -/
def view : PeerView :=
  { vehicle := fresh { brakeSet := true, outriggersDown := true, pitch := 120, roll := -80, heading := 4000, headingValid := true },
    wind := fresh { mean := 50, gust := 60 }, clearance := fresh none, level := .unbound, raiseFilter := { side := .below, run := 0 },
    holdFilter := { side := .below, run := 0 }, alarm := false, permissives := allGiven }

/-- The plant of a part at rest, the mast at a height and in a state, the head at PAN 60, TILT −1480, POL 0. -/
def plantAt (height : Int) (mast : MastState) : Plant :=
  { Plant.cold with
    pvw := view, smp := { Sampler.cold with converter := some { channel := 0, purpose := .scan }, scanPointer := 3 },
    axd := { Drives.cold with axes := { mast := idleAt height, pan := idleAt 60, tilt := idleAt (-1480), pol := idleAt 0 } },
    msq := { state := mast, stranded := false } }

/-- A running part with that plant, the line IDLE, nothing waiting. -/
def partWith (c : ConfigRecord) (p : Plant) : State :=
  { State.reset with
    clock := 1000, plant := p,
    setup := { Setup.cold .power with phase := .running, station := 5, result := .loaded, cfg := c },
    line := { Line.cold with condition := .idle, releasedBits := 12, reportStart := some 0 } }

/-- The mast RAISED at 8600 mm. -/
def up : State := partWith record (plantAt 8600 .raised)

/-- The mast STOWED at 40 mm. -/
def stowed : State := partWith record (plantAt 40 .stowed)

def onPlant (f : Plant → Plant) (s : State) : State := { s with plant := f s.plant }

def onAxis (a : Axis) (f : AxisRec → AxisRec) (s : State) : State := onPlant (fun p => setAxisRaw a (f (axisOf p a)) p) s

def onLine (f : Line → Line) (s : State) : State := { s with line := f s.line }

def onConfig (f : ConfigRecord → ConfigRecord) (s : State) : State := { s with setup := { s.setup with cfg := f s.setup.cfg } }

def atClock (n : Nat) (s : State) : State := { s with clock := BitVec.ofNat 32 n }

/-- One entry waits to be taken, stamped with the clock. -/
def entry (kind : ArrivalKind) (source : Nat) (payload : List Byte) (s : State) : ArrivalEntry :=
  { kind := kind, source := source, payload := payload, stamp := s.clock.setWidth 16 }

def waits (kind : ArrivalKind) (source : Nat) (payload : List Byte) (s : State) : State := { s with arrivals := [entry kind source payload s] }

/-- A COMMAND from panel 2 waits. -/
def commands (payload : List Byte) (s : State) : State := waits .command 2 payload s

def command (payload : List Byte) (s : State) : ArrivalEntry := entry .command 2 payload s

/-- A notice is being assembled. -/
def assembling (s : State) : State := onLine (fun l => { l with condition := .busy, receiver := .assembling, releasedBits := 0 }) s

/-- The frame a sender forms from a tag and a payload. -/
def frameOf (urgency kind source : Nat) (payload : List Byte) : Frame :=
  let tag := tagOf urgency kind source
  let length := BitVec.ofNat 4 payload.length
  { tag := tag, length := length, payload := payload, check := crcOf (checkedBits tag length payload) }

/-- The state a command leads to. -/
def after (c : Instr) (s : State) : Option State :=
  match exec c s with
  | .next t => some t
  | _ => none

/-- Something read from the state a command leads to. -/
def seen {α : Type} (c : Instr) (s : State) (f : State → α) : Option α := (after c s).map f

/-- Outcome, reason and value of the waiting REPLY (Table 11-1). -/
def answer (s : State) : Option (Nat × Nat × Int) :=
  (s.plant.posts.entries.find? fun x => decide (x.key = .reply)).map fun x =>
    ((byteAt x.payload 1).toNat, (byteAt x.payload 2).toNat, (word16At x.payload 3).toInt)

/-- The keys that wait or are sent, oldest first. -/
def keys (s : State) : List PostKey := s.plant.posts.entries.map fun x => x.key

def stateOf (a : Axis) (s : State) : AxisState := (axisOf s.plant a).state

def targetOf (a : Axis) (s : State) : Option Int := (axisOf s.plant a).target

/-- What one axis's inputs read, no switch active. -/
def reads (x : Int) : AxisPins := { reading := some (BitVec.ofInt 24 x), low := false, high := false }

def invalid : AxisPins := { reading := none, low := false, high := false }

def waiting (key : PostKey) (tag : Nat) : PostEntry :=
  { key := key, tag := BitVec.ofNat 12 tag, payload := [], sending := false, overrunSince := false }

def sending (key : PostKey) (tag : Nat) : PostEntry := { waiting key tag with sending := true }

def posted (l : List PostEntry) (s : State) : State := onPlant (fun p => { p with posts := { entries := l, drops := 0 } }) s

/-! ### Well-formedness: one ill-formed command for each check, refused -/

theorem test_wf_accepts_a_legal_frame : (Instr.noticeArrival (frameOf 1 3 14 [0, 130, 0, 120])).wf = true := by decide +kernel

theorem test_wf_refuses_length_above_ten :
    (Instr.noticeArrival { tag := 0, length := 11, payload := List.replicate 11 0, check := 0 }).wf = false := by decide +kernel

theorem test_wf_refuses_a_payload_of_another_length :
    (Instr.noticeArrival { tag := 0, length := 2, payload := [0], check := 0 }).wf = false := by decide +kernel

theorem test_wf_refuses_mismatches_outside_a_notice :
    (Instr.sendFault (.sentZero 113)).wf = false ∧ (Instr.sendFault (.sentOne 12)).wf = false ∧ (Instr.sendFault (.sentOne 113)).wf = false ∧
      (Instr.sendFault (.sentOne 13)).wf = true := by decide +kernel

theorem test_wf_refuses_a_record_of_159_bytes : (Instr.configLoadComplete (List.replicate 159 0)).wf = false := by decide +kernel

theorem test_wf_refuses_a_dwell_of_msq_or_jog : (Instr.dwellFree .msq).wf = false ∧ (Instr.dwellFree .jog).wf = false ∧ (Instr.dwellFree .pat).wf = true := by
  decide +kernel

theorem test_wf_refuses_an_axis_noted_by_jog : (Instr.axisFree .pan .jog).wf = false ∧ (Instr.axisFree .pan .msq).wf = true := by decide +kernel

/-! ### Start-up (spec/02) -/

/-- R19. -/
theorem test_cold_start_sets_brakes_and_records_the_reason :
    seen (.coldStart .pin) up (fun t => (t.setup.resetReason, t.setup.phase, t.plant.axd.axes.pan.brakeSet, t.plant.msq.state)) =
      some (.pin, .reset, true, .halted .start) := by decide +kernel

/-- R20: a station of 31 is a strap fault; 5 begins the load. -/
theorem test_straps :
    seen (.resetRelease 31 true) State.reset (fun t => (t.setup.phase, t.setup.result)) = some (.safe, .fault .strap) ∧
      seen (.resetRelease 5 true) State.reset (fun t => (t.setup.phase, t.setup.station, t.setup.mastNumber)) = some (.loading, 5, 2) := by decide +kernel

def loading : State := { State.reset with setup := { State.reset.setup with phase := .loading, station := 5 } }

/-- The check of a record: the CRC over its content (R21). -/
def withCheck (content : List Byte) : List Byte := content ++ bytes16 (crcOf (bitsOfBytes content))

/-- A record of zeros, whose check is 0. -/
def zeros : List Byte := List.replicate 160 0

/-- The vehicle station 5, the part's own (R24). -/
def clashing : List Byte := withCheck (40 :: List.replicate 157 0)

/-- R21: a record of zeros passes its check and is clamped; one of ones does not pass; the fields that are zero go to their nearest
legal value (R22). -/
theorem test_record_of_zeros_is_clamped :
    seen (.configLoadComplete zeros) loading (fun t => (t.setup.phase, t.setup.result, t.setup.cfg.windLimit, t.setup.cfg.budget)) =
      some (.loaded, .clamped, 100, 1) ∧
    seen (.configLoadComplete (List.replicate 160 1)) loading (fun t => t.setup.result) = some (.fault .check) := by decide +kernel

/-- R24: a role station equal to the part's own number is a structural fault. -/
theorem test_structural_check : seen (.configLoadComplete clashing) loading (fun t => (t.setup.phase, t.setup.result)) =
    some (.safe, .fault .structural) := by decide +kernel

/-- R21: 30 ms after the release the load ends NO_ANSWER, and not before. -/
theorem test_load_timeout :
    seen .configLoadTimeout (atClock 29 loading) (fun t => t.setup.result) = some .pending ∧
      seen .configLoadTimeout (atClock 30 loading) (fun t => t.setup.result) = some (.fault .noAnswer) ∧
      seen .memoryNoAnswer loading (fun t => t.setup.result) = some (.fault .noAnswer) := by decide +kernel

/-- The worked example of clamping of spec/02. -/
theorem test_clamping_example :
    (fun (c : ConfigRecord) => ([c.windLimit, c.windDepth, c.rows, c.points, c.deltaMin, c.deltaTrack], [c.tilt.softMax, c.stowTilt], c.enabled))
      (agreeFields (clampRanges { record with
        levelStation := 0, panel3 := 3, windLimit := 50, windDepth := 3, rows := 4, points := 33, tilt := { record.tilt with softMin := 200, softMax := 100 },
        stowTilt := -500, delta0 := 30, deltaMin := 50, deltaTrack := 80, enabled := 0b00010001 })) =
      ([100, 2, 3, 31, 30, 30], [200, 200], 0b00011001) := by decide +kernel

def loadedPart : State := acceptRecord .loaded record loading

/-- The two cold starts of spec/02: mast 420 with TILT outside stow; mast 40 with POL invalid. -/
theorem test_two_cold_starts :
    seen (.startSequence (reads 420) (reads 60) (reads (-1300)) (reads 0)) loadedPart
        (fun t => (t.plant.msq.state, t.plant.flt.records, t.plant.aut.latch, keys t)) =
      some (.halted .start, [{ kind := .headUnparked, axis := .one .mast }], some .start, [.status]) ∧
    seen (.startSequence (reads 40) (reads 0) (reads (-1480)) invalid) loadedPart
        (fun t => (t.plant.msq.state, t.plant.flt.records, stateOf .pol t, stateOf .mast t)) =
      some (.halted .start, [{ kind := .sensor, axis := .one .pol }, { kind := .headUnparked, axis := .one .mast }], .fault, .fault) := by decide +kernel

/-! ### The line (spec/01) -/

/-- The CRC of a single 1 bit is the polynomial, and a further 0 bit shifts it (R3, worked by hand). -/
theorem test_crc : crcOf [true] = 0x3D65 ∧ crcOf [true, false] = 0x7ACA ∧ crcOf (List.replicate 16 false) = 0 := by decide +kernel

/-- Table 1-2, station 5. -/
theorem test_tags : ([PostKey.halt, .reply, .status, .axisReport .pan, .pointing, .dwell, .link].map fun k => (postTag (envOf up) k).toNat) =
    [1061, 2341, 2373, 2405, 2437, 3621, 3653] := by decide +kernel

theorem test_line_goes_idle_busy_stuck :
    seen .lineIdle (onLine (fun l => { l with condition := .unknown, reportStart := none }) up) (fun t => (t.line.condition, t.line.reportStart)) =
      some (.idle, some 1000) ∧
    seen .startBit up (fun t => (t.line.condition, t.line.receiver)) = some (.busy, .assembling) ∧
    seen .stuckEvent (assembling up) (fun t => (t.line.condition, t.line.counters.stuckEvents, t.line.counters.receiveFaults)) = some (.stuck, 1, 1) := by
  decide +kernel

/-- R2, R8: a stuck event while the part sends is a send fault. -/
theorem test_stuck_while_sending :
    seen .stuckEvent (onLine (fun l => { l with condition := .busy }) (posted [sending .status 2373] up))
      (fun t => (t.line.condition, t.line.score, t.plant.posts.entries.map fun x => x.sending)) = some (.stuck, 8, [false]) := by decide +kernel

/-- R12, R48: a STOP of station 12 acts at its arrival; R13: a wrong urgency is ignored; R14: a WIND of another station is foreign. -/
theorem test_notice_arrival :
    seen (.noticeArrival (frameOf 0 0 12 [])) (assembling up) (fun t => (t.plant.aut.latch, t.plant.msq.state, t.arrivals.length)) =
      some (some (.stop 12), .halted .stop, 0) ∧
    seen (.noticeArrival (frameOf 2 3 14 [0, 1, 0, 2])) (assembling up) (fun t => (t.line.counters.ignored, t.arrivals.length)) = some (1, 0) ∧
    seen (.noticeArrival (frameOf 1 3 15 [0, 1, 0, 2])) (assembling up) (fun t => (t.line.counters.foreign, t.arrivals.length)) = some (1, 0) := by
  decide +kernel

/-- R12, R53: a notice of the part's own number is a duplicate event. -/
theorem test_own_number : seen (.noticeArrival (frameOf 1 3 5 [0, 1, 0, 2])) (assembling up) (fun t => (t.plant.aut.latch, t.plant.aut.duplicate)) =
    some (some .duplicate, some 1000) := by decide +kernel

theorem test_discard_and_start_outside_idle :
    seen (.noticeDiscard .badCheck) (assembling up) (fun t => (t.line.counters.receiveFaults, t.line.receiver)) = some (1, .afterDiscard) ∧
    seen .startOutsideIdle (onLine (fun l => { l with condition := .busy, receiver := .afterNotice }) up) (fun t => t.line.counters.receiveFaults) = some 1 ∧
    seen .startOutsideIdle (onLine (fun l => { l with condition := .busy, receiver := .afterDiscard }) up) (fun t => t.line.counters.receiveFaults) =
      some 0 := by decide +kernel

/-- The worked sequence of spec/01 §1.9: of AR-PAN, PS and RP, the REPLY begins; lost in its seventh tag bit, it waits again in its
old place. -/
theorem test_notice_begin_and_contention :
    seen .noticeBegin (posted [waiting (.axisReport .pan) 2405, waiting .status 2373, waiting .reply 2341] up)
      (fun t => t.plant.posts.entries.map fun x => (x.tag.toNat, x.sending)) = some [(2405, false), (2373, false), (2341, true)] ∧
    seen (.contentionLost 6) (posted [waiting .status 2373, sending .reply 2341] up)
      (fun t => (t.plant.posts.entries.map (fun x => (x.tag.toNat, x.sending)), t.line.score)) = some ([(2373, false), (2341, false)], 0) := by decide +kernel

/-- R18: the returning entry leaves when a newer one of its key waits. -/
theorem test_contention_with_a_newer_post :
    seen (.contentionLost 0) (posted [sending .status 2373, waiting (.axisReport .pan) 2405, waiting .status 2373] up)
      (fun t => (keys t, t.plant.posts.drops)) = some ([.axisReport .pan, .status], 0) := by decide +kernel

/-- The worked sequence of spec/01 §1.5: 127 and a send fault make 135 and withdraw the link; 120 and a notice sent whole make 119. -/
theorem test_score :
    seen (.sendFault (.sentZero 20)) (onLine (fun l => { l with condition := .busy, score := 127 }) (posted [sending .status 2373] up))
      (fun t => (t.line.score, t.line.linkState, t.line.counters.sendFaults)) = some (135, .withdrawn 1000, 1) ∧
    seen .sentWhole (onLine (fun l => { l with condition := .busy, score := 120 }) (posted [sending .status 2373] up))
      (fun t => (t.line.score, t.plant.posts.entries)) = some (119, []) := by decide +kernel

def withdrawn : State := onLine (fun l => { l with linkState := .withdrawn 1000, score := 135 }) up

theorem test_withdrawal_lasts_2000_ms :
    seen .withdrawalExpiry (atClock 2999 withdrawn) (fun t => t.line.score) = some 135 ∧
      seen .withdrawalExpiry (atClock 3000 withdrawn) (fun t => (t.line.score, t.line.linkState)) = some (0, .active) := by decide +kernel

theorem test_link_report_period :
    seen .linkReportPeriodExpiry (atClock 5000 up) (fun t => (keys t, t.line.group)) = some ([.link], 1) ∧
      seen .linkReportPeriodExpiry (atClock 4999 up) keys = some [] := by decide +kernel

/-- The full queue of spec/01 §1.9. -/
def fullQueue : PostQueue :=
  { entries := [waiting (.axisReport .pan) 2405, waiting .status 2373, waiting .reply 2341, waiting (.axisReport .tilt) 2405, waiting .dwell 3621,
      waiting .link 3653], drops := 0 }

/-- DWELL_REPORT replaces, HALT displaces LINK_REPORT, LINK_REPORT is dropped, AR-MAST displaces DWELL_REPORT. -/
theorem test_full_post_queue :
    (fun (q : PostQueue) => (q.drops, q.entries.map fun x => x.key))
      (postTo (.axisReport .mast) 2405 [] (postTo .link 3653 [] (postTo .halt 1061 [] (postTo .dwell 3621 [1] fullQueue)))) =
      (3, [.axisReport .pan, .status, .reply, .axisReport .tilt, .halt, .axisReport .mast]) := by decide +kernel


/-! ### Peer view (spec/03) -/

def vehicleBytes (flags : Nat) (pitch roll : Int) (heading : Nat) : List Byte := [byteOf flags] ++ s16 pitch ++ s16 roll ++ u16 heading

/-- The worked sequence of spec/03 §3.7: pitch 1250 is stored 1000 and VAN_LEVEL_OK is lost; a heading of 36000 is not valid (R32). -/
theorem test_vehicle :
    seen .vehicle (waits (.role .vehicle) 12 (vehicleBytes 7 1250 (-80) 4000) up)
      (fun t => (t.plant.pvw.vehicle.value.map (·.pitch), t.plant.pvw.permissives.vanLevelOk, t.plant.pvw.permissives.brakeSet)) = some (some 1000, false, true) ∧
    seen .vehicle (waits (.role .vehicle) 12 (vehicleBytes 7 90 40 36000) up)
      (fun t => (t.plant.pvw.vehicle.value.map (fun v => (v.heading, v.headingValid)), t.plant.pvw.permissives.headingOk)) = some (some (0, false), false) := by
  decide +kernel

/-- R45: a released brake with the mast up raises DRIVE_AWAY on ALL; with the mast STOWED it does not. -/
theorem test_drive_away :
    seen .vehicle (waits (.role .vehicle) 12 (vehicleBytes 6 0 0 0) up) (fun t => (t.plant.flt.records, stateOf .pan t)) =
      some ([{ kind := .driveAway, axis := .all }], .fault) ∧
    seen .vehicle (waits (.role .vehicle) 12 (vehicleBytes 6 0 0 0) stowed) (fun t => t.plant.flt.records) = some [] := by decide +kernel

/-- R33: mean 130 and gust 120 are stored with gust 130, in the raise filter's band; a gust of 160 takes the filter ABOVE. -/
theorem test_wind :
    seen .wind (waits (.role .wind) 14 (u16 130 ++ u16 120) (onPlant (fun p => { p with pvw := { p.pvw with raiseFilter := { side := .above, run := 2 } } }) up))
      (fun t => (t.plant.pvw.wind.value.map (·.gust), t.plant.pvw.raiseFilter)) = some (some 130, { side := .above, run := 0 }) ∧
    seen .wind (waits (.role .wind) 14 (u16 100 ++ u16 160) up)
      (fun t => (t.plant.pvw.permissives.windRaiseOk, t.plant.pvw.permissives.windMoveOk, t.plant.pvw.alarm)) = some (false, true, false) := by decide +kernel

/-- The worked sequence of spec/03 §3.4, gusts 80 and 85 of the raise filter's run. -/
theorem test_wind_filter :
    stepFilter 150 20 4 80 { side := .above, run := 2 } = { side := .above, run := 3 } ∧
      stepFilter 150 20 4 85 { side := .above, run := 3 } = { side := .below, run := 0 } ∧
      stepFilter 150 20 4 140 { side := .above, run := 2 } = { side := .above, run := 0 } := by decide +kernel

/-- The worked example of spec/03 §3.5: obstacle 9800, allowed top 8600. -/
theorem test_clearance :
    seen .clearance (waits (.role .clearance) 15 ([0] ++ u16 9800) (partWith record (plantAt 8599 .raised)))
      (fun t => t.plant.pvw.permissives.clearanceOk) = some true ∧
    seen .clearance (waits (.role .clearance) 15 ([0] ++ u16 9800) up) (fun t => (t.plant.pvw.permissives.clearanceOk, t.plant.msq.state)) =
      some (false, .raised) ∧
    seen .clearance (waits (.role .clearance) 15 ([0] ++ u16 9800) (partWith record (plantAt 8601 .raised))) (fun t => t.plant.msq.state) =
      some (.halted .clearance) := by decide +kernel

/-- The worked sequence of spec/07 §7.3: obstacle 9000 at height 4100 lowers the target of a raise to 7800. -/
def raising (height target : Int) : State :=
  onPlant (fun p => { p with axd := { p.axd with grants := [.mast] } })
    (onAxis .mast (fun _ => moveAt .moving .msq .raise height target) (partWith record (plantAt height (.raising target .up))))

theorem test_clearance_lowers_the_target :
    seen .clearance (waits (.role .clearance) 15 ([0] ++ u16 9000) (raising 4100 12000)) (fun t => (t.plant.msq.state, targetOf .mast t)) =
      some (.raising 7800 .up, some 7800) := by decide +kernel

def linkedRecord : ConfigRecord := { record with source := .linked }

/-- The running part with LINKED source, a LEVEL entry FRESH with sequence 9. -/
def linkedPart : State := onConfig (fun _ => linkedRecord) (onPlant (fun p => { p with pvw := { p.pvw with level := fresh { level := -600, sequence := 9 } } }) up)

/-- R34: a clear valid flag stores −1500; R31: under LOCAL source the notice is discarded. -/
theorem test_level :
    seen .level (waits (.role .level) 20 ([0] ++ s16 (-500) ++ [7]) linkedPart) (fun t => t.plant.pvw.level.value) =
      some (some { level := -1500, sequence := 7 }) ∧
    seen .level (waits (.role .level) 20 ([1] ++ s16 (-500) ++ [7]) up) (fun t => (t.plant.pvw.level.value, t.arrivals.length)) = some (none, 0) := by
  decide +kernel

/-- R30: stamp 1000 and limit 500: FRESH at age 500, STALE at age 501. -/
theorem test_freshness :
    seen (.freshnessExpiry .vehicle) (atClock 1500 up) (fun t => t.plant.pvw.vehicle.state) = some (some .fresh) ∧
      seen (.freshnessExpiry .vehicle) (atClock 1501 up) (fun t => (t.plant.pvw.vehicle.state, t.plant.pvw.permissives.brakeSet, t.plant.flt.records)) =
        some (some .stale, false, [{ kind := .driveAway, axis := .all }]) := by decide +kernel

/-! ### Stop, authority and replies (spec/04) -/

def latched (cause : LatchCause) (window : Option Stamp) (s : State) : State := onPlant (fun p => { p with aut := { p.aut with latch := some cause, window := window } }) s

/-- The worked sequence of spec/04 §4.9: RESUME at 10600 after the STOP at 10450 is refused with 350; at 11000 it is accepted. -/
theorem test_resume :
    seen .resume (commands [1, 7] (atClock 10600 (latched (.stop 2) (some 10450) up))) answer = some (some (2, 6, 350)) ∧
      seen .resume (commands [1, 7] (atClock 11000 (latched (.stop 2) none up))) (fun t => (answer t, t.plant.aut.latch, keys t)) =
        some (some (0, 0, 0), none, [.status, .reply]) := by
  decide +kernel

theorem test_stop_window :
    seen .stopWindowExpiry (atClock 10949 (latched (.stop 2) (some 10450) up)) (fun t => t.plant.aut.window.isSome) = some true ∧
      seen .stopWindowExpiry (atClock 10950 (latched (.stop 2) (some 10450) up)) (fun t => t.plant.aut.window.isSome) = some false := by decide +kernel

def duplicated (since : Nat) (s : State) : State :=
  onPlant (fun p => { p with aut := { p.aut with latch := some .duplicate, duplicate := some (BitVec.ofNat 32 since) } }) s

/-- The worked sequence of spec/04 §4.10. -/
theorem test_duplicate :
    seen .positionerStatus (waits .positionerStatus 7 ([1] ++ List.replicate 9 0) up) (fun t => (t.plant.aut.latch, t.plant.aut.duplicate, t.plant.msq.state)) =
      some (some .duplicate, some 1000, .halted .stop) ∧
    seen .resume (commands [1, 7] (atClock 31000 (duplicated 30200 up))) answer = some (some (2, 4, 9200)) := by decide +kernel

/-- R53: HALT and then the status, before the latch-set event stops PAN and halts pointing. -/
theorem test_duplicate_order :
    seen .positionerStatus (waits .positionerStatus 7 ([1] ++ List.replicate 9 0) (onAxis .pan (fun r => { r with state := .moving, brakeSet := false }) up)) keys =
      some [.halt, .status, .axisReport .pan] := by decide +kernel

theorem test_duplicate_quiet :
    seen .duplicateQuietExpiry (atClock 41800 (duplicated 31800 up)) (fun t => (t.plant.aut.duplicate, t.plant.aut.latch)) = some (none, some .duplicate) ∧
      seen .duplicateQuietExpiry (atClock 41799 (duplicated 31800 up)) (fun t => t.plant.aut.duplicate.isSome) = some true := by decide +kernel

/-- Table 4-4: STOP_LATCHED with the station, NOT_HOLDER with the holder, UNKNOWN with the code, CONFIG with the cause. -/
theorem test_common_checks :
    seen .aim (commands [6, 7, 0, 0, 0, 0, 0, 0, 0] (latched (.stop 12) none up)) answer = some (some (2, 3, 12)) ∧
      seen .lower (commands [5, 7] (onPlant (fun p => { p with aut := { p.aut with holder := some 3 } }) (raising 4100 12000))) answer = some (some (2, 5, 3)) ∧
      seen .unknownCommandCode (commands [10, 7] (latched .start none up)) answer = some (some (2, 2, 10)) := by decide +kernel

def safePart : State := { loading with setup := { loading.setup with phase := .safe, result := .fault .check } }

theorem test_safe_refuses_config : seen .report (commands [3, 7] safePart) (fun t => (answer t, t.plant.aut.round)) = some (some (2, 1, 3), []) := by decide +kernel

/-- The worked sequence of spec/04 §4.7: one status waits; the round posts as far as AR-TILT. -/
theorem test_report_round :
    seen .report (commands [3, 7] (posted [waiting .status 2373] up)) (fun t => (keys t, t.plant.aut.round)) =
      some ([.status, .reply, .pointing, .axisReport .mast, .axisReport .pan, .axisReport .tilt], [.axis .pol, .link]) ∧
    seen .reportRoundPost (onPlant (fun p => { p with aut := { p.aut with round := [.axis .pol, .link] } })
        (posted [waiting .status 2373, waiting .pointing 2437, waiting (.axisReport .mast) 2405, waiting (.axisReport .pan) 2405, waiting (.axisReport .tilt) 2405] up))
      (fun t => (t.plant.posts.entries.length, t.plant.aut.round, t.plant.posts.drops)) = some (6, [.link], 0) := by decide +kernel

theorem test_status_period :
    (fun (s : State) => (seen .statusPeriodExpiry (atClock 1199 s) keys, seen .statusPeriodExpiry (atClock 1200 s) (fun t => (keys t, t.plant.aut.statusStart))))
      (onPlant (fun p => { p with aut := { p.aut with statusStart := some 1000 } }) up) = (some [], some ([.status], some 1200)) := by decide +kernel

/-! ### Sampler and watches (spec/05) -/

/-- Table 5-3. -/
theorem test_level_conversion : ([2000, 2004, 1990, 2010, 0].map fun n => pilotLevel (envOf up) (BitVec.ofNat 12 n)) = [-509, -509, -511, -507, -900] := by
  decide +kernel

/-- Table 5-4. -/
theorem test_mean : meanOf (-1020) 2 = -510 ∧ meanOf (-2036) 4 = -509 ∧ meanOf (-12000) 8 = -1500 ∧ meanOf 38 3 = 13 := by decide +kernel

def sampling (m : Sampler) (s : State) : State := onPlant (fun p => { p with smp := m }) s

/-- The scan of A3 that follows the dwell of spec/05 §5.3: −508 joins the history at position 5, and A4 is next. -/
def pilotScan : State :=
  sampling { Sampler.cold with
    converter := some { channel := 3, purpose := .scan }, scanPointer := 4,
    ring := [some (-509), some (-509), some (-511), some (-507), none, none, none, none], next := 5, count := 4 } up

theorem test_scan_conversion :
    seen (.scanConversionComplete 2006) pilotScan (fun t => (t.plant.smp.ring.getD 4 none, t.plant.smp.next, t.plant.smp.converter, t.plant.smp.scanPointer)) =
      some (some (-508), 6, some { channel := 4, purpose := .scan }, 5) ∧
    seen (.scanConversionComplete 2006) pilotScan (fun t => pilotMean t.plant.smp 4) = some (some (-509)) := by decide +kernel

/-- The fourth sample of that dwell, for PKE at its first point: the mean −509 becomes L0, and the next conversion is a scan. -/
def dwelling : State :=
  onPlant (fun p => { p with
      pnt := { p.pnt with state := .active .peaking },
      run := { Run.cold with status := .running .measure, centre := { pan := 3000, tilt := 186 }, delta := some 40 } })
    (sampling { Sampler.cold with
      converter := some { channel := 3, purpose := .dwell 6 }, scanPointer := 3, nextIdentity := 7,
      dwell := some { identity := 6, requester := .pke, samples := 4 }, ring := [some (-509), some (-509), some (-511), none, none, none, none, none], next := 4,
      count := 3 } up)

theorem test_dwell_completes :
    seen (.dwellConversionComplete 2010) dwelling
      (fun t => (t.plant.run.levels.centre, t.plant.run.index, t.plant.smp.dwell, t.plant.smp.converter)) =
      some (some (-509), 2, none, some { channel := 3, purpose := .scan }) := by decide +kernel

/-- The supply watch of spec/05 §5.4: at 2480 the falling edge enters SUPPLY on ALL. -/
def supplyFalling : State :=
  onPlant (fun p => { p with watches := { side := some .above, run := 1, runSide := some .below, faultSide := none } :: List.replicate 5 .cold })
    (sampling { Sampler.cold with converter := some { channel := 4, purpose := .scan }, scanPointer := 5 } up)

theorem test_supply_watch :
    seen (.scanConversionComplete 2480) supplyFalling (fun t => (t.plant.flt.records, t.plant.watches.head?.bind (·.faultSide))) =
      some ([{ kind := .supply, axis := .all }], some .below) := by decide +kernel

theorem test_dwell_free :
    seen (.dwellFree .pke) (onPlant (fun p => { p with
        pnt := { p.pnt with state := .active .peaking }, run := { Run.cold with status := .running .measure, delta := some 40 },
        smp := { p.smp with freed := [.pke] } }) up) (fun t => t.plant.smp.dwell.map (fun d => (d.requester, d.samples))) = some (some (.pke, 4)) := by
  decide +kernel

/-! ### Axis drives and faults (spec/06) -/

def panMoving (v : Int) (who : Requester) (x target : Int) : State :=
  onPlant (fun p => { p with axd := { p.axd with grants := [.pan] } })
    (onAxis .pan (fun _ => { moveAt .moving who .headMove x target with
      v := v, code := speedCode (envOf up) .pan v, dirDriven := decide (v < 0), stallRef := some x }) up)

/-- The PAN ramp of spec/06 §6.3: periods 1 and 200. -/
theorem test_servo_ramp :
    seen (.servoPeriod .pan (reads 0)) (panMoving 0 .pnt 0 5000) (fun t => (t.plant.axd.axes.pan.v, t.plant.axd.axes.pan.code)) = some (10, 3) ∧
      seen (.servoPeriod .pan (reads 199)) (panMoving 1990 .pnt 197 5000) (fun t => (t.plant.axd.axes.pan.v, t.plant.axd.axes.pan.code)) = some (2000, 512) := by
  decide +kernel

/-- R84: from 3000, the first stopping period gives 2950 and code 754. -/
theorem test_servo_stop :
    seen (.servoPeriod .pan (reads 1000)) (onAxis .pan (fun r => { r with state := .stopping }) (panMoving 3000 .pnt 997 5000))
      (fun t => (t.plant.axd.axes.pan.v, t.plant.axd.axes.pan.code)) = some (2950, 754) := by decide +kernel

/-- The stall of spec/06 §6.9. -/
def stalled : State :=
  onPlant (fun p => { p with axd := { p.axd with grants := [.tilt] } })
    (onAxis .tilt (fun _ => { moveAt .moving .pke .headMove 4213 5000 with v := 600, code := 153, stallTimer := 300, stallRef := some 4210, stallDue := true }) up)

theorem test_stall :
    seen (.stallTimeout .tilt) stalled (fun t => (t.plant.flt.records, stateOf .tilt t, t.plant.axd.axes.tilt.v)) =
      some ([{ kind := .stall, axis := .one .tilt }], .stopping, 550) := by decide +kernel

def settled (a : Axis) (who : Requester) (x : Int) (s : State) : State :=
  onPlant (fun p => { p with axd := { p.axd with grants := [a] } })
    (onAxis a (fun _ => { moveAt .settling who (if a = .mast then .raise else .headMove) x x with settleTimer := 5, settlePeriods := 5 }) s)

theorem test_settled :
    seen (.settleTimeExpiry .mast) (settled .mast .msq 8600 (partWith record (plantAt 8600 (.raising 8600 .up))))
      (fun t => (t.plant.msq.state, stateOf .mast t, t.plant.axd.grants, t.plant.axd.axes.mast.lastOwner)) = some (.raised, .idle, [], .msq) := by decide +kernel

/-- R83, R80: with settle time 0 the move completes at the second SETTLING period, and one replaced after five periods at the next. -/
theorem test_settle_time_zero :
    ([(1, 1), (2, 2), (0, 5), (1, 6)].map fun (n, k) => seen (.settleTimeExpiry .pan) (onConfig (fun c => { c with pan := { c.pan with settleTime := 0 } })
        (onAxis .pan (fun r => { r with settleTimer := n, settlePeriods := k }) (settled .pan .pnt 60 up))) (stateOf .pan)) =
      [some .settling, some .idle, some .settling, some .idle] := by decide +kernel

theorem test_axis_report :
    seen (.axisReportPeriodExpiry .pan) (atClock 1500 (onAxis .pan (fun r => { r with reportStart := some 1000 }) (panMoving 0 .pnt 0 5000))) keys =
      some [.axisReport .pan] := by decide +kernel

def aimed : PointingRecord :=
  { pan := 3000, tilt := 86, pol := 0, panOffset := 30, tiltOffset := 50, peak := some (-603), quality := some .fine, flagPeak := true, flagTrack := true,
    roundCount := 4, rowEnd := 1, passEnd := 1 }

def slewingFreed : State :=
  onAxis .pan (fun r => { r with freed := [.pnt] })
    (onPlant (fun p => { p with pnt := { p.pnt with state := .active (.slewing .move), slewList := [.pan], record := some aimed } }) up)

theorem test_axis_free : seen (.axisFree .pan .pnt) slewingFreed (fun t => (stateOf .pan t, targetOf .pan t)) = some (.moving, some 3030) := by decide +kernel

/-- R95: MAST first; of PAN and TILT the one the flag does not name. -/
def queued (l : List Axis) (s : State) : State :=
  l.foldl (fun s a => onAxis a (fun r => { r with state := .waiting, requester := some .pke, cls := some .headMove }) s)
    (onPlant (fun p => { p with axd := { p.axd with waiting := l } }) s)

theorem test_drive_grant :
    seen .driveGrant (queued [.tilt, .pan, .mast] up) (fun t => t.plant.axd.grants) = some [.mast] ∧
      seen .driveGrant (queued [.tilt, .pan, .pol] up) (fun t => (t.plant.axd.grants, t.plant.axd.lastGranted)) = some ([.pan], .pan) := by decide +kernel

/-- The end of the supply watch's sequence: while the watch stands on its fault side CLEAR_FAULT is refused with 1. -/
def supplyFault (side : Side) : State :=
  onPlant (fun p => { p with
      watches := { side := some side, run := 0, runSide := none, faultSide := some .below } :: List.replicate 5 .cold,
      flt := { FaultSet.cold with records := [{ kind := .supply, axis := .all }] } })
    (allAxes.foldl (fun s a => onAxis a (fun r => { r with state := .fault }) s) up)

theorem test_clear_fault :
    seen .clearFault (commands [2, 7] (supplyFault .below)) answer = some (some (2, 9, 1)) ∧
      seen .clearFault (commands [2, 7] (supplyFault .above)) (fun t => (answer t, stateOf .pan t, t.plant.flt.records)) = some (some (0, 0, 0), .idle, []) := by
  decide +kernel

/-! ### Mast sequencing (spec/07) -/

def overhead (obstacle : Option Nat) (s : State) : State := onPlant (fun p => { p with pvw := { p.pvw with clearance := fresh obstacle } }) s

/-- The effective targets of spec/07 §7.2, cases 1, 3 and 4. -/
theorem test_raise_targets :
    seen .raise (commands ([4, 7] ++ u16 12000) (overhead (some 9800) stowed)) (fun t => (answer t, t.plant.msq.state)) =
      some (some (1, 0, 8600), .raising 8600 .up) ∧
    seen .raise (commands ([4, 7] ++ u16 500) stowed) answer = some (some (1, 0, 1050)) ∧
    seen .raise (commands ([4, 7] ++ u16 7000) (overhead (some 9800) up)) (fun t => (answer t, t.plant.msq.state)) =
      some (some (0, 0, 0), .raising 7000 .down) := by decide +kernel

/-- Cases 5 and 6. -/
theorem test_raise_refusals :
    seen .raise (commands ([4, 7] ++ u16 5000) (overhead (some 1500) stowed)) (fun t => (answer t, t.plant.msq.state)) = some (some (2, 10, 300), .stowed) ∧
      seen .raise (commands ([4, 7] ++ u16 5000) (onPlant (fun p => { p with pvw := { p.pvw with
          clearance := { p.pvw.clearance with state := some .stale }, permissives := { allGiven with clearanceOk := false } } }) stowed)) answer =
        some (some (2, 8, 7)) := by decide +kernel

/-- The worked sequence of spec/07 §7.5: with budget 1, PAN is granted and TILT and POL wait. -/
theorem test_lower_parks_the_head :
    seen .lower (commands [5, 7] (onConfig (fun c => { c with budget := 1 }) (onAxis .tilt (fun _ => idleAt 300) (onAxis .pan (fun _ => idleAt 4200) up))))
      (fun t => (t.plant.msq.state, t.plant.axd.grants, t.plant.axd.waiting, targetOf .tilt t)) =
      some (.parking [.pan, .tilt, .pol], [.pan], [.tilt, .pol], some (-1500)) ∧
    seen .lower (commands [5, 7] up) (fun t => (answer t, t.plant.msq.state, targetOf .mast t)) = some (some (0, 0, 0), .lowering false, some 0) := by
  decide +kernel

/-- R117: a mast HALTED that falls below the cradle clear height with the head out posts a HALT also where HEAD_NOT_PARKED was its cause before. -/
theorem test_halted_mast_falls_below_the_cradle :
    ([HoldCause.stop, .headNotParked].map fun cause =>
      seen (.servoPeriod .mast (reads 899)) (onAxis .pan (fun _ => idleAt 4200) (partWith record (plantAt 900 (.halted cause))))
        (fun t => (t.plant.msq.state, decide (.halt ∈ keys t)))) = List.replicate 2 (some (.halted .headNotParked, true)) := by decide +kernel

/-- R94: with budget 1 a drifted MAST waits behind a slew; the cradle loss of its own period returns PAN's grant to it, and its first drive step is
the next period's. -/
def sinking : State :=
  onConfig (fun c => { c with budget := 1 })
    (onAxis .mast (fun _ => { moveAt .waiting .msq .raise 900 1000 with correction := true })
      (onAxis .pan (fun _ => moveAt .moving .pnt .headMove 60 5000)
        (onPlant (fun p => { p with axd := { p.axd with grants := [.pan], waiting := [.mast] }, pnt := { p.pnt with state := .active (.slewing .move), slewList := [.pan] } })
          (partWith record (plantAt 900 (.halted .stop))))))

theorem test_first_drive_step_at_the_next_period :
    seen (.servoPeriod .mast (reads 899)) sinking (fun t => (t.plant.axd.grants, stateOf .mast t, t.plant.axd.axes.mast.v)) = some ([.mast], .moving, 0) ∧
      ((after (.servoPeriod .mast (reads 899)) sinking).bind fun t =>
        seen (.servoPeriod .mast (reads 899)) t fun u => decide (0 < u.plant.axd.axes.mast.v)) = some true := by decide +kernel

/-- R59, R113: a LOWER of a mast HALTED with HEAD_NOT_PARKED whose PAN parking is refused RANGE ends where it began, and posts a status. -/
theorem test_lower_that_returns_posts_a_status :
    seen .lower (commands [5, 7] (onAxis .pan (fun _ => { idleAt 4200 with switchLow := true }) (partWith record (plantAt 8600 (.halted .headNotParked)))))
      (fun t => (t.plant.msq.state, decide (.status ∈ keys t))) = some (.halted .headNotParked, true) := by decide +kernel

/-- R108: a raise cancelled from WAITING holds at its rest position. -/
theorem test_waiting_raise_halted_holds_where_it_stands :
    seen .wind (waits (.role .wind) 14 (u16 100 ++ u16 150)
        (onAxis .mast (fun r => { r with state := .waiting, brakeSet := true })
          (onPlant (fun p => { p with axd := { p.axd with grants := [], waiting := [.mast] } }) (raising 4100 12000))))
      (fun t => (t.plant.msq.state, stateOf .mast t, targetOf .mast t)) = some (.halted .wind, .idle, some 4100) := by decide +kernel

/-! ### Pointing (spec/08) -/

/-- Table 8-3. -/
theorem test_sine : ([2000, 3000, 4500, 9000, 11000, 12000, 29000].map sine) = [1406, 2048, 2891, 4096, 3846, 3542, -3846] := by decide +kernel

def aimBytes (bearing : Nat) (elevation pol : Int) (flags : Nat) : List Byte := [6, 7] ++ u16 bearing ++ s16 elevation ++ s16 pol ++ [byteOf flags]

def presetSeen (s : State) : Option (Int × Int × Int) := s.plant.pnt.record.map fun r => (r.pan, r.tilt, r.pol)

/-- The presets of spec/08 §8.3: case 1 from pan −33000 and from pan 60; the REPLY before the slew (R126). -/
theorem test_aim_case_1 :
    seen .aim (commands (aimBytes 7000 150 0 3) (onAxis .pan (fun _ => idleAt (-33000)) up)) (fun t => (presetSeen t, answer t)) =
      some (some (-33000, 86, 0), some (0, 0, 0)) ∧
    seen .aim (commands (aimBytes 7000 150 0 3) up) (fun t => (presetSeen t, t.plant.pnt.state, targetOf .pan t)) =
      some (some (3000, 86, 0), .active (.slewing .move), some 3000) ∧
    seen .aim (commands (aimBytes 7000 150 0 3) up) keys =
      some [.reply, .pointing, .status, .axisReport .pan, .axisReport .tilt, .axisReport .pol] := by decide +kernel

def tilted (s : State) : State :=
  onPlant (fun p => { p with pvw := { p.pvw with
    vehicle := fresh { brakeSet := true, outriggersDown := true, pitch := -200, roll := 150, heading := 1000, headingValid := true } } }) s

def aimCase2 : State := commands (aimBytes 30000 250 12000 0) (onAxis .pan (fun _ => idleAt 11000) (tilted up))

/-- Case 2 from pan 11000: −7000 by its smaller absolute value, pol clamped to 9500; UNREACHABLE with PAN limits −5000..25000. -/
theorem test_aim_case_2 :
    seen .aim aimCase2 presetSeen = some (some (-7000, 459, 9500)) ∧ seen .aim aimCase2 answer = some (some (1, 0, 9500)) ∧
      seen .aim (onConfig (fun c => { c with pan := axisSettings (-5000) 25000 }) aimCase2) answer = some (some (2, 11, 0)) := by decide +kernel

/-- Pointing in a state with that record, the head at the pointing position. -/
def pointing (x : PointState) : State :=
  onAxis .pan (fun _ => idleAt 3030) (onAxis .tilt (fun _ => idleAt 136) (onPlant (fun p => { p with pnt := { p.pnt with state := x, record := some aimed } }) up))

theorem test_peak :
    seen .peak (commands [7, 7] up) answer = some (some (2, 7, 0)) ∧
      seen .peak (commands [7, 7] (pointing .pointed)) (fun t => (answer t, t.plant.pnt.state, t.plant.run.delta, targetOf .pan t)) =
        some (some (0, 0, 0), .active .peaking, some 40, some 3030) := by decide +kernel

/-- R120, R134: a PEAK whose every point is blocked, at round limit 1, returns to POINTED in one step and posts a status. -/
theorem test_peak_that_returns_posts_a_status :
    seen .peak (commands [7, 7] (onConfig (fun c => { c with roundLimit := 1 })
        (onPlant (fun p => { p with pnt := { p.pnt with record := some { aimed with flagTrack := false } } })
          (onAxis .pan (fun r => { r with switchLow := true, switchHigh := true, position := some 0 })
            (onAxis .tilt (fun r => { r with switchLow := true, switchHigh := true, position := some 0 }) (pointing .pointed))))))
      (fun t => (t.plant.pnt.state, decide (.status ∈ keys t))) = some (.pointed, true) := by decide +kernel

theorem test_cancel_pointing :
    seen .cancelPointing (commands [8, 7] (pointing (.active .tracking))) (fun t => (answer t, t.plant.pnt.state, t.plant.pnt.record.isSome, t.plant.aut.holder)) =
      some (some (0, 0, 0), .idle, true, some 2) := by decide +kernel

def jogBytes (axis : Nat) (distance : Int) (flags : Nat) : List Byte := [9, 7, byteOf axis] ++ s24 distance ++ [byteOf flags]

/-- R92, R93, R167: axis 4 is RANGE, MAST is STATE; TILT from −1480 by −1000 is clamped to −2000, an effective distance of −520. -/
theorem test_jog :
    seen .jog (commands (jogBytes 4 100 0) up) answer = some (some (2, 10, 0)) ∧ seen .jog (commands (jogBytes 0 100 0) up) answer = some (some (2, 7, 0)) ∧
      seen .jog (commands (jogBytes 2 (-1000) 0) up) (fun t => (answer t, targetOf .tilt t)) = some (some (1, 0, -520), some (-2000)) := by decide +kernel

/-- The recovery of spec/02 §2.5: TILT −1300 goes to −1450 with RECOVERY, nearer the stow tilt; away from it is RANGE, without the flag STATE. -/
def unparked : State := onAxis .tilt (fun _ => idleAt (-1300)) (partWith record (plantAt 420 (.halted .start)))

theorem test_recovery_jog :
    seen .jog (commands (jogBytes 2 (-150) 1) unparked) (fun t => (answer t, targetOf .tilt t)) = some (some (0, 0, 0), some (-1450)) ∧
      seen .jog (commands (jogBytes 2 50 1) unparked) answer = some (some (2, 10, 0)) ∧
      seen .jog (commands (jogBytes 2 (-150) 0) unparked) answer = some (some (2, 7, 0)) := by decide +kernel

/-! ### Searching, peaking and tracking (spec/09, spec/10) -/

/-- Table 9-2. -/
theorem test_raster :
    ((List.range 5).map fun k => rowOffset 50 (k + 1)) = [0, 50, -50, 100, -100] ∧
      ((List.range 5).map fun j => pointOffset 50 5 1 (j + 1)) = [-100, -50, 0, 50, 100] ∧
      ((List.range 5).map fun j => pointOffset 50 5 2 (j + 1)) = [100, 50, 0, -50, -100] := by decide +kernel

/-- The search of spec/09 §9.10 at row 2, point 1. -/
def pattern (status : PatternStatus) : Pattern :=
  { status := status, origin := { pan := 3000, tilt := 86 }, sigma := 100, rows := 3, points := 3, passes := 2, mode := .step, row := 2, point := 1, pass := 1,
    targets := { pan := 3100, tilt := 186 }, moveList := [], blocked := false, barred := false, measurement := .blank, found := none }

def searching (status : PatternStatus) : State :=
  onPlant (fun p => { p with pat := some (pattern status) }) (pointing (.active (.acquiring .search)))

theorem test_search_settle :
    seen .searchSettleExpiry (atClock 1199 (searching (.running (.settle 1000)))) (fun t => t.plant.smp.dwell.isSome) = some false ∧
      seen .searchSettleExpiry (atClock 1200 (searching (.running (.settle 1000)))) (fun t => t.plant.smp.dwell.map (·.requester)) = some (some .pat) := by decide +kernel

theorem test_pattern_resume :
    seen .patternResumeDelayExpiry (atClock 2000 (searching (.resumeWait (.settle 0) 1000))) (fun t => (targetOf .pan t, targetOf .tilt t, t.plant.pat.map (·.status))) =
      some (some 3100, some 186, some (.running .toPoint)) := by decide +kernel

/-- Row 2 of a SWEEP search, from PAN 3100 to 2900 at TILT 186. -/
def sweeping (stage : PatternStage) (l : List Axis) : State :=
  onPlant (fun p => { p with pat := p.pat.map fun x => { x with mode := .sweep, moveList := l } }) (searching (.running stage))

def rowStart (blocked : Bool) : State :=
  settled .tilt .pat 186 (onPlant (fun p => { p with pat := p.pat.map fun x => { x with blocked := blocked } }) (sweeping .toRowStart [.tilt]))

def rowSwept (row pass : Nat) : State :=
  settled .pan .pat 2900 (onPlant (fun p => { p with
    pat := p.pat.map (fun x => { x with row := row, pass := pass }), smp := { p.smp with sweepHanding := true } }) (sweeping .sweep [.pan]))

/-- R144, R145: PAN vmax 3000 gives the cap 750; the next row starts at the pan where this one ended. -/
theorem test_sweep_row :
    seen (.settleTimeExpiry .tilt) (rowStart false) (fun t => (t.plant.pat.map (·.status), targetOf .pan t, (axisOf t.plant .pan).cap, t.plant.smp.sweepHanding)) =
      some (some (.running .sweep), some 2900, some 750, true) ∧
    seen (.settleTimeExpiry .pan) (rowSwept 2 1) (fun t => (t.plant.pat.map (fun x => (x.status, x.row)), targetOf .pan t, targetOf .tilt t, t.plant.smp.sweepHanding)) =
      some (some (.running .toRowStart, 3), some 2900, some (-14), false) := by decide +kernel

/-- R94: with budget 1 the grant that TILT returns at a row's start goes to POL, which waits, before the sweep asks for PAN. -/
theorem test_returned_grant_goes_at_once :
    seen (.settleTimeExpiry .tilt) (queued [.pol] (onConfig (fun c => { c with budget := 1 }) (rowStart false)))
      (fun t => (t.plant.axd.grants, t.plant.axd.waiting, stateOf .pol t, stateOf .pan t)) = some ([.pol], [.pan], .moving, .waiting) := by decide +kernel

/-- A sweep under way, PAN last read at 3000, a scan conversion of the pilot channel in progress. -/
def sweepScan : State :=
  onAxis .pan (fun _ => { moveAt .moving .pat .headMove 3000 2900 with v := -500, cap := some 750 })
    (onPlant (fun p => { p with axd := { p.axd with grants := [.pan] } })
      (sampling { pilotScan.plant.smp with sweepHanding := true } (sweeping .sweep [.pan])))

/-- R145: −508 is a find at the PAN position last read; −705, below the floor −700, changes nothing of the search. -/
theorem test_sweep_found :
    seen (.scanConversionComplete 2006) sweepScan (fun t => (t.plant.pat.bind (·.found), stateOf .pan t, t.plant.pnt.state, t.plant.smp.sweepHanding)) =
      some (some { point := { pan := 3000, tilt := 186 }, level := -508 }, .stopping, .active .peaking, false) ∧
    seen (.scanConversionComplete 1000) sweepScan (fun t => (decide (t.plant.pat = sweepScan.plant.pat), stateOf .pan t, t.plant.smp.sweepHanding)) =
      some (true, .moving, true) := by decide +kernel

/-- Table 10-2. -/
theorem test_estimator :
    [estimate 40 (-512) (-520) (-505), estimate 40 (-652) (-690) (-660), estimate 40 (-700) (-640) (-660), estimate 40 (-510) (-510) (-500),
      estimate 40 (-510) (-505) (-500), estimate 40 (-504) (-503) (-500), estimate 40 (-506) (-520) (-515), estimate 40 (-530) (-530) (-530)] =
      [7, 35, -40, 0, -7, -3, 40, 0] := by decide +kernel

/-- Round 1 of Table 10-3 at its last level: the new centre is (3035, 146), the best centre (3000, 186) with −660, δ stays 40. -/
def lastPoint : State :=
  onPlant (fun p => { p with
      pnt := { p.pnt with state := .active .peaking, record := some { aimed with roundCount := 0 } },
      run := { Run.cold with
        status := .running .measure, centre := { pan := 3000, tilt := 186 }, delta := some 40, index := 5,
        levels := { centre := some (-660), panPlus := some (-652), panMinus := some (-690), tiltPlus := some (-700), tiltMinus := none } } })
    (sampling { Sampler.cold with
      converter := some { channel := 3, purpose := .dwell 0 }, scanPointer := 3, nextIdentity := 1, dwell := some { identity := 0, requester := .pke, samples := 1 } }
      (onConfig (fun c => { c with lZero := -640, lGain := 0, peakN := 1 }) up))

theorem test_round_end :
    seen (.dwellConversionComplete 0) lastPoint
      (fun t => (t.plant.run.centre, t.plant.run.best, t.plant.run.delta, t.plant.pnt.record.map (·.roundCount))) =
      some ({ pan := 3035, tilt := 146 }, some { point := { pan := 3000, tilt := 186 }, level := -660 }, some 40, some 1) := by decide +kernel

def peaking (status : RunStatus) : State :=
  onPlant (fun p => { p with run := { Run.cold with
    status := status, centre := { pan := 3030, tilt := 136 }, delta := some 20, index := 2, closing := some { pan := 3032, tilt := 134 } } })
    (pointing (.active .peaking))

theorem test_preset_cross_closing_settle :
    seen .presetSettleExpiry (onPlant (fun p => { p with pnt := { p.pnt with completedAt := 800 } }) (pointing (.active (.slewing .settle))))
        (fun t => (t.plant.pnt.state, t.plant.smp.dwell.map (·.requester))) = some (.active (.slewing .measure), some .pnt) ∧
      seen .crossSettleExpiry (peaking (.running (.settle 800))) (fun t => t.plant.run.status) = some (.running .measure) ∧
      seen .closingSettleExpiry (peaking (.running (.closeSettle 800))) (fun t => t.plant.run.status) = some (.running .closeMeasure) := by decide +kernel

/-- R157: a run suspended in SETTLE takes up its point 2, one suspended in CLOSE_SETTLE its closing centre. -/
theorem test_run_resume :
    seen .runResumeDelayExpiry (atClock 2000 (peaking (.resumeWait (.settle 0) 1000))) (fun t => (targetOf .pan t, t.plant.run.status)) =
      some (some 3050, .running .toPoint) ∧
    seen .runResumeDelayExpiry (atClock 2000 (peaking (.resumeWait (.closeSettle 0) 1000))) (fun t => (targetOf .tilt t, t.plant.run.status)) =
      some (some 134, .running .toClose) := by decide +kernel

def tracking (level : Int) (m : Monitor) : State :=
  onPlant (fun p => { p with monitor := m, smp := { p.smp with ring := List.replicate 8 (some level), next := 1, count := 8 } }) (pointing (.active .tracking))

def watchingSince (start : Clock) : Monitor := { Monitor.cold with state := .watching, periodStart := some start }

/-- R130: a TRACKING that loses LEVEL_OK is HELD with cause LEVEL, and with WIND while WIND_MOVE_OK is not given. -/
theorem test_tracking_held :
    ([true, false].map fun wind =>
      seen (.freshnessExpiry .level)
        (atClock 60000 (onConfig (fun _ => linkedRecord) (onPlant (fun p => { p with pvw := { p.pvw with
          level := fresh { level := -600, sequence := 9 }, permissives := { allGiven with windMoveOk := wind } } }) (tracking (-600) (watchingSince 900)))))
        (fun t => (t.plant.pnt.state, t.plant.monitor.state))) =
      [some (.held .tracking .level, .off), some (.held .tracking .wind, .off)] := by decide +kernel

/-- The tracking of spec/10 §10.8, peak −603: −598 leaves it, −590 raises it, and −660 starts the fade timer alone. -/
theorem test_tracking :
    seen .trackSamplePeriodExpiry (tracking (-598) (watchingSince 900)) (fun t => t.plant.pnt.record.bind (·.peak)) = some (some (-603)) ∧
      seen .trackSamplePeriodExpiry (tracking (-590) (watchingSince 900)) (fun t => (t.plant.pnt.record.bind (·.peak), keys t)) = some (some (-590), [.dwell]) ∧
      seen .trackSamplePeriodExpiry (tracking (-660) (watchingSince 900)) (fun t => (t.plant.monitor.fadeStart, t.plant.monitor.lossStart)) =
        some (some 1000, none) := by decide +kernel

/-- Its fade, a run from (3030, 136) with δ 20, and its loss. -/
theorem test_fade_and_loss :
    seen .fadeTimerExpiry (atClock 2500 (tracking (-655) { watchingSince 900 with fadeStart := some 500 }))
        (fun t => (t.plant.pnt.state, t.plant.run.centre, t.plant.run.delta, t.plant.monitor.state)) =
      some (.active .peaking, { pan := 3030, tilt := 136 }, some 20, .off) ∧
    seen .lossTimerExpiry (atClock 5200 (tracking (-770) { watchingSince 900 with lossStart := some 200 })) (fun t => (t.plant.pnt.state, t.plant.monitor.state)) =
      some (.lost, .recovery) := by decide +kernel

/-- An empty queue: one millisecond passes (notes/assumptions/2.md). -/
theorem test_step : Machine.step up = .next { up with clock := 1001 } := by rfl

/-! ### Witnesses: for each statement with hypotheses, states and operands that meet those of each of its clauses -/

theorem everyAxis {P : Axis → Prop} (h : P .mast ∧ P .pan ∧ P .tilt ∧ P .pol) : ∀ a, P a := by
  intro a; cases a
  · exact h.1
  · exact h.2.1
  · exact h.2.2.1
  · exact h.2.2.2

def ordered (c : Instr) (s : State) : State := { s with pending := [c] }

def nextOf (s : State) : Option State :=
  match Machine.step s with
  | .next t => some t
  | _ => none

/-- A part at work: the mast rising, a head axis stopping, a post being sent. -/
def working : State :=
  posted [sending .status 2373, waiting .reply 2341]
    (onAxis .pan (fun _ => { moveAt .stopping .jog .headMove 60 70 with v := -100, code := speedCode (envOf up) .pan (-100), dirDriven := true })
      (raising 4100 12000))

theorem witness_StepRunsTheFrontCommandOrTicks : up.pending = [] := by rfl

theorem witness_BlocksStayColdUntilTheyRun :
    quiet safePart = true ∧ (nextOf (ordered .noticeBegin safePart)).isSome = true ∧ quiet loadedPart = true ∧
      (nextOf (ordered (.startSequence (reads 40) (reads 0) (reads (-1500)) (reads 0)) loadedPart)).isSome = true ∧ quiet working = true := by decide +kernel

theorem witness_QueuesAndFaultSetKeepTheirBounds :
    queuesSound (ordered .report working) = true ∧ quiet working = true ∧ faultsSound (supplyFault .below).plant.flt = true ∧
      (nextOf (ordered .sentWhole working)).isSome = true ∧ dwellSound dwelling.plant = true ∧
      (nextOf (ordered (.dwellConversionComplete 2010) dwelling)).isSome = true := by decide +kernel

theorem witness_ScoreAgreesWithTheLinkState :
    linkSound (onLine (fun l => { l with score := 127 }) working) = true ∧ linkSound withdrawn = true ∧
      (nextOf (ordered .withdrawalExpiry (atClock 3000 withdrawn))).isSome = true := by decide +kernel

theorem witness_AxisOutputsFollowStateAndSpeed :
    quiet working = true ∧ axesSound working = true ∧ arbiterSound working.plant = true ∧ (nextOf (ordered (.servoPeriod .pan (reads 60)) working)).isSome = true := by decide +kernel

theorem witness_ArbiterListsAndGrantsStaySound :
    quiet working = true ∧ arbiterSound working.plant = true ∧ budgetSound working = true ∧ arbiterSound (queued [.tilt, .pan] up).plant = true ∧
      (nextOf (ordered .driveGrant (queued [.tilt, .pan] up))).isSome = true := by decide +kernel

theorem witness_NoAxisMovesUnderASetLatch :
    quiet working = true ∧ arbiterSound working.plant = true ∧ latchSound working.plant = true ∧ latchSound (latched .start none up).plant = true ∧
      (nextOf (ordered (.noticeArrival (frameOf 0 0 12 [])) (assembling working))).isSome = true := by decide +kernel

theorem witness_TargetsStayWithinTheSoftLimits :
    quiet working = true ∧ targetsSound working = true ∧ (nextOf (ordered .vehicle working)).isSome = true := by decide +kernel

theorem witness_OnlyResumeOrAColdStartClearsTheLatch :
    (latched .start none up).plant.aut.latch.isSome = true ∧
      seen .resume (commands [1, 7] (latched .start none up)) (fun t => t.plant.aut.latch) = some none ∧
      seen (.coldStart .pin) (latched .start none up) (fun t => t.plant.aut.latch) = some none := by decide +kernel

theorem witness_OnlyMotionCommandsChangeTheHolder :
    up.plant.aut.holder = none ∧ seen .lower (commands [5, 7] stowed) (fun t => t.plant.aut.holder) = some (some 2) := by decide +kernel

theorem witness_APostIsHandledAtTheMomentItIsMade :
    (fullQueue.entries = fullQueue.entries.take 4 ++ waiting .dwell 3621 :: [waiting .link 3653] ∧ hasWaiting .dwell (fullQueue.entries.take 4) = false ∧
      hasWaiting .dwell [waiting .link 3653] = false) ∧
    (hasWaiting .halt (fullQueue.entries.take 5) = false ∧ (fullQueue.entries.take 5).length < 6) ∧
    (hasWaiting .halt fullQueue.entries = false ∧ 6 ≤ fullQueue.entries.length ∧ fullQueue.entries = fullQueue.entries.take 5 ++ waiting .link 3653 :: [] ∧
      (∀ z ∈ fullQueue.entries.take 5, z.sending = false → z.tag ≤ (3653 : Tag)) ∧ (1061 : Tag) < 3653) ∧
    (hasWaiting (.axisReport .pol) (fullQueue.entries.map fun x => { x with tag := 2405 }) = false ∧
      ∀ z ∈ fullQueue.entries.map fun x => { x with tag := 2405 }, z.sending = false → z.tag ≤ (2405 : Tag)) := by decide +kernel

theorem witness_TheLineConditionFollowsTheLine :
    watching up = true ∧ sendingEntry up.plant.posts = none ∧ up.line.condition = .idle ∧ watching (assembling up) = true ∧
      (assembling up).line.condition ≠ .idle ∧ (assembling up).line.condition ≠ .stuck ∧ sendingEntry (assembling up).plant.posts = none ∧
      working.plant.posts.entries = [] ++ sending .status 2373 :: [waiting .reply 2341] ∧ (sending .status 2373).sending = true ∧
      (∀ y ∈ [waiting .reply 2341], y.sending = false) ∧ watching working = true ∧ working.line.condition ≠ .stuck := by decide +kernel

theorem witness_ANoticeNotTakenIsCounted :
    watching (assembling up) = true ∧ (assembling up).line.receiver = .assembling ∧ receiving (assembling up) = true ∧
      checkMatches { frameOf 1 3 14 [0, 1, 0, 2] with check := 0 } = false ∧
      (∀ x ∈ [frameOf 1 3 14 [], frameOf 2 3 14 [0, 1, 0, 2], frameOf 0 5 14 [], frameOf 1 3 31 [0, 1, 0, 2], frameOf 1 1 30 [0, 1, 0, 2], frameOf 1 3 15 [0, 1, 0, 2],
        frameOf 2 8 1 [3, 7]], x.wf = true ∧ checkMatches x = true ∧ tagSource x.tag ≠ 5) ∧
      lengthFits 3 [] = false ∧ kindUrgency 3 ≠ some 2 ∧ kindUrgency 5 = none ∧ roleStation (envOf up) .wind ≠ 15 ∧
      (onLine (fun l => { l with condition := .busy, receiver := .afterNotice }) up).line.receiver = .afterNotice := by decide +kernel

def crowded (s : State) : State := { s with arrivals := List.replicate 6 (entry (.role .wind) 14 (u16 5 ++ u16 6) s) }

theorem witness_AcceptedNoticesJoinTheArrivalQueue :
    receiving (assembling up) = true ∧ (assembling up).arrivals.length < 6 ∧ receiving (assembling (crowded up)) = true ∧ 6 ≤ (crowded up).arrivals.length ∧
      (∀ x ∈ [frameOf 1 2 12 (vehicleBytes 7 0 0 0), frameOf 1 3 14 [0, 1, 0, 2], frameOf 1 4 15 [1, 0, 0], frameOf 3 16 20 [1, 0, 0, 9], frameOf 2 8 3 [3, 7],
        frameOf 2 10 30 (List.replicate 10 0)], x.wf = true ∧ checkMatches x = true ∧ tagSource x.tag ≠ up.setup.station ∧ 1 ≤ tagSource x.tag ∧ tagSource x.tag ≤ 30 ∧
          kindUrgency (tagKind x.tag) = some (tagUrgency x.tag) ∧ lengthFits (tagKind x.tag) x.payload = true) ∧
      ([12, 14, 15, 20, 3] : List Nat) = [record.vehicleStation, record.windStation, record.clearanceStation, record.levelStation, record.panel2] := by decide +kernel

/-- In SAFE, station 7 being of no panel set; and with a strap fault, station 5 being the number the straps spell. -/
theorem witness_AcceptedNoticesJoinTheArrivalQueue_safe :
    receiving (assembling safePart) = true ∧ safePart.setup.phase = .safe ∧ tagSource (frameOf 2 8 7 [3, 7]).tag ≠ safePart.setup.station ∧
      receiving (assembling { safePart with setup := { safePart.setup with result := .fault .strap } }) = true ∧
      tagSource (frameOf 2 8 5 [3, 7]).tag = safePart.setup.station ∧
      ∀ x ∈ [frameOf 2 8 7 [3, 7], frameOf 2 8 5 [3, 7], frameOf 2 10 30 (List.replicate 10 0)], x.wf = true ∧ checkMatches x = true ∧ 1 ≤ tagSource x.tag ∧
        tagSource x.tag ≤ 30 ∧ kindUrgency (tagKind x.tag) = some (tagUrgency x.tag) ∧ lengthFits (tagKind x.tag) x.payload = true := by decide +kernel

theorem witness_AStopActsAtItsArrival :
    receiving (assembling working) = true ∧ working.plant.aut.latch = none ∧ arbiterSound working.plant = true ∧
      ∀ x ∈ [frameOf 0 0 1 [], frameOf 0 0 30 []], x.wf = true ∧ checkMatches x = true ∧ tagKind x.tag = 0 ∧ tagUrgency x.tag = 0 ∧ x.payload = [] ∧
        1 ≤ tagSource x.tag ∧ tagSource x.tag ≤ 30 ∧ tagSource x.tag ≠ working.setup.station := by decide +kernel

theorem witness_TheStopWindowIsRenewedAndCloses :
    receiving (assembling (latched .start none up)) = true ∧ (latched .start none up).plant.aut.latch = some .start ∧ receiving (assembling (duplicated 900 up)) = true ∧
      (duplicated 900 up).plant.aut.latch = some .duplicate ∧ (duplicated 900 up).plant.aut.duplicate.isSome = true ∧
      (latched (.stop 2) (some 10450) up).plant.aut.window = some 10450 ∧ (((10950 : Clock).setWidth 16 - (10450 : Stamp)).toNat = 500) ∧
      (((10949 : Clock).setWidth 16 - (10450 : Stamp)).toNat < 500) := by decide +kernel

theorem witness_TheLowestTagIsSentFirst :
    (fun (s : State) => watching s = true ∧ strapFault s = false ∧ s.line.condition = .idle ∧ s.line.linkState = .active ∧
        s.plant.posts.entries = [waiting .status 2373] ++ waiting .reply 2341 :: [waiting .halt 2341] ∧ (∀ y ∈ s.plant.posts.entries, y.sending = false) ∧
        (2341 : Tag) < 2373 ∧ (2341 : Tag) ≤ 2341) (posted [waiting .status 2373, waiting .reply 2341, waiting .halt 2341] up) ∧
      (∃ y ∈ working.plant.posts.entries, y.sending = true) ∧ withdrawn.line.linkState ≠ .active ∧ (∀ y ∈ up.plant.posts.entries, y.sending = true) := by
  refine ⟨⟨?_, ?_, ?_, ?_, ?_, ?_, ?_, ?_⟩, ?_, ?_, ?_⟩ <;> decide +kernel

theorem witness_ANoticeSentWholeLeavesTheQueue :
    working.plant.posts.entries = [] ++ sending .status 2373 :: [waiting .reply 2341] ∧ (sending .status 2373).sending = true ∧
      (∀ y ∈ [waiting .reply 2341], y.sending = false) ∧ working.line.score = 0 := by decide +kernel

theorem witness_AnEntryNotSentWholeReturns :
    working.plant.posts.entries = [] ++ sending .status 2373 :: [waiting .reply 2341] ∧ (sending .status 2373).tag.getMsbD 0 = true ∧
      (sending .reply 2341).tag.getMsbD 11 = true ∧ mismatchPossible (sending .status 2373) (.sentZero 0) = true ∧
      mismatchPossible (sending .status 2373) .markInTail = true ∧ withdrawn.line.linkState = .withdrawn 1000 ∧ ((3000 : Clock) - 1000).toNat = 2000 ∧
      ((2999 : Clock) - 1000).toNat < 2000 := by decide +kernel

theorem witness_PeriodicReportsArePosted :
    (atClock 5000 up).line.reportStart = some 0 ∧ 5000 ≤ ((atClock 5000 up).clock - 0).toNat ∧
      (onPlant (fun p => { p with aut := { p.aut with statusStart := some 1000 } }) (atClock 1200 up)).plant.aut.statusStart = some 1000 ∧
      200 ≤ ((atClock 1200 up).clock - 1000).toNat ∧
      (axisOf (onAxis .pan (fun r => { r with reportStart := some 500 }) (panMoving 0 .pnt 0 5000)).plant .pan).reportStart = some 500 ∧
      (axisOf (panMoving 0 .pnt 0 5000).plant .pan).state ≠ .idle ∧ 500 ≤ ((panMoving 0 .pnt 0 5000).clock - 500).toNat := by decide +kernel

theorem witness_AFailedStartEntersSafe :
    State.reset.setup.phase = .reset ∧ (1 ≤ (1 : BitVec 5).toNat ∧ (30 : BitVec 5).toNat ≤ 30) ∧ (0 : BitVec 5).toNat = 0 ∧ (31 : BitVec 5).toNat = 31 ∧
      loading.setup.phase = .loading ∧ 30 ≤ ((atClock 30 loading).clock - (atClock 30 loading).setup.releasedAt).toNat ∧
      ((atClock 30 loading).clock - (atClock 30 loading).setup.releasedAt).toNat ≤ 30 ∧ (List.replicate 160 (1 : Byte)).length = 160 ∧
      recordChecks (List.replicate 160 1) = false ∧ clashing.length = 160 ∧ recordChecks clashing = true ∧
      structurallyWrong 5 (agreeFields (clampRanges (recordOf (streamOf clashing)))) = true := by decide +kernel

theorem witness_AGoodRecordIsPutInUse :
    loading.setup.phase = .loading ∧ (loading.clock - loading.setup.releasedAt).toNat ≤ 30 ∧ zeros.length = 160 ∧ recordChecks zeros = true ∧
      structurallyWrong loading.setup.station (agreeFields (clampRanges (recordOf (streamOf zeros)))) = false := by decide +kernel

theorem witness_ClampingMakesARecordLegalAndKeepsALegalOne : cfgLegal record = true ∧ cfgLegal linkedRecord = true := by decide +kernel

theorem witness_TheStartSequenceBringsThePartUp : loadedPart.setup.phase = .loaded ∧ quiet loadedPart = true := by decide +kernel

/-! #### Peer view -/

/-- The TILT axis settled after a correction. -/
def corrected : State := onAxis .tilt (fun r => { r with correction := true }) (settled .tilt .msq 136 up)

theorem witness_AVehicleNoticeIsStoredAndJudged :
    (fun (x : ArrivalEntry) => ({ up with arrivals := [x] } : State).arrivals = x :: [] ∧ x.kind = .role .vehicle)
      (entry (.role .vehicle) 12 (vehicleBytes 6 1000 (-1000) 35999) up) ∧
    (vehicleOf (vehicleBytes 6 1000 (-1000) 35999)).brakeSet = false ∧ up.plant.msq.state ≠ .stowed ∧ stowed.plant.msq.state = .stowed := by
  refine ⟨⟨rfl, rfl⟩, ?_⟩; decide +kernel

/-- The mast moves up by a correction of the hold drift check. -/
def correctingUp : State := onAxis .mast (fun r => { r with correction := true }) (onPlant (fun p => { p with msq := { p.msq with state := .raised } }) (raising 4100 12000))

/-- A released brake, outriggers up, a tilted van (R42, R91). -/
theorem witness_AVehicleNoticeIsStoredAndJudged_losses :
    (raising 4100 12000).plant.msq.state = .raising 12000 .up ∧ (raising 4100 12000).plant.pvw.permissives = allGiven ∧
      (vehicleOf (vehicleBytes 5 0 0 0)).brakeSet = true ∧ (vehicleOf (vehicleBytes 5 0 0 0)).outriggersDown = false ∧
      (vehicleOf (vehicleBytes 7 301 0 0)).outriggersDown = true ∧ ¬ (vehicleOf (vehicleBytes 7 301 0 0)).pitch.natAbs ≤ record.vanLevel ∧
      (vehicleOf (vehicleBytes 7 300 0 0)).pitch.natAbs ≤ record.vanLevel ∧ arbiterSound correctingUp.plant = true ∧
      (axisOf correctingUp.plant .mast).correction = true ∧ (axisOf correctingUp.plant .mast).cls = some .raise := by decide +kernel

theorem witness_AWindValueIsBroughtIntoRange :
    (waits (.role .wind) 14 (u16 1000 ++ u16 1001) up).arrivals = [entry (.role .wind) 14 (u16 1000 ++ u16 1001) up] ∧
      (entry (.role .wind) 14 (u16 1000 ++ u16 1001) up).kind = .role .wind := by decide +kernel

theorem witness_AWindFilterStepsByItsTable :
    (¬ (130 + 20 < 150 : Prop)) ∧ (129 + 20 < 150 : Prop) ∧ (2 + 1 < 4 : Prop) ∧ (4 ≤ 3 + 1 : Prop) ∧ (150 ≤ (150 : Nat)) ∧ ((149 : Nat) < 150) ∧ ((20 : Nat) ≤ 20) := by
  decide

theorem witness_AWindNoticeGatesMastAndHead :
    (waits (.role .wind) 14 (u16 100 ++ u16 150) (raising 4100 12000)).arrivals = [entry (.role .wind) 14 (u16 100 ++ u16 150) (raising 4100 12000)] ∧
      (raising 4100 12000).plant.msq.state = .raising 12000 .up ∧ (raising 4100 12000).plant.pvw.permissives.windRaiseOk = true ∧
      (stepFilter 150 20 4 150 (raising 4100 12000).plant.pvw.raiseFilter).side = .above ∧ (axisOf (raising 4100 12000).plant .mast).state = .moving ∧
      carriesMove (axisOf (raising 4100 12000).plant .mast) .msq = true ∧ arbiterSound (raising 4100 12000).plant = true ∧
      carriesMove (axisOf (panMoving 0 .jog 0 100).plant .pan) .jog = true ∧ (axisOf corrected.plant .tilt).correction = true ∧
      arbiterSound (panMoving 0 .jog 0 100).plant = true ∧ arbiterSound corrected.plant = true ∧ (pointing (.active .peaking)).plant.pnt.state = .active .peaking ∧
      Activity.peaking ≠ .tracking ∧ (pointing (.active .peaking)).plant.pvw.permissives.windMoveOk = true ∧
      (stepFilter 200 20 4 200 (pointing (.active .peaking)).plant.pvw.holdFilter).side = .above := by decide +kernel

theorem witness_AClearanceNoticeLimitsTheMast :
    (waits (.role .clearance) 15 ([0] ++ u16 9000) (raising 4100 12000)).arrivals = [entry (.role .clearance) 15 ([0] ++ u16 9000) (raising 4100 12000)] ∧
      clearanceOf ([0] ++ u16 9000) = some 9000 ∧ clearanceOf ([1] ++ u16 9000) = none ∧ (axisOf (raising 4100 12000).plant .mast).position = some 4100 ∧
      (raising 4100 12000).plant.msq.state = .raising 12000 .up ∧ up.plant.msq.state = .raised ∧ (axisOf up.plant .mast).position = some 8600 := by decide +kernel

theorem witness_ALevelNoticeRefreshesTheEntry :
    (waits (.role .level) 20 [1, 0, 0, 9] up).arrivals = [entry (.role .level) 20 [1, 0, 0, 9] up] ∧ up.setup.cfg.source = .localSource ∧
      linkedPart.setup.cfg.source = .linked := by decide +kernel

/-- One report short of its mean, opened 501 ms before the stamp of a report that comes now. -/
def oneShort (s : State) : Measurement := { count := 3, sum := -1500, lastSequence := some 8, openedAt := s.clock.setWidth 16 - 501 }

/-- Linked, one report short at the preset, at a search point, at a cross point. -/
def presetShort : State :=
  onPlant (fun p => { p with
    pnt := { p.pnt with state := .active (.slewing .measure), completedAt := linkedPart.clock - 501, measurement := oneShort linkedPart } }) linkedPart

def searchShort : State :=
  onPlant (fun p => { p with
    pnt := { p.pnt with state := .active (.acquiring .search) }, pat := some { pattern (.running .measure) with measurement := oneShort linkedPart } }) linkedPart

def crossShort : State :=
  onPlant (fun p => { p with
    pnt := { p.pnt with state := .active .peaking }, run := { Run.cold with status := .running .measure, delta := some 40, measurement := oneShort linkedPart } }) linkedPart

/-- R128 with settle 200 and lag 300: 40000 ms after the slew's completion a report at its arrival counts; 600 ms after it, one that has waited
100 ms does not. -/
theorem test_preset_report :
    seen .level (waits (.role .level) 20 ([1] ++ s16 (-500) ++ [9]) (atClock 41000 (onPlant (fun p => { p with
        pnt := { p.pnt with completedAt := 1000, measurement := { Measurement.blank with openedAt := 1000 } } }) presetShort)))
      (fun t => t.plant.pnt.measurement.count) = some 1 ∧
    seen .level (atClock 1600 (waits (.role .level) 20 ([1] ++ s16 (-500) ++ [9]) (atClock 1500 (onPlant (fun p => { p with
        pnt := { p.pnt with completedAt := 1000, measurement := { Measurement.blank with openedAt := 1000 } } }) presetShort))))
      (fun t => t.plant.pnt.measurement.count) = some 0 := by decide +kernel

/-- Settle 200 and lag 300 (R128, R141): of 501 ms a report counts, of 500 ms it does not. -/
theorem witness_ALevelNoticeRefreshesTheEntry_counting :
    linkedPart.plant.pvw.permissives.levelOk = true ∧ presetShort.plant.pnt.state = .active (.slewing .measure) ∧
      record.settle + record.lag < (presetShort.clock.setWidth 16 - (oneShort presetShort).openedAt).toNat ∧
      ¬ record.settle + record.lag < (presetShort.clock.setWidth 16 - (oneShort presetShort).openedAt - 1).toNat ∧
      (record.settle + record.lag + 0 < (presetShort.clock - presetShort.plant.pnt.completedAt).toNat ∧
        ¬ record.settle + record.lag + 1 < (presetShort.clock - presetShort.plant.pnt.completedAt).toNat) ∧
      (counted 4 { level := -500, sequence := 9, stamp := 1000 } true (oneShort up)).count = 4 ∧
      (counted 4 { level := -500, sequence := 8, stamp := 1000 } true (oneShort up)).count = 3 ∧
      searchShort.plant.pat.map (·.status) = some (.running .measure) ∧ patternListens crossShort.plant = false ∧
      crossShort.plant.run.status = .running .measure ∧ runListens linkedPart.plant = false ∧ linkedPart.plant.monitor.state = .off := by decide +kernel

theorem witness_AnEntryExpiresPastItsLimit :
    up.plant.pvw.vehicle.state = some .fresh ∧ up.plant.pvw.vehicle.stamp = some 1000 ∧ record.vehicleLimit < ((1501 : Clock).setWidth 16 - (1000 : Stamp)).toNat ∧
      ((1500 : Clock).setWidth 16 - (1000 : Stamp)).toNat ≤ record.vehicleLimit ∧ up.plant.pvw.wind.state = some .fresh ∧ up.plant.pvw.wind.stamp = some 1000 ∧
      up.plant.pvw.clearance.state = some .fresh ∧ up.plant.pvw.clearance.stamp = some 1000 ∧ linkedPart.plant.pvw.level.state = some .fresh ∧
      linkedPart.plant.pvw.level.stamp = some 1000 ∧ record.windLimit < ((3001 : Clock).setWidth 16 - (1000 : Stamp)).toNat ∧
      up.plant.pvw.level.state ≠ some .fresh := by decide +kernel

/-- The losses at an expiry: a raise, a slew with the PEAK flag, TRACKING without the wind permissive. -/
theorem witness_AnEntryExpiresPastItsLimit_losses :
    (raising 4100 12000).plant.pvw.permissives = allGiven ∧ (raising 4100 12000).plant.msq.state = .raising 12000 .up ∧ stowed.plant.msq.state = .stowed ∧
      (pointing (.active (.slewing .move))).plant.pvw.permissives.levelOk = true ∧ flagPeakSet (pointing (.active (.slewing .move))).plant = true ∧
      linkedRecord.source = .linked ∧ ({ allGiven with windMoveOk := false } : PermissiveSet).levelOk = true := by decide +kernel

/-! #### Stop, authority and replies -/

theorem witness_TheCommonChecksRefuseInOrder :
    headCommand (some .raise) (commands [4, 7, 0, 0] safePart) = some (command [4, 7, 0, 0] safePart) ∧ safePart.setup.phase = .safe ∧
      safePart.setup.result = .fault .check ∧ headCommand (some .raise) (commands [4, 7, 0, 0] up) = some (command [4, 7, 0, 0] up) ∧ up.setup.phase ≠ .safe ∧
      CommandCode.raise.isMotion = true ∧ (latched (.stop 30) none up).plant.aut.latch = some (.stop 30) ∧
      (onPlant (fun p => { p with aut := { p.aut with duplicate := some 900 } }) up).plant.aut.duplicate = some 900 ∧ up.plant.aut.latch = none ∧
      up.plant.aut.duplicate = none ∧ busy (raising 4100 12000).plant = true ∧ headCommand none (commands [10, 7] up) = some (command [10, 7] up) ∧
      headCommand none (commands [0, 7] safePart) = some (command [0, 7] safePart) := by decide +kernel

theorem witness_ResumeClearsTheLatchAndStartsNothing :
    headCommand (some .resume) (commands [1, 7] up) = some (command [1, 7] up) ∧ up.setup.phase ≠ .safe ∧ up.plant.aut.duplicate = none ∧
      up.plant.aut.window = none ∧ up.plant.aut.latch = none ∧ (latched .start none up).plant.aut.latch = some .start ∧
      (latched .start (some 1000) up).plant.aut.window = some 1000 := by decide +kernel

theorem witness_ClearFaultRemovesWhatNoLongerHolds :
    headCommand (some .clearFault) (commands [2, 7] (supplyFault .above)) = some (command [2, 7] (supplyFault .above)) ∧ up.setup.phase ≠ .safe ∧
      (supplyFault .above).plant.flt.records.filter (conditionHolds (envOf up) (supplyFault .above).plant) ≠ (supplyFault .above).plant.flt.records ∧
      (supplyFault .below).plant.flt.records.filter (conditionHolds (envOf up) (supplyFault .below).plant) = (supplyFault .below).plant.flt.records ∧
      ∀ a, (axisOf (supplyFault .above).plant a).sensorValid = true := by
  refine ⟨?_, ?_, ?_, ?_, everyAxis ?_⟩ <;> decide +kernel

theorem witness_ARoundPostsWhatFindsRoom :
    up.plant.aut.round.count .link ≤ 1 ∧ fullRound.count .link ≤ 1 ∧ headCommand (some .report) (commands [3, 7] up) = some (command [3, 7] up) ∧
      up.setup.phase ≠ .safe := by decide +kernel

theorem witness_ASecondPositionerSetsTheDuplicateCondition :
    (waits .positionerStatus 7 (List.replicate 10 1) up).arrivals = [entry .positionerStatus 7 (List.replicate 10 1) up] ∧
      (byteAt (List.replicate 10 1) 0).toNat = up.setup.mastNumber ∧ (byteAt (List.replicate 10 2) 0).toNat ≠ up.setup.mastNumber ∧
      (duplicated 900 up).plant.aut.duplicate.isSome = true ∧ up.plant.aut.duplicate = none ∧ up.plant.aut.latch = none ∧ arbiterSound up.plant = true ∧
      (latched .start none up).plant.aut.latch.isSome = true ∧ receiving (assembling up) = true ∧ (frameOf 1 3 5 [0, 1, 0, 2]).wf = true ∧
      checkMatches (frameOf 1 3 5 [0, 1, 0, 2]) = true ∧ tagSource (frameOf 1 3 5 [0, 1, 0, 2]).tag = up.setup.station ∧ up.setup.result ≠ .fault .strap := by
  decide +kernel

theorem witness_TheDuplicateConditionOutlastsTheLastEvent :
    (duplicated 31800 up).plant.aut.duplicate = some 31800 ∧ ((41800 : Clock) - 31800).toNat = 10000 ∧ ((41799 : Clock) - 31800).toNat < 10000 ∧
      headCommand (some .resume) (commands [1, 7] (duplicated 31800 up)) = some (command [1, 7] (duplicated 31800 up)) ∧
      (duplicated 31800 up).setup.phase ≠ .safe := by decide +kernel

/-! #### Sampler and watches -/

theorem witness_AScanResultIsStoredAndTheScanGoesOn :
    (pilotScan.plant.smp.converter = some { channel := 3, purpose := .scan } ∧ (∀ w ∈ record.watches, w.channel = 3 → w.action = .none) ∧
      pilotScan.plant.smp.sweepHanding = false ∧ pilotScan.plant.smp.dwell = none ∧ record.source = .localSource ∧ record.pilot = 3) ∧
    (up.plant.smp.converter = some { channel := 0, purpose := .scan } ∧ (∀ w ∈ record.watches, w.channel = 0 → w.action = .none) ∧ record.enabled ≠ 0) ∧
    (onPlant (fun p => { p with smp := { p.smp with dwell := some { identity := 0, requester := .pat, samples := 4 } } }) up).plant.smp.dwell =
      some { identity := 0, requester := .pat, samples := 4 } := by decide +kernel

/-- A sweep's levels at the floor's two sides; the found level ends the sweep, TILT standing ready. -/
theorem witness_AScanResultIsStoredAndTheScanGoesOn_sweep :
    (fun (s : State) => s.plant.smp.converter = some { channel := 3, purpose := .scan } ∧ s.plant.smp.dwell = none ∧ s.plant.smp.sweepHanding = true ∧
      s.plant.pat.map (·.status) = some (.running .sweep) ∧ record.floor ≤ clampInt (-1500) 300 (record.lZero + ((2006 * record.lGain + 2048) / 4096 : Nat)) ∧
      clampInt (-1500) 300 (record.lZero + ((1000 * record.lGain + 2048) / 4096 : Nat)) < record.floor ∧ record.enabled ≠ 0 ∧
      s.plant.pnt.state = .active (.acquiring .search) ∧ activityMay (envOf s) s.plant ∧ arbiterSound s.plant = true ∧
      (axisOf s.plant .pan).state = .moving ∧ carriesMove (axisOf s.plant .pan) .pat = true ∧ mayMoveTo (envOf s) s.plant .tilt 186) sweepScan := by
  unfold activityMay mayMoveTo; decide +kernel

theorem witness_ADwellCollectsItsSamplesAndHandsTheirMean :
    (fun (m : Sampler) => m.converter = some { channel := record.pilot, purpose := .dwell 6 } ∧ m.sweepHanding = false ∧
      m.dwell = some { identity := 6, requester := .pke, samples := 4 } ∧ m.ring.length = 8 ∧ m.count = 3 ∧ m.next = 4 ∧
      m.ring.take 3 = ([-509, -509, -511] : List Int).map some) dwelling.plant.smp ∧
    (∀ w ∈ record.watches, w.channel = record.pilot → w.action = .none) ∧ record.enabled ≠ 0 ∧
    (handMean (envOf dwelling) .pke (-509) { dwelling.plant with smp := { dwelling.plant.smp with dwell := none } }).smp.sweepHanding = false := by
  refine ⟨⟨?_, ?_, ?_, ?_, ?_, ?_, ?_⟩, ?_, ?_, ?_⟩ <;> decide +kernel

/-- The preset measured with the head at the pointing position: at the floor a run may begin, below it the first raster point may be asked. -/
theorem witness_ADwellCollectsItsSamplesAndHandsTheirMean_preset :
    (fun (s : State) => s.plant.pnt.state = .active (.slewing .measure) ∧ record.floor ≤ -700 ∧ (-701 : Int) < record.floor ∧
      mayMoveToPoint (envOf s) s.plant { pan := pointingTarget (envOf s) s.plant .pan, tilt := pointingTarget (envOf s) s.plant .tilt } ∧
      mayMoveToPoint (envOf s) s.plant { pan := pointingTarget (envOf s) s.plant .pan - 100, tilt := pointingTarget (envOf s) s.plant .tilt } ∧
      activityMay (envOf s) s.plant ∧
      ¬ activityMay (envOf s) { s.plant with pvw := { s.plant.pvw with permissives := { allGiven with windMoveOk := false } } })
      (pointing (.active (.slewing .measure))) := by
  unfold mayMoveToPoint mayMoveTo activityMay; decide +kernel

def freedRun : State :=
  onPlant (fun p => { p with
    pnt := { p.pnt with state := .active .peaking }, run := { Run.cold with status := .running .measure, delta := some 40 },
    smp := { p.smp with freed := [.pke, .pat] } }) up

theorem witness_AFreedRequesterAsksAgain :
    (.pke ∈ freedRun.plant.smp.freed ∧ freedRun.setup.cfg.source = .localSource ∧ wantsDwell .pke freedRun.plant = true ∧ freedRun.plant.smp.dwell = none ∧
      .pat ∈ freedRun.plant.smp.freed ∧ wantsDwell .pat freedRun.plant = false ∧ .pke ∉ freedRun.plant.smp.noted) ∧
    (.pnt ∈ (axisOf slewingFreed.plant .pan).freed ∧ slewingFreed.plant.pnt.state = .active (.slewing .move) ∧ .pan ∈ slewingFreed.plant.pnt.slewList ∧
      slewingFreed.plant.aut.latch = none ∧ (axisOf slewingFreed.plant .pan).state = .idle ∧ headFree (envOf slewingFreed) slewingFreed.plant = true ∧
      (axisOf slewingFreed.plant .pan).switchLow = false ∧ (axisOf slewingFreed.plant .pan).switchHigh = false) := by decide +kernel

/-- The axis free event handed to MSQ parking and lowering, to PAT and to PKE. -/
def freedFor (who : Requester) (a : Axis) (s : State) : State := onAxis a (fun r => { r with freed := [who] }) s

def parkingUp : State := onPlant (fun p => { p with msq := { p.msq with state := .parking [.pan] } }) up

def pendingDown : State := onPlant (fun p => { p with msq := { p.msq with state := .lowering true } }) up

def pointLeft : State := onPlant (fun p => { p with pat := p.pat.map fun x => { x with moveList := [.tilt] } }) (searching (.running .toPoint))

def crossLeft : State := onPlant (fun p => { p with run := { p.run with moveList := [.pan], targets := { pan := 3050, tilt := 136 } } }) (peaking (.running .toPoint))

theorem witness_AFreedRequesterAsksAgain_others :
    (.jog ∈ (axisOf (freedFor .jog .pan up).plant .pan).freed) ∧
    (fun (s : State) => .msq ∈ (axisOf s.plant .pan).freed ∧ s.plant.msq.state = .parking [.pan] ∧ mayMoveTo (envOf s) s.plant .pan (stowPosition (envOf s) .pan))
      (freedFor .msq .pan parkingUp) ∧
    (fun (s : State) => .msq ∈ (axisOf s.plant .mast).freed ∧ s.plant.msq.state = .lowering true ∧ mayMoveTo (envOf s) s.plant .mast 0)
      (freedFor .msq .mast pendingDown) ∧
    (fun (s : State) => .pat ∈ (axisOf s.plant .tilt).freed ∧ s.plant.pat.map (fun y => (y.status, y.moveList, y.barred)) = some (.running .toPoint, [.tilt], false) ∧
      mayMoveTo (envOf s) s.plant .tilt 186) (freedFor .pat .tilt pointLeft) ∧
    (fun (s : State) => .pke ∈ (axisOf s.plant .pan).freed ∧ s.plant.run.status = .running .toPoint ∧ .pan ∈ s.plant.run.moveList ∧ s.plant.run.barred = false ∧
      mayMoveTo (envOf s) s.plant .pan 3050) (freedFor .pke .pan crossLeft) := by
  unfold mayMoveTo
  refine ⟨?_, ?_, ?_, ?_, ?_⟩ <;> decide +kernel

/-- The supply watch is the only one on A4, which is not the pilot. -/
theorem witness_AWatchStepsByItsTableAndActs_scan :
    supplyFalling.plant.smp.converter = some { channel := 4, purpose := .scan } ∧ record.watches[0]? = some supplyWatch ∧
      (supplyFalling.plant.watches[0]?).isSome = true ∧ supplyWatch.channel = 4 ∧ supplyWatch.action ≠ .none ∧
      (∀ j : Fin 6, j ≠ 0 → ∀ d ∈ record.watches[j]?, d.channel = 4 → d.action = .none) ∧ 4 ≠ record.pilot := by decide +kernel

theorem witness_AWatchStepsByItsTableAndActs :
    supplyWatch.threshold ≤ (2600 : Count).toNat ∧ ¬ supplyWatch.threshold ≤ (2599 : Count).toNat ∧ WatchState.cold.side ≠ some .above ∧ 1 < supplyWatch.depth ∧
      supplyWatch.depth ≤ 2 ∧ (supplyWatch.edgeCode = 1 ∧ Side.below = .below) ∧ watchScope supplyWatch = some .all ∧ up.plant.flt.records.length < 8 ∧
      (supplyFault .below).plant.flt.records = [{ kind := .supply, axis := .all }] := by decide +kernel

/-! #### Axis drives and faults -/

def request (a : Axis) (who : Requester) (target : Int) : MoveRequest :=
  { axis := a, requester := who, cls := .headMove, target := target, cap := none, recovery := false }

theorem witness_AMoveRequestIsJudgedInOrder :
    (latched .start none up).plant.aut.latch ≠ none ∧ (axisOf working.plant .pan).state = .stopping ∧ (axisOf (supplyFault .below).plant .pan).state = .fault ∧
      mastBringingDown (supplyFault .below).plant.msq.state = false ∧ headFree (envOf stowed) stowed.plant = false ∧
      switchBlocks { idleAt 60 with switchHigh := true } 61 = true ∧ switchBlocks { idleAt 60 with switchHigh := true } 60 = false ∧
      (axisOf (panMoving 0 .pnt 0 5000).plant .pan).requester ≠ some (request .pan .pat 100).requester ∧
      (axisOf (panMoving 0 .pnt 0 5000).plant .pan).correction = false ∧ headFree (envOf up) up.plant = true ∧ (axisOf up.plant .pan).state = .idle := by
  decide +kernel

/-- A move replaced in WAITING, MOVING and SETTLING, by its own requester or over a correction (R80). -/
theorem witness_AMoveRequestIsJudgedInOrder_replaced :
    (axisOf (queued [.pan] up).plant .pan).requester = some .pke ∧ (axisOf (queued [.pan] up).plant .pan).state = .waiting ∧
      (axisOf (panMoving 0 .pnt 0 5000).plant .pan).requester = some .pnt ∧ (axisOf corrected.plant .tilt).state = .settling ∧
      (axisOf corrected.plant .tilt).correction = true ∧ (axisOf corrected.plant .tilt).position = some 136 ∧ record.tilt.window < (157 - 136 : Int).natAbs ∧
      ¬ record.tilt.window < (156 - 136 : Int).natAbs ∧ switchBlocks (axisOf corrected.plant .tilt) 157 = false := by decide +kernel

/-- A drifted PAN with its permissives and without them, and one within twice the window (R90). -/
theorem witness_AServoPeriodDrivesTheAxis_drift :
    up.setup.phase = .running ∧ (axisOf up.plant .pan).state = .idle ∧ (axisOf up.plant .pan).target = some 60 ∧
      2 * record.pan.window < ((BitVec.ofInt 24 101 : SensorWord).toInt - 60).natAbs ∧ ¬ 2 * record.pan.window < ((BitVec.ofInt 24 100 : SensorWord).toInt - 60).natAbs ∧
      headMoveGiven up.plant = true ∧ headFree (envOf up) up.plant = true ∧ up.plant.aut.latch = none ∧ (latched .start none up).plant.aut.latch ≠ none ∧
      (BitVec.ofInt 24 101 : SensorWord).toInt ≤ record.pan.softMax + record.pan.margin := by decide +kernel

theorem witness_AServoPeriodDrivesTheAxis :
    ∀ s ∈ [panMoving 2990 .pnt 0 5000, onAxis .pan (fun r => { r with state := .settling }) (panMoving 10 .pnt 4980 5000),
        onAxis .pan (fun r => { r with state := .stopping }) (panMoving 50 .pnt 35000 35000)],
      s.setup.phase = .running ∧ (axisOf s.plant .pan).position.isSome = true ∧ (axisOf s.plant .pan).target.isSome = true ∧
        (record.pan.softMin - record.pan.margin ≤ (BitVec.ofInt 24 35000 : SensorWord).toInt ∧ (BitVec.ofInt 24 35000 : SensorWord).toInt ≤ record.pan.softMax) ∧
        ((axisOf s.plant .pan).stallTimer + 1 < record.pan.stallTime) ∧
        ((axisOf s.plant .pan).state = .moving ∨ (axisOf s.plant .pan).state = .settling ∨ (axisOf s.plant .pan).state = .stopping) := by decide +kernel

theorem witness_AFaultIsEnteredAndHaltsItsAxes :
    ({ kind := .supply, axis := .all } : FaultRecord) ∈ (supplyFault .below).plant.flt.records ∧ up.plant.flt.records.length < 8 ∧
      8 ≤ ([FaultKind.stall, .limit, .sensor, .current, .pilot, .pressure, .overtravel, .baseTilt].map fun k => (⟨k, .one .pol⟩ : FaultRecord)).length ∧
      faultNames .all .pan = true ∧ (FaultKind.stall ≠ .driveAway) ∧ sparedLower working.plant (axisOf working.plant .pan) = false ∧
      (axisOf stalled.plant .tilt).stallDue = true ∧ (axisOf stalled.plant .tilt).state = .moving ∧ arbiterSound stalled.plant = true ∧
      arbiterSound (supplyFault .below).plant = true ∧ arbiterSound working.plant = true := by decide +kernel

/-- OVERTRAVEL from 15101 with the margin 100, LIMIT at an active high switch, SENSOR, and the mast below the cradle clear height 900. -/
theorem witness_AFaultIsEnteredAndHaltsItsAxes_period :
    up.setup.phase = .running ∧ (record.mast.softMax + record.mast.margin < (15101 : Int)) ∧ (axisOf up.plant .mast).outsideHigh = false ∧
      ¬ record.mast.softMax + record.mast.margin < (15100 : Int) ∧ (axisOf (panMoving 10 .pnt 0 5000).plant .pan).state = .moving ∧
      arbiterSound (panMoving 10 .pnt 0 5000).plant = true ∧
      0 < (axisOf (panMoving 10 .pnt 0 5000).plant .pan).v ∧ (axisOf up.plant .pan).sensorValid = true ∧
      (axisOf (partWith record (plantAt 900 .raised)).plant .mast).position = some record.cradleClear ∧ (899 : Int) < record.cradleClear ∧
      (∀ x ∈ [MastState.raised, .halted .stop, .parking [.pan]], (partWith record (plantAt 900 x)).plant.msq.state = x) ∧
      headInsideStow (envOf up) up.plant = true ∧ headInsideStow (envOf up) (pointing .pointed).plant = false := by decide +kernel

def slewed : State := onPlant (fun p => { p with pnt := { p.pnt with state := .active (.slewing .move), slewList := [.pol], record := some aimed } }) (settled .pol .pnt 0 up)

theorem witness_ASettledMoveCompletes :
    ((axisOf corrected.plant .tilt).state = .settling ∧ (axisOf corrected.plant .tilt).v = 0 ∧ max 1 record.tilt.settleTime ≤ (axisOf corrected.plant .tilt).settleTimer ∧
      2 ≤ (axisOf corrected.plant .tilt).settlePeriods ∧
      arbiterSound corrected.plant = true ∧ budgetSound corrected = true ∧ corrected.plant.axd.waiting = [] ∧
      (axisOf corrected.plant .tilt).correction = true) ∧
    (fun (s : State) => (axisOf s.plant .mast).state = .settling ∧ (axisOf s.plant .mast).v = 0 ∧ (axisOf s.plant .mast).correction = false ∧
      max 1 record.mast.settleTime ≤ (axisOf s.plant .mast).settleTimer ∧ 2 ≤ (axisOf s.plant .mast).settlePeriods ∧ s.plant.pnt.state ≠ .waitingMast ∧ arbiterSound s.plant = true ∧ (axisOf s.plant .mast).requester = some .msq ∧
      s.plant.msq.state = .raising 8600 .up) (settled .mast .msq 8600 (partWith record (plantAt 8600 (.raising 8600 .up)))) ∧
    (fun (s : State) => (axisOf s.plant .mast).requester = some .msq ∧ s.plant.msq.state = .lowering false ∧ (axisOf s.plant .mast).position = some 150)
      (settled .mast .msq 150 (partWith record (plantAt 150 (.lowering false)))) ∧
    ((axisOf slewed.plant .pol).requester = some .pnt ∧ slewed.plant.pnt.state = .active (.slewing .move) ∧ slewed.plant.pnt.slewList = [.pol] ∧
      slewed.plant.pnt.record = some aimed) := by
  refine ⟨?_, ⟨?_, ?_, ?_, ?_, ?_, ?_, ?_, ?_, ?_⟩, ⟨?_, ?_, ?_⟩, ?_⟩ <;> decide +kernel

theorem witness_ASettledMoveCompletes_waiting :
    (axisOf (queued [.pol] corrected).plant .tilt).state = .settling ∧ arbiterSound (queued [.pol] corrected).plant = true ∧
      budgetSound (queued [.pol] corrected) = true ∧ standsFirst (queued [.pol] corrected).plant.axd .pol := by
  unfold standsFirst
  decide +kernel

/-- A settled axis of a requester, its grant held, in a part where the mast or the head works. -/
def parked (l : List Axis) : State := settled .pol .msq 0 (onPlant (fun p => { p with msq := { p.msq with state := .parking l } }) up)

def returning : State := onPlant (fun p => { p with pnt := { p.pnt with state := .active (.acquiring .back) } }) slewed

def atPoint (l : List Axis) : State :=
  settled .tilt .pat 186 (onPlant (fun p => { p with pat := p.pat.map fun x => { x with moveList := l } }) (searching (.running .toPoint)))

def atCross (st : RunStage) (l : List Axis) : State :=
  settled .pan .pke 3030 (onPlant (fun p => { p with run := { p.run with moveList := l, best := some { point := { pan := 3030, tilt := 136 }, level := -610 } } })
    (peaking (.running st)))

def aimWaits : State :=
  onPlant (fun p => { p with pnt := { p.pnt with state := .waitingMast, record := some aimed } })
    (settled .mast .msq 8600 (partWith record (plantAt 8600 (.raising 8600 .up))))

theorem witness_ASettledMoveCompletes_notDue : (axisOf up.plant .pan).state ≠ .settling ∧ (0 : Nat) < max 1 0 ∧ (4 : Nat) < max 1 record.pan.settleTime ∧ (1 : Nat) < 2 := by decide +kernel

theorem witness_ASettledMoveCompletes_owners :
    (∀ s ∈ [returning, atPoint [.tilt], atPoint [.pan, .tilt], atCross .toPoint [.pan], atCross .toClose [.pan], atCross .toBest [.pan], parked [.pol],
        parked [.pan, .pol], aimWaits], ∃ a ∈ allAxes, (axisOf s.plant a).state = .settling ∧ (axisOf s.plant a).v = 0 ∧ (axisOf s.plant a).correction = false ∧
          max 1 (axisCfg (envOf s) a).settleTime ≤ (axisOf s.plant a).settleTimer ∧ 2 ≤ (axisOf s.plant a).settlePeriods ∧ arbiterSound s.plant = true) ∧
    (returning.plant.pnt.state = .active (.acquiring .back) ∧ returning.plant.pnt.slewList = [.pol] ∧ returning.plant.pnt.record = some aimed) ∧
    (atPoint [.tilt]).plant.pat.map (fun y => (y.status, y.blocked)) = some (.running .toPoint, false) ∧
    ((atCross .toPoint [.pan]).plant.run.status = .running .toPoint ∧ (atCross .toClose [.pan]).plant.run.status = .running .toClose ∧
      (atCross .toBest [.pan]).plant.run.moveList = [.pan] ∧ (atCross .toBest [.pan]).plant.pnt.state = .active .peaking) ∧
    (arbiterSound (parked [.pol]).plant = true ∧ headInsideStow (envOf up) (parked [.pol]).plant = true ∧
      headInsideStow (envOf up) (onAxis .pan (fun _ => idleAt 3030) (parked [.pol])).plant = false ∧ mayMoveTo (envOf up) (parked [.pol]).plant .mast 0) ∧
    (arbiterSound aimWaits.plant = true ∧ aimWaits.plant.pnt.state = .waitingMast ∧ given aimWaits.plant .windMoveOk = true) ∧
    ∀ b, b ≠ .mast → mayMoveTo (envOf up) aimWaits.plant b (pointingTarget (envOf up) aimWaits.plant b) := by
  unfold mayMoveTo
  refine ⟨?_, ?_, ?_, ?_, ?_, ?_, everyAxis ?_⟩ <;> decide +kernel

/-- A SWEEP row: its start reached, free and blocked, and its end reached in the middle, at a pass's end and at the pattern's end. -/
theorem witness_ASettledMoveCompletes_sweep :
    (∀ x ∈ [(Axis.tilt, rowStart false), (.tilt, rowStart true), (.pan, rowSwept 2 1), (.pan, rowSwept 3 1), (.pan, rowSwept 3 2)],
      (fun (a : Axis) (s : State) => (axisOf s.plant a).state = .settling ∧ (axisOf s.plant a).v = 0 ∧ (axisOf s.plant a).correction = false ∧
        max 1 (axisCfg (envOf s) a).settleTime ≤ (axisOf s.plant a).settleTimer ∧ 2 ≤ (axisOf s.plant a).settlePeriods ∧ (axisOf s.plant a).requester = some .pat ∧ arbiterSound s.plant = true ∧
        s.plant.pat.map (fun y => (y.mode, decide (a ∈ y.moveList), y.moveList.filter fun b => decide (b ≠ a))) = some (.sweep, true, []) ∧
        s.plant.aut.latch = none ∧ headFree (envOf s) s.plant = true ∧ isHeld s.plant a = false ∧ s.plant.pnt.state = .active (.acquiring .search) ∧
        ∀ b ∈ headAxes, (b = a ∨ (axisOf s.plant b).state = .idle) ∧ switchBlocks (axisOf s.plant b) (clampSoft (envOf s) b 2900) = false) x.1 x.2) ∧
    ((rowStart true).plant.pat.map (·.blocked) = some true ∧ (rowStart false).plant.pat.map (·.blocked) = some false ∧
      (rowSwept 3 2).plant.pat.map (fun y => (decide (y.rows ≤ y.row), decide (y.passes ≤ y.pass))) = some (true, true)) := by decide +kernel

theorem witness_AFreeGrantGoesByTheOrder :
    (queued [.tilt, .pan, .mast] up).plant.axd.grants.length < record.budget ∧ .mast ∈ (queued [.tilt, .pan, .mast] up).plant.axd.waiting ∧
      (queued [.tilt, .pan] up).plant.axd.lastGranted = .tilt ∧ .mast ∉ (queued [.tilt, .pan] up).plant.axd.waiting ∧
      (queued [.pol] up).plant.axd.waiting ≠ [] ∧ (∀ b ∈ (queued [.pol] up).plant.axd.waiting, b = .pol) ∧ up.plant.axd.waiting = [] := by decide +kernel

/-! #### Mast sequencing, pointing -/

theorem witness_ARaiseIsJudgedAndGoesToItsTarget :
    headCommand (some .raise) (commands ([4, 7] ++ u16 12000) stowed) = some (command ([4, 7] ++ u16 12000) stowed) ∧ mayMove 2 stowed = true ∧
      (mayMove 2 (onPlant (fun p => { p with aut := { p.aut with holder := some 2 } }) (raising 4100 12000)) = true ∧
        mastBusy (raising 4100 12000).plant.msq.state = true) ∧
      (mastBusy stowed.plant.msq.state = false ∧ isHeld (supplyFault .below).plant .mast = true ∧ isHeld stowed.plant .mast = false) ∧
      (raisePermissives = [] ++ .brakeSet :: [.outriggersDown, .vanLevelOk, .windRaiseOk, .clearanceOk] ∧
        raisePermissives = [.brakeSet, .outriggersDown, .vanLevelOk, .windRaiseOk] ++ .clearanceOk :: []) ∧
      (raiseGiven stowed.plant = true ∧ (axisOf stowed.plant .mast).state = .idle ∧ switchBlocks (axisOf stowed.plant .mast) 12000 = false) ∧
      ((overhead (some 1500) stowed).plant.pvw.clearance.state = some .fresh ∧ (overhead (some 1500) stowed).plant.pvw.clearance.value = some (some 1500)) ∧
      switchBlocks { idleAt 40 with switchHigh := true } 12000 = true := by decide +kernel

theorem witness_ALowerGoesOnAccordingToTheHead :
    headCommand (some .lower) (commands [5, 7] up) = some (command [5, 7] up) ∧ mayMove 2 up = true ∧ arbiterSound up.plant = true ∧
      (stowed.plant.msq.state = .stowed ∧ mastBringingDown (plantAt 8600 (.lowering false)).msq.state = true) ∧
      (up.plant.msq.state ≠ .stowed ∧ mastBringingDown up.plant.msq.state = false ∧ heldBeyondDriveAway up.plant .mast = false ∧
        headInsideStow (envOf up) up.plant = true ∧ switchBlocks (axisOf up.plant .mast) (clampSoft (envOf up) .mast 0) = false) ∧
      heldBeyondDriveAway (supplyFault .below).plant .mast = true ∧
      (headInsideStow (envOf unparked) unparked.plant = false ∧ (axisOf unparked.plant .mast).position = some 420) ∧
      (headInsideStow (envOf up) (pointing .pointed).plant = false ∧ headFree (envOf up) (pointing .pointed).plant = true ∧
        ∀ a, a ≠ .mast → (heldBeyondDriveAway (pointing .pointed).plant a = false ∧ (axisOf (pointing .pointed).plant a).state = .idle) ∧
          switchBlocks (axisOf (pointing .pointed).plant a) (clampSoft (envOf up) a (if a = .tilt then -1500 else 0)) = false) := by
  refine ⟨?_, ?_, ?_, ?_, ?_, ?_, ?_, ?_, ?_, everyAxis ?_⟩ <;> decide +kernel

theorem witness_AnAimWritesTheRecordAndSlews :
    headCommand (some .aim) (commands (aimBytes 7000 150 0 3) up) = some (command (aimBytes 7000 150 0 3) up) ∧ mayMove 2 up = true ∧
      ((word16At (aimBytes 36000 0 0 0) 2).toNat = 36000 ∧ (word16At (aimBytes 0 9001 0 0) 4).toInt = 9001 ∧ (word16At (aimBytes 35999 9000 0 0) 2).toNat = 35999) ∧
      (∀ z ∈ [Permissive.brakeSet, .headingOk, .windMoveOk], up.plant.pvw.permissives.given z = true) ∧
      (up.plant.msq.state = .raised ∧ headFree (envOf up) up.plant = true ∧ headFree (envOf stowed) stowed.plant = false) ∧
      headJogged up.plant = false ∧ headJogged (panMoving 0 .jog 0 100).plant = true ∧ isHeld (supplyFault .below).plant .pan = true ∧
      panCandidates (envOf up) 3000 = [3000, -33000] ∧ up.plant.axd.waiting = [] ∧
      (∀ a, a ≠ .mast → isHeld up.plant a = false ∧ (axisOf up.plant a).state = .idle ∧ switchBlocks (axisOf up.plant a) 86 = false) := by
  refine ⟨?_, ?_, ?_, ?_, ?_, ?_, ?_, ?_, ?_, ?_, everyAxis ?_⟩ <;> decide +kernel

/-- Panel 2 is the holder and pointing is at `x`, with a pattern that moves to a point. -/
def replaceable (x : PointState) (s : State) : State :=
  onPlant (fun p => { p with pat := some (pattern (.running .toPoint)), pnt := { p.pnt with state := x }, aut := { p.aut with holder := some 2 } }) s

/-- An AIM from panel 2 meets the conditions under which it takes over another's work. -/
def takesOver (s : State) : Bool :=
  mayMove 2 s && arbiterSound s.plant && headFree (envOf s) s.plant && !headJogged s.plant &&
    headAxes.all fun a => !isHeld s.plant a && decide ((axisOf s.plant a).state ≠ .fault) && !switchBlocks (axisOf s.plant a) 86

/-- An AIM over a search, a slew, a peaking run, tracking and LOST; in a raise, and HELD without LEVEL_OK. -/
theorem witness_AnAimWritesTheRecordAndSlews_replaced :
    (fun (s : State) => takesOver s = true ∧ replacedWork s.plant = some .pat ∧ endedByAim s.plant .pan = true) (replaceable (.active (.acquiring .search)) (panMoving 0 .pat 0 100)) ∧
    (fun (s : State) => takesOver s = true ∧ replacedWork s.plant = some .pnt ∧ carriesMove (axisOf s.plant .pan) .pnt = true)
      (replaceable (.active (.slewing .move)) (panMoving 0 .pnt 0 100)) ∧
    (∀ x ∈ [PointState.active .peaking, .active .tracking, .lost, .held .peaking .wind],
      takesOver (replaceable x (panMoving 0 .pke 0 100)) = true ∧ replacedWork (replaceable x (panMoving 0 .pke 0 100)).plant = some .pke) ∧
    replacedWork (replaceable .pointed up).plant = none ∧
    (fun (s : State) => takesOver s = true ∧ s.plant.msq.state = .raising 12000 .up) (replaceable .pointed (raising 4100 12000)) ∧
    (fun (s : State) => takesOver s = true ∧ s.setup.cfg.source = .linked ∧ s.plant.pvw.permissives.levelOk = false)
      (replaceable .pointed (onPlant (fun p => { p with pvw := { p.pvw with permissives := { p.pvw.permissives with levelOk := false } } }) linkedPart)) ∧
    (axisOf (replaceable .pointed (onAxis .pan (fun r => { r with state := .stopping, brakeSet := false }) up)).plant .pan).state = .stopping := by decide +kernel

theorem witness_APeakBeginsARun :
    headCommand (some .peak) (commands [7, 7] (pointing .pointed)) = some (command [7, 7] (pointing .pointed)) ∧ mayMove 2 (pointing .pointed) = true ∧
      arbiterSound (pointing .pointed).plant = true ∧ (pointing .pointed).plant.pnt.state = .pointed ∧ up.plant.pnt.state = .idle ∧
      (∀ z ∈ [Permissive.brakeSet, .windMoveOk], (pointing .pointed).plant.pvw.permissives.given z = true) ∧
      headFree (envOf up) (pointing .pointed).plant = true ∧ headJogged (pointing .pointed).plant = false ∧
      (∀ a ∈ [Axis.pan, .tilt], (axisOf (pointing .pointed).plant a).state = .idle ∧
        switchBlocks (axisOf (pointing .pointed).plant a) (pointingTarget (envOf up) (pointing .pointed).plant a) = false) ∧
      ∀ a, a ≠ .mast → isHeld (pointing .pointed).plant a = false := by
  refine ⟨?_, ?_, ?_, ?_, ?_, ?_, ?_, ?_, ?_, everyAxis ?_⟩ <;> decide +kernel

theorem witness_ACancelHaltsPointing :
    headCommand (some .cancelPointing) (commands [8, 7] (panMoving 0 .pnt 0 100)) = some (command [8, 7] (panMoving 0 .pnt 0 100)) ∧
      mayMove 2 (pointing .lost) = true ∧ (pointing .lost).plant.pnt.state ≠ .idle ∧ up.plant.pnt.state = .idle ∧
      patternUnderWay (searching (.suspended .measure)).plant = true ∧ patternUnderWay (pointing .lost).plant = false ∧
      carriesMove (axisOf (panMoving 0 .pnt 0 100).plant .pan) .pnt = true ∧ dwellSound (pointing .lost).plant = true ∧ dwellSound dwelling.plant = true ∧
      dwelling.plant.pnt.state ≠ .idle ∧ dwelling.plant.smp.dwell.isSome = true ∧ arbiterSound (panMoving 0 .pnt 0 100).plant = true := by decide +kernel

theorem witness_AJogMovesOneHeadAxis :
    headCommand (some .jog) (commands (jogBytes 4 100 0) up) = some (command (jogBytes 4 100 0) up) ∧ mayMove 2 up = true ∧
      3 < (byteAt (jogBytes 4 100 0) 2).toNat ∧ (byteAt (jogBytes 0 100 0) 2).toNat = 0 ∧ (byteAt (jogBytes 3 100 0) 2).toNat = 3 ∧
      (up.plant.pnt.state = .idle ∧ (axisOf up.plant .pol).state = .idle ∧ headFree (envOf up) up.plant = true ∧ switchBlocks (axisOf up.plant .pol) 100 = false) ∧
      (∀ z ∈ [Permissive.brakeSet, .windMoveOk], up.plant.pvw.permissives.given z = true) ∧
      ([Permissive.brakeSet, .windMoveOk] = [] ++ .brakeSet :: [.windMoveOk]) ∧
      (mayMove 2 unparked = true ∧ headFree (envOf unparked) unparked.plant = false ∧ unparked.plant.msq.state = .halted .start ∧
        (-1450 - -1500 : Int).natAbs < (-1300 - -1500 : Int).natAbs) ∧
      (axisOf (supplyFault .below).plant .pan).state = .fault := by decide +kernel

/-! #### Searching, peaking and tracking -/

theorem witness_ASettleExpiryBeginsTheMeasurement :
    (pointing (.active (.slewing .settle))).plant.pnt.state = .active (.slewing .settle) ∧
      (searching (.running (.settle 1000))).plant.pat = some (pattern (.running (.settle 1000))) ∧
      (peaking (.running (.settle 800))).plant.run.status = .running (.settle 800) ∧
      (peaking (.running (.closeSettle 800))).plant.run.status = .running (.closeSettle 800) ∧ record.settle ≤ ((1000 : Clock) - 800).toNat ∧
      ¬ record.settle ≤ ((999 : Clock) - 800).toNat ∧ Measurement.blank.count < record.peakN ∧ linkedRecord.source = .linked ∧
      linkedRecord.peakN ≤ ({ Measurement.blank with count := 4 } : Measurement).count := by decide +kernel

/-- A measured search point: found, within a row, at a row's end, at a pass's end, at the end of the pattern. -/
def measured (row point pass : Nat) : State :=
  onPlant (fun p => { p with pat := p.pat.map fun x => { x with row := row, point := point, pass := pass } }) (searching (.running .measure))

theorem witness_ASettleExpiryBeginsTheMeasurement_mean :
    (fun (s : State) => s.plant.pnt.state = .active (.acquiring .search) ∧ activityMay (envOf s) s.plant ∧
      s.plant.pat = some (pattern (.running .measure)) ∧ record.floor ≤ -700 ∧ (-701 : Int) < record.floor ∧
      mayMoveToPoint (envOf s) s.plant { pan := 3100, tilt := 186 } ∧
      mayMoveToPoint (envOf s) s.plant (patternTarget { pattern (.running .measure) with point := 2 } 2) ∧
      mayMoveToPoint (envOf s) s.plant (patternTarget { pattern (.running .measure) with row := 3 } 1) ∧
      mayMoveToPoint (envOf s) s.plant (patternTarget { pattern (.running .measure) with row := 1, pass := 2 } 1)) (measured 2 1 1) ∧
    ((measured 2 3 1).plant.pat.map (fun y => (decide (y.points ≤ y.point), decide (y.row < y.rows))) = some (true, true)) ∧
    ((measured 3 3 1).plant.pat.map (fun y => (decide (y.rows ≤ y.row), decide (y.pass < y.passes))) = some (true, true)) ∧
    ((measured 3 3 2).plant.pat.map (fun y => (decide (y.rows ≤ y.row), decide (y.passes ≤ y.pass))) = some (true, true)) ∧
    arbiterSound (measured 3 3 2).plant = true ∧
    ∀ a, a ≠ .mast → mayMoveTo (envOf up) (measured 3 3 2).plant a (pointingTarget (envOf up) (measured 3 3 2).plant a) := by
  unfold mayMoveToPoint mayMoveTo activityMay
  refine ⟨?_, ?_, ?_, ?_, ?_, everyAxis ?_⟩ <;> decide +kernel

theorem witness_AResumeDelayTakesTheWorkUpAgain :
    (fun (s : State) => arbiterSound s.plant = true ∧ s.plant.pat = some (pattern (.resumeWait (.settle 0) 1000)) ∧ 1000 ≤ (s.clock - 1000).toNat ∧
      s.plant.aut.latch = none ∧ headFree (envOf s) s.plant = true ∧ (axisOf s.plant .pan).state = .idle ∧ (axisOf s.plant .tilt).state = .idle ∧
      switchBlocks (axisOf s.plant .pan) 3100 = false ∧ switchBlocks (axisOf s.plant .tilt) 186 = false)
      (atClock 2000 (searching (.resumeWait (.settle 0) 1000))) ∧
    ((1999 : Clock) - 1000).toNat < 1000 ∧ arbiterSound (peaking (.resumeWait (.closeSettle 0) 1000)).plant = true ∧
    (peaking (.resumeWait (.closeSettle 0) 1000)).plant.run.status = .resumeWait (.closeSettle 0) 1000 := by
  refine ⟨⟨?_, ?_, ?_, ?_, ?_, ?_, ?_, ?_, ?_⟩, ?_, ?_, ?_⟩ <;> decide +kernel

theorem witness_TheEstimatorPlacesTheCorrection :
    ((-500 : Int) + -501 - 2 * -500 < 0) ∧ (0 ≤ (-530 : Int) + -530 - 2 * -530) ∧ (∀ l ∈ [(-1500 : Int), 300, -1500], -1500 ≤ l ∧ l ≤ 300) ∧ (1000 : Nat) ≤ 1000 := by
  decide

/-- A measured cross point within the round and at its end, converged, at the round limit and neither; a measured closing centre. -/
theorem witness_TheEstimatorPlacesTheCorrection_mean :
    ((pointing (.active .peaking)).plant.pnt.record = some aimed ∧ lastPoint.plant.run.index = 5 ∧ lastPoint.plant.run.delta = some 40 ∧
      lastPoint.plant.run.levels.tiltPlus = some (-700) ∧ (peaking (.running .measure)).plant.run.index = 2 ∧
      estimate 10 (-605) (-605) (-600) = 0 ∧ record.deltaMin = 10 ∧ 7 + 1 = record.roundLimit ∧ ¬ 0 + 1 = record.roundLimit ∧
      (peaking (.running .closeMeasure)).plant.pnt.state = .active .peaking ∧ aimed.flagTrack = true ∧
      given (peaking (.running .closeMeasure)).plant .levelOk = true) ∧
    mayMoveToPoint (envOf up) (peaking (.running .measure)).plant { pan := 3010, tilt := 136 } := by
  refine ⟨?_, ?_⟩
  · decide +kernel
  · unfold mayMoveToPoint mayMoveTo; decide +kernel

/-- A linked level report while tracking and while LOST, its sequence new. -/
theorem witness_ATrackingSampleIsJudged_linked :
    (fun (s : State) => s.setup.cfg.source = .linked ∧ s.plant.pvw.permissives.levelOk = true ∧ s.plant.pnt.state ≠ .active (.slewing .measure) ∧
      patternListens s.plant = false ∧ runListens s.plant = false ∧ s.plant.monitor.state = .watching ∧ s.plant.monitor.lastSequence ≠ some 9)
      (onConfig (fun _ => linkedRecord) (tracking (-600) { Monitor.cold with state := .watching, lastSequence := some 8 })) ∧
    (onPlant (fun p => { p with pnt := { p.pnt with state := .lost } }) (tracking (-633) { Monitor.cold with state := .recovery })).plant.pnt.state = .lost := by
  decide +kernel

theorem witness_ATrackingSampleIsJudged :
    (fun (s : State) => s.plant.monitor.periodStart = some 900 ∧ s.setup.cfg.source = .localSource ∧ s.plant.monitor.state ≠ .off ∧ 100 ≤ (s.clock - 900).toNat ∧
      s.plant.monitor.state = .watching ∧ pilotMean s.plant.smp s.setup.cfg.peakN = some (-593)) (tracking (-593) (watchingSince 900)) ∧
    pilotMean up.plant.smp record.peakN = none ∧
    (fun (s : State) => s.plant.monitor.state = .recovery ∧ s.plant.pnt.state = .lost ∧ pilotMean s.plant.smp s.setup.cfg.peakN = some (-633) ∧
      (s.plant.pnt.record.bind (·.peak)) = some (-603))
      (onPlant (fun p => { p with pnt := { p.pnt with state := .lost } }) (tracking (-633) { watchingSince 900 with state := .recovery })) := by
  refine ⟨⟨?_, ?_, ?_, ?_, ?_, ?_⟩, ?_, ?_, ?_, ?_, ?_⟩ <;> decide +kernel

theorem witness_AFadePeaksAgainAndALossIsLost :
    (fun (s : State) => s.plant.monitor.state = .watching ∧ s.plant.pnt.state = .active .tracking ∧ arbiterSound s.plant = true ∧
      s.plant.monitor.fadeStart = some 500 ∧ record.fadeTime ≤ (s.clock - 500).toNat ∧ s.plant.pvw.permissives.windMoveOk = true ∧ s.plant.aut.latch = none ∧
      headFree (envOf s) s.plant = true ∧ ∀ a ∈ [Axis.pan, .tilt], (axisOf s.plant a).state = .idle ∧
        switchBlocks (axisOf s.plant a) (pointingTarget (envOf s) s.plant a) = false)
      (atClock 2500 (tracking (-655) { watchingSince 900 with fadeStart := some 500, lossStart := some 500 })) ∧
    record.lossTime ≤ ((5500 : Clock) - 500).toNat ∧ ((5499 : Clock) - 500).toNat < record.lossTime := by
  refine ⟨⟨?_, ?_, ?_, ?_, ?_, ?_, ?_, ?_, ?_⟩, ?_, ?_⟩ <;> decide +kernel

end Sys2Proof.Tests
end

