-- ==== Sys2Proof/Proofs/LinkQueues.lean ====
section
/-! PROOFS. The post queue read as a list around one entry (R17, R18): what a post, a selection, a return and a removal do to
`a ++ x :: b`, and what a post leaves in transmission. -/

namespace Sys2Proof.Machine

theorem bump_eq_min (n : Nat) : bump n = min 65535 (n + 1) := by unfold bump; split <;> omega

/-! ### Waiting entries of a key -/

theorem hasWaiting_eq_false {k : PostKey} {l : List PostEntry} : hasWaiting k l = false ↔ ∀ y ∈ l, y.sending = false → y.key ≠ k := by
  simp only [hasWaiting, List.any_eq_false, Bool.and_eq_true, decide_eq_true_eq, Bool.not_eq_true', not_and]
  exact ⟨fun h y m s e => h y m e s, fun h y m e s => h y m s e⟩

theorem hasWaiting_middle {k : PostKey} {y : PostEntry} (hk : y.key = k) (hs : y.sending = false) (a b : List PostEntry) :
    hasWaiting k (a ++ y :: b) = true := by
  simp [hasWaiting, hk, hs]

theorem replaceWaiting_none {k : PostKey} {l : List PostEntry} (h : hasWaiting k l = false) (x : List Byte) : replaceWaiting k x l = l := by
  rw [hasWaiting_eq_false] at h
  exact (List.map_congr_left fun y m => if_neg fun c => h y m c.2 c.1).trans (List.map_id l)

theorem replaceWaiting_middle {k : PostKey} {a b : List PostEntry} {y : PostEntry} (x : List Byte) (hk : y.key = k) (hs : y.sending = false)
    (ha : hasWaiting k a = false) (hb : hasWaiting k b = false) :
    replaceWaiting k x (a ++ y :: b) = a ++ { y with payload := x, overrunSince := false } :: b := by
  have middle : replaceWaiting k x (y :: b) = { y with payload := x, overrunSince := false } :: replaceWaiting k x b := by
    simp [replaceWaiting, hk, hs]
  have parts : replaceWaiting k x (a ++ y :: b) = replaceWaiting k x a ++ replaceWaiting k x (y :: b) := List.map_append
  rw [parts, middle, replaceWaiting_none ha, replaceWaiting_none hb]

/-! ### The highest and the lowest waiting tag -/

/-- The highest waiting tag bounds every waiting tag; there is none only when nothing waits. -/
theorem highestWaiting_bounds (l : List PostEntry) : ∀ z ∈ l, z.sending = false → ∃ t, highestWaiting l = some t ∧ z.tag ≤ t := by
  induction l using List.reverseRecOn with
  | nil => simp
  | append_singleton l x ih =>
    intro z m s
    simp only [List.mem_append, List.mem_singleton] at m
    have last : highestWaiting (l ++ [x]) = if x.sending then highestWaiting l else
        some ((highestWaiting l).elim x.tag fun t => if t < x.tag then x.tag else t) := by
      simp only [highestWaiting, List.foldl_append, List.foldl_cons, List.foldl_nil]
      generalize List.foldl _ _ l = best
      cases best with
      | none => rfl
      | some t => simp only [Option.elim_some, apply_ite some]
    rw [last]
    cases hx : x.sending with
    | true =>
      have inside : z ∈ l := m.resolve_right fun e => by rw [e, hx] at s; cases s
      simpa using ih z inside s
    | false =>
      refine ⟨_, if_neg (by simp), ?_⟩
      rcases m with m | rfl
      · obtain ⟨t, ht, le⟩ := ih z m s
        rw [ht, Option.elim_some]
        split
        · exact BitVec.le_trans le (BitVec.le_of_lt ‹_›)
        · exact le
      · cases highestWaiting l with
        | none => exact BitVec.le_refl _
        | some t =>
          rw [Option.elim_some]
          split
          · exact BitVec.le_refl _
          · exact BitVec.not_lt.1 ‹_›

/-- A waiting entry whose tag bounds every waiting tag has the highest one. -/
theorem highestWaiting_eq {l : List PostEntry} {y : PostEntry} (m : y ∈ l) (s : y.sending = false)
    (top : ∀ z ∈ l, z.sending = false → z.tag ≤ y.tag) : highestWaiting l = some y.tag := by
  obtain ⟨t, ht, le⟩ := highestWaiting_bounds l y m s
  obtain ⟨z, mz, tz, sz⟩ := highestWaiting_mem ht
  rw [ht, BitVec.le_antisymm (tz ▸ top z mz sz) le]

/-- The lowest waiting tag is the tag of a waiting entry and bounds every waiting tag; there is none only when nothing waits. -/
theorem lowestWaiting_spec (l : List PostEntry) :
    (lowestWaiting l = none ∧ ∀ z ∈ l, z.sending = true) ∨
      ∃ y ∈ l, y.sending = false ∧ lowestWaiting l = some y.tag ∧ ∀ z ∈ l, z.sending = false → y.tag ≤ z.tag := by
  induction l using List.reverseRecOn with
  | nil => exact Or.inl ⟨rfl, by simp⟩
  | append_singleton l x ih =>
    have last : lowestWaiting (l ++ [x]) = if x.sending then lowestWaiting l else
        some ((lowestWaiting l).elim x.tag fun t => if x.tag < t then x.tag else t) := by
      simp only [lowestWaiting, List.foldl_append, List.foldl_cons, List.foldl_nil]
      generalize List.foldl _ _ l = best
      cases best with
      | none => rfl
      | some t => simp only [Option.elim_some, apply_ite some]
    rw [last]
    simp only [List.mem_append, List.mem_singleton]
    cases hx : x.sending with
    | true =>
      rw [if_pos rfl]
      refine ih.imp (fun ⟨n, h⟩ => ⟨n, ?_⟩) fun ⟨y, m, s, e, h⟩ => ⟨y, Or.inl m, s, e, ?_⟩
      · rintro z (m | rfl)
        exacts [h z m, hx]
      · rintro z (m | rfl) sz
        · exact h z m sz
        · rw [hx] at sz; cases sz
    | false =>
      refine Or.inr ?_
      rcases ih with ⟨n, h⟩ | ⟨y, m, s, e, h⟩
      · refine ⟨x, Or.inr rfl, hx, by simp [n], ?_⟩
        rintro z (m | rfl) sz
        · rw [h z m] at sz; cases sz
        · exact BitVec.le_refl _
      · by_cases lt : x.tag < y.tag
        · refine ⟨x, Or.inr rfl, hx, by simp [e, lt], ?_⟩
          rintro z (mz | rfl) sz
          · exact BitVec.le_trans (BitVec.le_of_lt lt) (h z mz sz)
          · exact BitVec.le_refl _
        · refine ⟨y, Or.inl m, s, by simp [e, lt], ?_⟩
          rintro z (mz | rfl) sz
          · exact h z mz sz
          · exact BitVec.not_lt.1 lt

theorem lowestWaiting_eq {l : List PostEntry} {y : PostEntry} (m : y ∈ l) (s : y.sending = false)
    (low : ∀ z ∈ l, z.sending = false → y.tag ≤ z.tag) : lowestWaiting l = some y.tag := by
  rcases lowestWaiting_spec l with ⟨-, h⟩ | ⟨z, mz, sz, e, h⟩
  · rw [h y m] at s; cases s
  · rw [e, BitVec.le_antisymm (h y m s) (low z mz sz)]

theorem lowestWaiting_none {l : List PostEntry} (h : ∀ z ∈ l, z.sending = true) : lowestWaiting l = none := by
  rcases lowestWaiting_spec l with ⟨e, -⟩ | ⟨z, mz, sz, -⟩
  · exact e
  · rw [h z mz] at sz; cases sz

/-- The newest waiting entry of a tag, with none of that tag waiting after it, is the one dropped. -/
theorem dropNewestWaiting_middle {a b : List PostEntry} {y : PostEntry} (s : y.sending = false)
    (later : ∀ z ∈ b, z.sending = false → z.tag ≠ y.tag) : dropNewestWaiting y.tag (a ++ y :: b) = a ++ b := by
  have none : ∀ z ∈ b.reverse, ¬ (decide (z.tag = y.tag) && !z.sending) = true := by
    intro z m c
    simp only [Bool.and_eq_true, decide_eq_true_eq, Bool.not_eq_true'] at c
    exact later z (by simpa using m) c.2 c.1
  have shape : (a ++ y :: b).reverse = b.reverse ++ y :: a.reverse := by simp
  unfold dropNewestWaiting
  rw [shape, List.eraseP_append_right _ none, List.eraseP_cons_of_pos (by simp [s])]
  simp

/-- The oldest waiting entry of a tag, with none of that tag waiting before it, is the one put in transmission. -/
theorem markFirst_middle {a b : List PostEntry} {x : PostEntry} (s : x.sending = false) (earlier : ∀ y ∈ a, y.tag ≠ x.tag) :
    markFirst x.tag (a ++ x :: b) = a ++ { x with sending := true } :: b := by
  induction a with
  | nil => simp [markFirst, s]
  | cons y a ih =>
    have other : y.tag ≠ x.tag := earlier y (by simp)
    have rest : markFirst x.tag (a ++ x :: b) = a ++ { x with sending := true } :: b := ih fun z m => earlier z (by simp [m])
    simp [markFirst, other, rest]

/-! ### The entry in transmission -/

theorem sendingEntry_eq_none {q : PostQueue} : sendingEntry q = none ↔ ∀ y ∈ q.entries, y.sending = false := by
  simp [sendingEntry, List.find?_eq_none]

theorem sendingEntry_middle {q : PostQueue} {a b : List PostEntry} {x : PostEntry} (h : q.entries = a ++ x :: b) (s : x.sending = true)
    (only : ∀ y ∈ a ++ b, y.sending = false) : sendingEntry q = some x := by
  have before : a.find? (fun y => y.sending) = none := List.find?_eq_none.2 fun y m => by simp [only y (by simp [m])]
  rw [sendingEntry, h, List.find?_append, before, List.find?_cons_of_pos s]
  rfl

theorem waiting_filter {l : List PostEntry} (h : ∀ y ∈ l, y.sending = false) : (l.filter fun y => !y.sending) = l :=
  List.filter_eq_self.2 fun y m => by simp [h y m]

theorem waiting_map {l : List PostEntry} (h : ∀ y ∈ l, y.sending = false) : (l.map fun y => { y with sending := false }) = l :=
  (List.map_congr_left fun y m => by rw [← h y m]; rfl).trans (List.map_id l)

theorem removeSending_middle {q : PostQueue} {a b : List PostEntry} {x : PostEntry} (h : q.entries = a ++ x :: b) (s : x.sending = true)
    (only : ∀ y ∈ a ++ b, y.sending = false) : removeSending q = { q with entries := a ++ b } := by
  have left : ((a ++ x :: b).filter fun y => !y.sending) = a ++ b := by
    rw [← waiting_filter only]
    simp [List.filter_append, s]
  rw [removeSending, h, left]

/-- The return of R18: to the old place, or away when a waiting entry of its key joined meanwhile. -/
theorem returnSending_middle {q : PostQueue} {a b : List PostEntry} {x : PostEntry} (h : q.entries = a ++ x :: b) (s : x.sending = true)
    (only : ∀ y ∈ a ++ b, y.sending = false) :
    returnSending q = { q with entries := if ∃ y ∈ a ++ b, y.key = x.key then a ++ b else a ++ { x with sending := false } :: b } := by
  have joined : hasWaiting x.key q.entries = true ↔ ∃ y ∈ a ++ b, y.key = x.key := by
    rw [h, ← not_iff_not, Bool.not_eq_true, hasWaiting_eq_false]
    push Not
    refine ⟨fun g y m => g y (by simp at m ⊢; tauto) (only y m), fun g y m sy => g y ?_⟩
    simp only [List.mem_append, List.mem_cons] at m ⊢
    rcases m with m | rfl | m
    · exact Or.inl m
    · rw [s] at sy; cases sy
    · exact Or.inr m
  simp only [returnSending, sendingEntry_middle h s only]
  by_cases j : hasWaiting x.key q.entries = true
  · rw [if_pos j, if_pos (joined.1 j)]
    exact removeSending_middle h s only
  · rw [if_neg j, if_neg fun g => j (joined.2 g), h]
    have ha : ∀ y ∈ a, y.sending = false := fun y m => only y (by simp [m])
    have hb : ∀ y ∈ b, y.sending = false := fun y m => only y (by simp [m])
    rw [List.map_append, List.map_cons, waiting_map ha, waiting_map hb]

/-- A post begins no transmission. -/
theorem postTo_sending_none (k : PostKey) (t : Tag) (x : List Byte) (q : PostQueue) (h : sendingEntry q = none) : sendingEntry (postTo k t x q) = none := by
  rw [sendingEntry_eq_none] at h ⊢
  have replaced : ∀ y ∈ replaceWaiting k x q.entries, y.sending = false := by
    simp only [replaceWaiting, List.mem_map]
    rintro y ⟨z, m, rfl⟩
    split <;> exact h z m
  have joined (l : List PostEntry) (sub : l.Sublist q.entries) : ∀ y ∈ l ++ [newEntry k t x], y.sending = false := by
    simp only [List.mem_append, List.mem_singleton]
    rintro y (m | rfl)
    exacts [h y (sub.subset m), rfl]
  rcases postTo_cases k t x q with ⟨-, e⟩ | ⟨-, -, e⟩ | ⟨-, -, high, -, -, e⟩ | ⟨-, -, -, e⟩ <;> rw [e]
  · exact replaced
  · exact joined _ (List.Sublist.refl _)
  · exact joined _ (dropNewestWaiting_sublist high q.entries)
  · exact h

/-! ### R17 -/

/-- Settles O12: the outcomes of `postTo_cases`, each found by what the statement says of the queue. -/
theorem aPostIsHandledAtTheMomentItIsMade : Obligations.APostIsHandledAtTheMomentItIsMade := by
  intro k t x q
  refine ⟨fun a y b shape hk hs ha hb => ?_, fun new room => ?_, fun a y b new full shape hs ha hb lower => ?_, fun new full high => ?_⟩
  · have waits : hasWaiting k q.entries = true := shape ▸ hasWaiting_middle hk hs a b
    rw [postTo, if_pos waits, shape, replaceWaiting_middle x hk hs ha hb]
  · rw [postTo, if_neg (by simp [new]), if_pos (show q.entries.length < queueSize from room)]
    rfl
  · have top : highestWaiting q.entries = some y.tag := by
      rw [shape]
      refine highestWaiting_eq (by simp) hs ?_
      simp only [List.mem_append, List.mem_cons]
      rintro z (m | rfl | m) s
      exacts [ha z m s, BitVec.le_refl _, BitVec.le_of_lt (hb z m s)]
    have dropped : dropNewestWaiting y.tag q.entries = a ++ b :=
      shape ▸ dropNewestWaiting_middle hs fun z m s e => BitVec.lt_irrefl y.tag (e ▸ hb z m s)
    have noRoom : ¬ q.entries.length < queueSize := Nat.not_lt.2 full
    simp only [postTo, new, Bool.false_eq_true, noRoom, if_false, top, lower, if_true, dropped, bump_eq_min]
    rfl
  · rcases postTo_cases k t x q with ⟨c, -⟩ | ⟨-, c, -⟩ | ⟨-, -, h, top, lt, -⟩ | ⟨-, -, -, e⟩
    · rw [new] at c; cases c
    · exact absurd full (Nat.not_le.2 c)
    · obtain ⟨z, m, rfl, s⟩ := highestWaiting_mem top
      exact absurd (high z m s) (BitVec.not_le.2 lt)
    · rw [e, bump_eq_min]

end Sys2Proof.Machine
end

