-- ==== Sys2Proof/Proofs/LinkLine.lean ====
section
/-! PROOFS. The commands of the line (R1 to R11): the line condition, transmission and its ends, the periodic posts, and DEC's
judgement of a notice that is no STOP and no own notice (R12 to R15). -/

namespace Sys2Proof.Machine

/-! ### Line condition (R1, R2) -/

theorem isSending_eq_false {s : State} (h : sendingEntry s.plant.posts = none) : isSending s = false := by simp [isSending, h]

/-- The effects of a send fault with the entry in transmission between `a` and `b` (R8, R10, R18). -/
theorem sendFaultEffects_middle {s : State} {a b : List PostEntry} {x : PostEntry} (h : s.plant.posts.entries = a ++ x :: b) (sx : x.sending = true)
    (only : ∀ y ∈ a ++ b, y.sending = false) :
    sendFaultEffects s = { s with
      line := scoreFault s.clock s.line,
      plant := { s.plant with posts := { s.plant.posts with
        entries := if ∃ y ∈ a ++ b, y.key = x.key then a ++ b else a ++ { x with sending := false } :: b } } } := by
  simp only [sendFaultEffects, returnEntry, returnSending_middle h sx only]

/-- Settles O13: the arms of LINE_IDLE, START_BIT and STUCK_EVENT, by whether a notice is being assembled. -/
theorem theLineConditionFollowsTheLine : Obligations.TheLineConditionFollowsTheLine := by
  intro s watched
  refine ⟨fun quiet busy => ?_, fun idle => ?_, fun quiet driven => ?_, fun a x b shape sx only driven => ?_⟩
  · refine (if_pos ⟨watched, isSending_eq_false quiet, busy⟩).trans ?_
    split <;> rfl
  · exact if_pos ⟨watched, idle⟩
  · refine (if_pos ⟨watched, driven⟩).trans ?_
    rw [isSending_eq_false quiet]
    by_cases r : s.line.receiver = .assembling <;> simp [r, countReceiveFault]
  · have sends : isSending s = true := by simp [isSending, sendingEntry_middle shape sx only]
    refine (if_pos ⟨watched, driven⟩).trans ?_
    rw [if_pos sends, sendFaultEffects_middle shape sx only]
    by_cases r : s.line.receiver = .assembling <;> simp [r, scoreFault, countReceiveFault]

/-! ### Transmission (R6 to R9, R18) -/

/-- Settles O18: the entry found by `lowestWaiting_eq` is the one `markFirst_middle` marks. -/
theorem theLowestTagIsSentFirst : Obligations.TheLowestTagIsSentFirst := by
  intro s
  refine ⟨fun a x b watched sound idle active shape waits earlier later => ?_, fun blocked => ?_⟩
  · have quiet : isSending s = false := isSending_eq_false (sendingEntry_eq_none.2 (shape ▸ waits))
    have may : mayBegin s = true := by simp [mayBegin, watched, quiet, idle, active, sound]
    have lowest : lowestWaiting s.plant.posts.entries = some x.tag := by
      rw [shape]
      refine lowestWaiting_eq (by simp) (waits x (by simp)) ?_
      simp only [List.mem_append, List.mem_cons]
      rintro z (m | rfl | m) -
      exacts [BitVec.le_of_lt (earlier z m), BitVec.le_refl _, later z m]
    have marked := markFirst_middle (b := b) (waits x (by simp)) fun y m e => BitVec.lt_irrefl x.tag (e ▸ earlier y m)
    simp only [exec, execNoticeBegin, may, lowest]
    rw [shape, marked]
    rfl
  · have none : mayBegin s = false ∨ lowestWaiting s.plant.posts.entries = none := by
      rcases blocked with ⟨y, m, sy⟩ | all | notIdle | withdrawn
      · refine Or.inl ?_
        have sends : isSending s = true := by
          rw [isSending, Option.isSome_iff_ne_none]
          intro n
          rw [sendingEntry_eq_none.1 n y m] at sy
          cases sy
        simp [mayBegin, sends]
      · exact Or.inr (lowestWaiting_none all)
      · exact Or.inl (by simp [mayBegin, notIdle])
      · exact Or.inl (by simp [mayBegin, withdrawn])
    simp only [exec, execNoticeBegin]
    rcases none with no | no
    · rw [no]
    · rw [no]
      cases mayBegin s <;> rfl

/-- Settles O19: the arm of SENT_WHOLE with the entry that `removeSending_middle` removes. -/
theorem aNoticeSentWholeLeavesTheQueue : Obligations.ANoticeSentWholeLeavesTheQueue := by
  intro s a x b shape sx only
  have score : s.line.score - 1 = if 0 < s.line.score then s.line.score - 1 else 0 := by split <;> omega
  rw [← score]
  simp only [exec, execSentWhole, sendingEntry_middle shape sx only, removeSending_middle shape sx only]
  rfl

/-- Settles O20: the entry goes back by `returnSending_middle`; the withdrawal is judged by its elapsed time. -/
theorem anEntryNotSentWholeReturns : Obligations.AnEntryNotSentWholeReturns := by
  refine ⟨fun s a x b shape sx only => ⟨fun bit one => ?_, fun m possible => ?_⟩, fun s since withdrawn => ⟨fun passed => ?_, fun early => ?_⟩⟩
  · simp only [exec, execContentionLost, sendingEntry_middle shape sx only]
    refine (if_pos one).trans ?_
    simp only [returnEntry, returnSending_middle shape sx only]
  · simp only [exec, execSendFault, sendingEntry_middle shape sx only]
    refine (if_pos possible).trans ?_
    rw [sendFaultEffects_middle shape sx only]
    rfl
  · simp only [exec, execWithdrawalExpiry, withdrawn]
    exact if_pos passed
  · simp only [exec, execWithdrawalExpiry, withdrawn]
    exact if_neg (Nat.not_le.2 early)

/-! ### The periodic posts (R11, R59, R85) -/

/-- Settles O21: each expiry posts the fields as they are and restarts its period. -/
theorem periodicReportsArePosted : Obligations.PeriodicReportsArePosted := by
  intro s start
  refine ⟨fun running passed => ?_, fun running passed => ?_, fun a running passed moves => ?_⟩
  · simp only [exec, execLinkReportPeriodExpiry, running]
    exact if_pos passed
  · simp only [exec, execStatusPeriodExpiry, running]
    exact if_pos passed
  · have posted : exec (.axisReportPeriodExpiry a) s =
        .next { s with plant := postAxisReport (envOf s) a (setAxisRaw a { axisOf s.plant a with reportStart := some s.clock } s.plant) } := by
      simp only [exec, execAxisReportPeriodExpiry, running]
      exact if_pos ⟨passed, moves⟩
    refine ⟨_, posted, rfl, rfl, rfl, ?_⟩
    simp [postAxisReport, axisReportPayload]

/-! ### DEC's judgement (R12 to R15) -/

theorem receiving_iff {s : State} : receiving s = true ↔ watching s = true ∧ s.line.receiver = .assembling ∧ s.line.condition ≠ .stuck := by
  simp [receiving, and_assoc]

/-- A notice whole and well-formed is acted on (R4, R12 to R15). -/
theorem exec_noticeArrival {s : State} {f : Frame} (h : receiving s = true) (wf : f.wf = true) (check : checkMatches f = true) :
    exec (.noticeArrival f) s = .next (actOnNotice f { s with line := endOfTail s.line }) := by
  exact (if_pos (receiving_iff.1 h)).trans (if_pos ⟨wf, check⟩)

/-- What R13 names as ignored: the station numbers of no station, an urgency or a length that is not the kind's, a kind the part
itself posts. -/
def ignoredNotice (f : Frame) : Prop :=
  tagSource f.tag = 0 ∨ tagSource f.tag = 31 ∨ kindUrgency (tagKind f.tag) ≠ some (tagUrgency f.tag) ∨
    lengthFits (tagKind f.tag) f.payload = false ∨ tagKind f.tag ∈ [1, 9, 11, 12, 17, 18]

/-- The notice is not one of the part's own number (R12, R20). -/
def notOwn (e : Env) (f : Frame) : Prop := tagSource f.tag ≠ e.setup.station ∨ e.setup.result = .fault .strap

theorem judgeNotice_ignored {e : Env} {f : Frame} (own : notOwn e f) (h : ignoredNotice f) : judgeNotice e f = .ignored := by
  have other : ¬ (tagSource f.tag = e.setup.station ∧ e.setup.result ≠ .fault .strap) := by unfold notOwn at own; tauto
  simp only [judgeNotice, partPosted, decide_eq_true_eq]
  rw [if_neg other]
  rcases h with h | h | h | h | h <;> simp [h]

/-- A notice that R13 does not drop is a STOP or judged by its source (R14). -/
theorem judgeNotice_passed {e : Env} {f : Frame} (own : notOwn e f) (h : ¬ ignoredNotice f) :
    judgeNotice e f = if tagKind f.tag = 0 then .stop else judgeSource e (tagKind f.tag) (tagSource f.tag) := by
  have other : ¬ (tagSource f.tag = e.setup.station ∧ e.setup.result ≠ .fault .strap) := by unfold notOwn at own; tauto
  simp only [ignoredNotice, not_or, not_not, Bool.not_eq_false] at h
  obtain ⟨h0, h31, urgency, length, posted⟩ := h
  simp only [judgeNotice, partPosted, decide_eq_true_eq]
  rw [if_neg other, if_neg (by tauto), if_neg (by tauto), if_neg (by simp [length]), if_neg posted]

theorem isSafe_iff {s : State} : isSafe (envOf s) = true ↔ s.setup.phase = .safe := decide_eq_true_iff

theorem mayCommand_iff {s : State} {n : Nat} (h : n ≠ 0) :
    mayCommand (envOf s) n = true ↔ s.setup.phase = .safe ∨ n ∈ [s.setup.cfg.panel1, s.setup.cfg.panel2, s.setup.cfg.panel3] := by
  simp only [mayCommand, Bool.or_eq_true, isSafe_iff]
  simp [h, cfgOf, envOf]

theorem fromRoleStation_iff {s : State} {r : Role} {n : Nat} (h : n ≠ 0) :
    fromRoleStation (envOf s) r n = true ↔ s.setup.phase ≠ .safe ∧ roleStation (envOf s) r = n := by
  simp [fromRoleStation, h, ← isSafe_iff]

/-- Settles O14: a discard counts a receive fault; what `judgeNotice` ignores or holds foreign is counted as such. -/
theorem aNoticeNotTakenIsCounted : Obligations.ANoticeNotTakenIsCounted := by
  refine ⟨fun s => ⟨fun cause watched assembling => ?_, fun f rec bad => ?_, fun watched busy after => ?_⟩, fun s f rec wf check own => ?_⟩
  · exact if_pos ⟨watched, assembling⟩
  · have ill : ¬ (f.wf = true ∧ checkMatches f = true) := by
      simp only [Frame.wf, Bool.and_eq_true, decide_eq_true_eq, not_and, Bool.not_eq_true]
      rcases bad with long | other | check
      · exact fun h => absurd h.1 (Nat.not_le.2 long)
      · exact fun h => absurd h.2 other
      · exact fun _ => check
    exact (if_pos (receiving_iff.1 rec)).trans (if_neg ill)
  · exact if_pos ⟨watched, busy, after⟩
  · refine ⟨fun ignored => ?_, fun passed kind untied => ?_⟩
    · have judged : judgeNotice (envOf s) f = .ignored := judgeNotice_ignored own ignored
      rw [exec_noticeArrival rec wf check]
      simp only [actOnNotice, envOf] at judged ⊢
      rw [judged]
      rfl
    · have source : tagSource f.tag ≠ 0 := fun h => passed (Or.inl h)
      have judged : judgeNotice (envOf s) f = .foreign := by
        rw [judgeNotice_passed (e := envOf s) own passed, if_neg (by intro z; rw [z] at kind; simp at kind), judgeSource]
        simp only [← fromRoleStation_iff source, ← mayCommand_iff source, not_or, not_and, not_exists, Bool.not_eq_true] at untied
        simp only [List.mem_cons, List.not_mem_nil, or_false] at kind
        rcases kind with k | k | k | k | k <;> simp_all [roleOfKind]
      rw [exec_noticeArrival rec wf check]
      simp only [actOnNotice, envOf] at judged ⊢
      rw [judged]
      rfl

/-- A notice of a kind the arrival queue holds, from a station of the mast link with the urgency and the length of its kind, is not
ignored (R13). -/
theorem not_ignoredNotice {f : Frame} (low : 1 ≤ tagSource f.tag) (high : tagSource f.tag ≤ 30)
    (urgency : kindUrgency (tagKind f.tag) = some (tagUrgency f.tag)) (length : lengthFits (tagKind f.tag) f.payload = true)
    (kind : tagKind f.tag ∉ [1, 9, 11, 12, 17, 18]) : ¬ ignoredNotice f := by
  rintro (h | h | h | h | h)
  · omega
  · omega
  · exact h urgency
  · rw [length] at h; cases h
  · exact kind h

theorem judgeSource_role {s : State} {kind source : Nat} {r : Role} (tied : roleOfKind kind = some r) (h : source ≠ 0) (live : s.setup.phase ≠ .safe)
    (station : roleStation (envOf s) r = source) : judgeSource (envOf s) kind source = .accepted (.role r) := by
  have k10 : kind ≠ 10 := by rintro rfl; cases tied
  have k8 : kind ≠ 8 := by rintro rfl; cases tied
  rw [judgeSource, if_neg k10, if_neg k8, tied]
  exact if_pos ((fromRoleStation_iff h).2 ⟨live, station⟩)

/-- Settles O15: each kind is accepted by `judgeSource` from its own stations, and joins or is lost by the room in the queue. -/
theorem acceptedNoticesJoinTheArrivalQueue : Obligations.AcceptedNoticesJoinTheArrivalQueue := by
  intro s f k rec wf check own low high urgency length safe from_
  have source : tagSource f.tag ≠ 0 := by omega
  have judged : judgeNotice (envOf s) f = .accepted k := by
    have taken : tagKind f.tag ∈ [2, 3, 4, 8, 10, 16] := by
      rcases from_ with ⟨h, -⟩ | ⟨h, -⟩ | ⟨h, -⟩ | ⟨h, -⟩ | ⟨h, -⟩ | ⟨h, -⟩ <;> simp [h]
    have passed : ¬ ignoredNotice f :=
      not_ignoredNotice low high urgency length fun m => by simp only [List.mem_cons, List.not_mem_nil, or_false] at taken m; omega
    rw [judgeNotice_passed (e := envOf s) own passed, if_neg (by intro z; rw [z] at taken; simp at taken)]
    rcases from_ with ⟨h, rfl, live, station⟩ | ⟨h, rfl, live, station⟩ | ⟨h, rfl, live, station⟩ | ⟨h, rfl, live, station⟩ | ⟨h, rfl, may⟩ | ⟨h, rfl⟩
    · exact judgeSource_role (by rw [h]; rfl) source live station.symm
    · exact judgeSource_role (by rw [h]; rfl) source live station.symm
    · exact judgeSource_role (by rw [h]; rfl) source live station.symm
    · exact judgeSource_role (by rw [h]; rfl) source live station.symm
    · rw [judgeSource, if_neg (by omega), if_pos h]
      exact if_pos ((mayCommand_iff source).2 may)
    · rw [judgeSource, if_pos h]
  have joined : exec (.noticeArrival f) s = .next (joinArrivals k f { s with line := endOfTail s.line }) := by
    rw [exec_noticeArrival rec wf check]
    simp only [actOnNotice, envOf] at judged ⊢
    rw [judged]
  refine ⟨fun room => ?_, fun full => ?_⟩ <;> rw [joined]
  · exact congrArg _ (if_pos room)
  · exact congrArg _ (if_neg (Nat.not_lt.2 full))

end Sys2Proof.Machine
end

