-- ==== Sys2Proof/Proofs/LinkDwellOwner.lean ====
section
/-! PROOFS. Which operations of the plant leave the sampler alone, and that every other one leaves an active dwell one that PNT, PAT
or PKE asked for (R66). -/

namespace Sys2Proof.Machine

/-! ### Operations of AXD and ARB: only the posts and the drives -/

/-- `q` is `p` but for its post queue and its drives. -/
def OnlyDrives (p q : Plant) : Prop := ∃ posts axd, q = { p with posts := posts, axd := axd }

theorem OnlyDrives.refl (p : Plant) : OnlyDrives p p := ⟨_, _, rfl⟩

theorem OnlyDrives.trans {p q r : Plant} (h : OnlyDrives p q) (g : OnlyDrives q r) : OnlyDrives p r := by
  obtain ⟨_, _, rfl⟩ := h
  obtain ⟨_, _, rfl⟩ := g
  exact ⟨_, _, rfl⟩

theorem OnlyDrives.smp {p q : Plant} (h : OnlyDrives p q) : q.smp = p.smp := by obtain ⟨_, _, rfl⟩ := h; rfl

theorem setAxisRaw_onlyDrives (a : Axis) (r : AxisRec) (p : Plant) : OnlyDrives p (setAxisRaw a r p) := ⟨_, _, rfl⟩

theorem putAxis_onlyDrives (e : Env) (a : Axis) (r : AxisRec) (p : Plant) : OnlyDrives p (putAxis e a r p) := by
  obtain ⟨_, h⟩ := putAxis_rest e a r p
  exact ⟨_, _, h⟩

theorem foldl_onlyDrives {α : Type} (f : Plant → α → Plant) (step : ∀ p x, OnlyDrives p (f p x)) (l : List α) :
    ∀ p : Plant, OnlyDrives p (l.foldl f p) := by
  induction l with
  | nil => exact OnlyDrives.refl
  | cons x l ih => exact fun p => (step p x).trans (ih _)

theorem abandonWaiting_onlyDrives (e : Env) (a : Axis) (next : AxisState) (p : Plant) : OnlyDrives p (abandonWaiting e a next p) :=
  (putAxis_onlyDrives e a _ p).trans ⟨_, _, rfl⟩

theorem toStopping_onlyDrives (e : Env) (a : Axis) (p : Plant) : OnlyDrives p (toStopping e a p) :=
  (putAxis_onlyDrives e a _ p).trans ⟨_, _, rfl⟩

theorem endMove_onlyDrives (e : Env) (a : Axis) (p : Plant) : OnlyDrives p (endMove e a p) := by
  unfold endMove
  split
  · exact abandonWaiting_onlyDrives e a _ p
  · exact toStopping_onlyDrives e a p
  · exact toStopping_onlyDrives e a p
  all_goals exact OnlyDrives.refl p

theorem endMoves_onlyDrives (e : Env) (picks : AxisRec → Bool) (l : List Axis) (p : Plant) : OnlyDrives p (endMoves e picks l p) := by
  refine (foldl_onlyDrives _ (fun q a => ?_) l p).trans (afterLeaving_rest e p _)
  split
  · exact endMove_onlyDrives e a q
  · exact OnlyDrives.refl q

theorem replaceMove_onlyDrives (e : Env) (q : MoveRequest) (target : Int) (p : Plant) : OnlyDrives p (replaceMove e q target p) := by
  unfold replaceMove
  dsimp only
  repeat' split
  all_goals exact putAxis_onlyDrives e _ _ p

theorem requestFromClamp_onlyDrives (e : Env) (q : MoveRequest) (p : Plant) : OnlyDrives p (requestFromClamp e q p).1 := by
  unfold requestFromClamp
  dsimp only
  repeat' split
  all_goals first
    | exact OnlyDrives.refl p | exact joinWaiting_rest e _ _ p | exact replaceMove_onlyDrives e q _ p | exact setAxisRaw_onlyDrives _ _ p

theorem moveRequest_onlyDrives (e : Env) (q : MoveRequest) (p : Plant) : OnlyDrives p (moveRequest e q p).1 := by
  unfold moveRequest
  dsimp only
  repeat' split
  all_goals first
    | exact OnlyDrives.refl p | exact setAxisRaw_onlyDrives _ _ p | exact requestFromClamp_onlyDrives e q p

theorem driftCheck_onlyDrives (e : Env) (a : Axis) (p : Plant) : OnlyDrives p (driftCheck e a p) := by
  unfold driftCheck
  dsimp only
  repeat' split
  all_goals first
    | exact joinWaiting_rest e a _ p | exact putAxis_onlyDrives e a _ p | exact OnlyDrives.refl p

theorem stopStep_onlyDrives (e : Env) (a : Axis) (p : Plant) : OnlyDrives p (stopStep e a p) := by
  unfold stopStep
  dsimp only
  split
  · exact (putAxis_onlyDrives e a _ p).trans (putAxis_onlyDrives e a _ _)
  · exact putAxis_onlyDrives e a _ p

theorem driveStep_onlyDrives (e : Env) (a : Axis) (p : Plant) : OnlyDrives p (driveStep e a p) := by
  unfold driveStep moveStep settleStep
  dsimp only
  repeat' split
  all_goals first
    | exact putAxis_onlyDrives e a _ p | exact stopStep_onlyDrives e a p | exact OnlyDrives.refl p

theorem stallCount_onlyDrives (e : Env) (a : Axis) (p : Plant) : OnlyDrives p (stallCount e a p) := by
  unfold stallCount
  dsimp only
  repeat' split
  all_goals first
    | exact setAxisRaw_onlyDrives a _ p | exact OnlyDrives.refl p

theorem endSettled_onlyDrives (e : Env) (a : Axis) (p : Plant) : OnlyDrives p (endSettled e a p) := by
  have ended : OnlyDrives p (leaveGrants a (putAxis e a { clearMove (atRest (axisOf p a)) with state := .idle } p)) :=
    (putAxis_onlyDrives e a _ p).trans ⟨_, _, rfl⟩
  unfold endSettled
  dsimp only
  split
  · exact ended.trans (putAxis_onlyDrives e a _ _)
  · exact ended

theorem completeMove_onlyDrives (e : Env) (a : Axis) (p : Plant) : OnlyDrives p (completeMove e a p) :=
  (endSettled_onlyDrives e a p).trans (afterLeaving_rest e p _)

theorem haltAxis_onlyDrives (e : Env) (a : Axis) (p : Plant) : OnlyDrives p (haltAxis e a p) := by
  unfold haltAxis
  dsimp only
  split
  · exact putAxis_onlyDrives e a _ p
  · exact abandonWaiting_onlyDrives e a _ p
  · exact toStopping_onlyDrives e a p
  · exact toStopping_onlyDrives e a p
  all_goals exact OnlyDrives.refl p

theorem haltFor_onlyDrives (e : Env) (kind : FaultKind) (axis : FaultAxis) (stored : Bool) (p : Plant) : OnlyDrives p (haltFor e kind axis stored p) := by
  refine (foldl_onlyDrives _ (fun q a => ?_) allAxes p).trans (afterLeaving_rest e p _)
  repeat' split
  all_goals first
    | exact OnlyDrives.refl q | exact haltAxis_onlyDrives e a q

/-! ### The sampler after the operations that do not touch it -/

@[simp] theorem endMoves_smp (e : Env) (picks : AxisRec → Bool) (l : List Axis) (p : Plant) : (endMoves e picks l p).smp = p.smp :=
  (endMoves_onlyDrives e picks l p).smp
@[simp] theorem cancelMoves_smp (e : Env) (q : Requester) (l : List Axis) (p : Plant) : (cancelMoves e q l p).smp = p.smp := endMoves_smp e _ l p
@[simp] theorem cancelMove_smp (e : Env) (q : Requester) (a : Axis) (p : Plant) : (cancelMove e q a p).smp = p.smp := endMoves_smp e _ [a] p
@[simp] theorem latchAxes_smp (e : Env) (p : Plant) : (latchAxes e p).smp = p.smp := endMoves_smp e _ allAxes p
@[simp] theorem tryGrant_smp (e : Env) (p : Plant) : (tryGrant e p).smp = p.smp := OnlyDrives.smp (tryGrant_rest e p)
@[simp] theorem requestFromClamp_smp (e : Env) (q : MoveRequest) (p : Plant) : (requestFromClamp e q p).1.smp = p.smp :=
  (requestFromClamp_onlyDrives e q p).smp
@[simp] theorem moveRequest_smp (e : Env) (q : MoveRequest) (p : Plant) : (moveRequest e q p).1.smp = p.smp := (moveRequest_onlyDrives e q p).smp
@[simp] theorem driftCheck_smp (e : Env) (a : Axis) (p : Plant) : (driftCheck e a p).smp = p.smp := (driftCheck_onlyDrives e a p).smp
@[simp] theorem driveStep_smp (e : Env) (a : Axis) (p : Plant) : (driveStep e a p).smp = p.smp := (driveStep_onlyDrives e a p).smp
@[simp] theorem stopStep_smp (e : Env) (a : Axis) (p : Plant) : (stopStep e a p).smp = p.smp := (stopStep_onlyDrives e a p).smp
@[simp] theorem stallCount_smp (e : Env) (a : Axis) (p : Plant) : (stallCount e a p).smp = p.smp := (stallCount_onlyDrives e a p).smp
@[simp] theorem completeMove_smp (e : Env) (a : Axis) (p : Plant) : (completeMove e a p).smp = p.smp := (completeMove_onlyDrives e a p).smp
@[simp] theorem haltFor_smp (e : Env) (k : FaultKind) (f : FaultAxis) (b : Bool) (p : Plant) : (haltFor e k f b p).smp = p.smp :=
  (haltFor_onlyDrives e k f b p).smp

@[simp] theorem postStatus_smp (e : Env) (p : Plant) : (postStatus e p).smp = p.smp := rfl
@[simp] theorem postPointing_smp (e : Env) (p : Plant) : (postPointing e p).smp = p.smp := rfl
@[simp] theorem postDwell_smp (e : Env) (k : PointKind) (x y z : Int) (p : Plant) : (postDwell e k x y z p).smp = p.smp := rfl
@[simp] theorem postDwellHere_smp (e : Env) (k : PointKind) (z : Int) (p : Plant) : (postDwellHere e k z p).smp = p.smp := rfl
@[simp] theorem postHalt_smp (e : Env) (c : HaltCause) (f : FaultAxis) (m : MastState) (p : Plant) : (postHalt e c f m p).smp = p.smp := rfl
@[simp] theorem postReply_smp (e : Env) (b : Byte) (o : ReplyOutcome) (r : Reason) (v : Int) (p : Plant) : (postReply e b o r v p).smp = p.smp := rfl
@[simp] theorem runStage_smp (st : RunStage) (p : Plant) : (runStage st p).smp = p.smp := rfl
@[simp] theorem openRunMeasurement_smp (e : Env) (p : Plant) : (openRunMeasurement e p).smp = p.smp := rfl
@[simp] theorem countRound_smp (p : Plant) : (countRound p).smp = p.smp := rfl
@[simp] theorem patternStage_smp (st : PatternStage) (p : Plant) : (patternStage st p).smp = p.smp := rfl
@[simp] theorem writeRunEnd_smp (q : Quality) (c : HeadPoint) (l : Int) (p : Plant) : (writeRunEnd q c l p).smp = p.smp := rfl
@[simp] theorem takeRowEnd_smp (e : Env) (row pass : Nat) (p : Plant) : (takeRowEnd e row pass p).smp = p.smp := rfl

@[simp] theorem setPointing_smp (e : Env) (st : PointState) (p : Plant) : (setPointing e st p).smp = p.smp := by
  unfold setPointing
  dsimp only
  split <;> simp

@[simp] theorem setStranded_smp (e : Env) (mark : Bool) (p : Plant) : (setStranded e mark p).smp = p.smp := by simp [setStranded]

@[simp] theorem enterTracking_smp (e : Env) (p : Plant) : (enterTracking e p).smp = p.smp := by
  unfold enterTracking
  split <;> simp

@[simp] theorem slewFails_smp (e : Env) (p : Plant) : (slewFails e p).smp = p.smp := by simp [slewFails]

@[simp] theorem slewRequests_smp (e : Env) (l : List Axis) (p : Plant) : (slewRequests e l p).smp = p.smp := by
  induction l generalizing p with
  | nil => rfl
  | cons a l ih =>
    unfold slewRequests
    dsimp only
    split
    · simp
    · simp [ih]

@[simp] theorem startSlew_smp (e : Env) (p : Plant) : (startSlew e p).smp = p.smp := by simp [startSlew]

@[simp] theorem enterSlewing_smp (e : Env) (p : Plant) : (enterSlewing e p).smp = p.smp := by
  unfold enterSlewing
  split <;> simp

@[simp] theorem enterReturn_smp (e : Env) (p : Plant) : (enterReturn e p).smp = p.smp := by simp [enterReturn]

@[simp] theorem slewCompleted_smp (e : Env) (a : Axis) (p : Plant) : (slewCompleted e a p).smp = p.smp := by
  unfold slewCompleted
  dsimp only
  repeat' split
  all_goals simp

@[simp] theorem slewAxisFree_smp (e : Env) (a : Axis) (p : Plant) : (slewAxisFree e a p).smp = p.smp := by
  unfold slewAxisFree
  repeat' split
  all_goals simp

@[simp] theorem takeRunEnd_smp (e : Env) (q : Quality) (c : HeadPoint) (l : Int) (p : Plant) : (takeRunEnd e q c l p).smp = p.smp := by
  unfold takeRunEnd
  dsimp only
  repeat' split
  all_goals simp

@[simp] theorem requestPointAxis_smp (e : Env) (q : Requester) (a : Axis) (t : Int) (x : Plant × PointMoves) :
    (requestPointAxis e q a t x).1.smp = x.1.smp := by
  unfold requestPointAxis
  dsimp only
  repeat' split
  all_goals simp

@[simp] theorem requestPoint_smp (e : Env) (q : Requester) (x : HeadPoint) (p : Plant) : (requestPoint e q x p).1.smp = p.smp := by simp [requestPoint]

@[simp] theorem retryAxis_smp (e : Env) (q : Requester) (a : Axis) (x : HeadPoint) (m : PointMoves) (p : Plant) :
    (retryAxis e q a x m p).1.smp = p.smp := by simp [retryAxis]

@[simp] theorem runMoves_smp (e : Env) (st : RunStage) (p : Plant) : (runMoves e st p).smp = p.smp := by simp [runMoves]

@[simp] theorem runJobs_smp (e : Env) (fuel : Nat) (job : RunJob) (p : Plant) : (runJobs e fuel job p).smp = p.smp := by
  induction fuel generalizing job p with
  | zero => rfl
  | succ n ih =>
    cases job with
    | go st => simp only [runJobs]; split <;> simp [ih]
    | arrived st => cases st <;> simp only [runJobs] <;> (try split) <;> simp [ih]
    | level l => simp only [runJobs]; split <;> simp [ih]
    | roundEnd =>
      simp only [runJobs]
      repeat' split
      all_goals simp [ih]

@[simp] theorem resumeRun_smp (e : Env) (p : Plant) : (resumeRun e p).smp = p.smp := by
  unfold resumeRun
  split <;> simp

@[simp] theorem runCompleted_smp (e : Env) (a : Axis) (p : Plant) : (runCompleted e a p).smp = p.smp := by
  unfold runCompleted
  dsimp only
  repeat' split
  all_goals simp

@[simp] theorem runAxisFree_smp (e : Env) (a : Axis) (p : Plant) : (runAxisFree e a p).smp = p.smp := by
  unfold runAxisFree
  dsimp only
  repeat' split
  all_goals simp

@[simp] theorem runMean_smp (e : Env) (l : Int) (p : Plant) : (runMean e l p).smp = p.smp := by
  unfold runMean crossLevel closingLevel
  dsimp only
  split <;> simp

@[simp] theorem runMeasured_smp (e : Env) (p : Plant) : (runMeasured e p).smp = p.smp := by
  unfold runMeasured
  split <;> simp

@[simp] theorem runReport_smp (e : Env) (r : LevelReport) (p : Plant) : (runReport e r p).smp = p.smp := by
  cases st : p.run.status with
  | running stage => cases stage <;> simp [runReport, st]
  | none | ended | suspended | resumeWait => simp [runReport, st]

@[simp] theorem takeExhausted_smp (e : Env) (p : Plant) : (takeExhausted e p).smp = p.smp := by
  unfold takeExhausted
  split <;> simp

@[simp] theorem resumePattern_smp (e : Env) (p : Plant) : (resumePattern e p).smp = p.smp := by
  unfold resumePattern
  repeat' split
  all_goals simp

@[simp] theorem trackSample_smp (e : Env) (x : Int) (p : Plant) : (trackSample e x p).smp = p.smp := by
  unfold trackSample
  dsimp only
  repeat' split
  all_goals simp

@[simp] theorem trackReport_smp (e : Env) (r : LevelReport) (p : Plant) : (trackReport e r p).smp = p.smp := by
  unfold trackReport
  dsimp only
  split <;> simp

end Sys2Proof.Machine
end

