-- ==== Sys2Proof/Proofs/LinkDwellKept.lean ====
section
/-! PROOFS. Every operation of the plant leaves an active dwell one that PNT, PAT or PKE asked for (R66): a dwell begins in
`requestDwell` alone, which only these three call. -/

namespace Sys2Proof.Machine

/-- An active dwell is one of a block that measures. -/
def dwellOwned (m : Sampler) : Prop := ∀ d, m.dwell = some d → d.requester.measures = true

theorem dwellSound_iff {p : Plant} : dwellSound p = true ↔ dwellOwned p.smp := by
  have measures (r : Requester) : (r = .pnt ∨ r = .pat ∨ r = .pke) ↔ r.measures = true := by cases r <;> simp [Requester.measures]
  simp only [dwellSound, dwellOwned, Option.all_eq_true, decide_eq_true_eq, measures]

/-! ### The sampler's own operations -/

theorem dwellOwned_congr {m n : Sampler} (same : n.dwell = m.dwell) (h : dwellOwned m) : dwellOwned n := fun d hd => h d (same ▸ hd)

theorem dwellOwned_none {m : Sampler} (none : m.dwell = none) : dwellOwned m := fun d hd => by rw [none] at hd; cases hd

section
variable {e : Env} {p : Plant}

@[simp] theorem requestDwell_owned {q : Requester} (who : q.measures = true) (h : dwellOwned p.smp) : dwellOwned (requestDwell e q p).smp := by
  have begun {m : Sampler} {d : Dwell} (active : m.dwell = some d) (hd : d.requester = q) : dwellOwned m := by
    intro x hx
    obtain rfl : d = x := Option.some.inj (active.symm.trans hx)
    rw [hd]
    exact who
  unfold requestDwell
  dsimp only
  repeat' split
  · exact h
  · exact begun rfl rfl
  · exact begun rfl rfl
  · exact dwellOwned_congr rfl h

@[simp] theorem cancelDwell_owned (q : Requester) (h : dwellOwned p.smp) : dwellOwned (cancelDwell q p).smp := by
  unfold cancelDwell
  dsimp only
  repeat' split
  · exact dwellOwned_none rfl
  · exact dwellOwned_congr rfl h
  · exact dwellOwned_congr rfl h

@[simp] theorem setHanding_owned (on : Bool) (h : dwellOwned p.smp) : dwellOwned (setHanding on p).smp := dwellOwned_congr rfl h

/-! ### PKE and PAT -/

@[simp] theorem discardRun_owned (h : dwellOwned p.smp) : dwellOwned (discardRun e p).smp := by simp [discardRun, h]

@[simp] theorem startRun_owned (c : HeadPoint) (delta : Nat) (h : dwellOwned p.smp) : dwellOwned (startRun e c delta p).smp := by simp [startRun, h]

@[simp] theorem suspendRun_owned (h : dwellOwned p.smp) : dwellOwned (suspendRun e p).smp := by
  unfold suspendRun
  split <;> simp [h]

@[simp] theorem enterPeaking_owned (c : HeadPoint) (delta : Nat) (h : dwellOwned p.smp) : dwellOwned (enterPeaking e c delta p).smp := by
  unfold enterPeaking
  split <;> simp [h]

@[simp] theorem takeFound_owned (x : HeadPoint) (h : dwellOwned p.smp) : dwellOwned (takeFound e x p).smp := by
  unfold takeFound
  split <;> simp [h]

@[simp] theorem runMeasure_owned (st : RunStage) (h : dwellOwned p.smp) : dwellOwned (runMeasure e st p).smp := by
  unfold runMeasure
  dsimp only
  split
  · simpa using h
  · exact requestDwell_owned rfl h

@[simp] theorem requestSweep_owned (x : Pattern) (h : dwellOwned p.smp) : dwellOwned (requestSweep e x p).1.smp := by
  unfold requestSweep
  dsimp only
  split <;> simp [h]

@[simp] theorem patternJobs_owned (fuel : Nat) (job : PatternJob) (h : dwellOwned p.smp) : dwellOwned (patternJobs e fuel job p).smp := by
  induction fuel generalizing job p with
  | zero => exact h
  | succ n ih =>
    cases pat : p.pat with
    | none => simpa [patternJobs, pat] using h
    | some x =>
      have swept (q : Plant) (g : dwellOwned q.smp) : dwellOwned (requestSweep e x q).1.smp := requestSweep_owned x g
      cases job with
      | go =>
        simp only [patternJobs, pat]
        split
        · exact ih _ (by simpa using h)
        · simpa using h
      | arrived =>
        simp only [patternJobs, pat]
        repeat' split
        all_goals first
          | exact ih _ h | exact ih _ (swept p h) | exact swept p h | exact h
      | advance =>
        simp only [patternJobs, pat]
        split <;> exact ih _ h
      | rowEnd =>
        simp only [patternJobs, pat]
        repeat' split
        · exact ih _ h
        · exact ih _ h
        · simpa using h

@[simp] theorem startPattern_owned (x : HeadPoint) (h : dwellOwned p.smp) : dwellOwned (startPattern e x p).smp := by
  unfold startPattern
  dsimp only
  split <;> exact patternJobs_owned _ _ h

@[simp] theorem stopPattern_owned (h : dwellOwned p.smp) : dwellOwned (stopPattern e p).smp := by simp [stopPattern, h]

@[simp] theorem haltPattern_owned (c : PatternCause) (h : dwellOwned p.smp) : dwellOwned (haltPattern e c p).smp := by
  unfold haltPattern
  split <;> simp [h]

@[simp] theorem suspendPattern_owned (h : dwellOwned p.smp) : dwellOwned (suspendPattern e p).smp := by
  unfold suspendPattern
  repeat' split
  all_goals simp [h]

@[simp] theorem patternFound_owned (x : HeadPoint) (l : Int) (h : dwellOwned p.smp) : dwellOwned (patternFound e x l p).smp := takeFound_owned x h

@[simp] theorem patternMean_owned (l : Int) (h : dwellOwned p.smp) : dwellOwned (patternMean e l p).smp := by
  unfold patternMean searchLevel
  dsimp only
  repeat' split
  · exact patternFound_owned _ l h
  · exact patternJobs_owned _ _ h
  all_goals exact h

@[simp] theorem patternMeasured_owned (h : dwellOwned p.smp) : dwellOwned (patternMeasured e p).smp := by
  unfold patternMeasured
  repeat' split
  all_goals simp [h]

@[simp] theorem patternReport_owned (r : LevelReport) (h : dwellOwned p.smp) : dwellOwned (patternReport e r p).smp := by
  unfold patternReport
  split
  · exact patternMeasured_owned h
  · exact h

@[simp] theorem sweepLevel_owned (l : Int) (h : dwellOwned p.smp) : dwellOwned (sweepLevel e l p).smp := by
  unfold sweepLevel
  dsimp only
  repeat' split
  all_goals simp [h]

@[simp] theorem patternCompleted_owned (a : Axis) (h : dwellOwned p.smp) : dwellOwned (patternCompleted e a p).smp := by
  unfold patternCompleted
  dsimp only
  repeat' split
  all_goals first
    | exact patternJobs_owned _ _ h | exact h

@[simp] theorem patternAxisFree_owned (a : Axis) (h : dwellOwned p.smp) : dwellOwned (patternAxisFree e a p).smp := by
  unfold patternAxisFree
  dsimp only
  repeat' split
  all_goals simp [h]

@[simp] theorem takeUpPattern_owned (h : dwellOwned p.smp) : dwellOwned (takeUpPattern e p).smp := patternJobs_owned _ _ h

@[simp] theorem patternMeasure_owned (h : dwellOwned p.smp) : dwellOwned (patternMeasure e p).smp := by
  unfold patternMeasure
  dsimp only
  split
  · exact patternMeasured_owned h
  · exact requestDwell_owned rfl h

/-! ### PNT -/

@[simp] theorem enterSearch_owned (h : dwellOwned p.smp) : dwellOwned (enterSearch e p).smp := by
  unfold enterSearch
  split <;> simp [h]

@[simp] theorem presetMeasured_owned (l : Int) (h : dwellOwned p.smp) : dwellOwned (presetMeasured e l p).smp := by
  unfold presetMeasured
  dsimp only
  split
  · exact enterPeaking_owned _ _ h
  · exact enterSearch_owned h

@[simp] theorem presetMean_owned (l : Int) (h : dwellOwned p.smp) : dwellOwned (presetMean e l p).smp := by
  unfold presetMean
  split <;> simp [h]

@[simp] theorem presetReport_owned (r : LevelReport) (h : dwellOwned p.smp) : dwellOwned (presetReport e r p).smp := by
  unfold presetReport
  dsimp only
  repeat' split
  all_goals simp [h]

@[simp] theorem presetMeasure_owned (h : dwellOwned p.smp) : dwellOwned (presetMeasure e p).smp := by
  unfold presetMeasure
  dsimp only
  split
  · simpa using h
  · exact requestDwell_owned rfl (by simpa using h)

@[simp] theorem stopSlew_owned (h : dwellOwned p.smp) : dwellOwned (stopSlew e p).smp := by simp [stopSlew, h]

@[simp] theorem suspendPointing_owned (x : Activity) (h : dwellOwned p.smp) : dwellOwned (suspendPointing e x p).smp := by
  unfold suspendPointing suspendWork
  split <;> simp [h]

@[simp] theorem resumePointing_owned (x : Activity) (h : dwellOwned p.smp) : dwellOwned (resumePointing e x p).smp := by
  unfold resumePointing
  dsimp only
  repeat' split
  all_goals simp [h]

@[simp] theorem haltPointing_owned (c : PatternCause) (h : dwellOwned p.smp) : dwellOwned (haltPointing e c p).smp := by
  have halted : dwellOwned (discardRun e (haltPattern e c (stopSlew e p))).smp := discardRun_owned (haltPattern_owned c (stopSlew_owned h))
  unfold haltPointing
  dsimp only
  split
  · exact h
  all_goals simpa using halted

@[simp] theorem pointingPermissives_owned (l : List Permissive) (h : dwellOwned p.smp) : dwellOwned (pointingPermissives e l p).smp := by
  unfold pointingPermissives
  repeat' split
  all_goals simp [h]

@[simp] theorem pointingMastEvent_owned (h : dwellOwned p.smp) : dwellOwned (pointingMastEvent e p).smp := by
  unfold pointingMastEvent
  repeat' split
  all_goals simp [h]

@[simp] theorem pointingFault_owned (k : FaultKind) (f : FaultAxis) (h : dwellOwned p.smp) : dwellOwned (pointingFault e k f p).smp := by
  unfold pointingFault
  split <;> simp [h]

/-! ### MSQ and FLT -/

@[simp] theorem setMast_owned (st : MastState) (h : dwellOwned p.smp) : dwellOwned (setMast e st p).smp := by simp [setMast, h]

@[simp] theorem cancelMastWork_smp (e : Env) (p : Plant) : (cancelMastWork e p).smp = p.smp := by
  unfold cancelMastWork
  split <;> simp

@[simp] theorem haltMast_owned (c : HoldCause) (a : Axis) (b : Bool) (h : dwellOwned p.smp) : dwellOwned (haltMast e c a b p).smp := by
  unfold haltMast
  dsimp only
  split <;> simp [h]

@[simp] theorem headNotParked_owned (h : dwellOwned p.smp) : dwellOwned (headNotParked e p).smp := haltMast_owned _ _ _ h

@[simp] theorem loweringDone_owned (h : dwellOwned p.smp) : dwellOwned (loweringDone e p).smp := setMast_owned _ h

@[simp] theorem requestLowering_owned (h : dwellOwned p.smp) : dwellOwned (requestLowering e p).smp := by
  unfold requestLowering
  dsimp only
  split <;> simp [h]

@[simp] theorem enterLowering_owned (h : dwellOwned p.smp) : dwellOwned (enterLowering e p).smp := by simp [enterLowering, h]

@[simp] theorem parkingRequests_owned (l : List Axis) (h : dwellOwned p.smp) : dwellOwned (parkingRequests e l p).smp := by
  induction l generalizing p with
  | nil => exact h
  | cons a l ih =>
    unfold parkingRequests
    dsimp only
    split <;> simp [ih, h]

@[simp] theorem enterParking_owned (h : dwellOwned p.smp) : dwellOwned (enterParking e p).smp := by
  unfold enterParking
  dsimp only
  repeat' split
  all_goals simp [h]

@[simp] theorem beginLower_owned (h : dwellOwned p.smp) : dwellOwned (beginLower e p).smp := by
  unfold beginLower
  dsimp only
  split <;> simp [h]

@[simp] theorem mastCompleted_owned (a : Axis) (h : dwellOwned p.smp) : dwellOwned (mastCompleted e a p).smp := by
  unfold mastCompleted
  dsimp only
  repeat' split
  all_goals simp [h]

@[simp] theorem mastAxisFree_owned (a : Axis) (h : dwellOwned p.smp) : dwellOwned (mastAxisFree e a p).smp := by
  unfold mastAxisFree
  repeat' split
  all_goals simp [h]

@[simp] theorem raiseLoss_owned (l : List Permissive) (b : Bool) (h : dwellOwned p.smp) : dwellOwned (raiseLoss e l b p).smp := by
  unfold raiseLoss
  dsimp only
  repeat' split
  all_goals simp [h]

@[simp] theorem headLoss_smp (e : Env) (l : List Permissive) (p : Plant) : (headLoss e l p).smp = p.smp := by
  unfold headLoss
  split <;> simp

@[simp] theorem clearanceValue_owned (c : ClearanceValue) (h : dwellOwned p.smp) : dwellOwned (clearanceValue e c p).smp := by
  unfold clearanceValue
  dsimp only
  repeat' split
  all_goals simp [h]

@[simp] theorem mastFault_owned (k : FaultKind) (f : FaultAxis) (b : Bool) (h : dwellOwned p.smp) : dwellOwned (mastFault e k f b p).smp := by
  unfold mastFault
  repeat' split
  all_goals simp [h]

@[simp] theorem judgeCradle_owned (x : Option Int) (h : dwellOwned p.smp) : dwellOwned (judgeCradle e x p).smp := by
  unfold judgeCradle
  dsimp only
  repeat' split
  all_goals simp [h]

@[simp] theorem raiseFault_owned (k : FaultKind) (f : FaultAxis) (h : dwellOwned p.smp) : dwellOwned (raiseFault e k f p).smp := by
  unfold raiseFault
  dsimp only
  repeat' split
  all_goals simp [h]

@[simp] theorem freeAxis_owned (a : Axis) (h : dwellOwned p.smp) : dwellOwned (freeAxis e a p).smp := by
  unfold freeAxis
  dsimp only
  repeat' split
  all_goals simp [h]

@[simp] theorem latchSetEvent_owned (h : dwellOwned p.smp) : dwellOwned (latchSetEvent e p).smp := by simp [latchSetEvent, h]

@[simp] theorem changeUsers_owned (b : PermissiveSet) (c : Bool) (h : dwellOwned p.smp) : dwellOwned (changeUsers e b c p).smp := by
  simp [changeUsers, h]

@[simp] theorem driveAway_owned (h : dwellOwned p.smp) : dwellOwned (driveAway e p).smp := by
  unfold driveAway
  split <;> simp [h]

@[simp] theorem handReport_owned (r : LevelReport) (h : dwellOwned p.smp) : dwellOwned (handReport e r p).smp := by
  unfold handReport
  repeat' split
  all_goals simp [h]

/-! ### What the commands call -/

theorem foldl_owned {α : Type} (f : Plant → α → Plant) (step : ∀ q x, dwellOwned q.smp → dwellOwned (f q x).smp) (l : List α) (h : dwellOwned p.smp) :
    dwellOwned (l.foldl f p).smp := by
  induction l generalizing p with
  | nil => exact h
  | cons x l ih => exact ih (step p x h)

@[simp] theorem runWatch_owned (c : Nat) (r : Count) (i : Nat) (h : dwellOwned p.smp) : dwellOwned (runWatch e c r i p).smp := by
  unfold runWatch watchEdge watchAction
  repeat' split
  all_goals first
    | exact raiseFault_owned _ _ h | exact h

@[simp] theorem takeResult_owned (c : Nat) (r : Count) (h : dwellOwned p.smp) : dwellOwned (takeResult e c r p).smp :=
  foldl_owned _ (fun _ i g => runWatch_owned c r i g) _ (dwellOwned_congr rfl h)

@[simp] theorem handLevel_owned (l : Int) (h : dwellOwned p.smp) : dwellOwned (handLevel e l p).smp := by
  unfold handLevel
  split <;> simp [h]

@[simp] theorem ringWrite_owned {m : Sampler} (l : Int) (h : dwellOwned m) : dwellOwned (ringWrite l m) := dwellOwned_congr rfl h

@[simp] theorem scanResult_owned (c : Nat) (r : Count) (h : dwellOwned p.smp) : dwellOwned (scanResult e c r p).smp := by
  have taken := takeResult_owned (e := e) c r h
  unfold scanResult
  dsimp only
  repeat' split
  · exact handLevel_owned _ (ringWrite_owned _ taken)
  · exact handLevel_owned _ taken
  · exact taken

@[simp] theorem handMean_owned (q : Requester) (m : Int) (h : dwellOwned p.smp) : dwellOwned (handMean e q m p).smp := by
  cases q <;> simp [handMean, h]

@[simp] theorem placeLevel_owned (i : Nat) (l : Int) (h : dwellOwned p.smp) : dwellOwned (placeLevel e i l p).smp := by
  have level (d : Dwell) : dwellOwned (dwellLevel e d l p).smp := by
    unfold dwellLevel
    dsimp only
    split
    · exact handMean_owned _ _ (dwellOwned_none rfl)
    · exact ringWrite_owned l h
  unfold placeLevel
  repeat' split
  · exact level _
  · exact h
  · exact ringWrite_owned l h

@[simp] theorem dwellResult_owned (c i : Nat) (r : Count) (h : dwellOwned p.smp) : dwellOwned (dwellResult e c i r p).smp := by
  have taken := takeResult_owned (e := e) c r h
  unfold dwellResult
  dsimp only
  split
  · exact handLevel_owned _ (placeLevel_owned i _ taken)
  · exact taken

@[simp] theorem beginConversion_owned {m : Sampler} (b : Bool) (h : dwellOwned m) : dwellOwned (beginConversion e b m) := by
  unfold beginConversion
  repeat' split
  all_goals exact dwellOwned_congr rfl h

/-- A requester that wants a dwell measures. -/
theorem wantsDwell_measures {q : Requester} (h : wantsDwell q p = true) : q.measures = true := by
  cases q <;> simp [wantsDwell] at h ⊢ <;> rfl

@[simp] theorem takeDwellFree_owned (q : Requester) (h : dwellOwned p.smp) : dwellOwned (takeDwellFree e q p).smp := by
  have freed : dwellOwned (withSampler (fun s => { s with freed := removeAll s.freed q }) p).smp := dwellOwned_congr rfl h
  unfold takeDwellFree
  dsimp only
  split
  · exact requestDwell_owned (wantsDwell_measures ‹_›) freed
  · exact freed

@[simp] theorem periodChecks_owned (a : Axis) (r : AxisRec) (h : dwellOwned p.smp) : dwellOwned (periodChecks e a r p).smp := by
  have overtravel : dwellOwned (overtravelCheck e a p).smp := by
    unfold overtravelCheck
    dsimp only
    repeat' split
    all_goals first
      | exact raiseFault_owned _ _ h | exact h
  have limit : dwellOwned (limitCheck e a (overtravelCheck e a p)).smp := by
    unfold limitCheck
    split <;> simp [overtravel]
  have sensor : dwellOwned (sensorCheck e a r.sensorValid (stallCount e a (limitCheck e a (overtravelCheck e a p)))).smp := by
    unfold sensorCheck
    split <;> simp [limit]
  cases a <;> simp [periodChecks, sensor]

@[simp] theorem servoPeriod_owned (a : Axis) (x : AxisPins) (h : dwellOwned p.smp) : dwellOwned (servoPeriod e a x p).smp := by
  have checked := periodChecks_owned (e := e) (p := setAxisRaw a (readAxis e a x (axisOf p a)) p) a (axisOf p a) h
  unfold servoPeriod periodDrive
  dsimp only
  repeat' split
  all_goals simpa using checked

@[simp] theorem takeStall_owned (a : Axis) (h : dwellOwned p.smp) : dwellOwned (takeStall e a p).smp := by
  have raised : dwellOwned (raiseFault e .stall (.one a) (setAxisRaw a { axisOf p a with stallDue := false } p)).smp := raiseFault_owned _ _ h
  unfold takeStall
  dsimp only
  split
  · simpa using raised
  · exact raised

@[simp] theorem takeSettled_owned (a : Axis) (h : dwellOwned p.smp) : dwellOwned (takeSettled e a p).smp := by
  unfold takeSettled handCompleted
  dsimp only
  repeat' split
  all_goals simp [h]

@[simp] theorem takeAxisFree_owned (q : Requester) (a : Axis) (h : dwellOwned p.smp) : dwellOwned (takeAxisFree e q a p).smp := by
  unfold takeAxisFree handAxisFree
  dsimp only
  split
  · exact mastAxisFree_owned a h
  · simpa using h
  · exact patternAxisFree_owned a h
  · simpa using h
  · exact h

@[simp] theorem takeSamplePeriod_owned (h : dwellOwned p.smp) : dwellOwned (takeSamplePeriod e p).smp := by
  unfold takeSamplePeriod
  dsimp only
  split <;> simp [h]

@[simp] theorem takeFade_owned (h : dwellOwned p.smp) : dwellOwned (takeFade e p).smp := by
  unfold takeFade
  dsimp only
  split
  · exact enterPeaking_owned _ _ h
  · exact h

@[simp] theorem takeLoss_smp (e : Env) (p : Plant) : (takeLoss e p).smp = p.smp := by
  unfold takeLoss
  dsimp only
  split <;> simp

@[simp] theorem ownClearFault_owned (x : ArrivalEntry) (h : dwellOwned p.smp) : dwellOwned (ownClearFault e x p).1.smp := by
  unfold ownClearFault
  dsimp only
  split
  · exact h
  · exact foldl_owned _ (fun _ a g => freeAxis_owned a g) allAxes (by simpa using h)

@[simp] theorem ownRaise_owned (x : ArrivalEntry) (h : dwellOwned p.smp) : dwellOwned (ownRaise e x p).1.smp := by
  unfold ownRaise raiseMove
  dsimp only
  repeat' split
  all_goals simp [h]

@[simp] theorem ownLower_owned (x : ArrivalEntry) (h : dwellOwned p.smp) : dwellOwned (ownLower e x p).1.smp := by
  unfold ownLower
  repeat' split
  all_goals simp [h]

@[simp] theorem takeAim_owned (r : PointingRecord) (h : dwellOwned p.smp) : dwellOwned (takeAim e r p).smp := by
  have ended (x : Activity) : dwellOwned (aimEnds e x p).smp := by
    unfold aimEnds
    split <;> simp [h]
  unfold takeAim endForAim
  dsimp only
  split <;> simp [h, ended]

@[simp] theorem beginAim_smp (e : Env) (p : Plant) : (beginAim e p).smp = p.smp := by
  unfold beginAim
  dsimp only
  split <;> simp

@[simp] theorem ownAim_owned (x : ArrivalEntry) (h : dwellOwned p.smp) : dwellOwned (ownAim e x p).1.smp := by
  unfold ownAim
  dsimp only
  repeat' split
  all_goals simp [h]

@[simp] theorem ownPeak_owned (x : ArrivalEntry) (h : dwellOwned p.smp) : dwellOwned (ownPeak e x p).1.smp := by
  unfold ownPeak
  dsimp only
  split
  · exact h
  · exact enterPeaking_owned _ _ h

@[simp] theorem ownJog_smp (e : Env) (x : ArrivalEntry) (p : Plant) : (ownJog e x p).1.smp = p.smp := by
  have request (m : MoveRequest) : (jogRequest e m p).1.smp = p.smp := by
    unfold jogRequest
    split <;> simp
  have move (a : Axis) (d : Int) (b : Bool) : (jogMove e a d b p).1.smp = p.smp := by
    unfold jogMove
    dsimp only
    split <;> exact request _
  unfold ownJog
  repeat' split
  all_goals simp [move]

end

end Sys2Proof.Machine
end

