-- ==== Sys2Proof/Proofs/LinkActs.lean ====
section
/-! PROOFS. What a command may do to the plant, said once: `Acts p q` holds when q comes from p by operations that evolve and keep
dwells owned, by writes of PVW and AUT, and by the two changes of the post queue that are no post. Soundness of the post queue, of the
fault set and of the dwell is then kept by every such command. -/

namespace Sys2Proof.Machine

/-! ### The fault set through `Evolves` -/

theorem OnlyDrives.faults {Q : FaultSet → Prop} {p q : Plant} (h : OnlyDrives p q) (g : Q p.flt) : Q q.flt := by obtain ⟨_, _, rfl⟩ := h; exact g

theorem joinWaiting_onlyDrives (e : Env) (a : Axis) (r : AxisRec) (p : Plant) : OnlyDrives p (joinWaiting e a r p) := joinWaiting_rest e a r p

theorem tryGrant_onlyDrives (e : Env) (p : Plant) : OnlyDrives p (tryGrant e p) := tryGrant_rest e p

/-- What every entry and clearing of faults keeps of the fault set, every operation of the plant keeps. -/
theorem evolves_faults {Q : FaultSet → Prop} (hQ : ∀ f g, FaultStep f g → Q f → Q g) {e : Env} {p q : Plant} (g : Evolves e p q) (h : Q p.flt) : Q q.flt := by
  induction g with
  | refl => exact h
  | posted _ _ _ ih => exact ih
  | inner _ _ _ _ _ _ _ _ ih => exact ih
  | faults _ f s ih => exact hQ _ _ s ih
  | written _ _ _ _ ih => exact ih
  | rested _ a r _ _ _ ih => exact (putAxis_onlyDrives e a r _).faults ih
  | abandoned _ a n _ _ ih => exact (abandonWaiting_onlyDrives e a n _).faults ih
  | stopped _ a _ ih => exact (toStopping_onlyDrives e a _).faults ih
  | joined _ a r _ _ _ ih => exact (joinWaiting_onlyDrives e a r _).faults ih
  | replaced _ m x _ _ ih => exact (replaceMove_onlyDrives e m _ _).faults ih
  | granted _ ih => exact (tryGrant_onlyDrives e _).faults ih
  | stepped _ a ih => exact (driveStep_onlyDrives e a _).faults ih
  | completed _ a _ ih => exact (endSettled_onlyDrives e a _).faults ih

theorem faultsSound_iff {f : FaultSet} : faultsSound f = true ↔ f.records.length ≤ 8 ∧ f.records.Nodup := by simp [faultsSound]

theorem faultStep_sound {f g : FaultSet} (step : FaultStep f g) (h : faultsSound f = true) : faultsSound g = true := by
  rw [faultsSound_iff] at h ⊢
  obtain ⟨len, nodup⟩ := h
  cases step with
  | stored x room fresh => exact ⟨by simpa using room, List.nodup_append.2 ⟨nodup, by simp, by rintro a m b mb rfl; simp at mb; exact fresh (mb ▸ m)⟩⟩
  | overflowed axes => exact ⟨len, nodup⟩
  | cleared keep => exact ⟨(List.length_filter_le _ _).trans len, nodup.filter _⟩

/-! ### The relation -/

inductive Acts (p : Plant) : Plant → Prop where
  | refl : Acts p p
  | ops {q r : Plant} (h : Acts p q) (e : Env) (g : Evolves e q r) (owned : dwellOwned q.smp → dwellOwned r.smp) : Acts p r
  | peers {q : Plant} (h : Acts p q) (v : PeerView) : Acts p { q with pvw := v }
  | authority {q : Plant} (h : Acts p q) (a : Authority) : Acts p { q with aut := a }
  | overrun {q : Plant} (h : Acts p q) : Acts p { q with posts := markOverrun q.posts }
  | returned {q : Plant} (h : Acts p q) : Acts p { q with posts := returnSending q.posts }

theorem Acts.trans {p q r : Plant} (h : Acts p q) (g : Acts q r) : Acts p r := by
  induction g with
  | refl => exact h
  | ops _ e g owned ih => exact ih.ops e g owned
  | peers _ v ih => exact ih.peers v
  | authority _ a ih => exact ih.authority a
  | overrun _ ih => exact ih.overrun
  | returned _ ih => exact ih.returned

theorem Acts.of_evolves {e : Env} {p q : Plant} (g : Evolves e p q) (owned : dwellOwned p.smp → dwellOwned q.smp) : Acts p q := Acts.refl.ops e g owned

/-- What posts, returns and overrun marks keep of the post queue, every command that acts so keeps. -/
theorem Acts.posts {P : PostQueue → Prop} (hP : ∀ k t x q, P q → P (postTo k t x q)) (mark : ∀ q, P q → P (markOverrun q))
    (back : ∀ q, P q → P (returnSending q)) {p q : Plant} (g : Acts p q) (h : P p.posts) : P q.posts := by
  induction g with
  | refl => exact h
  | ops _ e g _ ih => exact evolves_keeps hP g ih
  | peers _ _ ih => exact ih
  | authority _ _ ih => exact ih
  | overrun _ ih => exact mark _ ih
  | returned _ ih => exact back _ ih

theorem markOverrun_sound {q : PostQueue} (h : postsSound q = true) : postsSound (markOverrun q) = true :=
  map_sound (fun x => { x with overrunSince := true }) (fun _ => rfl) (fun _ => rfl) h

theorem markOverrun_sending_none {q : PostQueue} (h : sendingEntry q = none) : sendingEntry (markOverrun q) = none := by
  rw [sendingEntry_eq_none] at h ⊢
  simp only [markOverrun, List.mem_map]
  rintro y ⟨z, m, rfl⟩
  exact h z m

theorem Acts.postsSound {p q : Plant} (g : Acts p q) (h : Machine.postsSound p.posts = true) : Machine.postsSound q.posts = true :=
  g.posts (P := fun x => Machine.postsSound x = true) (fun k t x _ => postTo_sound k t x) (fun _ => markOverrun_sound) (fun _ => returnSending_sound) h

theorem Acts.sending_none {p q : Plant} (g : Acts p q) (h : sendingEntry p.posts = none) : sendingEntry q.posts = none :=
  g.posts (P := fun x => sendingEntry x = none) postTo_sending_none (fun _ => markOverrun_sending_none) (fun _ _ => returnSending_none _) h

theorem Acts.faultsSound {p q : Plant} (g : Acts p q) (h : Machine.faultsSound p.flt = true) : Machine.faultsSound q.flt = true := by
  induction g with
  | refl => exact h
  | ops _ e g _ ih => exact evolves_faults (Q := fun f => Machine.faultsSound f = true) (fun _ _ => faultStep_sound) g ih
  | peers _ _ ih | authority _ _ ih | overrun _ ih | returned _ ih => exact ih

theorem Acts.dwellOwned {p q : Plant} (g : Acts p q) (h : Machine.dwellOwned p.smp) : Machine.dwellOwned q.smp := by
  induction g with
  | refl => exact h
  | ops _ e g owned ih => exact owned ih
  | peers _ _ ih | authority _ _ ih | overrun _ ih | returned _ ih => exact ih

/-! ### PVW's takings and expiries -/

section
variable {e : Env} {p q : Plant}

theorem post_acts (h : Acts p q) (k : PostKey) (x : List Byte) : Acts p (post e k x q) := h.ops e (Evolves.refl.posted k x) id

theorem postStatusIf_acts (h : Acts p q) (c : Bool) : Acts p (postStatusIf c e q) := h.ops e (postStatusIf_evolves .refl c) (by simp)

theorem evaluate_acts (h : Acts p q) (r : Role) (b : Bool) : Acts p (evaluate e r b q) := by
  have formed : Acts p { q with pvw := { q.pvw with permissives := evalRole e q r } } := h.peers _
  unfold evaluate
  dsimp only
  split
  · exact formed
  · exact formed.ops e (changeUsers_evolves .refl _ b) (changeUsers_owned _ b)

theorem driveAway_acts (h : Acts p q) : Acts p (driveAway e q) := h.ops e (driveAway_evolves .refl) driveAway_owned

theorem setPeerView_acts (h : Acts p q) (v : PeerView) : Acts p (setPeerView e v q) := postStatusIf_acts (h.peers v) _

theorem takeVehicle_acts (x : ArrivalEntry) : Acts p (takeVehicle e x p) := by
  have stored : Acts p (evaluate e .vehicle false (storeVehicle (takenEntry (vehicleOf x.payload) x.stamp) p)) := evaluate_acts (Acts.refl.peers _) _ _
  unfold takeVehicle
  dsimp only
  split
  · exact stored
  · exact driveAway_acts stored

theorem takeWind_acts (x : ArrivalEntry) : Acts p (takeWind e x p) := evaluate_acts (setPeerView_acts .refl _) _ _

theorem takeClearance_acts (x : ArrivalEntry) : Acts p (takeClearance e x p) :=
  (evaluate_acts (Acts.refl.peers _) _ _).ops e (clearanceValue_evolves .refl _) (clearanceValue_owned _)

theorem takeLevel_acts (x : ArrivalEntry) : Acts p (takeLevel e x p) := by
  unfold takeLevel
  split
  · exact (evaluate_acts (Acts.refl.peers _) _ _).ops e (handReport_evolves .refl _) (handReport_owned _)
  · exact .refl

theorem expireRole_acts (r : Role) : Acts p (expireRole e r p) := by
  have expired : Acts p (evaluate e r false (setPeerView e (expireEntry r p.pvw) p)) := evaluate_acts (setPeerView_acts .refl _) _ _
  unfold expireRole
  dsimp only
  split
  · exact driveAway_acts expired
  · exact expired

/-! ### AUT: STOP, the duplicate event, the commands -/

theorem latchSetEvent_acts (h : Acts p q) : Acts p (latchSetEvent e q) := h.ops e (latchSetEvent_evolves .refl) latchSetEvent_owned

theorem stopArrival_acts (source : Nat) (stamp : Stamp) : Acts p (stopArrival e source stamp p) := by
  have latched : Acts p (postStatusIf (decide (p.aut.latch ≠ some (stopCause source p))) e
      { p with aut := { p.aut with window := some stamp, latch := some (stopCause source p) } }) := postStatusIf_acts (Acts.refl.authority _) _
  unfold stopArrival
  dsimp only
  split
  · exact latchSetEvent_acts (post_acts latched _ _)
  · exact latched

theorem duplicateEvent_acts : Acts p (duplicateEvent e p) := by
  have entered (m : MastState) : Acts p (enterDuplicate e m p) := post_acts (post_acts (Acts.refl.authority _) _ _) _ _
  unfold duplicateEvent
  repeat' split
  · exact Acts.refl.authority _
  · exact latchSetEvent_acts (entered _)
  · exact entered _

/-- The taking of a command acts as its owner does when the common checks pass. -/
theorem commandDone_acts {c : CommandCode} {owner : Env → ArrivalEntry → Plant → Plant × Verdict} {x : ArrivalEntry}
    (own : commonChecks e c x.source p = none → Acts p (owner e x p).1) : Acts p (commandDone e c owner x p) := by
  have judged : Acts p (judge e c owner x p).1 := by
    cases check : commonChecks e c x.source p with
    | none => rw [judge_owner owner check]; exact own check
    | some v => rw [judge_refused owner check]; exact .refl
  exact post_acts (judged.authority _) _ _

theorem ownResume_acts (x : ArrivalEntry) : Acts p (ownResume e x p).1 := by
  unfold ownResume
  split
  · exact .refl
  · exact postStatusIf_acts (Acts.refl.authority _) _

/-- A motion command that passes the common checks finds the latch CLEAR. -/
theorem latch_clear_of_checks {c : CommandCode} {source : Nat} (motion : c.isMotion = true) (h : commonChecks e c source p = none) : p.aut.latch = none := by
  simp only [commonChecks, motion, if_true] at h
  split at h
  · cases h
  · cases latch : p.aut.latch with
    | none => rfl
    | some cause =>
      have none : checkLatch p = Option.none := by
        rcases hc : checkLatch p with _ | v
        · rfl
        · rw [hc] at h; cases h
      unfold checkLatch at none
      rw [latch] at none
      cases cause <;> cases none

theorem ownJog_acts {x : ArrivalEntry} (h : commonChecks e .jog x.source p = none) : Acts p (ownJog e x p).1 :=
  .of_evolves (ownJog_evolves .refl x (latch_clear_of_checks rfl h)) (by simp)

end

end Sys2Proof.Machine
end

