-- ==== Sys2Proof/Proofs/LinkSteps.lean ====
section
/-! PROOFS. What one step can do to the line, the queues and the plant, said once for every command, and the two invariants that
follow from it: the bounds of the queues, the fault set and the dwell (O4), and the score with the link state (O5). -/

namespace Sys2Proof.Machine

/-! ### The start sequence's records (R26, R27) -/

/-- The record of step 2 for an axis. -/
def sensorFaults (a : Axis) (x : AxisPins) : List FaultRecord := if x.reading.isNone then [{ kind := .sensor, axis := .one a }] else []

theorem startAxis_records (e : Env) (a : Axis) (x : AxisPins) (p : Plant) : (startAxis e a x p).flt.records = p.flt.records ++ sensorFaults a x := by
  unfold startAxis sensorFaults
  dsimp only
  split
  · rfl
  · simp

@[simp] theorem startAxis_posts (e : Env) (a : Axis) (x : AxisPins) (p : Plant) : (startAxis e a x p).posts = p.posts := by
  unfold startAxis
  dsimp only
  split <;> rfl

@[simp] theorem startAxis_smp (e : Env) (a : Axis) (x : AxisPins) (p : Plant) : (startAxis e a x p).smp = p.smp := by
  unfold startAxis
  dsimp only
  split <;> rfl

theorem deriveMast_cases (e : Env) (p : Plant) :
    (deriveMast e p).posts = p.posts ∧ (deriveMast e p).smp = p.smp ∧
      ∃ unparked : Bool, (deriveMast e p).flt.records = p.flt.records ++ if unparked then [{ kind := .headUnparked, axis := .one .mast }] else [] := by
  unfold deriveMast
  dsimp only
  split
  · exact ⟨rfl, rfl, false, by simp⟩
  · split
    · exact ⟨rfl, rfl, false, by simp⟩
    · split
      · exact ⟨rfl, rfl, true, rfl⟩
      · exact ⟨rfl, rfl, false, by simp⟩

/-- The records of one start: at most one for each axis and HEAD_UNPARKED, no two alike. -/
theorem startFaults_sound (mast pan tilt pol : AxisPins) (unparked : Bool) :
    faultsSound { records := sensorFaults .mast mast ++ sensorFaults .pan pan ++ sensorFaults .tilt tilt ++ sensorFaults .pol pol
                    ++ if unparked then [{ kind := .headUnparked, axis := .one .mast }] else [], overflow := false, overflowAxes := [] } = true := by
  unfold sensorFaults
  cases mast.reading.isNone <;> cases pan.reading.isNone <;> cases tilt.reading.isNone <;> cases pol.reading.isNone <;> cases unparked <;> decide

/-! ### The effects of a step -/

/-- A step that leaves score and link state, lets no queue grow beyond its bound, and acts on the plant. -/
structure Calm (s t : State) : Prop where
  link : t.line.linkState = s.line.linkState
  score : t.line.score = s.line.score
  arrivals : s.arrivals.length ≤ 6 → t.arrivals.length ≤ 6
  plant : Acts s.plant t.plant

/-- What one step can do, in the terms of the two invariants. -/
inductive StepEffect (s : State) : State → Prop where
  | calm {t : State} (h : Calm s t) : StepEffect s t
  | cold (pending : List Instr) (reason : ResetReason) : StepEffect s { State.reset with pending := pending, setup := .cold reason }
  | started {t : State} (phase : s.setup.phase = .loaded) (line : t.line = s.line) (arrivals : t.arrivals = s.arrivals)
      (posts : ∃ k tag x, t.plant.posts = postTo k tag x s.plant.posts) (dwell : t.plant.smp.dwell = s.plant.smp.dwell)
      (faults : ∃ (mast pan tilt pol : AxisPins) (unparked : Bool), t.plant.flt.records = s.plant.flt.records ++ (sensorFaults .mast mast ++ sensorFaults .pan pan
        ++ sensorFaults .tilt tilt ++ sensorFaults .pol pol ++ if unparked then [{ kind := .headUnparked, axis := .one .mast }] else [])) : StepEffect s t
  | begun (line : Line) (tag : Tag) (active : s.line.linkState = .active) (quiet : sendingEntry s.plant.posts = none)
      (link : line.linkState = s.line.linkState) (score : line.score = s.line.score) :
      StepEffect s { s with line := line, plant := { s.plant with posts := { s.plant.posts with entries := markFirst tag s.plant.posts.entries } } }
  | faulted (line : Line) (sending : sendingEntry s.plant.posts ≠ none) (link : line.linkState = (scoreFault s.clock s.line).linkState)
      (score : line.score = (scoreFault s.clock s.line).score) :
      StepEffect s { s with line := line, plant := { s.plant with posts := returnSending s.plant.posts } }
  | sent (line : Line) (sending : sendingEntry s.plant.posts ≠ none) (link : line.linkState = s.line.linkState) (score : line.score = s.line.score - 1) :
      StepEffect s { s with line := line, plant := { s.plant with posts := removeSending s.plant.posts } }
  | restored : StepEffect s { s with line := { s.line with linkState := .active, score := 0 } }

/-- Every next state of an outcome is such an effect. -/
def Effects (s : State) (o : Host.Outcome State Fault Refusal) : Prop := ∀ t, o = .next t → StepEffect s t

section
variable {s t : State}

theorem Calm.refl (s : State) : Calm s s := ⟨rfl, rfl, id, .refl⟩

theorem Calm.trans {r : State} (h : Calm r s) (g : Calm s t) : Calm r t :=
  ⟨g.link.trans h.link, g.score.trans h.score, g.arrivals ∘ h.arrivals, h.plant.trans g.plant⟩

theorem calm_plant {q : Plant} (g : Acts s.plant q) : Calm s { s with plant := q } := ⟨rfl, rfl, id, g⟩

theorem calm_line {l : Line} (link : l.linkState = s.line.linkState) (score : l.score = s.line.score) : Calm s { s with line := l } :=
  ⟨link, score, id, .refl⟩

theorem calm_applyHead {q : Plant} (g : Acts s.plant q) : Calm s (applyHead q s) :=
  ⟨rfl, rfl, fun h => by simp only [applyHead_arrivals, List.length_tail]; omega, g⟩

theorem Effects.next (h : StepEffect s t) : Effects s (.next t) := by rintro _ ⟨⟩; exact h

theorem Effects.calm (h : Calm s t) : Effects s (.next t) := .next (.calm h)

theorem Effects.same (s : State) : Effects s (.next s) := .calm (.refl s)

theorem Effects.ite {c : Prop} [Decidable c] {t : State} (h : c → StepEffect s t) : Effects s (if c then .next t else .next s) := by
  split
  · exact .next (h ‹_›)
  · exact .same s

/-- A command that acts on the plant alone when it is due. -/
theorem Effects.iteActs {c : Prop} [Decidable c] {q : Plant} (h : c → Acts s.plant q) : Effects s (if c then .next (withPlant q s) else .next s) :=
  .ite fun hc => .calm (calm_plant (h hc))

/-! ### The start (spec/02) -/

theorem enterSafe_calm (c : ConfigFault) (s : State) : Calm s (enterSafe c s) := ⟨rfl, rfl, id, (post_acts .refl _ _).authority _⟩

theorem execResetRelease_effects (station : BitVec 5) (high : Bool) : Effects s (execResetRelease station high s) := by
  refine .ite fun _ => .calm ?_
  generalize hr : ({ s with setup := { s.setup with phase := .loading, station := station.toNat, mastNumber := if high then 2 else 1, releasedAt := s.clock } } : State) = r
  have strapped : Calm s r := hr ▸ ⟨rfl, rfl, id, .refl⟩
  split
  · exact strapped
  · exact strapped.trans (enterSafe_calm _ _)

theorem execConfigLoadComplete_effects (record : List Byte) : Effects s (execConfigLoadComplete record s) := by
  unfold execConfigLoadComplete
  repeat' split
  · exact .calm (enterSafe_calm _ s)
  · exact .calm ⟨rfl, rfl, id, Acts.refl.peers _⟩
  · exact .same s

theorem execStartSequence_effects (mast pan tilt pol : AxisPins) : Effects s (execStartSequence mast pan tilt pol s) := by
  refine .ite fun phase => ?_
  generalize he : ({ clock := s.clock, setup := { s.setup with phase := .running } } : Env) = e
  generalize hp : startAxis e .pol pol (startAxis e .tilt tilt (startAxis e .pan pan (startAxis e .mast mast (beginScan e s.plant)))) = p
  obtain ⟨posts, smp, unparked, records⟩ := deriveMast_cases e p
  have begun : p.posts = s.plant.posts ∧ p.smp.dwell = s.plant.smp.dwell := by
    rw [← hp]
    refine ⟨by simp [beginScan], ?_⟩
    simp only [startAxis_smp, beginScan, beginConversion]
    split <;> rfl
  refine .started phase rfl rfl ⟨.status, _, _, congrArg (postTo .status _ _) (posts.trans begun.1)⟩ ?_ ⟨mast, pan, tilt, pol, unparked, ?_⟩
  · exact (congrArg Sampler.dwell smp).trans begun.2
  · refine records.trans ?_
    rw [← hp]
    simp only [startAxis_records, List.append_assoc]
    rfl

/-! ### The line (spec/01) -/

theorem execLineIdle_effects : Effects s (execLineIdle s) := by
  refine .ite fun _ => .calm (calm_line ?_ ?_) <;> dsimp only <;> split <;> rfl

theorem execStuckEvent_effects : Effects s (execStuckEvent s) := by
  refine .ite fun _ => ?_
  cases sends : isSending s with
  | true =>
    simp only [if_true]
    refine .faulted _ (by simpa [isSending, Option.isSome_iff_ne_none] using sends) ?_ ?_ <;> dsimp only <;> split <;> rfl
  | false =>
    simp only [Bool.false_eq_true, if_false]
    refine .calm (calm_line ?_ ?_) <;> dsimp only <;> split <;> rfl

theorem joinArrivals_calm (k : ArrivalKind) (f : Frame) (s : State) : Calm s (joinArrivals k f s) := by
  unfold joinArrivals
  split
  · rename_i room
    exact ⟨rfl, rfl, fun _ => by simpa [queueSize] using room, .refl⟩
  · exact ⟨rfl, rfl, id, Acts.refl.overrun⟩

theorem actOnNotice_calm (f : Frame) (s : State) : Calm s (actOnNotice f s) := by
  unfold actOnNotice
  split
  · exact calm_plant duplicateEvent_acts
  · exact calm_plant (stopArrival_acts _ _)
  · exact calm_line rfl rfl
  · exact calm_line rfl rfl
  · exact joinArrivals_calm _ f s

theorem execNoticeArrival_effects (f : Frame) : Effects s (execNoticeArrival f s) := by
  unfold execNoticeArrival
  have ended : Calm s { s with line := endOfTail s.line } := calm_line rfl rfl
  repeat' split
  · exact .calm (ended.trans (actOnNotice_calm f _))
  · exact .calm (calm_line rfl rfl)
  · exact .same s

theorem execNoticeBegin_effects : Effects s (execNoticeBegin s) := by
  unfold execNoticeBegin
  split
  · rename_i may _
    simp only [mayBegin, Bool.and_eq_true, decide_eq_true_eq, Bool.not_eq_true', isSending, Option.isSome_eq_false_iff, Option.isNone_iff_eq_none] at may
    obtain ⟨⟨⟨⟨-, quiet⟩, -⟩, active⟩, -⟩ := may
    exact .next (.begun _ _ active quiet rfl rfl)
  · exact .same s

theorem execContentionLost_effects (bit : Fin 12) : Effects s (execContentionLost bit s) := by
  unfold execContentionLost
  repeat' split
  · exact .calm ⟨rfl, rfl, id, Acts.refl.returned⟩
  · exact .same s
  · exact .same s

theorem execSendFault_effects (m : Mismatch) : Effects s (execSendFault m s) := by
  unfold execSendFault
  split
  · rename_i x sends
    exact .ite fun _ => .faulted _ (by simp [sends]) rfl rfl
  · exact .same s

theorem execSentWhole_effects : Effects s (execSentWhole s) := by
  unfold execSentWhole
  split
  · rename_i x sends
    exact .next (.sent _ (by simp [sends]) rfl rfl)
  · exact .same s

theorem execWithdrawalExpiry_effects : Effects s (execWithdrawalExpiry s) := by
  unfold execWithdrawalExpiry
  split
  · exact .ite fun _ => .restored
  · exact .same s

theorem postLink_calm (s : State) : Calm s (postLink s) := ⟨rfl, rfl, id, post_acts .refl _ _⟩

theorem execLinkReportPeriodExpiry_effects : Effects s (execLinkReportPeriodExpiry s) := by
  unfold execLinkReportPeriodExpiry
  split
  · exact .ite fun _ => .calm (Calm.trans (postLink_calm s) (calm_line rfl rfl))
  · exact .same s

/-! ### The takings (R16) -/

theorem takeRole_effects {r : Role} {act : Env → ArrivalEntry → Plant → Plant} (h : ∀ x, Acts s.plant (act (envOf s) x s.plant)) :
    Effects s (.next (takeRole r act s)) := by
  unfold takeRole
  split
  · exact .calm (calm_applyHead (h _))
  · exact .same s

theorem takeCommand_calm {c : CommandCode} {owner : Env → ArrivalEntry → Plant → Plant × Verdict}
    (own : ∀ x, commonChecks (envOf s) c x.source s.plant = none → Acts s.plant (owner (envOf s) x s.plant).1) : Calm s (takeCommand c owner s) := by
  unfold takeCommand
  split
  · exact calm_applyHead (commandDone_acts (own _))
  · exact .refl s

theorem postItem_calm (i : RoundItem) (s : State) : Calm s (postItem i s) := by
  cases i with
  | link => exact postLink_calm s
  | status | pointing | axis => exact calm_plant (post_acts .refl _ _)

theorem postRound_calm (l : List RoundItem) (s : State) : Calm s (postRound l s) := by
  have kept (l : List RoundItem) (s : State) : Calm s (setRound l s) := calm_plant (Acts.refl.authority _)
  induction l generalizing s with
  | nil => exact kept [] s
  | cons i l ih =>
    unfold postRound
    split
    · exact (postItem_calm i s).trans (ih _)
    · exact kept _ s

theorem execReport_effects : Effects s (execReport s) := by
  have taken : Calm s (takeCommand .report ownReport s) := takeCommand_calm fun _ _ => Acts.refl.authority _
  unfold execReport
  dsimp only
  split
  · exact .calm (taken.trans (postRound_calm _ _))
  · exact .calm taken

theorem execAim_effects : Effects s (execAim s) := by
  unfold execAim
  split
  · refine .calm (calm_applyHead ?_)
    have done (x : ArrivalEntry) : Acts s.plant (commandDone (envOf s) .aim ownAim x s.plant) :=
      commandDone_acts fun _ => .of_evolves (ownAim_evolves .refl _) (ownAim_owned _)
    unfold aimDone
    dsimp only
    split
    · exact done _
    · exact (done _).ops (envOf s) (beginAim_evolves .refl) (by simp)
  · exact .same s

theorem execUnknownCommandCode_effects : Effects s (execUnknownCommandCode s) := by
  unfold execUnknownCommandCode
  split
  · exact .calm (calm_applyHead (post_acts .refl _ _))
  · exact .same s

theorem execPositionerStatus_effects : Effects s (execPositionerStatus s) := by
  unfold execPositionerStatus
  split
  · refine .calm (calm_applyHead ?_)
    split
    · exact duplicateEvent_acts
    · exact .refl
  · exact .same s

/-! ### Timers and periods -/

theorem execStopWindowExpiry_effects : Effects s (execStopWindowExpiry s) := by
  unfold execStopWindowExpiry
  split
  · exact .ite fun _ => .calm (calm_plant (Acts.refl.authority _))
  · exact .same s

theorem execDuplicateQuietExpiry_effects : Effects s (execDuplicateQuietExpiry s) := by
  unfold execDuplicateQuietExpiry
  split
  · exact .iteActs fun _ => post_acts (Acts.refl.authority _) _ _
  · exact .same s

theorem execStatusPeriodExpiry_effects : Effects s (execStatusPeriodExpiry s) := by
  unfold execStatusPeriodExpiry
  split
  · exact .ite fun _ => .calm (calm_plant (post_acts (Acts.refl.authority _) _ _))
  · exact .same s

theorem execScanConversionComplete_effects (r : Count) : Effects s (execScanConversionComplete r s) := by
  unfold execScanConversionComplete
  split
  · exact .calm (calm_plant (.of_evolves (withSampler_evolves (scanResult_evolves .refl _ r) _)
      fun h => beginConversion_owned true (scanResult_owned _ r h)))
  · exact .same s

theorem execDwellConversionComplete_effects (r : Count) : Effects s (execDwellConversionComplete r s) := by
  unfold execDwellConversionComplete
  split
  · exact .calm (calm_plant (.of_evolves (withSampler_evolves (dwellResult_evolves .refl _ _ r) _)
      fun h => beginConversion_owned false (dwellResult_owned _ _ r h)))
  · exact .same s

theorem execServoPeriod_effects (a : Axis) (x : AxisPins) : Effects s (execServoPeriod a x s) := by
  unfold execServoPeriod
  split
  · exact .calm (calm_plant (.of_evolves (servoPeriod_evolves .refl a x) (servoPeriod_owned a x)))
  · exact .calm (calm_plant (.of_evolves (e := envOf s) (readOnly_evolves .refl a x) id))
  all_goals exact .same s

theorem execSettleTimeExpiry_effects (a : Axis) : Effects s (execSettleTimeExpiry a s) := by
  refine .iteActs fun expired => .of_evolves (takeSettled_evolves .refl a ?_) (takeSettled_owned a)
  simp only [settleExpired, Bool.and_eq_true, decide_eq_true_eq] at expired
  exact expired.1.1.1

theorem execAxisReportPeriodExpiry_effects (a : Axis) : Effects s (execAxisReportPeriodExpiry a s) := by
  unfold execAxisReportPeriodExpiry
  dsimp only
  split
  · refine .ite fun _ => .calm (calm_plant (.of_evolves (e := envOf s) (postAxisReport_evolves (Evolves.refl.written a _ ?_) a) id))
    exact ⟨rfl, rfl, rfl, rfl, rfl, Or.inl rfl⟩
  · exact .same s

theorem execSearchSettleExpiry_effects : Effects s (execSearchSettleExpiry s) := by
  unfold execSearchSettleExpiry
  split
  · exact .iteActs fun _ => .of_evolves (patternMeasure_evolves .refl) patternMeasure_owned
  · exact .same s

theorem execPatternResumeDelayExpiry_effects : Effects s (execPatternResumeDelayExpiry s) := by
  unfold execPatternResumeDelayExpiry
  split
  · exact .iteActs fun _ => .of_evolves (takeUpPattern_evolves .refl) takeUpPattern_owned
  · exact .same s

theorem execCrossSettleExpiry_effects : Effects s (execCrossSettleExpiry s) := by
  unfold execCrossSettleExpiry
  split
  · exact .iteActs fun _ => .of_evolves (runMeasure_evolves .refl _) (runMeasure_owned _)
  · exact .same s

theorem execClosingSettleExpiry_effects : Effects s (execClosingSettleExpiry s) := by
  unfold execClosingSettleExpiry
  split
  · exact .iteActs fun _ => .of_evolves (runMeasure_evolves .refl _) (runMeasure_owned _)
  · exact .same s

theorem execRunResumeDelayExpiry_effects : Effects s (execRunResumeDelayExpiry s) := by
  unfold execRunResumeDelayExpiry
  split
  · exact .iteActs fun _ => .of_evolves (takeUpRun_evolves .refl _) (by simp [takeUpRun])
  · exact .same s

theorem execTrackSamplePeriodExpiry_effects : Effects s (execTrackSamplePeriodExpiry s) := by
  unfold execTrackSamplePeriodExpiry
  split
  · exact .iteActs fun _ => .of_evolves (takeSamplePeriod_evolves .refl) takeSamplePeriod_owned
  · exact .same s

/-! ### Every command -/

theorem exec_effects (c : Instr) (s : State) : Effects s (exec c s) := by
  cases c with
  | coldStart reason => exact .next (.cold _ reason)
  | resetRelease station high => exact execResetRelease_effects station high
  | configLoadComplete record => exact execConfigLoadComplete_effects record
  | configLoadTimeout => exact .ite fun _ => .calm (enterSafe_calm _ s)
  | memoryNoAnswer => exact .ite fun _ => .calm (enterSafe_calm _ s)
  | startSequence mast pan tilt pol => exact execStartSequence_effects mast pan tilt pol
  | lineIdle => exact execLineIdle_effects
  | startBit => exact .ite fun _ => .calm (calm_line rfl rfl)
  | stuckEvent => exact execStuckEvent_effects
  | noticeArrival f => exact execNoticeArrival_effects f
  | noticeDiscard => exact .ite fun _ => .calm (calm_line rfl rfl)
  | startOutsideIdle => exact .ite fun _ => .calm (calm_line rfl rfl)
  | noticeBegin => exact execNoticeBegin_effects
  | contentionLost bit => exact execContentionLost_effects bit
  | sendFault m => exact execSendFault_effects m
  | sentWhole => exact execSentWhole_effects
  | withdrawalExpiry => exact execWithdrawalExpiry_effects
  | linkReportPeriodExpiry => exact execLinkReportPeriodExpiry_effects
  | vehicle => exact takeRole_effects takeVehicle_acts
  | wind => exact takeRole_effects takeWind_acts
  | clearance => exact takeRole_effects takeClearance_acts
  | level => exact takeRole_effects takeLevel_acts
  | positionerStatus => exact execPositionerStatus_effects
  | resume => exact .calm (takeCommand_calm fun x _ => ownResume_acts x)
  | clearFault => exact .calm (takeCommand_calm fun x _ => .of_evolves (ownClearFault_evolves .refl x) (ownClearFault_owned x))
  | report => exact execReport_effects
  | raise => exact .calm (takeCommand_calm fun x _ => .of_evolves (ownRaise_evolves .refl x) (ownRaise_owned x))
  | lower => exact .calm (takeCommand_calm fun x _ => .of_evolves (ownLower_evolves .refl x) (ownLower_owned x))
  | aim => exact execAim_effects
  | peak => exact .calm (takeCommand_calm fun x _ => .of_evolves (ownPeak_evolves .refl x) (ownPeak_owned x))
  | cancelPointing => exact .calm (takeCommand_calm fun x _ => .of_evolves (ownCancelPointing_evolves .refl x) (haltPointing_owned _))
  | jog => exact .calm (takeCommand_calm fun _ h => ownJog_acts h)
  | unknownCommandCode => exact execUnknownCommandCode_effects
  | freshnessExpiry r => exact .iteActs fun _ => expireRole_acts r
  | stopWindowExpiry => exact execStopWindowExpiry_effects
  | duplicateQuietExpiry => exact execDuplicateQuietExpiry_effects
  | reportRoundPost => exact .calm (postRound_calm _ s)
  | statusPeriodExpiry => exact execStatusPeriodExpiry_effects
  | scanConversionComplete r => exact execScanConversionComplete_effects r
  | dwellConversionComplete r => exact execDwellConversionComplete_effects r
  | dwellFree q => exact .iteActs fun _ => .of_evolves (takeDwellFree_evolves .refl q) (takeDwellFree_owned q)
  | servoPeriod a x => exact execServoPeriod_effects a x
  | stallTimeout a => exact .iteActs fun _ => .of_evolves (takeStall_evolves .refl a) (takeStall_owned a)
  | settleTimeExpiry a => exact execSettleTimeExpiry_effects a
  | axisReportPeriodExpiry a => exact execAxisReportPeriodExpiry_effects a
  | axisFree a q => exact .iteActs fun _ => .of_evolves (takeAxisFree_evolves .refl q a) (takeAxisFree_owned q a)
  | driveGrant => exact .calm (calm_plant (.of_evolves (e := envOf s) Evolves.refl.granted (by simp)))
  | presetSettleExpiry => exact .iteActs fun _ => .of_evolves (presetMeasure_evolves .refl) presetMeasure_owned
  | searchSettleExpiry => exact execSearchSettleExpiry_effects
  | patternResumeDelayExpiry => exact execPatternResumeDelayExpiry_effects
  | crossSettleExpiry => exact execCrossSettleExpiry_effects
  | closingSettleExpiry => exact execClosingSettleExpiry_effects
  | runResumeDelayExpiry => exact execRunResumeDelayExpiry_effects
  | trackSamplePeriodExpiry => exact execTrackSamplePeriodExpiry_effects
  | fadeTimerExpiry => exact .iteActs fun _ => .of_evolves (takeFade_evolves .refl) takeFade_owned
  | lossTimerExpiry => exact .iteActs fun _ => .of_evolves (takeLoss_evolves .refl) (by simp)

/-- A step is a tick or a command; either way its effect is one of those named. -/
theorem step_effect {s t : State} (h : step s = .next t) : ∃ rest, StepEffect { s with pending := rest } t := by
  unfold step at h
  split at h
  · cases h
    exact ⟨s.pending, .calm ⟨rfl, rfl, id, .refl⟩⟩
  · exact ⟨_, exec_effects _ _ t h⟩

end

/-! ### The invariants -/

theorem queuesSound_iff {s : State} : queuesSound s = true ↔ s.arrivals.length ≤ 6 ∧ postsSound s.plant.posts = true := by
  rw [queuesSound, Bool.and_eq_true, decide_eq_true_iff]
  rfl

theorem stepEffect_queuesSound {s t : State} (h : StepEffect s t) (sound : queuesSound s = true) : queuesSound t = true := by
  rw [queuesSound_iff] at sound ⊢
  obtain ⟨six, posts⟩ := sound
  cases h with
  | calm h => exact ⟨h.arrivals six, h.plant.postsSound posts⟩
  | cold => exact ⟨Nat.zero_le _, rfl⟩
  | started _ _ arrivals made =>
    obtain ⟨k, tag, x, made⟩ := made
    exact ⟨arrivals ▸ six, made ▸ postTo_sound k tag x posts⟩
  | begun _ tag _ quiet => exact ⟨six, markFirst_sound tag quiet posts⟩
  | faulted => exact ⟨six, returnSending_sound posts⟩
  | sent => exact ⟨six, removeSending_sound posts⟩
  | restored => exact ⟨six, posts⟩

theorem stepEffect_faultsSound {s t : State} (h : StepEffect s t) (start : quiet s = true) (sound : faultsSound s.plant.flt = true) :
    faultsSound t.plant.flt = true := by
  cases h with
  | calm h => exact h.plant.faultsSound sound
  | cold => rfl
  | started phase _ _ _ _ faults =>
    obtain ⟨mast, pan, tilt, pol, unparked, records⟩ := faults
    have none : s.plant.flt.records = [] := by
      simp only [quiet, phase, Bool.and_eq_true, decide_eq_true_eq] at start
      rw [start.2]
      rfl
    have made := startFaults_sound mast pan tilt pol unparked
    rw [faultsSound_iff] at made ⊢
    rw [records, none]
    exact made
  | begun | faulted | sent | restored => exact sound

theorem stepEffect_dwellOwned {s t : State} (h : StepEffect s t) (owned : dwellOwned s.plant.smp) : dwellOwned t.plant.smp := by
  cases h with
  | calm h => exact h.plant.dwellOwned owned
  | cold => exact dwellOwned_none rfl
  | started _ _ _ _ dwell => exact dwellOwned_congr dwell owned
  | begun | faulted | sent | restored => exact owned

/-- Settles O4: each bound is kept by every effect a step can have. -/
theorem queuesAndFaultSetKeepTheirBounds : Obligations.QueuesAndFaultSetKeepTheirBounds := by
  refine ⟨fun s t sound h => ?_, fun s t start sound h => ?_, fun s t sound h => ?_⟩ <;> obtain ⟨rest, effect⟩ := step_effect h
  · exact stepEffect_queuesSound effect sound
  · exact stepEffect_faultsSound effect start sound
  · exact dwellSound_iff.2 (stepEffect_dwellOwned effect (dwellSound_iff.1 sound))

/-- The score of an ACTIVE link is at most 127; a WITHDRAWN one has 128 to 135 and sends nothing. -/
def scoreAgrees (link : LinkState) (score : Nat) (q : PostQueue) : Prop :=
  match link with
  | .active => score ≤ 127
  | .withdrawn _ => 128 ≤ score ∧ score ≤ 135 ∧ sendingEntry q = none

theorem linkSound_iff {s : State} : linkSound s = true ↔ scoreAgrees s.line.linkState s.line.score s.plant.posts := by
  unfold linkSound scoreSound scoreAgrees
  cases s.line.linkState <;> simp [and_assoc]

/-- A withdrawn link sends nothing, so a link that sends is ACTIVE. -/
theorem scoreAgrees_sending {link : LinkState} {score : Nat} {q : PostQueue} (h : scoreAgrees link score q) (sending : sendingEntry q ≠ none) :
    link = .active ∧ score ≤ 127 := by
  cases link with
  | active => exact ⟨rfl, h⟩
  | withdrawn since => exact absurd h.2.2 sending

theorem scoreAgrees_kept {link : LinkState} {score : Nat} {q r : PostQueue} (h : scoreAgrees link score q)
    (kept : sendingEntry q = none → sendingEntry r = none) : scoreAgrees link score r := by
  cases link with
  | active => exact h
  | withdrawn since => exact ⟨h.1, h.2.1, kept h.2.2⟩

theorem stepEffect_linkSound {s t : State} (h : StepEffect s t) (sound : linkSound s = true) : linkSound t = true := by
  rw [linkSound_iff] at sound ⊢
  cases h with
  | calm h => rw [h.link, h.score]; exact scoreAgrees_kept sound h.plant.sending_none
  | cold => exact Nat.zero_le _
  | started _ line _ made =>
    obtain ⟨k, tag, x, made⟩ := made
    rw [line, made]
    exact scoreAgrees_kept sound (postTo_sending_none k tag x _)
  | begun line tag active _ link score =>
    rw [active] at sound
    rw [link, score, active]
    exact sound
  | faulted line sending link score =>
    obtain ⟨active, low⟩ := scoreAgrees_sending sound sending
    rw [link, score]
    simp only [scoreFault]
    split
    · exact ⟨‹_›, by omega, returnSending_none _⟩
    · rw [active]; exact Nat.le_of_lt_succ (Nat.lt_of_not_le ‹_›)
  | sent line sending link score =>
    obtain ⟨active, low⟩ := scoreAgrees_sending sound sending
    rw [link, score, active]
    exact (Nat.sub_le _ _).trans low
  | restored => exact Nat.zero_le _

/-- Settles O5: a link that sends is ACTIVE, and only a send fault raises the score. -/
theorem scoreAgreesWithTheLinkState : Obligations.ScoreAgreesWithTheLinkState := by
  intro s t sound h
  obtain ⟨rest, effect⟩ := step_effect h
  exact stepEffect_linkSound effect sound

end Sys2Proof.Machine
end

