-- ==== Sys2Proof/Proofs/LinkLatchSet.lean ====
section
/-! PROOFS. The latch-set event (R49), said once: what it ends, what it halts and what it leaves; and the two arrivals that bring it, a
STOP with the latch CLEAR (O16) and a duplicate event (O38). -/

namespace Sys2Proof.Machine

/-! ### The moves an event ends (R49, R81, R84) -/

theorem waiting_leaveWaiting (a : Axis) (p : Plant) : (leaveWaiting a p).axd.waiting = removeAll p.axd.waiting a := rfl

theorem waiting_leaveGrants (a : Axis) (p : Plant) : (leaveGrants a p).axd.waiting = p.axd.waiting := rfl

/-- The state of each axis after a move ended. -/
theorem endMove_state (e : Env) (a b : Axis) (p : Plant) :
    (axisOf (endMove e a p) b).state = if b = a then endedState (axisOf p b).state else (axisOf p b).state := by
  by_cases same : b = a
  · subst same
    unfold endMove
    cases st : (axisOf p b).state <;> simp [abandonWaiting, toStopping, endedState, st]
  · unfold endMove
    cases st : (axisOf p a).state <;> simp [abandonWaiting, toStopping, same]

/-- An axis that still waits after a move ended waited before, and its own move was not the one ended. -/
theorem endMove_waiting {e : Env} {a b : Axis} {p : Plant} (h : b ∈ (endMove e a p).axd.waiting) :
    b ∈ p.axd.waiting ∧ (b = a → (axisOf p b).state ≠ .waiting) := by
  unfold endMove at h
  cases st : (axisOf p a).state
  case waiting =>
    rw [st] at h
    simp only [abandonWaiting, waiting_leaveWaiting, putAxis_axd, waiting_setAxisRaw, removeAll, List.mem_filter, decide_eq_true_eq] at h
    exact ⟨h.1, fun same => absurd same h.2⟩
  case moving | settling =>
    rw [st] at h
    simp only [toStopping, waiting_leaveGrants, putAxis_axd, waiting_setAxisRaw] at h
    exact ⟨h, fun same => by rw [same, st]; simp⟩
  all_goals
    rw [st] at h
    exact ⟨h, fun same => by rw [same, st]; simp⟩

theorem endedState_idem (x : AxisState) : endedState (endedState x) = endedState x := by cases x <;> rfl

/-- After the moves of a list are ended, before any grant is handed out. -/
theorem endMoves_fold (e : Env) (l : List Axis) (b : Axis) : ∀ p : Plant,
    (axisOf (l.foldl (fun x a => if true then endMove e a x else x) p) b).state = (if b ∈ l then endedState (axisOf p b).state else (axisOf p b).state) ∧
      (b ∈ (l.foldl (fun x a => if true then endMove e a x else x) p).axd.waiting → b ∈ p.axd.waiting ∧ (b ∈ l → (axisOf p b).state ≠ .waiting)) := by
  induction l with
  | nil => exact fun p => ⟨by simp, fun h => ⟨h, by simp⟩⟩
  | cons a l ih =>
    intro p
    obtain ⟨state, waiting⟩ := ih (endMove e a p)
    have first := endMove_state e a b p
    simp only [List.foldl_cons, if_true] at state waiting ⊢
    refine ⟨?_, fun h => ?_⟩
    · rw [state, first]
      by_cases same : b = a <;> by_cases mem : b ∈ l <;> simp [same, mem, endedState_idem]
    · obtain ⟨later, notLater⟩ := waiting h
      obtain ⟨before, notFirst⟩ := endMove_waiting later
      refine ⟨before, fun m => ?_⟩
      by_cases same : b = a
      · exact notFirst same
      · rw [first, if_neg same] at notLater
        exact notLater ((List.mem_cons.1 m).resolve_left same)

/-- The latch-set event ends every move: no axis waits after it, so the grants returned go to none (R49, R94). -/
theorem latchAxes_state {e : Env} {p : Plant} (sound : arbiterSound p = true) (a : Axis) :
    (axisOf (latchAxes e p) a).state = endedState (axisOf p a).state := by
  have mem : a ∈ allAxes := by cases a <;> decide
  obtain ⟨state, waiting⟩ := endMoves_fold e allAxes a p
  rw [if_pos mem] at state
  refine (congrArg AxisRec.state ((afterLeaving_axis e p _ a).2 fun h => ?_)).trans state
  obtain ⟨before, still⟩ := waiting h
  exact not_waiting sound (still mem) before

/-- Moves of axes that carry none are no moves to end. -/
theorem endMoves_of_ended {e : Env} {p : Plant} {l : List Axis} (ended : ∀ a ∈ l, endedState (axisOf p a).state = (axisOf p a).state)
    (picks : AxisRec → Bool) : endMoves e picks l p = p := by
  have none (a : Axis) (m : a ∈ l) : endMove e a p = p := by
    have h := ended a m
    unfold endMove
    cases st : (axisOf p a).state
    case waiting | moving | settling => rw [st] at h; cases h
    all_goals rfl
  have fold : l.foldl (fun x a => if picks (axisOf x a) then endMove e a x else x) p = p := by
    clear ended
    induction l with
    | nil => rfl
    | cons a l ih => rw [List.foldl_cons, none a List.mem_cons_self, ite_self, ih fun b m => none b (List.mem_cons_of_mem a m)]
  unfold endMoves afterLeaving
  rw [fold, Nat.sub_self]
  rfl

/-! ### What a halt of pointing writes (R131, R133) -/

theorem postStatusIf_rest (c : Bool) (e : Env) (p : Plant) : ∃ posts, postStatusIf c e p = { p with posts := posts } := by
  cases c <;> exact ⟨_, rfl⟩

theorem setPointing_rest (e : Env) (st : PointState) (p : Plant) : ∃ posts, setPointing e st p = { p with posts := posts, pnt := { p.pnt with state := st } } := by
  unfold setPointing postStatusIf
  dsimp only
  split <;> split <;> exact ⟨_, rfl⟩

theorem cancelDwell_rest (q : Requester) (p : Plant) : ∃ smp, cancelDwell q p = { p with smp := smp } := by
  unfold cancelDwell
  dsimp only
  repeat' split
  all_goals exact ⟨_, rfl⟩

/-- A requester stopped: its moves and its dwell cancelled; the drives stay as they are when no axis carries a move. -/
theorem cancelWork_rest (e : Env) (q : Requester) (l : List Axis) (p : Plant) :
    ∃ posts axd smp, cancelDwell q (cancelMoves e q l p) = { p with posts := posts, axd := axd, smp := smp } ∧
      ((∀ a, endedState (axisOf p a).state = (axisOf p a).state) → axd = p.axd) := by
  obtain ⟨smp, dwell⟩ := cancelDwell_rest q (cancelMoves e q l p)
  obtain ⟨posts, axd, moves⟩ := endMoves_onlyDrives e (fun r => carriesMove r q) l p
  refine ⟨posts, axd, smp, by rw [dwell, cancelMoves, moves], fun ended => ?_⟩
  exact (congrArg Plant.axd moves).symm.trans (congrArg Plant.axd (endMoves_of_ended (fun a _ => ended a) _))

/-- The halt of a pattern: nothing without one under way; else its work stopped and its record HALTED with the cause (R146). -/
theorem haltPattern_rest (e : Env) (cause : PatternCause) (p : Plant) :
    ∃ posts axd smp pat, haltPattern e cause p = { p with posts := posts, axd := axd, smp := smp, pat := pat } ∧
      ((∀ a, endedState (axisOf p a).state = (axisOf p a).state) → axd = p.axd) ∧
      (patternUnderWay p = true → pat.map (·.status) = some (.halted cause)) := by
  unfold haltPattern
  split
  · rename_i way
    obtain ⟨posts, axd, smp, work, kept⟩ := cancelWork_rest e .pat pointAxes p
    unfold stopPattern updatePattern
    rw [work]
    refine ⟨posts, axd, _, _, rfl, kept, fun _ => ?_⟩
    unfold patternUnderWay at way
    cases found : p.pat with
    | some x => rfl
    | none => rw [found] at way; cases way
  · rename_i way
    exact ⟨_, _, _, _, rfl, fun _ => rfl, fun h => absurd h way⟩

/-- The pointing block after a halt: IDLE with nothing under way, the record kept. -/
def haltedPointing (x : Pointing) : Pointing := { x with state := .idle, slewList := [], measurement := .blank, foundWhileHeld := none }

/-- A halt of pointing outside IDLE: the pointing block, the run and the monitor, the pattern when it was under way, and the drives as they
are when no axis carries a move. -/
theorem haltPointing_rest {e : Env} {cause : PatternCause} {p : Plant} (busy : p.pnt.state ≠ .idle) :
    ∃ posts axd smp pat, haltPointing e cause p =
        { p with posts := posts, axd := axd, smp := smp, pat := pat, pnt := haltedPointing p.pnt, run := .cold, monitor := .cold } ∧
      ((∀ a, endedState (axisOf p a).state = (axisOf p a).state) → axd = p.axd) ∧
      (patternUnderWay p = true → pat.map (·.status) = some (.halted cause)) := by
  obtain ⟨posts1, axd1, smp1, slew, kept1⟩ := cancelWork_rest e .pnt headAxes p
  have slew' : stopSlew e p = { p with posts := posts1, axd := axd1, smp := smp1, pnt := { p.pnt with slewList := [], measurement := .blank } } := by
    unfold stopSlew
    rw [slew]
  obtain ⟨posts2, axd2, smp2, pat, pattern, kept2, halted⟩ := haltPattern_rest e cause (stopSlew e p)
  obtain ⟨posts3, axd3, smp3, run, kept3⟩ := cancelWork_rest e .pke pointAxes (haltPattern e cause (stopSlew e p))
  obtain ⟨posts4, last⟩ := setPointing_rest e .idle (let q := discardRun e (haltPattern e cause (stopSlew e p))
    { q with pnt := { q.pnt with foundWhileHeld := none } })
  have all : haltPointing e cause p = { p with posts := posts4, axd := axd3, smp := smp3, pat := pat, pnt := haltedPointing p.pnt, run := .cold, monitor := .cold } := by
    have opened : haltPointing e cause p = setPointing e .idle (let q := discardRun e (haltPattern e cause (stopSlew e p))
        { q with pnt := { q.pnt with foundWhileHeld := none } }) := by
      unfold haltPointing
      split
      · exact absurd ‹_› busy
      all_goals rfl
    rw [opened, last]
    dsimp only [discardRun, monitorOff]
    rw [run, pattern, slew']
    rfl
  refine ⟨posts4, axd3, smp3, pat, all, fun ended => ?_, fun way => halted (by rw [slew']; exact way)⟩
  have same1 := kept1 ended
  have ended1 : ∀ a, endedState (axisOf (stopSlew e p) a).state = (axisOf (stopSlew e p) a).state := fun a => by
    rw [axisOf_congr (show (stopSlew e p).axd.axes = p.axd.axes by rw [slew']; exact congrArg _ same1)]
    exact ended a
  have same2 := kept2 ended1
  have ended2 : ∀ a, endedState (axisOf (haltPattern e cause (stopSlew e p)) a).state = (axisOf (haltPattern e cause (stopSlew e p)) a).state := fun a => by
    rw [axisOf_congr (show (haltPattern e cause (stopSlew e p)).axd.axes = (stopSlew e p).axd.axes by rw [pattern]; exact congrArg _ same2)]
    exact ended1 a
  rw [kept3 ended2, pattern]
  exact same2.trans (by rw [slew']; exact same1)

/-! ### The latch-set event (R49) -/

theorem latchMastState_eq (st : MastState) : latchMastState st = if st = .stowed then .stowed else .halted .stop := by cases st <;> rfl

/-- The mast at the latch-set event: its state alone, for neither STOWED nor HALTED is a mast event to PNT (R127, R131). -/
theorem setMast_latch (e : Env) (st : MastState) (p : Plant) : ∃ posts, setMast e (latchMastState st) p = { p with posts := posts, msq := { p.msq with state := latchMastState st } } := by
  obtain ⟨posts, status⟩ := postStatusIf_rest (decide (mastKey p.msq.state ≠ mastKey (latchMastState st))) e
    { p with msq := { p.msq with state := latchMastState st } }
  refine ⟨posts, ?_⟩
  unfold setMast
  dsimp only
  rw [status]
  cases st <;> rfl

/-- What the latch-set event makes of a plant (R49). -/
structure LatchSet (p q : Plant) : Prop where
  aut : q.aut = p.aut
  pvw : q.pvw = p.pvw
  flt : q.flt = p.flt
  mast : q.msq.state = if p.msq.state = .stowed then .stowed else .halted .stop
  idle : q.pnt.state = .idle
  record : q.pnt.record = p.pnt.record
  axes : arbiterSound p = true → ∀ a, (axisOf q a).state = endedState (axisOf p a).state
  pointing : p.pnt.state ≠ .idle → q.run = .cold ∧ q.monitor = .cold ∧ (patternUnderWay p = true → q.pat.map (·.status) = some (.halted (.aborted .stop)))

theorem latchSetEvent_latchSet (e : Env) (p : Plant) : LatchSet p (latchSetEvent e p) := by
  obtain ⟨posts1, axd1, latched⟩ := endMoves_onlyDrives e (fun _ => true) allAxes p
  have states (sound : arbiterSound p = true) (a : Axis) : (axisOf { p with axd := axd1 } a).state = endedState (axisOf p a).state := by
    rw [← latchAxes_state (e := e) sound a, latchAxes, latched]
    cases a <;> rfl
  have ended (sound : arbiterSound p = true) (a : Axis) : endedState (axisOf { p with axd := axd1 } a).state = (axisOf { p with axd := axd1 } a).state := by
    rw [states sound, endedState_idem]
  obtain ⟨posts2, mast⟩ := setMast_latch e p.msq.state (latchAxes e p)
  have opened : latchSetEvent e p = haltPointing e (.aborted .stop) { p with posts := posts2, axd := axd1, msq := { p.msq with state := latchMastState p.msq.state } } := by
    have state : (latchAxes e p).msq.state = p.msq.state := by rw [latchAxes, latched]
    rw [latchSetEvent, state, mast, latchAxes, latched]
  rw [opened]
  by_cases idle : p.pnt.state = .idle
  · have same : haltPointing e (.aborted .stop) { p with posts := posts2, axd := axd1, msq := { p.msq with state := latchMastState p.msq.state } } =
        { p with posts := posts2, axd := axd1, msq := { p.msq with state := latchMastState p.msq.state } } := by
      unfold haltPointing
      rw [idle]
    rw [same]
    exact ⟨rfl, rfl, rfl, latchMastState_eq _, idle, rfl, fun sound a => by rw [← states sound a]; cases a <;> rfl, fun busy => absurd idle busy⟩
  · obtain ⟨posts3, axd3, smp, pat, halted, kept, pattern⟩ := haltPointing_rest (e := e) (cause := .aborted .stop)
      (p := { p with posts := posts2, axd := axd1, msq := { p.msq with state := latchMastState p.msq.state } }) idle
    rw [halted]
    refine ⟨rfl, rfl, rfl, latchMastState_eq _, rfl, rfl, fun sound a => ?_, fun _ => ⟨rfl, rfl, pattern⟩⟩
    have axd : axd3 = axd1 := kept fun b => by have h := ended sound b; cases b <;> exact h
    rw [← states sound a, axd]
    cases a <;> rfl

/-! ### The arrivals that set the latch -/

/-- Settles O16: the judgement is STOP, and with the latch CLEAR `stopArrival` ends in the latch-set event. -/
theorem aStopActsAtItsArrival : Obligations.AStopActsAtItsArrival := by
  intro s f rec wf check kind urgency payload low high other clear
  have judged : judgeNotice (envOf s) f = .stop := by
    rw [judgeNotice_passed (Or.inl other) (not_ignoredNotice low high (by rw [kind, urgency]; rfl) (by rw [kind, payload]; rfl) (by rw [kind]; decide)), if_pos kind]
  have cause : stopCause (tagSource f.tag) s.plant = .stop (tagSource f.tag) := if_neg (by simp [clear])
  generalize aut : ({ s.plant.aut with latch := some (.stop (tagSource f.tag)), window := some (s.clock.setWidth 16) } : Authority) = after
  generalize posted : postHalt (envOf s) .stop .all (latchMastState s.plant.msq.state) (postStatus (envOf s) { s.plant with aut := after }) = q
  have arrival : stopArrival (envOf s) (tagSource f.tag) (stampOf s.clock) s.plant = latchSetEvent (envOf s) q := by
    have changed : decide (none ≠ some (LatchCause.stop (tagSource f.tag))) = true := by simp
    have window : stampOf s.clock = s.clock.setWidth 16 := rfl
    rw [← posted, ← aut, stopArrival, cause]
    simp only [changed, clear, window, Option.isNone_none, if_true, postStatusIf]
  have taken : exec (.noticeArrival f) s = .next { s with line := endOfTail s.line, plant := latchSetEvent (envOf s) q } := by
    rw [exec_noticeArrival rec wf check, ← arrival]
    simp only [actOnNotice, envOf] at judged ⊢
    rw [judged]
    rfl
  have set := latchSetEvent_latchSet (envOf s) q
  have halt : madePost .halt { s.plant with aut := after } (latchSetEvent (envOf s) q) := by
    rw [← posted]
    exact post_made (Evolves.refl.posted .status _) (latchSetEvent_evolves .refl)
  have status : madePost .status { s.plant with aut := after } (latchSetEvent (envOf s) q) := by
    rw [← posted]
    exact post_made .refl (latchSetEvent_evolves (Evolves.refl.posted .halt _))
  subst posted
  refine ⟨_, taken, rfl, set.aut, set.pvw, set.flt, halt, status, fun sound a => (set.axes sound a).trans ?_, set.mast, set.idle, set.record, set.pointing⟩
  have same : (axisOf (postHalt (envOf s) .stop .all (latchMastState s.plant.msq.state) (postStatus (envOf s) { s.plant with aut := after })) a).state
      = (axisOf s.plant a).state := by cases a <;> rfl
  rw [same]
  cases (axisOf s.plant a).state <;> rfl

/-- What a duplicate event does, by the condition and the latch it finds (R53, R49). -/
theorem duplicateEvent_taken (s : State) : duplicateTaken s { s with plant := duplicateEvent (envOf s) s.plant } := by
  refine ⟨rfl, fun held => if_pos held, fun none => ?_⟩
  have entered : duplicateEvent (envOf s) s.plant =
      if s.plant.aut.latch.isNone then latchSetEvent (envOf s) (enterDuplicate (envOf s) (latchMastState s.plant.msq.state) s.plant)
      else enterDuplicate (envOf s) s.plant.msq.state s.plant := if_neg (by simp [none])
  dsimp only
  rw [entered]
  cases latch : s.plant.aut.latch with
  | some cause =>
    simp only [Option.isNone_some, Bool.false_eq_true, if_false]
    exact ⟨rfl, rfl, rfl, fun _ => rfl, fun h => nomatch h⟩
  | none =>
    simp only [Option.isNone_none, if_true]
    have set := latchSetEvent_latchSet (envOf s) (enterDuplicate (envOf s) (latchMastState s.plant.msq.state) s.plant)
    refine ⟨set.aut, set.pvw, set.flt, fun h => (nomatch h), fun _ => ⟨?_, ?_, ?_, fun sound a => (set.axes sound a).trans ?_, set.mast, set.idle, set.record⟩⟩
    · rw [enterDuplicate, latchMastState_eq]
      rfl
    · exact post_made (p := { s.plant with aut := { s.plant.aut with duplicate := some s.clock, latch := some .duplicate } }) .refl
        (latchSetEvent_evolves (Evolves.refl.posted .status _))
    · exact post_made (p := { s.plant with aut := { s.plant.aut with duplicate := some s.clock, latch := some .duplicate } }) (Evolves.refl.posted .halt _)
        (latchSetEvent_evolves .refl)
    · cases a <;> rfl

/-- Settles O38: a status of the own mast and a notice of the own number both bring the duplicate event. -/
theorem aSecondPositionerSetsTheDuplicateCondition : Obligations.ASecondPositionerSetsTheDuplicateCondition := by
  refine ⟨fun s x rest arrivals kind => ?_, fun s f rec wf check own fits => ?_⟩
  · have head : headOf .positionerStatus s = some x := headOf_eq_some.2 ⟨rest, arrivals, kind⟩
    have taken (p : Plant) : applyHead p s = { s with arrivals := rest, plant := p } := by simp only [applyHead, arrivals, List.tail_cons]; rfl
    have next : exec .positionerStatus s =
        .next (applyHead (if (byteAt x.payload 0).toNat = s.setup.mastNumber then duplicateEvent (envOf s) s.plant else s.plant) s) := by
      simp only [exec, execPositionerStatus, head]
    refine ⟨fun other => ?_, fun same => ⟨_, next, ?_⟩⟩
    · rw [next, if_neg other, taken]
    · rw [if_pos same, taken]
      exact duplicateEvent_taken { s with arrivals := rest }
  · have judged : judgeNotice (envOf s) f = .ownNumber := if_pos ⟨own, fits⟩
    have taken : exec (.noticeArrival f) s = .next { s with line := endOfTail s.line, plant := duplicateEvent (envOf s) s.plant } := by
      rw [exec_noticeArrival rec wf check]
      simp only [actOnNotice, envOf] at judged ⊢
      rw [judged]
      rfl
    exact ⟨_, taken, duplicateEvent_taken { s with line := endOfTail s.line }⟩

end Sys2Proof.Machine
end

