-- ==== Sys2Proof/Proofs/LinkDwellMean.lean ====
section
/-! PROOFS. A dwell conversion (O41): the level into the ring, the N-th level's mean, and what PNT begins with that mean. -/

namespace Sys2Proof.Machine

/-! ### The ring (R64, R68) -/

/-- A ring whose first positions hold these levels, none yet written over, gives them newest first. -/
theorem lastLevels_eq {m : Sampler} {l : List Int} {rest : List (Option Int)} (ring : m.ring = l.map some ++ rest) (short : l.length ≤ 8)
    (next : m.next = if l.length = 8 then 1 else l.length + 1) : lastLevels m l.length = l.reverse := by
  refine List.ext_getElem (by simp [lastLevels]) fun i hi hr => ?_
  have low : i < l.length := by simpa [lastLevels] using hi
  have place : (m.next + 14 - i) % 8 = l.length - 1 - i := by
    rw [next]
    split <;> omega
  have back : l.length - 1 - i < l.length := by omega
  simp [lastLevels, place, ring, List.getElem?_append_left, back]

/-- The newest level of a dwell taken into the ring: the levels before it and it. -/
theorem lastLevels_ringWrite {m : Sampler} {levels : List Int} {level : Int} (eight : m.ring.length = 8) (short : levels.length ≤ 7)
    (held : m.ring.take levels.length = levels.map some) (next : m.next = levels.length + 1) :
    lastLevels (ringWrite level m) (levels.length + 1) = (levels ++ [level]).reverse := by
  have ring : (ringWrite level m).ring = (levels ++ [level]).map some ++ m.ring.drop (levels.length + 1) := by
    simp only [ringWrite, next, Nat.add_sub_cancel, List.set_eq_take_append_cons_drop]
    rw [if_pos (by omega), held]
    simp
  have place : (ringWrite level m).next = if (levels ++ [level]).length = 8 then 1 else (levels ++ [level]).length + 1 := by
    simp [ringWrite, next]
  have all := lastLevels_eq ring (by simp only [List.length_append, List.length_singleton]; omega) place
  simpa using all

theorem sumLevels_eq (l : List Int) : sumLevels l = l.sum := List.sum_eq_foldl.symm

/-! ### The conversion (R63, R65, R67) -/

section
variable {e : Env} {p : Plant}

/-- No watch acts on the channel (R72). -/
theorem runWatches_none {channel : Nat} (none : ∀ w ∈ (cfgOf e).watches, w.channel = channel → w.action = .none) (result : Count) :
    runWatches e channel result p = p := by
  have one (i : Nat) : runWatch e channel result i p = p := by
    unfold runWatch
    split
    · rename_i c w found _
      exact if_neg fun h => h.2 (none c (List.mem_of_getElem? found) h.1)
    · rfl
  simp only [runWatches, List.foldl_cons, List.foldl_nil, one]

/-- A pilot level below the floor, or with no sweep that hands, ends no sweep (R144). -/
theorem handLevel_kept {level : Int} (below : p.smp.sweepHanding = true → ∀ x, p.pat = some x → x.status = .running .sweep → level < (cfgOf e).floor) :
    handLevel e level p = p := by
  unfold handLevel sweepLevel
  split
  · rename_i handing
    split
    · rename_i x found
      exact if_neg fun h => absurd (below handing x found h.1) (Int.not_lt.2 h.2)
    · rfl
  · rfl

theorem scanRound_ne_nil (enabled : (cfgOf e).enabled ≠ 0) : scanRound e ≠ [] := by
  intro none
  refine enabled (BitVec.eq_of_getLsbD_eq fun i hi => ?_)
  have out := (List.filter_eq_nil_iff.1 none) i (List.mem_range.2 hi)
  simpa using out

/-- After a dwell conversion a scan conversion follows (R65). -/
theorem beginConversion_scan (enabled : (cfgOf e).enabled ≠ 0) (m : Sampler) :
    beginConversion e false m = { m with converter := some { channel := m.scanPointer, purpose := .scan }, scanPointer := nextChannel e m.scanPointer } :=
  if_neg (scanRound_ne_nil enabled)

/-- A dwell result on a pilot channel no watch acts on: the level placed, then handed to a sweep (R63, R67). -/
theorem dwellResult_pilot {identity : Nat} {result : Count} (localSource : (cfgOf e).source = .localSource)
    (none : ∀ w ∈ (cfgOf e).watches, w.channel = (cfgOf e).pilot → w.action = .none) :
    dwellResult e (cfgOf e).pilot identity result p = handLevel e (pilotLevel e result)
      (placeLevel e identity (pilotLevel e result) { p with smp := storeResult (cfgOf e).pilot result p.smp }) := by
  have pilot : isPilot e (cfgOf e).pilot = true := by simp [isPilot, linked, localSource]
  simp only [dwellResult, takeResult, runWatches_none none]
  exact if_pos pilot

/-- The level of the active dwell, of one since ended while another is active, and with none active (R67). -/
theorem placeLevel_same {d : Dwell} {identity : Nat} (active : p.smp.dwell = some d) (same : d.identity = identity) (level : Int) :
    placeLevel e identity level p = dwellLevel e d level p := by
  simp only [placeLevel, active]
  exact if_pos same

theorem placeLevel_other {d : Dwell} {identity : Nat} (active : p.smp.dwell = some d) (other : d.identity ≠ identity) (level : Int) :
    placeLevel e identity level p = p := by
  simp only [placeLevel, active]
  exact if_neg other

theorem placeLevel_free {identity : Nat} (free : p.smp.dwell = none) (level : Int) :
    placeLevel e identity level p = { p with smp := ringWrite level p.smp } := by
  simp only [placeLevel, free]
  rfl

/-- A level that does not fill its dwell: into the ring, and nothing else (R68). -/
theorem dwellLevel_short {d : Dwell} {level : Int} (short : (ringWrite level p.smp).count ≠ d.samples) :
    dwellLevel e d level p = { p with smp := ringWrite level p.smp } := if_neg short

/-- The level that fills its dwell: the dwell ended and its events listed, then the mean handed on (R68, R69). -/
theorem dwellLevel_full {d : Dwell} {level : Int} {levels : List Int} (eight : p.smp.ring.length = 8) (short : levels.length ≤ 7)
    (held : p.smp.ring.take levels.length = levels.map some) (samples : d.samples = levels.length + 1) (count : p.smp.count = levels.length)
    (next : p.smp.next = levels.length + 1) :
    dwellLevel e d level p = handMean e d.requester ((levels.sum + level + ((d.samples / 2 : Nat) : Int)) / (d.samples : Int))
      { p with smp := dwellFreed { ringWrite level p.smp with dwell := none } } := by
  have full : (ringWrite level p.smp).count = d.samples := by
    simp only [ringWrite, count, samples]
    exact if_pos (by omega)
  have sum : sumLevels (lastLevels (ringWrite level p.smp) d.samples) = levels.sum + level := by
    rw [samples, lastLevels_ringWrite eight short held next, sumLevels_eq, List.sum_reverse, List.sum_append, List.sum_singleton]
  refine (if_pos full).trans ?_
  rw [sum, meanOf]

end

/-- A dwell conversion on the pilot channel: the result taken, then the next conversion begun. -/
theorem exec_dwellConversion {s : State} {identity : Nat} {result : Count}
    (converter : s.plant.smp.converter = some { channel := s.setup.cfg.pilot, purpose := .dwell identity }) (localSource : s.setup.cfg.source = .localSource)
    (none : ∀ w ∈ s.setup.cfg.watches, w.channel = s.setup.cfg.pilot → w.action = .none) (enabled : s.setup.cfg.enabled ≠ 0) {q : Plant}
    (taken : handLevel (envOf s) (pilotLevel (envOf s) result)
      (placeLevel (envOf s) identity (pilotLevel (envOf s) result) { s.plant with smp := storeResult s.setup.cfg.pilot result s.plant.smp }) = q) :
    exec (.dwellConversionComplete result) s = .next (withPlant { q with smp := { q.smp with
      converter := some { channel := q.smp.scanPointer, purpose := .scan }, scanPointer := nextChannel (envOf s) q.smp.scanPointer } } s) := by
  have served : dwellResult (envOf s) s.setup.cfg.pilot identity result s.plant = q := (dwellResult_pilot (e := envOf s) localSource none).trans taken
  simp only [exec, execDwellConversionComplete, converter, served]
  rw [withSampler, beginConversion_scan (e := envOf s) enabled]

end Sys2Proof.Machine
end

