-- ==== Sys2Proof/Proofs/LinkPresetMean.lean ====
section
/-! PROOFS. What PNT begins with the mean of its PRESET measurement (R128): a peaking run (R150) or the pattern (R136), HELD with a need
missing (R130); and the statement of the dwell conversion (O41). -/

namespace Sys2Proof.Machine

/-- With PAN and TILT free to move, a cancellation finds no move on them to end (R81). -/
theorem cancelMoves_rest {e : Env} {p : Plant} {x : HeadPoint} (q : Requester) (may : mayMoveToPoint e p x) : cancelMoves e q pointAxes p = p := by
  obtain ⟨-, ⟨-, pan, -⟩, ⟨-, tilt, -⟩⟩ := may
  refine endMoves_of_ended (fun a m => ?_) _
  simp only [pointAxes, List.mem_cons, List.not_mem_nil, or_false] at m
  rcases m with rfl | rfl
  · rw [pan]; rfl
  · rw [tilt]; rfl

/-- The needs of ACQUIRING and PEAKING (R130). -/
theorem needsMet_iff {e : Env} {p : Plant} {x : Activity} (activity : x = .peaking ∨ x = .acquiring .search) : needsMet e p x = true ↔ activityMay e p := by
  have level : (!linked e || given p .levelOk) = true ↔ ((cfgOf e).source = .linked → given p .levelOk = true) := by
    by_cases h : (cfgOf e).source = .linked <;> simp [linked, h]
  rcases activity with rfl | rfl <;> simp only [needsMet, Bool.and_eq_true, level, activityMay]

/-! ### The run (R150, R151) -/

/-- A run begun with PAN and TILT free to move: on its way to its centre, pointing's state kept, no DWELL_REPORT posted. -/
theorem startRun_begun {e : Env} {centre : HeadPoint} {delta : Nat} {p : Plant} (may : mayMoveToPoint e p centre) :
    runBegun e centre delta (startRun e centre delta p) ∧ (startRun e centre delta p).pnt.state = p.pnt.state ∧ noPostOf .dwell p (startRun e centre delta p) := by
  generalize begun : ({ withRecord (fun x => { x with roundCount := 0 }) (discardRun e p) with
    run := { Run.cold with status := .running .toPoint, centre := centre, delta := some delta } } : Plant) = r
  have target : runTarget .toPoint r.run = centre := by rw [← begun]; rfl
  obtain ⟨smp, dwell⟩ := cancelDwell_rest .pke p
  have discarded : discardRun e p = { p with smp := smp, run := .cold, monitor := .cold } := by
    rw [discardRun, cancelMoves_rest .pke may, dwell]
    rfl
  have kept : r.posts = p.posts ∧ r.pnt.state = p.pnt.state := by
    rw [← begun, discarded]
    exact ⟨rfl, rfl⟩
  have mayGo : mayMoveToPoint e r (runTarget .toPoint r.run) := by
    rw [target, ← begun, discarded]
    exact may
  have opened : startRun e centre delta p = runJobs e (16 * ((cfgOf e).roundLimit + 1) + 7 + 1) (.go .toPoint) r := by rw [← begun]; rfl
  obtain ⟨move, -, -, posts, axd, gone⟩ := runJobs_go (n := 16 * ((cfgOf e).roundLimit + 1) + 7) mayGo
  rw [opened]
  refine ⟨?_, ?_, fun P hP h => ?_⟩
  · rw [target] at move
    unfold runBegun
    refine ⟨?_, ?_, ?_, ?_, ?_, ?_, ?_, move⟩ <;> rw [gone, ← begun] <;> rfl
  · rw [gone]
    exact kept.2
  · exact runJobs_go_noDwellReply (fun k t x y dwell _ => hP k t x y dwell) mayGo (kept.1 ▸ h)

/-- A run suspended while it moves to a point (R156). -/
theorem suspendRun_running {e : Env} {p : Plant} {st : RunStage} (running : p.run.status = .running st) :
    (suspendRun e p).run.status = .suspended st ∧ (suspendRun e p).pnt = p.pnt := by
  obtain ⟨posts, axd, smp, work, -⟩ := cancelWork_rest e .pke pointAxes p
  have opened : suspendRun e p = updateRun (fun r => { r with status := .suspended st, moveList := [], measurement := .blank })
      (cancelDwell .pke (cancelMoves e .pke pointAxes p)) := by
    unfold suspendRun
    rw [running]
  rw [opened, work]
  exact ⟨rfl, rfl⟩

/-! ### The pattern (R136) -/

/-- The pattern `startPattern` writes, before its first move. -/
def writtenPattern (e : Env) (origin : HeadPoint) : Pattern :=
  { status := .running .toPoint, origin := origin, sigma := (cfgOf e).sigma, rows := (cfgOf e).rows, points := (cfgOf e).points, passes := (cfgOf e).passes,
    mode := effectiveMode e, row := 1, point := 1, pass := 1, targets := origin, moveList := [], blocked := false, barred := false, measurement := .blank,
    found := none }

/-- Point 1 of row 1: the row through the origin, half a row before it (R138). -/
theorem patternTarget_first (e : Env) (origin : HeadPoint) :
    patternTarget (writtenPattern e origin) 1 = { origin with pan := origin.pan - (((cfgOf e).sigma * (((cfgOf e).points - 1) / 2) : Nat) : Int) } := by
  simp [patternTarget, writtenPattern, pointOffset, rowOffset, Int.sub_eq_add_neg]

theorem moveStage_written (e : Env) (origin : HeadPoint) :
    moveStage (writtenPattern e origin) = if (cfgOf e).source = .linked ∨ (cfgOf e).mode = .step then .toPoint else .toRowStart := by
  simp only [moveStage, writtenPattern, effectiveMode, linked, decide_eq_true_eq]
  by_cases source : (cfgOf e).source = .linked
  · simp [source]
  · cases mode : (cfgOf e).mode <;> simp [source]

/-- SWEEP_DEGRADED, when the pattern is SWEEP and the source LINKED (R136). -/
def degradedPosted (e : Env) (origin : HeadPoint) (p : Plant) : Plant :=
  if linked e ∧ (cfgOf e).mode = .sweep then postDwell e .sweepDegraded origin.pan origin.tilt levelMin p else p

/-- A pattern begun, both requests of its first move accepted. -/
theorem startPattern_begun {e : Env} {origin : HeadPoint} {p : Plant} (may : mayMoveToPoint e p (patternTarget (writtenPattern e origin) 1)) :
    moveToPoint .pat e (startPattern e origin p) (patternTarget (writtenPattern e origin) 1) ∧ (startPattern e origin p).pnt = p.pnt ∧
      (startPattern e origin p).pat = some { writtenPattern e origin with
        status := .running (moveStage (writtenPattern e origin)), targets := clampPoint e (patternTarget (writtenPattern e origin) 1), moveList := [.pan, .tilt] } ∧
      noPostOf .dwell (degradedPosted e origin p) (startPattern e origin p) := by
  generalize written : degradedPosted e origin { p with pat := some (writtenPattern e origin) } = r
  have fields : r.pat = some (writtenPattern e origin) ∧ r.pnt = p.pnt ∧ r.aut = p.aut ∧ r.axd = p.axd ∧ r.posts = (degradedPosted e origin p).posts := by
    rw [← written]
    unfold degradedPosted
    split <;> exact ⟨rfl, rfl, rfl, rfl, rfl⟩
  obtain ⟨pat, pnt, aut, axd, posts⟩ := fields
  have mayGo : mayMoveToPoint e r (patternTarget (writtenPattern e origin) (writtenPattern e origin).point) := by
    have axis (a : Axis) : axisOf r a = axisOf p a := axisOf_congr (congrArg Drives.axes axd) a
    have free : headFree e r = headFree e p := headFree_position (congrArg AxisRec.position (axis .mast))
    obtain ⟨sound, pan, tilt⟩ := may
    refine ⟨?_, mayMoveTo_kept pan aut (axis .pan) free, mayMoveTo_kept tilt aut (axis .tilt) free⟩
    simp only [arbiterSound, axis, axd] at sound ⊢
    exact sound
  have opened : startPattern e origin p = patternJobs e (4 * (cfgOf e).passes * (cfgOf e).rows * ((cfgOf e).points + 1) + 7 + 1) .go r := by
    rw [← written]
    rfl
  obtain ⟨move, -, -, _, _, gone⟩ := patternJobs_go (n := 4 * (cfgOf e).passes * (cfgOf e).rows * ((cfgOf e).points + 1) + 7) pat mayGo
  rw [opened]
  refine ⟨move, ?_, ?_, fun P hP h => ?_⟩
  · rw [gone]
    exact pnt
  · rw [gone]
    rfl
  · exact patternJobs_go_noDwellReply (fun k t x y dwell _ => hP k t x y dwell) pat mayGo (posts ▸ h)

/-- A pattern suspended in any stage (R147). -/
theorem suspendPattern_running {e : Env} {p : Plant} {x : Pattern} {st : PatternStage} (pat : p.pat = some x) (running : x.status = .running st) :
    (suspendPattern e p).pat = some { x with status := .suspended st, moveList := [], measurement := .blank } ∧ (suspendPattern e p).pnt = p.pnt := by
  obtain ⟨posts, axd, smp, work, -⟩ := cancelWork_rest e .pat pointAxes p
  have opened : suspendPattern e p = updatePattern (fun y => { y with status := .suspended st, moveList := [], measurement := .blank }) (stopPattern e p) := by
    unfold suspendPattern
    rw [pat]
    dsimp only
    rw [running]
  rw [opened, stopPattern, work]
  exact ⟨congrArg (Option.map _) pat, rfl⟩

/-! ### The mean taken in phase MEASURE (R128) -/

section
variable {e : Env} {p : Plant} {x : HeadPoint}

/-- A state set moves no axis. -/
theorem mayMoveToPoint_setPointing (st : PointState) (may : mayMoveToPoint e p x) : mayMoveToPoint e (setPointing e st p) x := by
  obtain ⟨posts, set⟩ := setPointing_rest e st p
  rw [set]
  exact may

theorem setPointing_state (e : Env) (st : PointState) (p : Plant) : (setPointing e st p).pnt.state = st := by
  obtain ⟨posts, set⟩ := setPointing_rest e st p
  rw [set]

theorem noPostOf.trans {k : PostKey} {q r : Plant} (h : noPostOf k p q) (g : noPostOf k q r) : noPostOf k p r := fun P hP start => g P hP (h P hP start)

theorem setPointing_noDwell (st : PointState) : noPostOf .dwell p (setPointing e st p) :=
  fun _ hP h => setPointing_noDwellReply (fun k t x y dwell _ => hP k t x y dwell) e st h

theorem suspendRun_noDwell : noPostOf .dwell p (suspendRun e p) :=
  fun _ hP h => suspendRun_noDwellReply (fun k t x y dwell _ => hP k t x y dwell) e h

theorem suspendPattern_noDwell : noPostOf .dwell p (suspendPattern e p) :=
  fun _ hP h => suspendPattern_noDwellReply (fun k t x y dwell _ => hP k t x y dwell) e h

/-- PEAKING entered with PAN and TILT at rest (R150, R130). -/
theorem enterPeaking_begun {delta : Nat} (may : mayMoveToPoint e p x) :
    noPostOf .dwell p (enterPeaking e x delta p) ∧
      (activityMay e p → (enterPeaking e x delta p).pnt.state = .active .peaking ∧ runBegun e x delta (enterPeaking e x delta p)) ∧
      (¬ activityMay e p → (enterPeaking e x delta p).pnt.state = .held .peaking (holdCauseNow p) ∧ (enterPeaking e x delta p).run.status = .suspended .toPoint) := by
  have begun (st : PointState) := startRun_begun (delta := delta) (mayMoveToPoint_setPointing st may)
  by_cases needs : activityMay e p
  · have opened : enterPeaking e x delta p = startRun e x delta (setPointing e (.active .peaking) p) := if_pos ((needsMet_iff (Or.inl rfl)).2 needs)
    obtain ⟨run, state, posts⟩ := begun (.active .peaking)
    rw [opened]
    exact ⟨(setPointing_noDwell _).trans posts, fun _ => ⟨state.trans (setPointing_state ..), run⟩, fun h => absurd needs h⟩
  · have opened : enterPeaking e x delta p = suspendRun e (startRun e x delta (setPointing e (.held .peaking (holdCauseNow p)) p)) :=
      if_neg fun h => needs ((needsMet_iff (Or.inl rfl)).1 h)
    obtain ⟨run, state, posts⟩ := begun (.held .peaking (holdCauseNow p))
    obtain ⟨suspended, pnt⟩ := suspendRun_running (e := e) run.1
    rw [opened]
    exact ⟨((setPointing_noDwell _).trans posts).trans suspendRun_noDwell, fun h => absurd h needs,
      fun _ => ⟨(congrArg Pointing.state pnt).trans (state.trans (setPointing_state ..)), suspended⟩⟩

/-- The first point of the pattern a search begins from the pointing position. -/
def searchFirst (e : Env) (p : Plant) : HeadPoint := patternTarget (writtenPattern e (pointingPoint e p)) 1

/-- The pattern of a search at its first point, in this status. -/
def searchPattern (e : Env) (p : Plant) (status : PatternStatus) (moveList : List Axis) : Pattern :=
  { writtenPattern e (pointingPoint e p) with status := status, targets := clampPoint e (searchFirst e p), moveList := moveList }

/-- The stage in which a pattern moves to its first point. -/
def searchStage (e : Env) : PatternStage := if (cfgOf e).source = .linked ∨ (cfgOf e).mode = .step then .toPoint else .toRowStart

/-- The search entered with PAN and TILT at rest (R136, R130): the pattern on its way to its first point, or suspended before it. -/
theorem enterSearch_begun (may : mayMoveToPoint e p (searchFirst e p)) :
    (activityMay e p → (enterSearch e p).pnt.state = .active (.acquiring .search) ∧ moveToPoint .pat e (enterSearch e p) (searchFirst e p) ∧
      (enterSearch e p).pat = some (searchPattern e p (.running (searchStage e)) [.pan, .tilt])) ∧
    (¬ activityMay e p → (enterSearch e p).pnt.state = .held (.acquiring .search) (holdCauseNow p) ∧
      (enterSearch e p).pat = some (searchPattern e p (.suspended (searchStage e)) [])) ∧
    ∃ st, noPostOf .dwell (degradedPosted e (pointingPoint e p) (setPointing e st p)) (enterSearch e p) := by
  have begun (st : PointState) := startPattern_begun (mayMoveToPoint_setPointing st may)
  simp only [moveStage_written] at begun
  by_cases needs : activityMay e p
  · have opened : enterSearch e p = startPattern e (pointingPoint e p) (setPointing e (.active (.acquiring .search)) p) :=
      if_pos ((needsMet_iff (Or.inr rfl)).2 needs)
    obtain ⟨move, pnt, pat, posts⟩ := begun (.active (.acquiring .search))
    rw [opened]
    exact ⟨fun _ => ⟨(congrArg Pointing.state pnt).trans (setPointing_state ..), move, pat⟩, fun h => absurd needs h, _, posts⟩
  · have opened : enterSearch e p =
        suspendPattern e (startPattern e (pointingPoint e p) (setPointing e (.held (.acquiring .search) (holdCauseNow p)) p)) :=
      if_neg fun h => needs ((needsMet_iff (Or.inr rfl)).1 h)
    obtain ⟨-, pnt, pat, posts⟩ := begun (.held (.acquiring .search) (holdCauseNow p))
    obtain ⟨suspended, kept⟩ := suspendPattern_running (e := e) pat rfl
    rw [opened]
    exact ⟨fun h => absurd h needs, fun _ => ⟨(congrArg Pointing.state (kept.trans pnt)).trans (setPointing_state ..), suspended⟩, _,
      posts.trans suspendPattern_noDwell⟩

theorem presetMean_measure {level : Int} (phase : p.pnt.state = .active (.slewing .measure)) : presetMean e level p = presetMeasured e level p := by
  unfold presetMean
  rw [phase]

theorem presetMean_other {level : Int} (other : p.pnt.state ≠ .active (.slewing .measure)) : presetMean e level p = p := by
  unfold presetMean
  split
  · exact absurd ‹_› other
  · rfl

/-- A mean at or above the floor: PRESET posted, PEAKING entered from the pointing position (R128, R150). -/
theorem presetMeasured_high {level : Int} (high : (cfgOf e).floor ≤ level) :
    presetMeasured e level p = enterPeaking e (pointingPoint e p) (cfgOf e).delta0 (postDwellHere e .preset level p) := if_pos high

/-- A mean below it: PRESET posted, the search entered (R128, R136). -/
theorem presetMeasured_low {level : Int} (low : level < (cfgOf e).floor) : presetMeasured e level p = enterSearch e (postDwellHere e .preset level p) :=
  if_neg (Int.not_le.2 low)

/-- The DWELL_REPORT a search leaves in the queue: SWEEP_DEGRADED where one is posted, else the PRESET before it (R17, R136). -/
theorem presetMeasured_searchPost {level : Int} (low : level < (cfgOf e).floor) (may : mayMoveToPoint e p (searchFirst e p)) :
    if (cfgOf e).source = .linked ∧ (cfgOf e).mode = .sweep
      then postedWith .dwell (dwellPayload .sweepDegraded (pointingPoint e p).pan (pointingPoint e p).tilt levelMin) p (presetMeasured e level p)
      else dwellPosted .preset level p (presetMeasured e level p) := by
  obtain ⟨-, -, st, posts⟩ := enterSearch_begun (p := postDwellHere e .preset level p) may
  rw [presetMeasured_low low]
  unfold degradedPosted at posts
  simp only [linked, decide_eq_true_eq] at posts
  split <;> rename_i degraded
  · rw [if_pos degraded] at posts
    exact post_payload (setPointing_evolves (Evolves.refl.posted _ _) st) posts
  · rw [if_neg degraded] at posts
    exact post_payload .refl ((setPointing_noDwell st).trans posts)

end

/-! ### The statement -/

/-- Settles O41: the four places of a level by `placeLevel`, and PNT's mean by `presetMeasured` in phase MEASURE alone. -/
theorem aDwellCollectsItsSamplesAndHandsTheirMean : Obligations.ADwellCollectsItsSamplesAndHandsTheirMean := by
  refine ⟨fun s identity result converter localSource enabled below none => ?_, fun e level p => ⟨fun other => ?_, fun phase high may => ?_, fun phase low may => ?_⟩⟩
  · generalize stored : ({ s.plant with smp := storeResult s.setup.cfg.pilot result s.plant.smp } : Plant) = p
    have smp : p.smp = storeResult s.setup.cfg.pilot result s.plant.smp := by rw [← stored]
    have step {q : Plant} (placed : placeLevel (envOf s) identity (pilotLevel (envOf s) result) p = q)
        (kept : handLevel (envOf s) (pilotLevel (envOf s) result) q = q) :=
      exec_dwellConversion converter localSource none enabled ((congrArg _ (stored ▸ placed)).trans kept)
    have keeps {m : Sampler} (handing : m.sweepHanding = s.plant.smp.sweepHanding) :
        handLevel (envOf s) (pilotLevel (envOf s) result) { p with smp := m } = { p with smp := m } :=
      handLevel_kept (by rw [← stored, handing]; exact below)
    refine ⟨fun d active same room short => ?_, fun d levels active same eight held few samples count next quiet => ?_,
      fun free => ?_, fun d active other => ?_⟩
    · have placed := (placeLevel_same (e := envOf s) (p := p) (by rw [smp]; exact active) same (pilotLevel (envOf s) result)).trans
        (dwellLevel_short (by rw [smp]; exact fun h => short ((if_pos room).symm.trans h)))
      refine (step placed (keeps (by rw [smp]; rfl))).trans ?_
      rw [← stored]
      rfl
    · have placed := (placeLevel_same (e := envOf s) (p := p) (by rw [smp]; exact active) same (pilotLevel (envOf s) result)).trans
        (dwellLevel_full (by rw [smp]; exact eight) few (by rw [smp]; exact held) samples (by rw [smp]; exact count) (by rw [smp]; exact next))
      subst stored
      exact step placed (handLevel_kept fun on => absurd (quiet.symm.trans on) Bool.false_ne_true)
    · refine (step (placeLevel_free (e := envOf s) (p := p) (by rw [smp]; exact free) _) (keeps (by rw [smp]; rfl))).trans ?_
      rw [← stored]
      rfl
    · refine (step (placeLevel_other (e := envOf s) (p := p) (by rw [smp]; exact active) other _) (keeps (m := p.smp) (by rw [smp]; rfl))).trans ?_
      rw [← stored]
      rfl
  · exact presetMean_other other
  · have taken : handMean e .pnt level p = _ := (presetMean_measure phase).trans (presetMeasured_high high)
    obtain ⟨posts, active, held⟩ := enterPeaking_begun (delta := (cfgOf e).delta0) (p := postDwellHere e .preset level p) (x := pointingPoint e p) may
    simp only [taken]
    exact ⟨post_payload .refl posts, active, held⟩
  · have taken : handMean e .pnt level p = _ := presetMean_measure phase
    have first : mayMoveToPoint e p (searchFirst e p) := by
      rw [searchFirst, patternTarget_first]
      exact may
    have post := presetMeasured_searchPost low first
    obtain ⟨active, held, -⟩ := enterSearch_begun (p := postDwellHere e .preset level p) first
    rw [presetMeasured_low low] at taken post
    simp only [taken]
    refine ⟨post, ?_⟩
    by_cases needs : activityMay e p
    · obtain ⟨state, move, pat⟩ := active needs
      refine ⟨_, pat, rfl, rfl, rfl, rfl, rfl, rfl, rfl, rfl, rfl, fun _ => ⟨state, ?_, rfl⟩, fun h => absurd needs h⟩
      rw [searchFirst, patternTarget_first] at move
      exact move
    · obtain ⟨state, pat⟩ := held needs
      exact ⟨_, pat, rfl, rfl, rfl, rfl, rfl, rfl, rfl, rfl, rfl, fun h => absurd h needs, fun _ => ⟨state, rfl⟩⟩

end Sys2Proof.Machine
end

