-- ==== Sys2Proof/Proofs/StartQuiet.lean ====
section
/-! PROOFS. What a step can do to a part that does not run, said once for every command: until the start sequence nothing, and in
SAFE nothing beyond LNK, DEC, AUT, the posts, the mast state and the readings (O3). -/

namespace Sys2Proof.Machine

/-! ### A plant whose blocks have not run -/

/-- No role has been heard. -/
structure Unheard (v : PeerView) : Prop where
  vehicle : v.vehicle.state ≠ some .fresh
  wind : v.wind.state ≠ some .fresh
  clearance : v.clearance.state ≠ some .fresh
  level : v.level.state ≠ some .fresh

theorem expired_unheard {α : Type} {x : PeerEntry α} (h : x.state ≠ some .fresh) (now : Stamp) (limit : Nat) : expired now limit x = false := by
  unfold expired
  split
  · exact absurd ‹x.state = some .fresh› h
  · rfl

theorem expiryDue_unheard {p : Plant} (h : Unheard p.pvw) (e : Env) (r : Role) : expiryDue e p r = false := by
  cases r
  · exact expired_unheard h.vehicle _ _
  · exact expired_unheard h.wind _ _
  · exact expired_unheard h.clearance _ _
  · exact expired_unheard h.level _ _

theorem boundView_unheard (e : Env) : Unheard (boundView e) := by
  constructor <;> dsimp only [boundView] <;> split <;> simp

/-- Nothing has happened in the blocks that run but the reading of their sensors: what SAFE keeps and every start finds (R25, R26). -/
structure Asleep (p : Plant) : Prop where
  axes : ∀ a, axisCold (axisOf p a) = true
  grants : p.axd.grants = []
  waiting : p.axd.waiting = []
  smp : p.smp = .cold
  watches : p.watches = List.replicate 6 .cold
  flt : p.flt = .cold
  pnt : p.pnt = .cold
  pat : p.pat = none
  run : p.run = .cold
  monitor : p.monitor = .cold
  round : p.aut.round = []
  unheard : Unheard p.pvw

theorem forall_axes_iff {P : Axis → Bool} : allAxes.all P = true ↔ ∀ a, P a = true :=
  List.all_eq_true.trans ⟨fun h a => h a (by cases a <;> decide), fun h a _ => h a⟩

theorem dormant_iff {p : Plant} : dormant p = true ↔ Asleep p ∧ p.pvw = .cold := by
  simp only [dormant, Bool.and_eq_true, decide_eq_true_eq, forall_axes_iff]
  constructor
  · rintro ⟨⟨⟨⟨⟨⟨⟨⟨⟨⟨⟨axes, grants⟩, waiting⟩, smp⟩, watches⟩, flt⟩, pnt⟩, pat⟩, run⟩, monitor⟩, round⟩, pvw⟩
    exact ⟨⟨axes, grants, waiting, smp, watches, flt, pnt, pat, run, monitor, round, pvw ▸ by constructor <;> simp [PeerView.cold, PeerEntry.unbound]⟩, pvw⟩
  · rintro ⟨⟨axes, grants, waiting, smp, watches, flt, pnt, pat, run, monitor, round, -⟩, pvw⟩
    exact ⟨⟨⟨⟨⟨⟨⟨⟨⟨⟨⟨axes, grants⟩, waiting⟩, smp⟩, watches⟩, flt⟩, pnt⟩, pat⟩, run⟩, monitor⟩, round⟩, pvw⟩

theorem axisCold_iff {r : AxisRec} : axisCold r = true ↔ r = { AxisRec.cold with position := r.position, sensorValid := r.sensorValid } := decide_eq_true_iff

/-- What an axis record at rest since the cold start never has. -/
theorem axisCold_rest {r : AxisRec} (h : axisCold r = true) : r.state = .idle ∧ r.stallDue = false ∧ r.freed = [] ∧ r.reportStart = none := by
  rw [axisCold_iff.1 h]
  exact ⟨rfl, rfl, rfl, rfl⟩

/-- The plant from the cold start on, but for a peer view that the load may have bound. -/
theorem asleep_cold {v : PeerView} (h : Unheard v) : Asleep { Plant.cold with pvw := v } :=
  ⟨fun a => by cases a <;> rfl, rfl, rfl, rfl, rfl, rfl, rfl, rfl, rfl, rfl, rfl, h⟩

/-! ### What AUT does in SAFE -/

/-- Posts, AUT but for its round, and the mast state: what may change while the blocks stay as they are. -/
def OnlyAut (p q : Plant) : Prop := ∃ posts aut msq, q = { p with posts := posts, aut := aut, msq := msq } ∧ aut.round = p.aut.round

theorem OnlyAut.refl (p : Plant) : OnlyAut p p := ⟨_, _, _, rfl, rfl⟩

theorem OnlyAut.trans {p q r : Plant} (h : OnlyAut p q) (g : OnlyAut q r) : OnlyAut p r := by
  obtain ⟨_, _, _, rfl, hr⟩ := h
  obtain ⟨_, _, _, rfl, gr⟩ := g
  exact ⟨_, _, _, rfl, gr.trans hr⟩

theorem OnlyAut.post (e : Env) (k : PostKey) (x : List Byte) (p : Plant) : OnlyAut p (post e k x p) := ⟨_, _, _, rfl, rfl⟩

theorem OnlyAut.authority {p : Plant} {aut : Authority} (round : aut.round = p.aut.round) : OnlyAut p { p with aut := aut } := ⟨_, _, _, rfl, round⟩

theorem OnlyAut.dormant {p q : Plant} (h : OnlyAut p q) (d : dormant p = true) : dormant q = true := by
  obtain ⟨_, _, _, rfl, round⟩ := h
  unfold Machine.dormant at d ⊢
  rw [round]
  exact d

/-- The latch-set event finds no move and no pointing to end in a dormant plant. -/
theorem latchSetEvent_dormant (e : Env) {p : Plant} (d : dormant p = true) : OnlyAut p (latchSetEvent e p) := by
  obtain ⟨asleep, -⟩ := dormant_iff.1 d
  have axes : latchAxes e p = p := endMoves_of_ended (fun a _ => by rw [(axisCold_rest (asleep.axes a)).1]; rfl) _
  obtain ⟨posts, mast⟩ := setMast_latch e p.msq.state p
  have opened : latchSetEvent e p = haltPointing e (.aborted .stop) { p with posts := posts, msq := { p.msq with state := latchMastState p.msq.state } } := by
    rw [latchSetEvent, axes, mast]
  refine ⟨posts, p.aut, { p.msq with state := latchMastState p.msq.state }, opened.trans ?_, rfl⟩
  unfold haltPointing
  rw [asleep.pnt]
  rfl

theorem stopArrival_dormant (e : Env) (source : Nat) (stamp : Stamp) {p : Plant} (d : dormant p = true) : OnlyAut p (stopArrival e source stamp p) := by
  have latched (b : Bool) : OnlyAut p (postStatusIf b e { p with aut := { p.aut with window := some stamp, latch := some (stopCause source p) } }) := by
    cases b
    · exact .authority rfl
    · exact .trans (.authority rfl) (.post e _ _ _)
  unfold stopArrival
  dsimp only
  split
  · have halted (x : List Byte) := (latched (decide (p.aut.latch ≠ some (stopCause source p)))).trans (.post e .halt x _)
    exact (halted _).trans (latchSetEvent_dormant e ((halted _).dormant d))
  · exact latched _

theorem duplicateEvent_dormant (e : Env) {p : Plant} (d : dormant p = true) : OnlyAut p (duplicateEvent e p) := by
  have entered (m : MastState) : OnlyAut p (enterDuplicate e m p) :=
    .trans (.authority rfl) (.trans (.post e _ _ { p with aut := { p.aut with duplicate := some e.clock, latch := some .duplicate } }) (.post e _ _ _))
  unfold duplicateEvent
  split
  · exact .authority rfl
  · split
    · exact (entered _).trans (latchSetEvent_dormant e ((entered _).dormant d))
    · exact entered _

/-- In SAFE every command is refused with CONFIG: its owner never sees it, and the REPLY is all it leaves (R25, R56 check 1). -/
theorem judge_safe {e : Env} (safe : isSafe e = true) (c : CommandCode) (owner : Env → ArrivalEntry → Plant → Plant × Verdict) (x : ArrivalEntry) (p : Plant) :
    judge e c owner x p = (p, refuse .config (configCause e)) :=
  judge_refused owner (if_pos safe)

theorem commandDone_safe {e : Env} (safe : isSafe e = true) (c : CommandCode) (owner : Env → ArrivalEntry → Plant → Plant × Verdict) (x : ArrivalEntry)
    (p : Plant) : OnlyAut p (commandDone e c owner x p) := by
  unfold commandDone
  rw [judge_safe safe]
  exact .trans (.authority rfl) (.post e _ _ _)

theorem aimDone_safe {e : Env} (safe : isSafe e = true) (x : ArrivalEntry) (p : Plant) : OnlyAut p (aimDone e x p) := by
  unfold aimDone
  rw [judge_safe safe]
  exact commandDone_safe safe _ _ _ _

/-! ### The part before it runs -/

/-- The part before its start sequence: nothing has come to it, and the load has at most bound the roles. -/
structure Unstarted (s : State) : Prop where
  phase : s.setup.phase = .reset ∨ s.setup.phase = .loading ∨ s.setup.phase = .loaded
  arrivals : s.arrivals = []
  line : s.line = .cold
  plant : ∃ v, s.plant = { Plant.cold with pvw := v } ∧ Unheard v

/-- The part in SAFE. -/
structure InSafe (s : State) : Prop where
  phase : s.setup.phase = .safe
  dormant : dormant s.plant = true
  arrivals : noRoleWaits s.arrivals = true

/-- The three ways to be quiet. -/
theorem quiet_cases {s : State} (h : quiet s = true) : s.setup.phase = .running ∨ Unstarted s ∨ InSafe s := by
  have bare : Unheard PeerView.cold := by constructor <;> simp [PeerView.cold, PeerEntry.unbound]
  unfold quiet at h
  split at h
  case h_1 phase | h_2 phase =>
    simp only [Bool.and_eq_true, decide_eq_true_eq] at h
    exact .inr (.inl ⟨by simp [phase], h.1.1, h.1.2, _, h.2, bare⟩)
  case h_3 phase =>
    simp only [Bool.and_eq_true, decide_eq_true_eq] at h
    exact .inr (.inl ⟨by simp [phase], h.1.1, h.1.2, _, h.2, boundView_unheard _⟩)
  case h_4 phase =>
    rw [Bool.and_eq_true] at h
    exact .inr (.inr ⟨phase, h.1, h.2⟩)
  case h_5 phase => exact .inl phase

theorem quiet_running {s : State} (h : s.setup.phase = .running) : quiet s = true := by simp [quiet, h]

theorem InSafe.quiet {s : State} (h : InSafe s) : quiet s = true := by simp [Machine.quiet, h.phase, h.dormant, h.arrivals]

section
variable {s t : State}

theorem Unstarted.asleep (h : Unstarted s) : Asleep s.plant := by
  obtain ⟨v, plant, heard⟩ := h.plant
  rw [plant]
  exact asleep_cold heard

theorem Unstarted.not_watching (h : Unstarted s) : watching s = false := by
  rcases h.phase with phase | phase | phase <;> simp [watching, phase]

theorem Unstarted.not_safe (h : Unstarted s) : isSafe (envOf s) = false := by
  rcases h.phase with phase | phase | phase <;> simp [isSafe, envOf, phase]

theorem Unstarted.posts (h : Unstarted s) : sendingEntry s.plant.posts = none := by
  obtain ⟨v, plant, -⟩ := h.plant
  rw [plant]
  rfl

theorem Unstarted.aut (h : Unstarted s) : s.plant.aut = .cold := by
  obtain ⟨v, plant, -⟩ := h.plant
  rw [plant]
  rfl

theorem Unstarted.head (h : Unstarted s) (k : ArrivalKind) : headOf k s = none := by rw [headOf, h.arrivals]

theorem InSafe.safe (h : InSafe s) : isSafe (envOf s) = true := decide_eq_true h.phase

/-- No role notice is at the head in SAFE. -/
theorem InSafe.head (h : InSafe s) (r : Role) : headOf (.role r) s = none := by
  rw [Option.eq_none_iff_forall_ne_some]
  intro x found
  obtain ⟨rest, arrivals, kind⟩ := headOf_eq_some.1 found
  have none := h.arrivals
  rw [arrivals] at none
  simp [noRoleWaits, kind] at none

theorem noRoleWaits_tail {l : List ArrivalEntry} (h : noRoleWaits l = true) : noRoleWaits l.tail = true := by
  cases l with
  | nil => rfl
  | cons x l =>
    unfold noRoleWaits at h ⊢
    rw [List.all_cons, Bool.and_eq_true] at h
    exact h.2

/-! ### The effects of a step -/

/-- What a command does to a part that does not run: before the start sequence nothing at all, and it leaves SAFE as SAFE has it. -/
structure Still (s t : State) : Prop where
  setup : t.setup = s.setup
  unstarted : Unstarted s → t = s
  safe : InSafe s → InSafe t

theorem Still.refl (s : State) : Still s s := ⟨rfl, fun _ => rfl, id⟩

theorem Still.quiet (h : Still s t) (q : quiet s = true) : quiet t = true := by
  rcases quiet_cases q with phase | before | safe
  · exact quiet_running (h.setup ▸ phase)
  · rw [h.unstarted before]
    exact q
  · exact (h.safe safe).quiet

/-- What only blocks that run can do. -/
theorem still_awake (setup : t.setup = s.setup) (awake : ¬ Asleep s.plant) : Still s t :=
  ⟨setup, fun h => absurd h.asleep awake, fun h => absurd (dormant_iff.1 h.dormant).1 awake⟩

/-- Every next state of an outcome is such an effect. -/
def Stills (s : State) (o : Host.Outcome State Fault Refusal) : Prop := ∀ t, o = .next t → Still s t

theorem Stills.next (h : Still s t) : Stills s (.next t) := by rintro _ ⟨⟩; exact h

theorem Stills.same (s : State) : Stills s (.next s) := .next (.refl s)

theorem Stills.ite {c : Prop} [Decidable c] {t : State} (h : c → Still s t) : Stills s (if c then .next t else .next s) := by
  split
  · exact .next (h ‹_›)
  · exact .same s

/-- A command of a block's own timers, due only in a block that runs. -/
theorem Stills.awake {c : Prop} [Decidable c] {t : State} (setup : t.setup = s.setup) (asleep : Asleep s.plant → ¬ c) :
    Stills s (if c then .next t else .next s) :=
  .ite fun due => still_awake setup fun h => asleep h due

/-! ### The line (spec/01) -/

/-- LNK watches the line from the start sequence or from the entry to SAFE, and there its acts on the queues keep SAFE. -/
theorem still_watching (watch : watching s = true) (setup : t.setup = s.setup) (safe : InSafe s → InSafe t) : Still s t :=
  ⟨setup, fun h => absurd (h.not_watching.symm.trans watch) Bool.false_ne_true, safe⟩

theorem still_line (watch : watching s = true) (l : Line) : Still s { s with line := l } :=
  still_watching watch rfl fun h => ⟨h.phase, h.dormant, h.arrivals⟩

/-- The posts and the line alone, while the part watches or sends. -/
theorem InSafe.posts (h : InSafe s) (l : Line) (posts : PostQueue) : InSafe { s with line := l, plant := { s.plant with posts := posts } } :=
  ⟨h.phase, h.dormant, h.arrivals⟩

theorem still_sending {x : PostEntry} (sending : sendingEntry s.plant.posts = some x) (l : Line) (posts : PostQueue) :
    Still s { s with line := l, plant := { s.plant with posts := posts } } :=
  ⟨rfl, fun h => absurd (h.posts.symm.trans sending) (by simp), fun h => h.posts l posts⟩

/-- AUT at work in SAFE. -/
theorem InSafe.onlyAut {q : Plant} (h : InSafe s) (only : OnlyAut s.plant q) (l : Line) : InSafe { s with line := l, plant := q } :=
  ⟨h.phase, only.dormant h.dormant, h.arrivals⟩

theorem execStuckEvent_stills : Stills s (execStuckEvent s) := by
  refine .ite fun ⟨watch, _⟩ => still_watching watch ?_ fun h => ?_ <;> dsimp only <;> split
  · rfl
  · rfl
  · exact h.posts _ _
  · exact ⟨h.phase, h.dormant, h.arrivals⟩

/-- DEC drops every role notice in SAFE (R14, R25). -/
theorem judgeNotice_safe {e : Env} (safe : isSafe e = true) (f : Frame) (r : Role) : judgeNotice e f ≠ .accepted (.role r) := by
  have source (kind n : Nat) : judgeSource e kind n ≠ .accepted (.role r) := by
    unfold judgeSource
    split
    · simp
    · split
      · split <;> simp
      · split
        · rw [if_neg (by simp [fromRoleStation, safe])]
          simp
        · simp
  unfold judgeNotice
  dsimp only
  repeat' (split; · simp)
  exact source _ _

theorem joinArrivals_safe {k : ArrivalKind} (h : InSafe s) (notRole : ∀ r, k ≠ .role r) (f : Frame) : InSafe (joinArrivals k f s) := by
  unfold joinArrivals
  split
  · refine ⟨h.phase, h.dormant, ?_⟩
    unfold noRoleWaits
    rw [List.all_append, Bool.and_eq_true]
    refine ⟨h.arrivals, ?_⟩
    cases k with
    | role r => exact absurd rfl (notRole r)
    | command | positionerStatus => rfl
  · exact h.posts _ _

theorem actOnNotice_safe (h : InSafe s) (f : Frame) : InSafe (actOnNotice f s) := by
  unfold actOnNotice
  split
  · exact h.onlyAut (duplicateEvent_dormant _ h.dormant) _
  · exact h.onlyAut (stopArrival_dormant _ _ _ h.dormant) _
  · exact h.onlyAut (.refl _) _
  · exact h.onlyAut (.refl _) _
  · rename_i k judged
    exact joinArrivals_safe h (fun r role => judgeNotice_safe h.safe f r (role ▸ judged)) f

theorem actOnNotice_setup (f : Frame) (s : State) : (actOnNotice f s).setup = s.setup := by
  unfold actOnNotice joinArrivals
  repeat' split
  all_goals rfl

theorem execNoticeArrival_stills (f : Frame) : Stills s (execNoticeArrival f s) := by
  unfold execNoticeArrival
  split
  · rename_i watch
    split
    · exact .next (still_watching watch.1 (actOnNotice_setup f _) fun h => actOnNotice_safe (h.onlyAut (.refl _) _) f)
    · exact .next (still_line watch.1 _)
  · exact .same s

theorem execNoticeBegin_stills : Stills s (execNoticeBegin s) := by
  unfold execNoticeBegin
  split
  · rename_i may _
    simp only [mayBegin, Bool.and_eq_true] at may
    obtain ⟨⟨⟨⟨watch, -⟩, -⟩, -⟩, -⟩ := may
    exact .next (still_watching watch rfl fun h => h.posts _ _)
  · exact .same s

theorem execContentionLost_stills (bit : Fin 12) : Stills s (execContentionLost bit s) := by
  unfold execContentionLost
  repeat' split
  · exact .next (still_sending ‹_› _ _)
  · exact .same s
  · exact .same s

theorem execSendFault_stills (m : Mismatch) : Stills s (execSendFault m s) := by
  unfold execSendFault
  split
  · exact .ite fun _ => still_sending ‹_› _ _
  · exact .same s

theorem execSentWhole_stills : Stills s (execSentWhole s) := by
  unfold execSentWhole
  split
  · exact .next (still_sending ‹_› _ _)
  · exact .same s

theorem execWithdrawalExpiry_stills : Stills s (execWithdrawalExpiry s) := by
  unfold execWithdrawalExpiry
  split
  · rename_i since withdrawn
    exact .ite fun _ => ⟨rfl, fun h => absurd withdrawn (by rw [h.line]; simp [Line.cold]), fun h => h.onlyAut (.refl _) _⟩
  · exact .same s

theorem execLinkReportPeriodExpiry_stills : Stills s (execLinkReportPeriodExpiry s) := by
  unfold execLinkReportPeriodExpiry
  split
  · rename_i since begun
    exact .ite fun _ => ⟨rfl, fun h => absurd begun (by rw [h.line]; simp [Line.cold]), fun h => h.posts _ _⟩
  · exact .same s

/-! ### The takings (R16) -/

/-- A taking: before the start sequence nothing waits, and in SAFE AUT alone acts. -/
theorem still_taken {k : ArrivalKind} {x : ArrivalEntry} {q : Plant} (head : headOf k s = some x) (safe : InSafe s → OnlyAut s.plant q) :
    Still s (applyHead q s) :=
  ⟨rfl, fun h => absurd ((h.head k).symm.trans head) (by simp), fun h => ⟨h.phase, (safe h).dormant h.dormant, noRoleWaits_tail h.arrivals⟩⟩

theorem takeRole_stills (r : Role) (act : Env → ArrivalEntry → Plant → Plant) : Stills s (.next (takeRole r act s)) := by
  unfold takeRole
  split
  · rename_i x head
    exact .next (still_taken head fun h => absurd ((h.head r).symm.trans head) (by simp))
  · exact .same s

theorem takeCommand_still (c : CommandCode) (owner : Env → ArrivalEntry → Plant → Plant × Verdict) (s : State) : Still s (takeCommand c owner s) := by
  unfold takeCommand
  split
  · rename_i x head
    exact still_taken (headCommand_eq_some.1 head).1 fun h => commandDone_safe h.safe c owner x s.plant
  · exact .refl s

theorem postRound_setup (l : List RoundItem) (s : State) : (postRound l s).setup = s.setup := by
  induction l generalizing s with
  | nil => rfl
  | cons i l ih =>
    unfold postRound
    split
    · rw [ih]
      cases i <;> rfl
    · rfl

theorem execReport_stills : Stills s (execReport s) := by
  have taken := takeCommand_still .report ownReport s
  unfold execReport
  dsimp only
  split
  · rename_i c
    obtain ⟨head, notSafe⟩ := c
    obtain ⟨x, head⟩ := Option.isSome_iff_exists.1 head
    have waits := (headCommand_eq_some.1 head).1
    exact .next ⟨(postRound_setup _ _).trans taken.setup, fun h => absurd ((h.head _).symm.trans waits) (by simp),
      fun h => absurd (h.safe.symm.trans notSafe) (by simp)⟩
  · exact .next taken

theorem execAim_stills : Stills s (execAim s) := by
  unfold execAim
  split
  · rename_i x head
    exact .next (still_taken (headCommand_eq_some.1 head).1 fun h => aimDone_safe h.safe x s.plant)
  · exact .same s

theorem execUnknownCommandCode_stills : Stills s (execUnknownCommandCode s) := by
  unfold execUnknownCommandCode
  split
  · rename_i x head
    exact .next (still_taken (headCommand_eq_some.1 head).1 fun _ => .post _ _ _ _)
  · exact .same s

theorem execPositionerStatus_stills : Stills s (execPositionerStatus s) := by
  unfold execPositionerStatus
  split
  · rename_i x head
    refine .next (still_taken head fun h => ?_)
    split
    · exact duplicateEvent_dormant _ h.dormant
    · exact .refl _
  · exact .same s

/-! ### AUT's timers -/

/-- A timer of AUT, running only after something has come to AUT. -/
theorem still_timer {q : Plant} (begun : s.plant.aut ≠ .cold) (only : OnlyAut s.plant q) : Still s { s with plant := q } :=
  ⟨rfl, fun h => absurd h.aut begun, fun h => h.onlyAut only _⟩

theorem execStopWindowExpiry_stills : Stills s (execStopWindowExpiry s) := by
  unfold execStopWindowExpiry
  split
  · rename_i stamp window
    exact .ite fun _ => still_timer (fun cold => by simp [cold, Authority.cold] at window) (.authority rfl)
  · exact .same s

theorem execDuplicateQuietExpiry_stills : Stills s (execDuplicateQuietExpiry s) := by
  unfold execDuplicateQuietExpiry
  split
  · rename_i since held
    exact .ite fun _ => still_timer (fun cold => by simp [cold, Authority.cold] at held) (.trans (.authority rfl) (.post _ _ _ _))
  · exact .same s

theorem execStatusPeriodExpiry_stills : Stills s (execStatusPeriodExpiry s) := by
  unfold execStatusPeriodExpiry
  split
  · rename_i since begun
    exact .ite fun _ => still_timer (fun cold => by simp [cold, Authority.cold] at begun) (.trans (.authority rfl) (.post _ _ _ _))
  · exact .same s

/-- With no round in progress there is nothing to post. -/
theorem postRound_none (none : s.plant.aut.round = []) : postRound s.plant.aut.round s = s := by
  rw [none]
  unfold postRound setRound
  rw [← none]

theorem execReportRoundPost_stills : Stills s (execReportRoundPost s) := by
  refine .next ⟨postRound_setup _ s, fun h => postRound_none h.asleep.round, fun h => ?_⟩
  rw [postRound_none (dormant_iff.1 h.dormant).1.round]
  exact h

/-! ### The blocks' own timers -/

theorem execScanConversionComplete_stills (r : Count) : Stills s (execScanConversionComplete r s) := by
  unfold execScanConversionComplete
  split
  · rename_i c converts
    exact .next (still_awake rfl fun h => by simp [h.smp, Sampler.cold] at converts)
  · exact .same s

theorem execDwellConversionComplete_stills (r : Count) : Stills s (execDwellConversionComplete r s) := by
  unfold execDwellConversionComplete
  split
  · rename_i c identity converts
    exact .next (still_awake rfl fun h => by simp [h.smp, Sampler.cold] at converts)
  · exact .same s

/-- In SAFE a servo period makes the reading and nothing else (R25). -/
theorem readOnly_dormant (a : Axis) (x : AxisPins) {p : Plant} (d : dormant p = true) : dormant (readOnly a x p) = true := by
  obtain ⟨asleep, pvw⟩ := dormant_iff.1 d
  refine dormant_iff.2 ⟨⟨fun b => ?_, asleep.grants, asleep.waiting, asleep.smp, asleep.watches, asleep.flt, asleep.pnt, asleep.pat, asleep.run, asleep.monitor,
    asleep.round, asleep.unheard⟩, pvw⟩
  unfold readOnly
  dsimp only
  rw [axisOf_setAxisRaw]
  split
  · rw [axisCold_iff.1 (asleep.axes a)]
    exact axisCold_iff.2 rfl
  · exact asleep.axes b

theorem execServoPeriod_stills (a : Axis) (x : AxisPins) : Stills s (execServoPeriod a x s) := by
  unfold execServoPeriod
  split
  · rename_i phase
    exact .next ⟨rfl, fun h => absurd h.phase (by simp [phase]), fun h => absurd (h.phase.symm.trans phase) (by simp)⟩
  · rename_i phase
    exact .next ⟨rfl, fun h => absurd h.phase (by simp [phase]), fun h => ⟨h.phase, readOnly_dormant a x h.dormant, h.arrivals⟩⟩
  all_goals exact .same s

theorem execAxisReportPeriodExpiry_stills (a : Axis) : Stills s (execAxisReportPeriodExpiry a s) := by
  unfold execAxisReportPeriodExpiry
  dsimp only
  split
  · rename_i since begun
    exact .awake rfl fun h _ => by simp [(axisCold_rest (h.axes a)).2.2.2] at begun
  · exact .same s

theorem execDriveGrant_stills : Stills s (execDriveGrant s) := by
  have none (h : Asleep s.plant) : tryGrant (envOf s) s.plant = s.plant := by
    unfold tryGrant chooseWaiting
    simp [h.waiting]
  refine .next ⟨rfl, fun h => ?_, fun h => ?_⟩
  · rw [none h.asleep]
    rfl
  · rw [none (dormant_iff.1 h.dormant).1]
    exact h

theorem execSearchSettleExpiry_stills : Stills s (execSearchSettleExpiry s) := by
  unfold execSearchSettleExpiry
  split
  · rename_i since settles
    exact .awake rfl fun h _ => by simp [patternStatus, h.pat] at settles
  · exact .same s

theorem execPatternResumeDelayExpiry_stills : Stills s (execPatternResumeDelayExpiry s) := by
  unfold execPatternResumeDelayExpiry
  split
  · rename_i st since waits
    exact .awake rfl fun h _ => by simp [patternStatus, h.pat] at waits
  · exact .same s

theorem execCrossSettleExpiry_stills : Stills s (execCrossSettleExpiry s) := by
  unfold execCrossSettleExpiry
  split
  · rename_i since settles
    exact .awake rfl fun h _ => by simp [h.run, Run.cold] at settles
  · exact .same s

theorem execClosingSettleExpiry_stills : Stills s (execClosingSettleExpiry s) := by
  unfold execClosingSettleExpiry
  split
  · rename_i since settles
    exact .awake rfl fun h _ => by simp [h.run, Run.cold] at settles
  · exact .same s

theorem execRunResumeDelayExpiry_stills : Stills s (execRunResumeDelayExpiry s) := by
  unfold execRunResumeDelayExpiry
  split
  · rename_i st since waits
    exact .awake rfl fun h _ => by simp [h.run, Run.cold] at waits
  · exact .same s

theorem execTrackSamplePeriodExpiry_stills : Stills s (execTrackSamplePeriodExpiry s) := by
  unfold execTrackSamplePeriodExpiry
  split
  · rename_i since begun
    exact .awake rfl fun h _ => by simp [h.monitor, Monitor.cold] at begun
  · exact .same s

theorem timerDue_asleep (h : Asleep s.plant) (start : Option Clock) (wait : Nat) : timerDue s start wait = false := by
  unfold timerDue
  split
  · simp [h.monitor, Monitor.cold]
  · rfl

/-! ### The start (spec/02) -/

/-- Every next state of an outcome is quiet when the state before is. -/
def KeepsQuiet (s : State) (o : Host.Outcome State Fault Refusal) : Prop := ∀ t, o = .next t → quiet s = true → quiet t = true

theorem Stills.keepsQuiet {o : Host.Outcome State Fault Refusal} (h : Stills s o) : KeepsQuiet s o := fun t next q => (h t next).quiet q

theorem KeepsQuiet.next (h : quiet s = true → quiet t = true) : KeepsQuiet s (.next t) := by rintro _ ⟨⟩; exact h

theorem KeepsQuiet.ite {c : Prop} [Decidable c] {t : State} (h : c → quiet s = true → quiet t = true) : KeepsQuiet s (if c then .next t else .next s) := by
  split
  · exact .next (h ‹_›)
  · exact .next id

/-- The part while CFG reads the straps and the record: nothing has happened yet. -/
theorem quiet_loading (phase : s.setup.phase = .reset ∨ s.setup.phase = .loading) :
    quiet s = true ↔ s.arrivals = [] ∧ s.line = .cold ∧ s.plant = .cold := by
  rcases phase with phase | phase <;> simp [quiet, phase, and_assoc]

/-- The entry to SAFE from a part at its cold-start values. -/
theorem enterSafe_quiet (c : ConfigFault) (arrivals : s.arrivals = []) (plant : s.plant = .cold) : quiet (enterSafe c s) = true := by
  refine InSafe.quiet ⟨rfl, ?_, ?_⟩
  · unfold enterSafe postStatus
    rw [plant]
    rfl
  · rw [enterSafe_arrivals, arrivals]
    rfl

theorem execResetRelease_quiet (station : BitVec 5) (high : Bool) : KeepsQuiet s (execResetRelease station high s) := by
  refine .ite fun phase q => ?_
  obtain ⟨arrivals, line, plant⟩ := (quiet_loading (.inl phase)).1 q
  split
  · exact (quiet_loading (.inr rfl)).2 ⟨arrivals, line, plant⟩
  · exact enterSafe_quiet .strap arrivals plant

/-- A good record binds the roles of the peer view (R46). -/
theorem acceptRecord_quiet (r : LoadResult) (c : ConfigRecord) (arrivals : s.arrivals = []) (line : s.line = .cold) (plant : s.plant = .cold) :
    quiet (acceptRecord r c s) = true := by
  simp [quiet, acceptRecord, envOf, arrivals, line, plant]

theorem loadOpen_loading (h : loadOpen s = true) : s.setup.phase = .loading := by
  simp only [loadOpen, Bool.and_eq_true, decide_eq_true_eq] at h
  exact h.1

theorem execConfigLoadComplete_quiet (record : List Byte) : KeepsQuiet s (execConfigLoadComplete record s) := by
  unfold execConfigLoadComplete
  split
  · rename_i loads
    have before := quiet_loading (.inr (loadOpen_loading loads.1))
    split
    · exact .next fun q => enterSafe_quiet _ (before.1 q).1 (before.1 q).2.2
    · exact .next fun q => acceptRecord_quiet _ _ (before.1 q).1 (before.1 q).2.1 (before.1 q).2.2
  · exact .next id

/-- The load ended by the memory or by the time. -/
theorem noAnswer_quiet {c : Prop} [Decidable c] (loading : c → s.setup.phase = .loading) :
    KeepsQuiet s (if c then .next (enterSafe .noAnswer s) else .next s) :=
  .ite fun h q => by
    obtain ⟨arrivals, -, plant⟩ := (quiet_loading (.inr (loading h))).1 q
    exact enterSafe_quiet _ arrivals plant

/-! ### Every command -/

theorem exec_keepsQuiet (c : Instr) (s : State) : KeepsQuiet s (exec c s) := by
  cases c with
  | coldStart => exact .next fun _ => (quiet_loading (.inl rfl)).2 ⟨rfl, rfl, rfl⟩
  | resetRelease station high => exact execResetRelease_quiet station high
  | configLoadComplete record => exact execConfigLoadComplete_quiet record
  | configLoadTimeout => exact noAnswer_quiet fun h => h.1
  | memoryNoAnswer => exact noAnswer_quiet id
  | startSequence => exact .ite fun _ _ => quiet_running rfl
  | lineIdle => exact Stills.keepsQuiet (.ite fun h => still_line h.1 _)
  | startBit => exact Stills.keepsQuiet (.ite fun h => still_line h.1 _)
  | stuckEvent => exact execStuckEvent_stills.keepsQuiet
  | noticeArrival f => exact (execNoticeArrival_stills f).keepsQuiet
  | noticeDiscard => exact Stills.keepsQuiet (.ite fun h => still_line h.1 _)
  | startOutsideIdle => exact Stills.keepsQuiet (.ite fun h => still_line h.1 _)
  | noticeBegin => exact execNoticeBegin_stills.keepsQuiet
  | contentionLost bit => exact (execContentionLost_stills bit).keepsQuiet
  | sendFault m => exact (execSendFault_stills m).keepsQuiet
  | sentWhole => exact execSentWhole_stills.keepsQuiet
  | withdrawalExpiry => exact execWithdrawalExpiry_stills.keepsQuiet
  | linkReportPeriodExpiry => exact execLinkReportPeriodExpiry_stills.keepsQuiet
  | vehicle => exact (takeRole_stills .vehicle takeVehicle).keepsQuiet
  | wind => exact (takeRole_stills .wind takeWind).keepsQuiet
  | clearance => exact (takeRole_stills .clearance takeClearance).keepsQuiet
  | level => exact (takeRole_stills .level takeLevel).keepsQuiet
  | positionerStatus => exact execPositionerStatus_stills.keepsQuiet
  | resume => exact (Stills.next (takeCommand_still .resume ownResume s)).keepsQuiet
  | clearFault => exact (Stills.next (takeCommand_still .clearFault ownClearFault s)).keepsQuiet
  | report => exact execReport_stills.keepsQuiet
  | raise => exact (Stills.next (takeCommand_still .raise ownRaise s)).keepsQuiet
  | lower => exact (Stills.next (takeCommand_still .lower ownLower s)).keepsQuiet
  | aim => exact execAim_stills.keepsQuiet
  | peak => exact (Stills.next (takeCommand_still .peak ownPeak s)).keepsQuiet
  | cancelPointing => exact (Stills.next (takeCommand_still .cancelPointing ownCancelPointing s)).keepsQuiet
  | jog => exact (Stills.next (takeCommand_still .jog ownJog s)).keepsQuiet
  | unknownCommandCode => exact execUnknownCommandCode_stills.keepsQuiet
  | freshnessExpiry r => exact Stills.keepsQuiet (.awake rfl fun h => by simp [expiryDue_unheard h.unheard])
  | stopWindowExpiry => exact execStopWindowExpiry_stills.keepsQuiet
  | duplicateQuietExpiry => exact execDuplicateQuietExpiry_stills.keepsQuiet
  | reportRoundPost => exact execReportRoundPost_stills.keepsQuiet
  | statusPeriodExpiry => exact execStatusPeriodExpiry_stills.keepsQuiet
  | scanConversionComplete r => exact (execScanConversionComplete_stills r).keepsQuiet
  | dwellConversionComplete r => exact (execDwellConversionComplete_stills r).keepsQuiet
  | dwellFree q => exact Stills.keepsQuiet (.awake rfl fun h => by simp [h.smp, Sampler.cold])
  | servoPeriod a x => exact (execServoPeriod_stills a x).keepsQuiet
  | stallTimeout a => exact Stills.keepsQuiet (.awake rfl fun h => by simp [(axisCold_rest (h.axes a)).2.1])
  | settleTimeExpiry a => exact Stills.keepsQuiet (.awake rfl fun h => by simp [settleExpired, (axisCold_rest (h.axes a)).1])
  | axisReportPeriodExpiry a => exact (execAxisReportPeriodExpiry_stills a).keepsQuiet
  | axisFree a q => exact Stills.keepsQuiet (.awake rfl fun h => by simp [(axisCold_rest (h.axes a)).2.2.1])
  | driveGrant => exact execDriveGrant_stills.keepsQuiet
  | presetSettleExpiry => exact Stills.keepsQuiet (.awake rfl fun h => by simp [h.pnt, Pointing.cold])
  | searchSettleExpiry => exact execSearchSettleExpiry_stills.keepsQuiet
  | patternResumeDelayExpiry => exact execPatternResumeDelayExpiry_stills.keepsQuiet
  | crossSettleExpiry => exact execCrossSettleExpiry_stills.keepsQuiet
  | closingSettleExpiry => exact execClosingSettleExpiry_stills.keepsQuiet
  | runResumeDelayExpiry => exact execRunResumeDelayExpiry_stills.keepsQuiet
  | trackSamplePeriodExpiry => exact execTrackSamplePeriodExpiry_stills.keepsQuiet
  | fadeTimerExpiry => exact Stills.keepsQuiet (.awake rfl fun h => by simp [timerDue_asleep h])
  | lossTimerExpiry => exact Stills.keepsQuiet (.awake rfl fun h => by simp [timerDue_asleep h])

end

/-- Settles O3: a tick leaves what `quiet` reads, and every command keeps it. -/
theorem blocksStayColdUntilTheyRun : Obligations.BlocksStayColdUntilTheyRun := by
  intro s t q h
  unfold step at h
  split at h
  · cases h
    exact q
  · exact exec_keepsQuiet _ _ t h q

end Sys2Proof.Machine
end

