-- ==== Sys2Proof/Proofs/StartLoad.lean ====
section
/-! PROOFS. The cold start and the load: the state after a reset (O2, O22), the entries to SAFE (O23), a good record put in use (O24). -/

namespace Sys2Proof.Machine

/-! ### The cold start (R19) -/

/-- Settles O2: each invariant evaluated on the state after a power-on, where nothing waits, no axis moves and no limit is set. -/
theorem resetMeetsEveryInvariant : Obligations.ResetMeetsEveryInvariant :=
  ⟨(quiet_loading (.inl rfl)).2 ⟨rfl, rfl, rfl⟩, queuesSound_iff.2 ⟨Nat.zero_le _, rfl⟩, linkSound_iff.2 (Nat.zero_le _), rfl,
    forall_axes_iff.2 fun a => by cases a <;> rfl, rfl, rfl, rfl, rfl, rfl⟩

/-- Settles O22: the arm of COLD_START reads nothing of the state but the queue of commands. -/
theorem aColdStartAbandonsEverything : Obligations.AColdStartAbandonsEverything := fun _ _ => rfl

/-! ### SAFE (R25) -/

theorem enterSafe_entered (c : ConfigFault) (s : State) : safeEntered c s (enterSafe c s) := ⟨rfl, rfl, rfl⟩

theorem legalStation_iff {n : Nat} : legalStation n = true ↔ 1 ≤ n ∧ n ≤ 30 := by simp [legalStation]

section
variable {s : State} {record : List Byte}

/-- The straps read at the release, a legal station or not (R20). -/
theorem exec_resetRelease (phase : s.setup.phase = .reset) (station : BitVec 5) (high : Bool) :
    exec (.resetRelease station high) s =
      let strapped : State := { s with setup := { s.setup with
        station := station.toNat, mastNumber := if high then 2 else 1, phase := .loading, releasedAt := s.clock } }
      .next (if legalStation station.toNat then strapped else enterSafe .strap strapped) :=
  if_pos phase

/-! ### The record read to its end (R21 to R24) -/

theorem loadOf_check (bad : recordChecks record = false) (station : Nat) : loadOf station record = (.fault .check, .blank) := by
  simp [loadOf, bad]

theorem loadOf_structural {station : Nat} (good : recordChecks record = true)
    (wrong : structurallyWrong station (agreeFields (clampRanges (recordOf (streamOf record)))) = true) :
    loadOf station record = (.fault .structural, .blank) := by
  simp [loadOf, good, wrong]

theorem loadOf_good {station : Nat} (good : recordChecks record = true)
    (sound : structurallyWrong station (agreeFields (clampRanges (recordOf (streamOf record)))) = false) :
    loadOf station record =
      (if agreeFields (clampRanges (recordOf (streamOf record))) = recordOf (streamOf record) then .loaded else .clamped,
        agreeFields (clampRanges (recordOf (streamOf record)))) := by
  simp [loadOf, good, sound]

theorem loadOpen_iff : loadOpen s = true ↔ s.setup.phase = .loading ∧ (s.clock - s.setup.releasedAt).toNat ≤ 30 := by
  rw [loadOpen, elapsed, Bool.and_eq_true, decide_eq_true_iff, decide_eq_true_iff]

theorem exec_configLoad_fault {c : ConfigFault} {x : ConfigRecord} (opened : loadOpen s = true) (whole : record.length = 160)
    (load : loadOf s.setup.station record = (.fault c, x)) : exec (.configLoadComplete record) s = .next (enterSafe c s) := by
  refine (if_pos ⟨opened, whole⟩).trans ?_
  rw [load]

theorem exec_configLoad_good {r : LoadResult} {c : ConfigRecord} (opened : loadOpen s = true) (whole : record.length = 160)
    (load : loadOf s.setup.station record = (r, c)) (good : ∀ k, r ≠ .fault k) : exec (.configLoadComplete record) s = .next (acceptRecord r c s) := by
  refine (if_pos ⟨opened, whole⟩).trans ?_
  rw [load]
  cases r with
  | fault k => exact absurd rfl (good k)
  | pending | loaded | clamped => rfl

end

/-- Settles O23: every way a load can fail ends in `enterSafe` with its cause. -/
theorem aFailedStartEntersSafe : Obligations.AFailedStartEntersSafe := by
  refine ⟨fun station high s phase => ⟨fun legal => ?_, fun none => ?_⟩, fun s phase => ⟨?_, fun late => ?_, fun record inTime whole bad => ?_,
    fun record inTime whole good wrong => ?_⟩⟩
  · rw [exec_resetRelease phase]
    exact congrArg Host.Outcome.next (if_pos (legalStation_iff.2 legal))
  · rw [exec_resetRelease phase]
    exact ⟨_, congrArg Host.Outcome.next (if_neg fun legal => by have := legalStation_iff.1 legal; omega), enterSafe_entered _ _⟩
  · exact ⟨_, if_pos phase, enterSafe_entered _ _⟩
  · exact ⟨_, if_pos ⟨phase, late⟩, enterSafe_entered _ _⟩
  · exact ⟨_, exec_configLoad_fault (loadOpen_iff.2 ⟨phase, inTime⟩) whole (loadOf_check bad _), enterSafe_entered _ _⟩
  · exact ⟨_, exec_configLoad_fault (loadOpen_iff.2 ⟨phase, inTime⟩) whole (loadOf_structural good wrong), enterSafe_entered _ _⟩

/-! ### A good record (R31, R46) -/

theorem fitted_station (e : Env) {r : Role} (notLevel : r ≠ .level) : fitted e r = !decide (roleStation e r = 0) := by
  simp [fitted, notLevel]

theorem fitted_level (e : Env) : fitted e .level = !decide ((cfgOf e).levelStation = 0 ∨ (cfgOf e).source = .localSource) := by
  by_cases unset : (cfgOf e).levelStation = 0
  · simp [fitted, roleStation, unset]
  · cases source : (cfgOf e).source <;> simp [fitted, linked, roleStation, source, unset]

/-- The freshness a bound role begins with. -/
theorem bound_freshness {b : Bool} {P : Prop} [Decidable P] (h : b = !decide P) :
    (if b then some Freshness.unheard else none) = if P then none else some .unheard := by
  by_cases p : P <;> simp [h, p]

/-- Settles O24: `acceptRecord` puts the clamped record in use, and `boundView` binds each role by whether it is fitted. -/
theorem aGoodRecordIsPutInUse : Obligations.AGoodRecordIsPutInUse := by
  intro record s phase inTime whole good raw c sound
  generalize result : (if c = raw then LoadResult.loaded else .clamped) = r
  have load : loadOf s.setup.station record = (r, c) := result ▸ loadOf_good good sound
  have notFault (k : ConfigFault) : r ≠ .fault k := by
    rw [← result]
    split <;> simp
  generalize bound : ({ clock := s.clock, setup := { s.setup with phase := .loaded, result := r, cfg := c } } : Env) = e
  have use : cfgOf e = c := by rw [← bound]; rfl
  have level := fitted_level e
  have plain {x : Role} (notLevel : x ≠ .level) {n : Nat} (station : roleStation e x = n) : fitted e x = !decide (n = 0) :=
    station ▸ fitted_station e notLevel
  have vehicle := plain (x := .vehicle) (by decide) (congrArg ConfigRecord.vehicleStation use)
  have wind := plain (x := .wind) (by decide) (congrArg ConfigRecord.windStation use)
  have clearance := plain (x := .clearance) (by decide) (congrArg ConfigRecord.clearanceStation use)
  rw [use] at level
  have given {b : Bool} {P : Prop} [Decidable P] (h : b = !decide P) : (!b) = decide P := by rw [h, Bool.not_not]
  refine ⟨acceptRecord r c s, exec_configLoad_good (loadOpen_iff.2 ⟨phase, inTime⟩) whole load notFault, rfl, rfl, rfl, ?_⟩
  have view : (acceptRecord r c s).plant.pvw = boundView e := by rw [← bound]; rfl
  simp only [view, boundView, bound_freshness vehicle, bound_freshness wind, bound_freshness clearance, bound_freshness level]
  refine ⟨trivial, trivial, trivial, trivial, rfl, rfl, trivial, ?_, ?_, given clearance, given level⟩
  · simp only [List.forall_mem_cons, List.not_mem_nil, false_imp_iff, implies_true, and_true]
    exact ⟨given vehicle, given vehicle, given vehicle, given vehicle⟩
  · simp only [List.forall_mem_cons, List.not_mem_nil, false_imp_iff, implies_true, and_true]
    exact ⟨given wind, given wind⟩

end Sys2Proof.Machine
end

