-- ==== Sys2Proof/Proofs/StartClamp.lean ====
section
/-! PROOFS. The clamping of a record (R22, R23): what comes out is legal, and what is legal comes out as it is (O25). -/

namespace Sys2Proof.Machine

/-! ### One field (R22) -/

theorem inRange_iff {lo hi x : Nat} : inRange lo hi x = true ↔ lo ≤ x ∧ x ≤ hi := by simp [inRange]

theorem inRangeInt_iff {lo hi x : Int} : inRangeInt lo hi x = true ↔ lo ≤ x ∧ x ≤ hi := by simp [inRangeInt]

theorem clampNat_inRange {lo hi : Nat} (h : lo ≤ hi) (x : Nat) : inRange lo hi (clampNat lo hi x) = true :=
  inRange_iff.2 ⟨le_max_left _ _, max_le h (min_le_left _ _)⟩

theorem clampInt_inRange {lo hi : Int} (h : lo ≤ hi) (x : Int) : inRangeInt lo hi (clampInt lo hi x) = true :=
  inRangeInt_iff.2 ⟨le_max_left _ _, max_le h (min_le_left _ _)⟩

theorem clampNat_legal {lo hi x : Nat} (h : inRange lo hi x = true) : clampNat lo hi x = x := by
  obtain ⟨low, high⟩ := inRange_iff.1 h
  rw [clampNat, min_eq_right high, max_eq_right low]

theorem clampInt_legal {lo hi x : Int} (h : inRangeInt lo hi x = true) : clampInt lo hi x = x := by
  obtain ⟨low, high⟩ := inRangeInt_iff.1 h
  rw [clampInt, min_eq_right high, max_eq_right low]

theorem min_inRange {lo hi x y : Nat} (hx : inRange lo hi x = true) (hy : inRange lo hi y = true) : inRange lo hi (min x y) = true := by
  rcases min_choice x y with h | h <;> rw [h] <;> assumption

theorem max_inRangeInt {lo hi x y : Int} (hx : inRangeInt lo hi x = true) (hy : inRangeInt lo hi y = true) : inRangeInt lo hi (max x y) = true := by
  rcases max_choice x y with h | h <;> rw [h] <;> assumption

theorem clampDepth_depthLegal (n : Nat) : depthLegal (clampDepth n) = true := by
  unfold clampDepth
  repeat' split
  all_goals rfl

theorem clampDepth_legal {n : Nat} (h : depthLegal n = true) : clampDepth n = n := by
  simp only [depthLegal, List.mem_cons, List.not_mem_nil, or_false, decide_eq_true_eq] at h
  rcases h with rfl | rfl | rfl | rfl <;> rfl

/-- The odd number nearest to `n` in 1..top. -/
theorem clampOdd_odd {top : Nat} (odd : top % 2 = 1) (n : Nat) : inRange 1 top (clampOdd top n) = true ∧ clampOdd top n % 2 = 1 := by
  rw [inRange_iff]
  unfold clampOdd
  split
  · omega
  · split <;> omega

theorem clampOdd_legal {top n : Nat} (h : inRange 1 top n = true) (odd : n % 2 = 1) : clampOdd top n = n := by
  obtain ⟨-, high⟩ := inRange_iff.1 h
  unfold clampOdd
  split
  · omega
  · rfl

/-! ### Watches and axes -/

theorem clampWatch_watchLegal (c : WatchCfg) : watchLegal (clampWatch c) = true := by
  simp (disch := decide) only [watchLegal, clampWatch, clampNat_inRange, clampDepth_depthLegal, Bool.true_and, Bool.and_true, Bool.and_eq_true, inRange_iff]
  omega

theorem clampWatch_legal {c : WatchCfg} (h : watchLegal c = true) : clampWatch c = c := by
  simp only [watchLegal, Bool.and_eq_true] at h
  obtain ⟨⟨⟨⟨channel, threshold⟩, edge⟩, depth⟩, kind⟩ := h
  rw [clampWatch, clampNat_legal channel, clampNat_legal threshold, clampDepth_legal depth, min_eq_right (inRange_iff.1 edge).2, min_eq_right (inRange_iff.1 kind).2]

/-- An axis block in its ranges, then in agreement (R23 steps 1 and 2). -/
theorem agreed_axisCfgLegal {lo hi : Int} (h : lo ≤ hi) (c : AxisCfg) : axisCfgLegal lo hi (agreeSpeeds (agreeLimits (clampAxis lo hi c))) = true := by
  have least := clampInt_inRange h c.softMin
  have most := clampInt_inRange h c.softMax
  have speed (x : Nat) : inRange 1 65535 (clampNat 1 65535 x) = true := clampNat_inRange (by decide) x
  simp (disch := decide) only [axisCfgLegal, agreeSpeeds, agreeLimits, clampAxis, least, max_inRangeInt least most, le_max_left, speed,
    min_inRange (speed _) (speed _), min_inRange (speed _) (min_inRange (speed _) (speed _)), min_le_right, clampNat_inRange, decide_true, Bool.and_true]

theorem clampAxis_legal {lo hi : Int} {c : AxisCfg} (h : axisCfgLegal lo hi c = true) : clampAxis lo hi c = c := by
  simp only [axisCfgLegal, Bool.and_eq_true] at h
  obtain ⟨⟨⟨⟨⟨⟨⟨⟨⟨⟨⟨⟨⟨⟨⟨⟨⟨least, most⟩, -⟩, full⟩, vmax⟩, -⟩, step⟩, -⟩, stop⟩, -⟩, stall⟩, -⟩, gain⟩, window⟩, settle⟩, time⟩, delta⟩, margin⟩ := h
  rw [clampAxis, clampInt_legal least, clampInt_legal most, clampNat_legal full, clampNat_legal vmax, clampNat_legal step, clampNat_legal stop, clampNat_legal stall,
    clampNat_legal gain, clampNat_legal window, clampNat_legal settle, clampNat_legal time, clampNat_legal delta, clampNat_legal margin]

theorem agreeLimits_legal {lo hi : Int} {c : AxisCfg} (h : axisCfgLegal lo hi c = true) : agreeLimits c = c := by
  simp only [axisCfgLegal, Bool.and_eq_true, decide_eq_true_eq] at h
  obtain ⟨⟨⟨⟨⟨⟨⟨⟨⟨⟨⟨⟨⟨⟨⟨⟨-, limits⟩, -⟩, -⟩, -⟩, -⟩, -⟩, -⟩, -⟩, -⟩, -⟩, -⟩, -⟩, -⟩, -⟩, -⟩, -⟩ := h
  rw [agreeLimits, max_eq_right limits]

theorem agreeSpeeds_legal {lo hi : Int} {c : AxisCfg} (h : axisCfgLegal lo hi c = true) : agreeSpeeds c = c := by
  simp only [axisCfgLegal, Bool.and_eq_true, decide_eq_true_eq] at h
  obtain ⟨⟨⟨⟨⟨⟨⟨⟨⟨⟨⟨⟨⟨-, vmax⟩, -⟩, step⟩, -⟩, stop⟩, -⟩, stall⟩, -⟩, -⟩, -⟩, -⟩, -⟩, -⟩ := h
  simp only [agreeSpeeds, min_eq_left vmax, min_eq_left step, min_eq_left stop, min_eq_left stall]

/-! ### The record: the fields that no agreement touches, and those of each step of R23 -/

/-- The fields with a range of R22 alone. -/
def plainLegal (c : ConfigRecord) : Bool :=
  [c.vehicleStation, c.windStation, c.clearanceStation, c.levelStation, c.panel1, c.panel2, c.panel3].all (inRange 0 30)
    && [c.vehicleLimit, c.windLimit, c.clearanceLimit, c.levelLimit].all (inRange 100 10000)
    && inRange 0 7 c.pilot && inRange 1 2 c.budget && [c.windRaise, c.windHold, c.windAlarm, c.vanLevel].all (inRange 0 1000) && inRange 0 100 c.hysteresis
    && depthLegal c.windDepth && inRange 0 5000 c.clearanceMargin && inRange 0 3000 c.headHeight && [c.stowPan, c.stowTiltWindow, c.stowPol].all (inRange 1 1000)
    && c.watches.all watchLegal && inRangeInt (-1500) 0 c.lZero && inRange 0 4095 c.lGain && inRangeInt (-1500) 300 c.floor
    && inRange 1 600 c.fadeDrop && inRange 100 30000 c.fadeTime && inRange 100 30000 c.lossTime && inRange 10 1000 c.sigma
    && (inRange 1 15 c.rows && decide (c.rows % 2 = 1)) && (inRange 1 31 c.points && decide (c.points % 2 = 1)) && inRange 1 4 c.passes && inRange 1 8 c.peakN
    && inRange 0 5000 c.settle && inRange 0 5000 c.lag && inRange 1 1000 c.tolerance && inRange 1 64 c.roundLimit

/-- Steps 1 and 2 of R23, with the ranges of the axis blocks. -/
def axesLegal (c : ConfigRecord) : Bool :=
  axisCfgLegal 0 16000 c.mast && axisCfgLegal (-35000) 35000 c.pan && axisCfgLegal (-2000) 9000 c.tilt && axisCfgLegal (-9500) 9500 c.pol

/-- Step 3 of R23. -/
def cradleLegal (c : ConfigRecord) : Bool :=
  inRange 0 16000 c.cradleClear && decide ((c.cradleClear : Int) ≤ c.mast.softMax) && inRange 0 500 c.stowWindow && decide (c.stowWindow ≤ c.cradleClear)

/-- Step 5 of R23. -/
def stepsLegal (c : ConfigRecord) : Bool :=
  inRange 1 1000 c.delta0 && inRange 1 1000 c.deltaMin && inRange 1 1000 c.deltaTrack && decide (c.deltaMin ≤ c.deltaTrack) && decide (c.deltaTrack ≤ c.delta0)

/-- Step 6 of R23. -/
def pilotLegal (c : ConfigRecord) : Bool := decide (c.source = .linked) || c.enabled.getLsbD c.pilot

theorem cfgLegal_parts (c : ConfigRecord) :
    cfgLegal c = (plainLegal c && axesLegal c && cradleLegal c && inRangeInt c.tilt.softMin c.tilt.softMax c.stowTilt && stepsLegal c && pilotLegal c) := by
  simp only [cfgLegal, plainLegal, axesLegal, cradleLegal, stepsLegal, pilotLegal, List.all_cons, List.all_nil, Bool.and_true]
  ac_rfl

theorem plainLegal_clampRanges (c : ConfigRecord) : plainLegal (clampRanges c) = true := by
  have watches : (c.watches.map clampWatch).all watchLegal = true := by simp [clampWatch_watchLegal]
  obtain ⟨rows, rowsOdd⟩ := clampOdd_odd (top := 15) rfl c.rows
  obtain ⟨points, pointsOdd⟩ := clampOdd_odd (top := 31) rfl c.points
  simp (disch := decide) only [plainLegal, clampRanges, List.all_cons, List.all_nil, Bool.and_true, clampNat_inRange, clampInt_inRange, clampDepth_depthLegal, watches,
    rows, rowsOdd, points, pointsOdd, decide_true]

/-- R23 leaves the fields of R22 alone as they are; its steps, field by field. -/
theorem agreeFields_eq (c : ConfigRecord) :
    agreeFields c = { c with
      mast := agreeSpeeds (agreeLimits c.mast), pan := agreeSpeeds (agreeLimits c.pan), tilt := agreeSpeeds (agreeLimits c.tilt),
      pol := agreeSpeeds (agreeLimits c.pol), cradleClear := min c.cradleClear (agreeLimits c.mast).softMax.toNat,
      stowWindow := min c.stowWindow (min c.cradleClear (agreeLimits c.mast).softMax.toNat),
      stowTilt := clampInt (agreeLimits c.tilt).softMin (agreeLimits c.tilt).softMax c.stowTilt, deltaMin := min c.deltaMin c.delta0,
      deltaTrack := clampNat (min c.deltaMin c.delta0) c.delta0 c.deltaTrack, enabled := (agreePilot c).enabled } := by
  obtain ⟨source, same⟩ : ∃ x, c.source = x := ⟨_, rfl⟩
  cases source <;> simp only [agreeFields, agreePilot, agreeSteps, agreeStowTilt, agreeCradle, agreeAxes, same] <;> rfl

/-! ### The agreement of R23 -/

section
variable {c : ConfigRecord}

theorem agreed_cradleLegal (clear : inRange 0 16000 c.cradleClear = true) (window : inRange 0 500 c.stowWindow = true) (top : 0 ≤ (agreeLimits c.mast).softMax) :
    cradleLegal (agreeFields c) = true := by
  rw [inRange_iff] at clear window
  rw [agreeFields_eq]
  simp only [cradleLegal, agreeSpeeds, Bool.and_eq_true, decide_eq_true_eq, inRange_iff, Nat.cast_min]
  omega

theorem agreed_stowTilt : inRangeInt (agreeFields c).tilt.softMin (agreeFields c).tilt.softMax (agreeFields c).stowTilt = true := by
  rw [agreeFields_eq]
  exact clampInt_inRange (le_max_left _ _) _

theorem agreed_stepsLegal (first : inRange 1 1000 c.delta0 = true) (low : inRange 1 1000 c.deltaMin = true) : stepsLegal (agreeFields c) = true := by
  have least := inRange_iff.1 (min_inRange low first)
  rw [agreeFields_eq]
  obtain ⟨above, below⟩ := inRange_iff.1 (clampNat_inRange (min_le_right c.deltaMin c.delta0) c.deltaTrack)
  rw [inRange_iff] at first
  simp only [stepsLegal, Bool.and_eq_true, decide_eq_true_eq, inRange_iff]
  omega

/-- The bit of one channel. -/
theorem getLsbD_channel (x : Nat) {i : Nat} (h : i < 8) : (1#8 <<< x).getLsbD i = decide (i = x) := by
  simp only [BitVec.getLsbD_shiftLeft, BitVec.getLsbD_one, h]
  grind

theorem agreed_pilotLegal (pilot : inRange 0 7 c.pilot = true) : pilotLegal (agreeFields c) = true := by
  have eight : c.pilot < 8 := by have := inRange_iff.1 pilot; omega
  rw [agreeFields_eq]
  cases source : c.source with
  | linked => simp [pilotLegal]
  | localSource => simp [pilotLegal, source, agreePilot, getLsbD_channel c.pilot eight]

theorem agreePilot_legal (h : pilotLegal c = true) : agreePilot c = c := by
  cases source : c.source with
  | linked => simp only [agreePilot, source]
  | localSource =>
    have enabled : c.enabled.getLsbD c.pilot = true := by simpa [pilotLegal, source] using h
    have same : c.enabled ||| (1#8 <<< c.pilot) = c.enabled := by
      refine BitVec.eq_of_getLsbD_eq fun i eight => ?_
      rw [BitVec.getLsbD_or, getLsbD_channel _ eight]
      by_cases here : i = c.pilot
      · simp [here, enabled]
      · simp [here]
    simp only [agreePilot, source, same]
    rw [← source]

/-! ### Both ways -/

theorem clamped_cfgLegal (raw : ConfigRecord) : cfgLegal (agreeFields (clampRanges raw)) = true := by
  have plain : plainLegal (agreeFields (clampRanges raw)) = true := by
    rw [agreeFields_eq]
    exact plainLegal_clampRanges raw
  have axes : axesLegal (agreeFields (clampRanges raw)) = true := by
    rw [agreeFields_eq]
    simp (disch := decide) only [axesLegal, clampRanges, agreed_axisCfgLegal, Bool.and_true]
  have top : 0 ≤ (agreeLimits (clampRanges raw).mast).softMax :=
    le_max_of_le_left (inRangeInt_iff.1 (clampInt_inRange (lo := 0) (hi := 16000) (by decide) raw.mast.softMin)).1
  have cradle := agreed_cradleLegal (c := clampRanges raw) (clampNat_inRange (by decide) _) (clampNat_inRange (by decide) _) top
  have steps := agreed_stepsLegal (c := clampRanges raw) (clampNat_inRange (by decide) _) (clampNat_inRange (by decide) _)
  have pilot := agreed_pilotLegal (c := clampRanges raw) (clampNat_inRange (by decide) _)
  rw [cfgLegal_parts, plain, axes, cradle, agreed_stowTilt, steps, pilot]
  rfl

theorem clampRanges_legal (plain : plainLegal c = true) (axes : axesLegal c = true) (cradle : cradleLegal c = true) (steps : stepsLegal c = true) :
    clampRanges c = c := by
  simp only [plainLegal, List.all_cons, List.all_nil, Bool.and_true, Bool.and_eq_true, decide_eq_true_eq, List.all_eq_true] at plain
  simp only [axesLegal, Bool.and_eq_true] at axes
  simp only [cradleLegal, stepsLegal, Bool.and_eq_true] at cradle steps
  have each : c.watches.map clampWatch = c.watches.map id := List.map_congr_left fun w mem => clampWatch_legal (by simp only [plain, mem])
  have watches : c.watches.map clampWatch = c.watches := each.trans (List.map_id _)
  simp only [clampRanges, clampNat_legal, clampInt_legal, clampDepth_legal, clampOdd_legal, clampAxis_legal, watches, plain, axes, cradle, steps]

theorem agreeFields_legal (h : cfgLegal c = true) : agreeFields c = c := by
  rw [cfgLegal_parts] at h
  simp only [Bool.and_eq_true] at h
  obtain ⟨⟨⟨⟨⟨-, axes⟩, cradle⟩, tilt⟩, steps⟩, pilot⟩ := h
  simp only [axesLegal, Bool.and_eq_true] at axes
  obtain ⟨⟨⟨mastAxis, panAxis⟩, tiltAxis⟩, polAxis⟩ := axes
  simp only [cradleLegal, stepsLegal, Bool.and_eq_true, decide_eq_true_eq] at cradle steps
  obtain ⟨⟨⟨-, under⟩, -⟩, window⟩ := cradle
  obtain ⟨⟨-, low⟩, high⟩ := steps
  have clear : min c.cradleClear c.mast.softMax.toNat = c.cradleClear := min_eq_left (by omega)
  have track : clampNat c.deltaMin c.delta0 c.deltaTrack = c.deltaTrack := clampNat_legal (inRange_iff.2 ⟨low, high⟩)
  rw [agreeFields_eq]
  simp only [agreeLimits_legal mastAxis, agreeLimits_legal panAxis, agreeLimits_legal tiltAxis, agreeLimits_legal polAxis, agreeSpeeds_legal mastAxis,
    agreeSpeeds_legal panAxis, agreeSpeeds_legal tiltAxis, agreeSpeeds_legal polAxis, clear, min_eq_left window, clampInt_legal tilt, min_eq_left (low.trans high), track,
    agreePilot_legal pilot]

end

/-- Settles O25: the fields by `plainLegal_clampRanges`, the agreement step by step; and each clamp is the identity on a legal field. -/
theorem clampingMakesARecordLegalAndKeepsALegalOne : Obligations.ClampingMakesARecordLegalAndKeepsALegalOne := by
  refine fun raw => ⟨clamped_cfgLegal raw, fun legal => ?_⟩
  have parts := legal
  rw [cfgLegal_parts] at parts
  simp only [Bool.and_eq_true] at parts
  obtain ⟨⟨⟨⟨⟨plain, axes⟩, cradle⟩, -⟩, steps⟩, -⟩ := parts
  rw [clampRanges_legal plain axes cradle steps, agreeFields_legal legal]

end Sys2Proof.Machine
end

