-- ==== Sys2Proof/Proofs/StartSequence.lean ====
section
/-! PROOFS. The start sequence (R26, R27): what each of its steps writes, and the part it brings up (O26). -/

namespace Sys2Proof.Machine

/-! ### Step 1: the scan (R62) -/

/-- The first conversion is a scan conversion of the lowest enabled channel; with none enabled there is none. -/
theorem beginScan_converter (e : Env) (p : Plant) :
    (beginScan e p).smp.converter = ((List.range 8).find? fun i => (cfgOf e).enabled.getLsbD i).map fun i => { channel := i, purpose := .scan } := by
  rw [← List.head?_filter]
  change (beginConversion e false _).converter = (scanRound e).head?.map _
  unfold beginConversion
  cases scanRound e <;> rfl

/-! ### Step 2: the axes (R89, R101) -/

/-- The record of an axis after its reading at the start: FAULT without one (R26). -/
def startedAxis (e : Env) (a : Axis) (x : AxisPins) (r : AxisRec) : AxisRec :=
  if x.reading.isNone then { readAxis e a x r with state := .fault, reportStart := some e.clock } else readAxis e a x r

section
variable (e : Env) (a : Axis) (x : AxisPins) (p : Plant)

theorem axisOf_enterAtStart (kind : FaultKind) (b : Axis) :
    axisOf (enterAtStart e kind a p) b = if b = a then { axisOf p a with state := .fault, reportStart := some e.clock } else axisOf p b := by
  unfold enterAtStart
  dsimp only
  rw [axisOf_setAxisRaw]
  cases a <;> cases b <;> rfl

theorem axisOf_startAxis (b : Axis) : axisOf (startAxis e a x p) b = if b = a then startedAxis e a x (axisOf p a) else axisOf p b := by
  unfold startAxis startedAxis
  by_cases same : b = a <;> cases x.reading.isNone <;> simp [axisOf_enterAtStart, same]

/-- Step 2 writes the drives and the fault set. -/
theorem startAxis_rest : ∃ axd flt, startAxis e a x p = { p with axd := axd, flt := flt } := by
  unfold startAxis
  dsimp only
  split <;> exact ⟨_, _, rfl⟩

/-- The axis of a part that has made no reading: its position and its hold target are the reading, and it drives nothing. -/
theorem startedAxis_cold :
    (startedAxis e a x .cold).state = (if x.reading.isNone then .fault else .idle) ∧ (startedAxis e a x .cold).position = x.reading.map (·.toInt) ∧
      (startedAxis e a x .cold).target = x.reading.map (fun w => clampSoft e a w.toInt) ∧ axisAtRest (startedAxis e a x .cold) = true ∧
      (startedAxis e a x .cold).sensorValid = x.reading.isSome := by
  obtain ⟨reading, low, high⟩ := x
  cases reading <;> exact ⟨rfl, rfl, rfl, rfl, rfl⟩

end

/-- The SENSOR records of step 2 over a list of axes, in its order. -/
theorem sensorFaults_flatMap (pins : Axis → AxisPins) (l : List Axis) :
    (l.flatMap fun a => sensorFaults a (pins a)) = (l.filter fun a => (pins a).reading.isNone).map fun a => { kind := .sensor, axis := .one a } := by
  induction l with
  | nil => rfl
  | cons a l ih =>
    rw [List.flatMap_cons, ih, List.filter_cons, sensorFaults]
    split <;> rfl

/-! ### Step 3: the mast (R27) -/

/-- The MAST position with a valid sensor. -/
def startHeight (p : Plant) : Option Int := if (axisOf p .mast).sensorValid then (axisOf p .mast).position else none

/-- The mast is down and the head inside stow. -/
def startsStowed (e : Env) (p : Plant) : Bool := (startHeight p).any (fun h => decide (h ≤ ((cfgOf e).stowWindow : Int))) && headInsideStow e p

/-- The mast is below the cradle clear height with the head outside stow. -/
def startsUnparked (e : Env) (p : Plant) : Bool := (startHeight p).any (fun h => decide (h < ((cfgOf e).cradleClear : Int))) && !headInsideStow e p

/-- The mast state derived, and HEAD_UNPARKED entered when the head stands outside below the cradle clear height. -/
theorem deriveMast_eq (e : Env) (p : Plant) :
    deriveMast e p =
      let q := { p with msq := { p.msq with state := if startsStowed e p then .stowed else .halted .start } }
      if startsUnparked e p then enterAtStart e .headUnparked .mast q else q := by
  unfold deriveMast startsStowed startsUnparked
  simp only [← startHeight.eq_1]
  cases startHeight p with
  | none => rfl
  | some h => cases inside : headInsideStow e p <;> by_cases low : h ≤ ((cfgOf e).stowWindow : Int) <;> simp [low]

theorem deriveMast_rest (e : Env) (p : Plant) : ∃ axd flt, deriveMast e p =
    { p with axd := axd, flt := flt, msq := { p.msq with state := if startsStowed e p then .stowed else .halted .start } } := by
  rw [deriveMast_eq]
  dsimp only
  split <;> exact ⟨_, _, rfl⟩

theorem deriveMast_records (e : Env) (p : Plant) :
    (deriveMast e p).flt.records = p.flt.records ++ if startsUnparked e p then [{ kind := .headUnparked, axis := .one .mast }] else [] := by
  rw [deriveMast_eq]
  cases startsUnparked e p
  · exact (List.append_nil _).symm
  · rfl

theorem axisOf_deriveMast (e : Env) (p : Plant) (b : Axis) :
    axisOf (deriveMast e p) b =
      if startsUnparked e p = true ∧ b = .mast then { axisOf p b with state := .fault, reportStart := some e.clock } else axisOf p b := by
  rw [deriveMast_eq]
  cases startsUnparked e p
  · cases b <;> rfl
  · simp only [if_true, axisOf_enterAtStart, true_and]
    cases b <;> rfl

/-! ### The whole sequence -/

/-- Steps 1 and 2 on the plant that the load leaves. -/
def axesStarted (e : Env) (pins : Axis → AxisPins) (p : Plant) : Plant :=
  startAxis e .pol (pins .pol) (startAxis e .tilt (pins .tilt) (startAxis e .pan (pins .pan) (startAxis e .mast (pins .mast) (beginScan e p))))

section
variable {e : Env} {pins : Axis → AxisPins} {p : Plant}

theorem axesStarted_rest (e : Env) (pins : Axis → AxisPins) (p : Plant) : ∃ axd flt, axesStarted e pins p = { beginScan e p with axd := axd, flt := flt } := by
  obtain ⟨_, _, mast⟩ := startAxis_rest e .mast (pins .mast) (beginScan e p)
  obtain ⟨_, _, pan⟩ := startAxis_rest e .pan (pins .pan) (startAxis e .mast (pins .mast) (beginScan e p))
  obtain ⟨_, _, tilt⟩ := startAxis_rest e .tilt (pins .tilt) (startAxis e .pan (pins .pan) (startAxis e .mast (pins .mast) (beginScan e p)))
  obtain ⟨axd, flt, pol⟩ := startAxis_rest e .pol (pins .pol) (startAxis e .tilt (pins .tilt) (startAxis e .pan (pins .pan) (startAxis e .mast (pins .mast) (beginScan e p))))
  exact ⟨axd, flt, by rw [axesStarted, pol, tilt, pan, mast]⟩

theorem axesStarted_records (clear : p.flt.records = []) :
    (axesStarted e pins p).flt.records = (allAxes.filter fun a => (pins a).reading.isNone).map fun a => { kind := .sensor, axis := .one a } := by
  rw [← sensorFaults_flatMap]
  have scan : (beginScan e p).flt.records = [] := clear
  simp only [axesStarted, startAxis_records, scan, allAxes, List.flatMap_cons, List.flatMap_nil, List.append_assoc, List.nil_append, List.append_nil]

theorem axisOf_axesStarted (cold : ∀ a, axisOf p a = .cold) (a : Axis) : axisOf (axesStarted e pins p) a = startedAxis e a (pins a) .cold := by
  have scan : axisOf (beginScan e p) a = .cold := cold a
  cases a <;> simp [axesStarted, axisOf_startAxis, scan]

/-- An axis after step 3: at its reading and at rest, in FAULT without a reading, and MAST with the head unparked. -/
theorem axisOf_started (cold : ∀ a, axisOf p a = .cold) (a : Axis) :
    (axisOf (deriveMast e (axesStarted e pins p)) a).state =
        (if (pins a).reading.isNone ∨ (startsUnparked e (axesStarted e pins p) = true ∧ a = .mast) then .fault else .idle) ∧
      (axisOf (deriveMast e (axesStarted e pins p)) a).position = (pins a).reading.map (·.toInt) ∧
      (axisOf (deriveMast e (axesStarted e pins p)) a).target = (pins a).reading.map (fun w => clampSoft e a w.toInt) ∧
      axisAtRest (axisOf (deriveMast e (axesStarted e pins p)) a) = true := by
  obtain ⟨state, position, target, rest, -⟩ := startedAxis_cold e a (pins a)
  rw [axisOf_deriveMast, axisOf_axesStarted cold]
  by_cases out : startsUnparked e (axesStarted e pins p) = true ∧ a = .mast
  · rw [if_pos out, if_pos (.inr out)]
    exact ⟨rfl, position, target, rest⟩
  · rw [if_neg out]
    exact ⟨by simp only [state, out, or_false], position, target, rest⟩

theorem startHeight_started (cold : ∀ a, axisOf p a = .cold) : startHeight (axesStarted e pins p) = (pins .mast).reading.map (·.toInt) := by
  obtain ⟨-, position, -, -, valid⟩ := startedAxis_cold e .mast (pins .mast)
  rw [startHeight, axisOf_axesStarted cold, position, valid]
  cases (pins .mast).reading <;> rfl

/-- Steps 1 to 3 write the scan, the watches, the drives, the fault set and the mast state. -/
theorem started_rest (e : Env) (pins : Axis → AxisPins) (p : Plant) : ∃ axd flt, deriveMast e (axesStarted e pins p) =
    { beginScan e p with axd := axd, flt := flt, msq := { p.msq with state := if startsStowed e (axesStarted e pins p) then .stowed else .halted .start } } := by
  obtain ⟨_, _, axes⟩ := axesStarted_rest e pins p
  obtain ⟨axd, flt, mast⟩ := deriveMast_rest e (axesStarted e pins p)
  refine ⟨axd, flt, mast.trans ?_⟩
  generalize startsStowed e (axesStarted e pins p) = stowed
  rw [axes]
  rfl

/-- A head axis is inside stow when its reading is (R27). -/
theorem axisInsideStow_started (cold : ∀ a, axisOf p a = .cold) (a : Axis) :
    axisInsideStow e (axesStarted e pins p) a = readingWithin (pins a).reading (stowPosition e a) (stowWindowOf e a) := by
  obtain ⟨-, position, -, -, valid⟩ := startedAxis_cold e a (pins a)
  rw [axisInsideStow, axisOf_axesStarted cold, position, valid]
  cases (pins a).reading <;> rfl

theorem headInsideStow_started (cold : ∀ a, axisOf p a = .cold) :
    headInsideStow e (axesStarted e pins p) = (readingWithin (pins .pan).reading 0 (cfgOf e).stowPan &&
      readingWithin (pins .tilt).reading (cfgOf e).stowTilt (cfgOf e).stowTiltWindow && readingWithin (pins .pol).reading 0 (cfgOf e).stowPol) := by
  simp only [headInsideStow, headAxes, List.all_cons, List.all_nil, Bool.and_true, axisInsideStow_started cold, Bool.and_assoc]
  rfl

end

/-- Steps 4 and 6: the latch SET with cause START, and the status posted. -/
def broughtUp (e : Env) (pins : Axis → AxisPins) (p : Plant) : Plant :=
  let q := deriveMast e (axesStarted e pins p)
  postStatus e { q with aut := { q.aut with latch := some .start, statusStart := some e.clock } }

theorem axisOf_broughtUp (e : Env) (pins : Axis → AxisPins) (p : Plant) (a : Axis) :
    axisOf (broughtUp e pins p) a = axisOf (deriveMast e (axesStarted e pins p)) a :=
  axisOf_congr rfl a

/-- What the load leaves: every block at its cold-start values, the roles of the peer view bound (R46). -/
theorem quiet_loaded {s : State} (phase : s.setup.phase = .loaded) (h : quiet s = true) : s.plant = { Plant.cold with pvw := boundView (envOf s) } := by
  simp only [quiet, phase, Bool.and_eq_true, decide_eq_true_eq] at h
  exact h.2

/-- START_SEQUENCE from the end of a load (R26). -/
theorem exec_startSequence {s : State} (phase : s.setup.phase = .loaded) (pins : Axis → AxisPins) :
    exec (.startSequence (pins .mast) (pins .pan) (pins .tilt) (pins .pol)) s =
      let e : Env := { clock := s.clock, setup := { s.setup with phase := .running } }
      .next { s with setup := e.setup, plant := broughtUp e pins s.plant } :=
  if_pos phase

/-- Settles O26: the steps in turn on the plant that the load leaves, every block of it at its cold-start values. -/
theorem theStartSequenceBringsThePartUp : Obligations.TheStartSequenceBringsThePartUp := by
  intro pins s phase q c inside stowed unparked
  obtain ⟨v, plant⟩ : ∃ v, s.plant = { Plant.cold with pvw := v } := ⟨_, quiet_loaded phase q⟩
  generalize env : ({ clock := s.clock, setup := { s.setup with phase := .running } } : Env) = e
  have cfg : cfgOf e = c := by rw [← env]; rfl
  have cold (a : Axis) : axisOf s.plant a = .cold := by rw [plant]; cases a <;> rfl
  have head : headInsideStow e (axesStarted e pins s.plant) = inside := by rw [headInsideStow_started cold, cfg]
  have height := startHeight_started (e := e) (pins := pins) cold
  have isStowed : startsStowed e (axesStarted e pins s.plant) = stowed := by
    rw [startsStowed, head, height, cfg]
    dsimp only [stowed]
    cases (pins .mast).reading <;> rfl
  have isUnparked : startsUnparked e (axesStarted e pins s.plant) = unparked := by
    rw [startsUnparked, head, height, cfg]
    dsimp only [unparked]
    cases (pins .mast).reading <;> rfl
  obtain ⟨_, _, started⟩ := started_rest e pins s.plant
  rw [isStowed] at started
  have records := deriveMast_records e (axesStarted e pins s.plant)
  rw [axesStarted_records (by rw [plant]; rfl), isUnparked] at records
  have axis (a : Axis) := axisOf_started (e := e) (pins := pins) cold a
  simp only [isUnparked] at axis
  have converter := beginScan_converter e s.plant
  rw [cfg] at converter
  subst env
  refine ⟨_, exec_startSequence phase pins, rfl, ?_, ?_, ?_, ?_, records, fun a => ?_, ?_⟩
  case refine_5 =>
    simp only [axisOf_broughtUp]
    exact axis a
  all_goals
    dsimp only
    rw [broughtUp, started]
  · rfl
  · rfl
  · exact converter
  · rw [plant]
    rfl
  · rw [plant]
    exact ⟨rfl, rfl, rfl, rfl, rfl, rfl, rfl⟩

end Sys2Proof.Machine
end

