-- ==== Sys2Proof/Proofs/PeerMoves.lean ====
section
/-! PROOFS. The moves that an event ends, axis by axis (R84, R94): the axes picked, the others, and what no such event changes. -/

namespace Sys2Proof.Machine

/-- The moves of a list ended, before any grant they return is handed out. -/
def movesEnded (e : Env) (picks : AxisRec → Bool) (l : List Axis) (p : Plant) : Plant :=
  l.foldl (fun x a => if picks (axisOf x a) then endMove e a x else x) p

theorem endMoves_eq (e : Env) (picks : AxisRec → Bool) (l : List Axis) (p : Plant) :
    endMoves e picks l p = afterLeaving e p (movesEnded e picks l p) := rfl

theorem movesEnded_cons (e : Env) (picks : AxisRec → Bool) (a : Axis) (l : List Axis) (p : Plant) :
    movesEnded e picks (a :: l) p = movesEnded e picks l (if picks (axisOf p a) then endMove e a p else p) := rfl

section
variable (e : Env) (picks : AxisRec → Bool)

/-! ### One move ended -/

/-- Another axis is as it was. -/
theorem axisOf_endMove_ne {a b : Axis} (ne : b ≠ a) (p : Plant) : axisOf (endMove e a p) b = axisOf p b := by
  unfold endMove
  cases (axisOf p a).state <;> simp [abandonWaiting, toStopping, ne]

theorem settleRecord_position (x r : AxisRec) : (settleRecord e x r).position = r.position := by
  obtain ⟨-, -, -, -, -, -, position, -⟩ := settleRecord_fields e x r
  exact position

theorem endMove_position (a b : Axis) (p : Plant) : (axisOf (endMove e a p) b).position = (axisOf p b).position := by
  by_cases same : b = a
  · subst same
    unfold endMove
    cases (axisOf p b).state <;> simp [abandonWaiting, toStopping, settleRecord_position, clearMove, atRest]
  · rw [axisOf_endMove_ne e same]

/-- No axis begins to hold a grant at the end of a move. -/
theorem endMove_grants {a b : Axis} {p : Plant} (m : b ∈ (endMove e a p).axd.grants) : b ∈ p.axd.grants := by
  unfold endMove at m
  cases st : (axisOf p a).state
  case waiting => rw [st] at m; simpa [abandonWaiting, leaveWaiting] using m
  case moving | settling =>
    rw [st] at m
    simp only [toStopping, leaveGrants, putAxis_axd, grants_setAxisRaw, removeAll, List.mem_filter] at m
    exact m.1
  all_goals rw [st] at m; exact m

/-! ### The moves of a list ended -/

/-- What the end of a move keeps, the end of the moves of a list keeps. -/
theorem movesEnded_keeps {P : Plant → Prop} (step : ∀ a q, P q → P (endMove e a q)) (l : List Axis) : ∀ {p : Plant}, P p → P (movesEnded e picks l p) := by
  induction l with
  | nil => exact id
  | cons a l ih =>
    intro p h
    rw [movesEnded_cons]
    split
    · exact ih (step a p h)
    · exact ih h

theorem movesEnded_position (l : List Axis) (b : Axis) (p : Plant) : (axisOf (movesEnded e picks l p) b).position = (axisOf p b).position :=
  movesEnded_keeps e picks (P := fun q => (axisOf q b).position = (axisOf p b).position) (fun a q h => (endMove_position e a b q).trans h) l rfl

theorem movesEnded_waiting (l : List Axis) {b : Axis} {p : Plant} (m : b ∈ (movesEnded e picks l p).axd.waiting) : b ∈ p.axd.waiting :=
  movesEnded_keeps e picks (P := fun q => b ∈ q.axd.waiting → b ∈ p.axd.waiting) (fun _ _ h m => h (endMove_waiting m).1) l id m

theorem movesEnded_grants (l : List Axis) {p : Plant} (none : p.axd.grants = []) : (movesEnded e picks l p).axd.grants = [] :=
  movesEnded_keeps e picks (P := fun q => q.axd.grants = [])
    (fun _ _ h => List.eq_nil_iff_forall_not_mem.2 fun b m => List.eq_nil_iff_forall_not_mem.1 h b (endMove_grants e m)) l none

/-- An axis that is not on the list is as it was. -/
theorem axisOf_movesEnded_notMem {l : List Axis} {b : Axis} (out : b ∉ l) (p : Plant) : axisOf (movesEnded e picks l p) b = axisOf p b := by
  induction l generalizing p with
  | nil => rfl
  | cons a l ih =>
    obtain ⟨ne, out⟩ := not_or.1 (mt List.mem_cons.2 out)
    rw [movesEnded_cons, ih out]
    split
    · exact axisOf_endMove_ne e ne p
    · rfl

/-- An axis that is picked has its move ended, and waits no more. -/
theorem movesEnded_picked {l : List Axis} {b : Axis} {p : Plant} (once : l.Nodup) (mem : b ∈ l) (picked : picks (axisOf p b) = true) :
    (axisOf (movesEnded e picks l p) b).state = endedState (axisOf p b).state ∧
      (b ∈ (movesEnded e picks l p).axd.waiting → b ∈ p.axd.waiting ∧ (axisOf p b).state ≠ .waiting) := by
  induction l generalizing p with
  | nil => cases mem
  | cons a l ih =>
    obtain ⟨out, once⟩ := List.nodup_cons.1 once
    rw [movesEnded_cons]
    by_cases same : b = a
    · subst same
      rw [if_pos picked, axisOf_movesEnded_notMem e picks out, endMove_state, if_pos rfl]
      exact ⟨rfl, fun m => by
        obtain ⟨before, still⟩ := endMove_waiting (movesEnded_waiting e picks l m)
        exact ⟨before, still rfl⟩⟩
    · have later := List.mem_of_ne_of_mem same mem
      split
      · have kept := axisOf_endMove_ne e same p
        obtain ⟨state, waiting⟩ := ih once later (p := endMove e a p) (by rw [kept]; exact picked)
        rw [kept] at state waiting
        exact ⟨state, fun m => ⟨(endMove_waiting (waiting m).1).1, (waiting m).2⟩⟩
      · exact ih once later picked

/-! ### With the grants they return handed out (R94) -/

theorem handGrants_waiting (n : Nat) {b : Axis} {p : Plant} (m : b ∈ (handGrants e n p).axd.waiting) : b ∈ p.axd.waiting := by
  induction n generalizing p with
  | zero => exact m
  | succ n ih => exact tryGrant_waiting e p (ih m)

theorem afterLeaving_waiting {b : Axis} {p q : Plant} (m : b ∈ (afterLeaving e p q).axd.waiting) : b ∈ q.axd.waiting := handGrants_waiting e _ m

theorem endMoves_waiting {l : List Axis} {b : Axis} {p : Plant} (m : b ∈ (endMoves e picks l p).axd.waiting) : b ∈ p.axd.waiting :=
  movesEnded_waiting e picks l (afterLeaving_waiting e m)

theorem endMoves_position (l : List Axis) (b : Axis) (p : Plant) : (axisOf (endMoves e picks l p) b).position = (axisOf p b).position :=
  (grantedOrSame_position (afterLeaving_axis e p _ b).1).trans (movesEnded_position e picks l b p)

/-- An axis that is not on the list: as it was, or granted where it waited. -/
theorem endMoves_notMem {l : List Axis} {b : Axis} (out : b ∉ l) (p : Plant) :
    grantedOrSame (axisOf p b) (axisOf (endMoves e picks l p) b) ∧ (b ∉ p.axd.waiting → axisOf (endMoves e picks l p) b = axisOf p b) := by
  obtain ⟨granted, same⟩ := afterLeaving_axis e p (movesEnded e picks l p) b
  rw [axisOf_movesEnded_notMem e picks out] at granted same
  exact ⟨granted, fun w => same fun m => w (movesEnded_waiting e picks l m)⟩

/-- An axis that is picked: its move ended, and it waits no more. -/
theorem endMoves_picked {l : List Axis} {b : Axis} {p : Plant} (once : l.Nodup) (mem : b ∈ l) (picked : picks (axisOf p b) = true)
    (listed : b ∈ p.axd.waiting → (axisOf p b).state = .waiting) :
    (axisOf (endMoves e picks l p) b).state = endedState (axisOf p b).state ∧ b ∉ (endMoves e picks l p).axd.waiting := by
  obtain ⟨state, waiting⟩ := movesEnded_picked e picks once mem picked
  have gone : b ∉ (movesEnded e picks l p).axd.waiting := fun m => (waiting m).2 (listed (waiting m).1)
  exact ⟨(congrArg AxisRec.state ((afterLeaving_axis e p _ b).2 gone)).trans state, fun m => gone (afterLeaving_waiting e m)⟩

/-- With no grant held, none is returned: an axis that is not on the list is as it was. -/
theorem endMoves_noGrants {l : List Axis} {p : Plant} (none : p.axd.grants = []) :
    (endMoves e picks l p).axd.grants = [] ∧ ∀ b, b ∉ l → axisOf (endMoves e picks l p) b = axisOf p b := by
  have quiet : endMoves e picks l p = movesEnded e picks l p := by rw [endMoves_eq, afterLeaving, none]; simp [handGrants]
  rw [quiet]
  exact ⟨movesEnded_grants e picks l none, fun b out => axisOf_movesEnded_notMem e picks out p⟩

end

/-! ### Axes listed as waiting -/

/-- Every axis on the waiting list is WAITING (R94). -/
def listedWait (p : Plant) : Prop := ∀ a ∈ p.axd.waiting, (axisOf p a).state = .waiting

theorem listedWait_of_sound {p : Plant} (sound : arbiterSound p = true) : listedWait p :=
  fun _ m => by_contra fun h => not_waiting sound h m

theorem removeAll_mem {l : List Axis} {a b : Axis} : b ∈ removeAll l a ↔ b ∈ l ∧ b ≠ a := by simp [removeAll]

theorem listedWait_tryGrant (e : Env) {p : Plant} (h : listedWait p) : listedWait (tryGrant e p) := by
  intro b m
  have before := tryGrant_waiting e p m
  unfold tryGrant grantAxis at m ⊢
  split at m
  · rename_i room
    rw [if_pos room]
    split at m
    · simp only [putAxis_axd, waiting_setAxisRaw, axisOf_putAxis] at m ⊢
      rw [if_neg (removeAll_mem.1 m).2]
      exact (congrArg AxisRec.state (axisOf_congr rfl b)).trans (h b before)
    · exact h b before
  · rename_i full
    rw [if_neg full]
    exact h b before

theorem listedWait_endMove (e : Env) (a : Axis) {p : Plant} (h : listedWait p) : listedWait (endMove e a p) := by
  intro b m
  obtain ⟨before, other⟩ := endMove_waiting m
  have ne : b ≠ a := fun same => other same (h b before)
  rw [axisOf_endMove_ne e ne]
  exact h b before

theorem listedWait_endMoves (e : Env) (picks : AxisRec → Bool) (l : List Axis) {p : Plant} (h : listedWait p) : listedWait (endMoves e picks l p) := by
  rw [endMoves_eq, afterLeaving]
  have ended : listedWait (movesEnded e picks l p) := movesEnded_keeps e picks (fun a _ => listedWait_endMove e a) l h
  generalize p.axd.grants.length - (movesEnded e picks l p).axd.grants.length = n
  generalize movesEnded e picks l p = q at ended
  induction n generalizing q with
  | zero => exact ended
  | succ n ih => exact ih _ (listedWait_tryGrant e ended)

end Sys2Proof.Machine
end

