-- ==== Sys2Proof/Proofs/PeerHeadWork.lean ====
section
/-! PROOFS. What PNT, PAT and PKE leave alone, said once: PVW, AUT, the fault set and the mast state, and the MAST axis but for a grant
that it waits for. One lemma for each of their operations. -/

namespace Sys2Proof.Machine

/-- `q` comes from `p` by work on the head. -/
structure HeadWork (p q : Plant) : Prop where
  pvw : q.pvw = p.pvw
  aut : q.aut = p.aut
  flt : q.flt = p.flt
  msq : q.msq = p.msq
  mast : grantedOrSame (axisOf p .mast) (axisOf q .mast)
  rested : .mast ∉ p.axd.waiting → axisOf q .mast = axisOf p .mast ∧ .mast ∉ q.axd.waiting

theorem HeadWork.refl (p : Plant) : HeadWork p p := ⟨rfl, rfl, rfl, rfl, .inl rfl, fun out => ⟨rfl, out⟩⟩

section
variable {e : Env} {p q r : Plant}

theorem HeadWork.trans (h : HeadWork p q) (g : HeadWork q r) : HeadWork p r where
  pvw := g.pvw.trans h.pvw
  aut := g.aut.trans h.aut
  flt := g.flt.trans h.flt
  msq := g.msq.trans h.msq
  mast := grantedOrSame_trans h.mast g.mast
  rested out := by
    obtain ⟨first, still⟩ := h.rested out
    obtain ⟨second, last⟩ := g.rested still
    exact ⟨second.trans first, last⟩

/-- A write of the records and posts of the blocks at work. -/
theorem HeadWork.write (h : HeadWork p q) (posts : PostQueue) (smp : Sampler) (watches : List WatchState) (pnt : Pointing) (pat : Option Pattern) (run : Run)
    (monitor : Monitor) : HeadWork p { q with posts := posts, smp := smp, watches := watches, pnt := pnt, pat := pat, run := run, monitor := monitor } :=
  ⟨h.pvw, h.aut, h.flt, h.msq, h.mast, h.rested⟩

/-- A change of the drives alone. -/
theorem HeadWork.drives (h : HeadWork p q) (only : OnlyDrives q r) (mast : grantedOrSame (axisOf q .mast) (axisOf r .mast))
    (rested : .mast ∉ q.axd.waiting → axisOf r .mast = axisOf q .mast ∧ .mast ∉ r.axd.waiting) : HeadWork p r := by
  obtain ⟨posts, axd, rfl⟩ := only
  exact h.trans ⟨rfl, rfl, rfl, rfl, mast, rested⟩

/-! ### AXD and ARB -/

theorem putAxis_headWork (h : HeadWork p q) {a : Axis} (head : a ≠ .mast) (r : AxisRec) : HeadWork p (putAxis e a r q) := by
  have mast : axisOf (putAxis e a r q) .mast = axisOf q .mast := by rw [axisOf_putAxis, if_neg head.symm]
  exact h.drives (putAxis_onlyDrives e a r q) (.inl mast) fun out => ⟨mast, by rw [putAxis_axd]; exact out⟩

theorem noteRequester_headWork (h : HeadWork p q) (who : Requester) {a : Axis} (head : a ≠ .mast) : HeadWork p (noteRequester who a q) := by
  have mast : axisOf (noteRequester who a q) .mast = axisOf q .mast := by rw [noteRequester, axisOf_setAxisRaw, if_neg head.symm]
  exact h.drives (setAxisRaw_onlyDrives _ _ q) (.inl mast) fun out => ⟨mast, out⟩

theorem joinWaiting_headWork (h : HeadWork p q) {a : Axis} (head : a ≠ .mast) (r : AxisRec) : HeadWork p (joinWaiting e a r q) := by
  obtain ⟨granted, same⟩ := (joinWaiting_axis e a .mast r q).2 head.symm
  refine h.drives (joinWaiting_onlyDrives e a r q) granted fun out => ⟨same out, fun m => ?_⟩
  have listed := tryGrant_waiting _ _ m
  simp only [waiting_listWaiting, putAxis_axd, waiting_setAxisRaw, mem_insertNew] at listed
  exact listed.elim head.symm out

theorem endMoves_headWork (h : HeadWork p q) (picks : AxisRec → Bool) {l : List Axis} (head : .mast ∉ l) : HeadWork p (endMoves e picks l q) := by
  obtain ⟨granted, same⟩ := endMoves_notMem e picks head q
  exact h.drives (endMoves_onlyDrives e picks l q) granted fun out => ⟨same out, fun m => out (endMoves_waiting e picks m)⟩

theorem replaceMove_headWork (h : HeadWork p q) (m : MoveRequest) (target : Int) (head : m.axis ≠ .mast) : HeadWork p (replaceMove e m target q) := by
  unfold replaceMove
  dsimp only
  repeat' split
  all_goals exact putAxis_headWork h head _

theorem requestFromClamp_headWork (h : HeadWork p q) (m : MoveRequest) (head : m.axis ≠ .mast) : HeadWork p (requestFromClamp e m q).1 := by
  unfold requestFromClamp
  dsimp only
  split
  · exact h
  split
  · exact joinWaiting_headWork h head _
  · exact joinWaiting_headWork h head _
  iterate 3
    · split
      · exact replaceMove_headWork h m _ head
      · exact noteRequester_headWork h _ head
  · exact noteRequester_headWork h _ head

theorem moveRequest_headWork (h : HeadWork p q) (m : MoveRequest) (head : m.axis ≠ .mast) : HeadWork p (moveRequest e m q).1 := by
  unfold moveRequest
  dsimp only
  split
  · exact h
  split
  · exact noteRequester_headWork h _ head
  split
  · exact h
  split
  · exact h
  · exact requestFromClamp_headWork h m head

theorem cancelWork_headWork (h : HeadWork p q) (who : Requester) {l : List Axis} (head : .mast ∉ l) : HeadWork p (cancelDwell who (cancelMoves e who l q)) := by
  obtain ⟨_, dwell⟩ := cancelDwell_rest who (cancelMoves e who l q)
  rw [dwell]
  exact (endMoves_headWork h _ head).write _ _ _ _ _ _ _

/-! ### Posts and records -/

theorem updateRun_headWork (h : HeadWork p q) (f : Run → Run) : HeadWork p (updateRun f q) := h.write _ _ _ _ _ _ _

theorem runStage_headWork (h : HeadWork p q) (st : RunStage) : HeadWork p (runStage st q) := h.write _ _ _ _ _ _ _

theorem updatePattern_headWork (h : HeadWork p q) (f : Pattern → Pattern) : HeadWork p (updatePattern f q) := h.write _ _ _ _ _ _ _

theorem patternStage_headWork (h : HeadWork p q) (st : PatternStage) : HeadWork p (patternStage st q) := h.write _ _ _ _ _ _ _

theorem setHanding_headWork (h : HeadWork p q) (on : Bool) : HeadWork p (setHanding on q) := h.write _ _ _ _ _ _ _

theorem withRecord_headWork (h : HeadWork p q) (f : PointingRecord → PointingRecord) : HeadWork p (withRecord f q) := h.write _ _ _ _ _ _ _

theorem monitorOff_headWork (h : HeadWork p q) : HeadWork p (monitorOff q) := h.write _ _ _ _ _ _ _

theorem trackStart_headWork (h : HeadWork p q) : HeadWork p (trackStart e q) := h.write _ _ _ _ _ _ _

theorem postDwell_headWork (h : HeadWork p q) (k : PointKind) (x y z : Int) : HeadWork p (postDwell e k x y z q) := h.write _ _ _ _ _ _ _

theorem postDwellHere_headWork (h : HeadWork p q) (k : PointKind) (level : Int) : HeadWork p (postDwellHere e k level q) := h.write _ _ _ _ _ _ _

theorem takeRowEnd_headWork (h : HeadWork p q) (row pass : Nat) : HeadWork p (takeRowEnd e row pass q) := h.write _ _ _ _ _ _ _

theorem setPointing_headWork (h : HeadWork p q) (st : PointState) : HeadWork p (setPointing e st q) := by
  obtain ⟨_, set⟩ := setPointing_rest e st q
  rw [set]
  exact h.write _ _ _ _ _ _ _

/-! ### The slew and the end of a run (R127, R129, R159) -/

theorem enterTracking_headWork (h : HeadWork p q) : HeadWork p (enterTracking e q) := by
  unfold enterTracking
  split
  · exact trackStart_headWork (setPointing_headWork h _)
  · exact monitorOff_headWork (setPointing_headWork h _)

theorem slewFails_headWork (h : HeadWork p q) : HeadWork p (slewFails e q) := by
  have cancelled : HeadWork p (cancelMoves e .pnt headAxes q) := endMoves_headWork h _ (by decide)
  exact setPointing_headWork (cancelled.write _ _ _ _ _ _ _) _

theorem slewRequests_headWork {l : List Axis} (head : .mast ∉ l) {q : Plant} (h : HeadWork p q) : HeadWork p (slewRequests e l q) := by
  induction l generalizing q with
  | nil => exact h
  | cons a l ih =>
    obtain ⟨ne, rest⟩ := not_or.1 (mt List.mem_cons.2 head)
    have asked := moveRequest_headWork (e := e) h (slewMove e q a) (Ne.symm ne)
    unfold slewRequests
    dsimp only
    split
    · exact slewFails_headWork asked
    · exact ih rest asked

theorem startSlew_headWork (h : HeadWork p q) : HeadWork p (startSlew e q) := slewRequests_headWork (by decide) (h.write _ _ _ _ _ _ _)

theorem takeRunEnd_headWork (h : HeadWork p q) (quality : Quality) (centre : HeadPoint) (level : Int) :
    HeadWork p (takeRunEnd e quality centre level q) := by
  have done : HeadWork p (let r := writeRunEnd quality centre level q
      if flagTrackSet r then enterTracking e r else monitorOff (setPointing e .pointed r)) := by
    have written : HeadWork p (writeRunEnd quality centre level q) := withRecord_headWork h _
    dsimp only
    split
    · exact enterTracking_headWork written
    · exact monitorOff_headWork (setPointing_headWork written _)
  unfold takeRunEnd
  dsimp only
  split
  · exact done
  · exact done
  · exact h

/-! ### PKE -/

theorem requestPointAxis_headWork {x : Plant × PointMoves} (h : HeadWork p x.1) (who : Requester) {a : Axis} (head : a ≠ .mast) (target : Int) :
    HeadWork p (requestPointAxis e who a target x).1 := by
  have asked := moveRequest_headWork (e := e) h (pointMove who a target none) head
  unfold requestPointAxis
  dsimp only
  split
  · exact h
  · split <;> exact asked

theorem requestPoint_headWork (h : HeadWork p q) (who : Requester) (target : HeadPoint) : HeadWork p (requestPoint e who target q).1 := by
  have pan : HeadWork p (requestPointAxis e who .pan target.pan (q, { moveList := [.pan, .tilt], blocked := false, barred := false })).1 :=
    requestPointAxis_headWork h who (by decide) _
  exact requestPointAxis_headWork pan who (by decide) _

theorem runMoves_headWork (h : HeadWork p q) (st : RunStage) : HeadWork p (runMoves e st q) := by
  unfold runMoves
  exact updateRun_headWork (requestPoint_headWork h .pke _) _

theorem openRunMeasurement_headWork (h : HeadWork p q) : HeadWork p (openRunMeasurement e q) := updateRun_headWork h _

theorem runJobs_headWork (fuel : Nat) (job : RunJob) (h : HeadWork p q) : HeadWork p (runJobs e fuel job q) := by
  induction fuel generalizing job q with
  | zero => exact h
  | succ n ih =>
    cases job with
    | go st =>
      have moved : HeadWork p (runMoves e st (runStage st q)) := runMoves_headWork (runStage_headWork h st) st
      simp only [runJobs]
      split
      · exact ih _ moved
      · exact moved
    | arrived st =>
      cases st with
      | toPoint =>
        simp only [runJobs]
        split
        · exact ih _ (postDwell_headWork h _ _ _ _)
        · exact openRunMeasurement_headWork (runStage_headWork h _)
      | toClose => exact openRunMeasurement_headWork (runStage_headWork h _)
      | toBest => exact takeRunEnd_headWork (updateRun_headWork h _) _ _ _
      | settle | measure | closeSettle | closeMeasure => exact h
    | level l =>
      have stored := updateRun_headWork h (storeRoundLevel l)
      simp only [runJobs]
      split
      · exact ih _ (updateRun_headWork stored _)
      · exact ih _ stored
    | roundEnd =>
      have counted (f : Run → Run) : HeadWork p (countRound (updateRun f q)) := withRecord_headWork (updateRun_headWork h f) _
      simp only [runJobs]
      split
      · exact ih _ (updateRun_headWork (counted _) _)
      split
      · exact ih _ (counted _)
      · exact ih _ (updateRun_headWork (counted _) _)

theorem discardRun_headWork (h : HeadWork p q) : HeadWork p (discardRun e q) := by
  have stopped : HeadWork p (cancelDwell .pke (cancelMoves e .pke pointAxes q)) := cancelWork_headWork h .pke (by decide)
  exact stopped.write _ _ _ _ _ _ _

theorem startRun_headWork (h : HeadWork p q) (centre : HeadPoint) (delta : Nat) : HeadWork p (startRun e centre delta q) :=
  runJobs_headWork _ _ ((withRecord_headWork (discardRun_headWork h) _).write _ _ _ _ _ _ _)

theorem suspendRun_headWork (h : HeadWork p q) : HeadWork p (suspendRun e q) := by
  unfold suspendRun
  split
  · exact updateRun_headWork (cancelWork_headWork h .pke (by decide)) _
  · exact updateRun_headWork h _
  all_goals exact h

theorem resumeRun_headWork (h : HeadWork p q) : HeadWork p (resumeRun e q) := by
  unfold resumeRun
  split
  · exact updateRun_headWork h _
  all_goals exact h

theorem runMean_headWork (h : HeadWork p q) (level : Int) : HeadWork p (runMean e level q) := by
  unfold runMean
  split
  · exact runJobs_headWork _ _ (postDwellHere_headWork h _ _)
  · exact takeRunEnd_headWork (updateRun_headWork (postDwellHere_headWork h _ _) _) _ _ _
  · exact h

theorem runMeasured_headWork (h : HeadWork p q) : HeadWork p (runMeasured e q) := by
  unfold runMeasured
  split
  · exact runMean_headWork h _
  · exact h

theorem runReport_headWork (h : HeadWork p q) (x : LevelReport) : HeadWork p (runReport e x q) := by
  have judged : HeadWork p (runMeasured e (updateRun (fun r => { r with measurement := judgeReport e x r.measurement }) q)) :=
    runMeasured_headWork (updateRun_headWork h _)
  cases status : q.run.status with
  | running st =>
    cases st with
    | settle | measure | closeSettle | closeMeasure => simp only [runReport, status]; exact judged
    | toPoint | toClose | toBest => simp only [runReport, status]; exact h
  | none | ended | suspended | resumeWait => simp only [runReport, status]; exact h

theorem trackSample_headWork (h : HeadWork p q) (sample : Int) : HeadWork p (trackSample e sample q) := by
  unfold trackSample
  dsimp only
  split
  · exact h
  · have ratcheted (c : Prop) [Decidable c] :
        HeadWork p (if c then postDwellHere e .trackPeak sample (withRecord (fun r => { r with peak := some sample }) q) else q) := by
      split
      · exact postDwellHere_headWork (withRecord_headWork h _) _ _
      · exact h
    exact (ratcheted _).write _ _ _ _ _ _ _
  · split
    · exact enterTracking_headWork h
    · exact h

theorem trackReport_headWork (h : HeadWork p q) (x : LevelReport) : HeadWork p (trackReport e x q) := by
  have seen : HeadWork p { q with monitor := { q.monitor with lastSequence := some x.sequence } } := h.write _ _ _ _ _ _ _
  unfold trackReport
  dsimp only
  split
  · exact seen
  · exact trackSample_headWork seen _

/-! ### PNT at the end of a search (R129, R148) -/

theorem enterPeaking_headWork (h : HeadWork p q) (centre : HeadPoint) (delta : Nat) : HeadWork p (enterPeaking e centre delta q) := by
  unfold enterPeaking
  split
  · exact startRun_headWork (setPointing_headWork h _) _ _
  · exact suspendRun_headWork (startRun_headWork (setPointing_headWork h _) _ _)

theorem takeFound_headWork (h : HeadWork p q) (found : HeadPoint) : HeadWork p (takeFound e found q) := by
  unfold takeFound
  split
  · exact enterPeaking_headWork h _ _
  · exact h.write _ _ _ _ _ _ _
  · exact h

theorem takeExhausted_headWork (h : HeadWork p q) : HeadWork p (takeExhausted e q) := by
  unfold takeExhausted
  split
  · exact startSlew_headWork (setPointing_headWork h _)
  · exact h.write _ _ _ _ _ _ _
  · exact h

/-! ### PAT -/

theorem requestSweep_headWork (h : HeadWork p q) (x : Pattern) : HeadWork p (requestSweep e x q).1 := by
  have asked := moveRequest_headWork (e := e) h (pointMove .pat .pan (patternTarget x x.points).pan (some (sweepCap e))) (by simp [pointMove])
  unfold requestSweep
  dsimp only
  split
  · exact setHanding_headWork (updatePattern_headWork asked _) _
  all_goals exact updatePattern_headWork asked _

theorem patternJobs_headWork (fuel : Nat) (job : PatternJob) (h : HeadWork p q) : HeadWork p (patternJobs e fuel job q) := by
  induction fuel generalizing job q with
  | zero => exact h
  | succ n ih =>
    unfold patternJobs
    dsimp only
    split
    · exact h
    rename_i x found
    have blocked : HeadWork p (postDwell e .searchBlocked x.targets.pan x.targets.tilt levelMin q) := postDwell_headWork h _ _ _ _
    cases job with
    | go =>
      have moved (f : Pattern → Pattern) :
          HeadWork p (updatePattern f (requestPoint e .pat (patternTarget x x.point) (patternStage (moveStage x) q)).1) :=
        updatePattern_headWork (requestPoint_headWork (patternStage_headWork h _) .pat _) f
      dsimp only
      split
      · exact ih _ (moved _)
      · exact moved _
    | arrived =>
      dsimp only
      split
      · split
        · exact ih _ blocked
        · exact updatePattern_headWork h _
      · split
        · exact ih _ blocked
        · split
          · exact ih _ (requestSweep_headWork h x)
          · exact requestSweep_headWork h x
      · exact ih _ (setHanding_headWork h _)
      · exact h
    | advance =>
      dsimp only
      split
      · exact ih _ (updatePattern_headWork h _)
      · exact ih _ h
    | rowEnd =>
      have ended : HeadWork p (takeRowEnd e x.row x.pass q) := takeRowEnd_headWork h _ _
      dsimp only
      split
      · exact ih _ (updatePattern_headWork ended _)
      split
      · exact ih _ (updatePattern_headWork ended _)
      · exact takeExhausted_headWork (updatePattern_headWork ended _)

theorem startPattern_headWork (h : HeadWork p q) (origin : HeadPoint) : HeadWork p (startPattern e origin q) := by
  unfold startPattern
  dsimp only
  split
  · exact patternJobs_headWork _ _ (postDwell_headWork (h.write _ _ _ _ _ _ _) _ _ _ _)
  · exact patternJobs_headWork _ _ (h.write _ _ _ _ _ _ _)

theorem stopPattern_headWork (h : HeadWork p q) : HeadWork p (stopPattern e q) := setHanding_headWork (cancelWork_headWork h .pat (by decide)) _

theorem suspendPattern_headWork (h : HeadWork p q) : HeadWork p (suspendPattern e q) := by
  unfold suspendPattern
  repeat' split
  · exact updatePattern_headWork (stopPattern_headWork h) _
  · exact updatePattern_headWork h _
  all_goals exact h

theorem haltPattern_headWork (h : HeadWork p q) (cause : PatternCause) : HeadWork p (haltPattern e cause q) := by
  unfold haltPattern
  split
  · exact updatePattern_headWork (stopPattern_headWork h) _
  · exact h

theorem resumePattern_headWork (h : HeadWork p q) : HeadWork p (resumePattern e q) := by
  unfold resumePattern
  repeat' split
  · exact updatePattern_headWork h _
  all_goals exact h

theorem searchLevel_headWork (h : HeadWork p q) (level : Int) : HeadWork p (searchLevel e level q) := by
  unfold searchLevel
  dsimp only
  split
  · split
    · exact takeFound_headWork (updatePattern_headWork (postDwellHere_headWork h _ _) _) _
    · exact patternJobs_headWork _ _ (postDwellHere_headWork h _ _)
  · exact h

theorem patternMean_headWork (h : HeadWork p q) (level : Int) : HeadWork p (patternMean e level q) := by
  unfold patternMean
  repeat' split
  · exact searchLevel_headWork h level
  all_goals exact h

theorem patternReport_headWork (h : HeadWork p q) (x : LevelReport) : HeadWork p (patternReport e x q) := by
  unfold patternReport
  split
  · have judged := updatePattern_headWork h fun y => { y with measurement := judgeReport e x y.measurement }
    unfold patternMeasured
    repeat' split
    · exact patternMean_headWork judged _
    all_goals exact judged
  · exact h

/-! ### PNT over PAT and PKE -/

theorem enterSearch_headWork (h : HeadWork p q) : HeadWork p (enterSearch e q) := by
  unfold enterSearch
  split
  · exact startPattern_headWork (setPointing_headWork h _) _
  · exact suspendPattern_headWork (startPattern_headWork (setPointing_headWork h _) _)

theorem presetMeasured_headWork (h : HeadWork p q) (level : Int) : HeadWork p (presetMeasured e level q) := by
  unfold presetMeasured
  dsimp only
  split
  · exact enterPeaking_headWork (postDwellHere_headWork h _ _) _ _
  · exact enterSearch_headWork (postDwellHere_headWork h _ _)

theorem presetReport_headWork (h : HeadWork p q) (x : LevelReport) : HeadWork p (presetReport e x q) := by
  unfold presetReport
  dsimp only
  split
  · split
    · exact presetMeasured_headWork (h.write _ _ _ _ _ _ _) _
    · exact h.write _ _ _ _ _ _ _
  · exact h

theorem stopSlew_headWork (h : HeadWork p q) : HeadWork p (stopSlew e q) := by
  have stopped : HeadWork p (cancelDwell .pnt (cancelMoves e .pnt headAxes q)) := cancelWork_headWork h .pnt (by decide)
  exact stopped.write _ _ _ _ _ _ _

theorem suspendWork_headWork (h : HeadWork p q) (x : Activity) : HeadWork p (suspendWork e x q) := by
  unfold suspendWork
  split
  · exact stopSlew_headWork h
  · exact stopSlew_headWork h
  · exact suspendPattern_headWork h
  · exact suspendRun_headWork h
  · exact monitorOff_headWork h

theorem resumePointing_headWork (h : HeadWork p q) (x : Activity) : HeadWork p (resumePointing e x q) := by
  unfold resumePointing
  split
  · exact startSlew_headWork (setPointing_headWork h _)
  · exact startSlew_headWork (setPointing_headWork h _)
  · exact resumePattern_headWork (setPointing_headWork h _)
  · dsimp only
    split
    · exact startRun_headWork ((setPointing_headWork h _).write _ _ _ _ _ _ _) _ _
    · exact resumeRun_headWork (setPointing_headWork h _)
  · exact trackStart_headWork (setPointing_headWork h _)

theorem haltPointing_headWork (h : HeadWork p q) (cause : PatternCause) : HeadWork p (haltPointing e cause q) := by
  have halted := discardRun_headWork (e := e) (haltPattern_headWork (e := e) (stopSlew_headWork (e := e) h) cause)
  unfold haltPointing
  split
  · exact h
  all_goals exact setPointing_headWork (halted.write _ _ _ _ _ _ _) _

theorem pointingPermissives_headWork (h : HeadWork p q) (lost : List Permissive) : HeadWork p (pointingPermissives e lost q) := by
  unfold pointingPermissives
  split
  · exact haltPointing_headWork h _
  split
  · split
    · exact h
    · exact setPointing_headWork (suspendWork_headWork h _) _
  · split
    · exact resumePointing_headWork h _
    · exact setPointing_headWork h _
  all_goals exact h

/-! ### A level report handed on (R44) -/

theorem handReport_headWork (h : HeadWork p q) (x : LevelReport) : HeadWork p (handReport e x q) := by
  unfold handReport
  split
  · exact presetReport_headWork h x
  split
  · exact patternReport_headWork h x
  split
  · exact runReport_headWork h x
  split
  · exact h
  · exact trackReport_headWork h x

end

end Sys2Proof.Machine
end

