-- ==== Sys2Proof/Proofs/PeerLosses.lean ====
section
/-! PROOFS. What a permissive change does (R38, R42, R43, R91, R108, R118, R130, R131) and what a DRIVE_AWAY raised after it leaves (R45). -/

namespace Sys2Proof.Machine

/-! ### MSQ's halt and the end of its moves -/

/-- `q` comes from `p` by the end of moves of MAST and by writes of the mast state: the head is as it was but for the grants returned. -/
structure MastWork (p q : Plant) : Prop where
  pvw : q.pvw = p.pvw
  aut : q.aut = p.aut
  flt : q.flt = p.flt
  pnt : q.pnt = p.pnt
  position : (axisOf q .mast).position = (axisOf p .mast).position
  ended : .mast ∉ p.axd.waiting → endedState (axisOf p .mast).state = (axisOf p .mast).state →
    (axisOf q .mast).state = (axisOf p .mast).state ∧ .mast ∉ q.axd.waiting
  head : ∀ a, a ≠ .mast → grantedOrSame (axisOf p a) (axisOf q a) ∧ (a ∉ p.axd.waiting → axisOf q a = axisOf p a ∧ a ∉ q.axd.waiting)
  noGrants : p.axd.grants = [] → q.axd.grants = [] ∧ ∀ a, a ≠ .mast → axisOf q a = axisOf p a
  listed : listedWait p → listedWait q

theorem MastWork.trans {p q r : Plant} (h : MastWork p q) (g : MastWork q r) : MastWork p r where
  pvw := g.pvw.trans h.pvw
  aut := g.aut.trans h.aut
  flt := g.flt.trans h.flt
  pnt := g.pnt.trans h.pnt
  position := g.position.trans h.position
  ended out rest := by
    obtain ⟨first, still⟩ := h.ended out rest
    obtain ⟨second, last⟩ := g.ended still (by rw [first]; exact rest)
    exact ⟨second.trans first, last⟩
  head a ne := by
    obtain ⟨first, same⟩ := h.head a ne
    obtain ⟨second, still⟩ := g.head a ne
    refine ⟨grantedOrSame_trans first second, fun out => ?_⟩
    obtain ⟨kept, out⟩ := same out
    obtain ⟨last, out⟩ := still out
    exact ⟨last.trans kept, out⟩
  noGrants none := by
    obtain ⟨still, first⟩ := h.noGrants none
    obtain ⟨last, second⟩ := g.noGrants still
    exact ⟨last, fun a ne => (second a ne).trans (first a ne)⟩
  listed l := g.listed (h.listed l)

/-- A write of the posts and the mast. -/
theorem MastWork.write {p q : Plant} (h : MastWork p q) (posts : PostQueue) (msq : Mast) : MastWork p { q with posts := posts, msq := msq } :=
  ⟨h.pvw, h.aut, h.flt, h.pnt, h.position, h.ended, h.head, h.noGrants, h.listed⟩

theorem MastWork.refl (p : Plant) : MastWork p p :=
  ⟨rfl, rfl, rfl, rfl, rfl, fun out _ => ⟨rfl, out⟩, fun _ _ => ⟨.inl rfl, fun out => ⟨rfl, out⟩⟩, fun none => ⟨none, fun _ _ => rfl⟩, id⟩

theorem endMoves_mastWork (e : Env) (picks : AxisRec → Bool) (p : Plant) : MastWork p (endMoves e picks [.mast] p) := by
  obtain ⟨posts, axd, only⟩ := endMoves_onlyDrives e picks [.mast] p
  refine ⟨by rw [only], by rw [only], by rw [only], by rw [only], endMoves_position e picks _ _ p, fun out rest => ?_, fun a ne => ?_, fun none => ?_,
    listedWait_endMoves e picks _⟩
  · rw [endMoves_of_ended (fun a m => by rw [List.mem_singleton.1 m]; exact rest)]
    exact ⟨rfl, out⟩
  · obtain ⟨granted, same⟩ := endMoves_notMem e picks (l := [.mast]) (by simpa using ne) p
    exact ⟨granted, fun out => ⟨same out, fun m => out (endMoves_waiting e picks m)⟩⟩
  · obtain ⟨still, same⟩ := endMoves_noGrants e picks (l := [.mast]) none
    exact ⟨still, fun a ne => same a (by simpa using ne)⟩

section
variable (e : Env) (p : Plant)

theorem cancelMastWork_onlyDrives : OnlyDrives p (cancelMastWork e p) := by
  unfold cancelMastWork cancelMove cancelMoves
  split
  · exact endMoves_onlyDrives e _ _ p
  · exact endMoves_onlyDrives e _ _ p
  · exact endMoves_onlyDrives e _ _ p
  all_goals exact .refl p

/-- HALTED is no mast event to PNT (R127, R131). -/
theorem setMast_halted (cause : HoldCause) : ∃ posts, setMast e (.halted cause) p = { p with posts := posts, msq := { p.msq with state := .halted cause } } := by
  obtain ⟨posts, status⟩ := postStatusIf_rest (decide (mastKey p.msq.state ≠ mastKey (.halted cause))) e { p with msq := { p.msq with state := .halted cause } }
  refine ⟨posts, ?_⟩
  unfold setMast
  dsimp only
  rw [status]
  rfl

/-- The mast HALTED: its moves cancelled, its state written (R103, R108). -/
theorem haltMast_eq (cause : HoldCause) (axis : Axis) (report : Bool) :
    ∃ posts, haltMast e cause axis report p = { cancelMastWork e p with posts := posts, msq := { p.msq with state := .halted cause } } := by
  obtain ⟨posts, set⟩ := setMast_halted e (cancelMastWork e p) cause
  have msq : (cancelMastWork e p).msq = p.msq := by
    obtain ⟨_, _, only⟩ := cancelMastWork_onlyDrives e p
    rw [only]
  unfold haltMast
  dsimp only
  rw [set, msq]
  split <;> exact ⟨_, rfl⟩

theorem haltMast_msq (cause : HoldCause) (axis : Axis) (report : Bool) : (haltMast e cause axis report p).msq = { p.msq with state := .halted cause } := by
  obtain ⟨posts, halted⟩ := haltMast_eq e p cause axis report
  rw [halted]

/-- Every other block is left. -/
theorem haltMast_rest (cause : HoldCause) (axis : Axis) (report : Bool) :
    ∃ posts axd msq, haltMast e cause axis report p = { p with posts := posts, axd := axd, msq := msq } := by
  obtain ⟨posts, halted⟩ := haltMast_eq e p cause axis report
  obtain ⟨_, axd, only⟩ := cancelMastWork_onlyDrives e p
  rw [halted, only]
  exact ⟨_, _, _, rfl⟩

variable {e p}

theorem cancelMastWork_raising {target : Int} {d : RaiseDirection} (state : p.msq.state = .raising target d) : cancelMastWork e p = cancelMove e .msq .mast p := by
  unfold cancelMastWork
  rw [state]

theorem haltMast_mastWork {target : Int} {d : RaiseDirection} (state : p.msq.state = .raising target d) (cause : HoldCause) (report : Bool) :
    MastWork p (haltMast e cause .mast report p) := by
  obtain ⟨posts, halted⟩ := haltMast_eq e p cause .mast report
  rw [halted, cancelMastWork_raising state]
  exact (endMoves_mastWork e _ p).write _ _

/-- A raise in MOVING is stopped (R108, R84). -/
theorem haltMast_stops {target : Int} {d : RaiseDirection} (state : p.msq.state = .raising target d) (sound : listedWait p)
    (moving : (axisOf p .mast).state = .moving) (own : carriesMove (axisOf p .mast) .msq = true) (cause : HoldCause) (report : Bool) :
    (axisOf (haltMast e cause .mast report p) .mast).state = .stopping ∧ .mast ∉ (haltMast e cause .mast report p).axd.waiting := by
  obtain ⟨posts, halted⟩ := haltMast_eq e p cause .mast report
  rw [halted, cancelMastWork_raising state]
  have ended := endMoves_picked e (fun r => carriesMove r .msq) (l := [.mast]) (by decide) (by decide) own (sound .mast)
  rw [moving] at ended
  exact ended

/-! ### The loss of a RAISE permissive (R42, R91, R108, R118) -/

/-- The losses among the RAISE permissives, lowest code first. -/
theorem raiseLost (before after : PermissiveSet) :
    (lostOf before after allPermissives).filter (fun x => decide (x ∈ raisePermissives)) = lostOf before after raisePermissives := by
  unfold lostOf
  rw [List.filter_filter, show raisePermissives = allPermissives.filter (fun x => decide (x ∈ raisePermissives)) from by decide, List.filter_filter]
  refine List.filter_congr fun x _ => ?_
  rw [Bool.and_comm]
  congr 1

theorem mem_lostOf {before after : PermissiveSet} {l : List Permissive} {x : Permissive} :
    x ∈ lostOf before after l ↔ x ∈ l ∧ before.given x = true ∧ after.given x = false := by simp [lostOf]

theorem mem_allPermissives (x : Permissive) : x ∈ allPermissives := by cases x <;> decide

theorem setStranded_rest (e : Env) (mark : Bool) (p : Plant) : ∃ posts, setStranded e mark p = { p with posts := posts, msq := { p.msq with stranded := mark } } :=
  postStatusIf_rest _ e { p with msq := { p.msq with stranded := mark } }

/-- An upward correction of MAST is under way. -/
def correctingUpward (p : Plant) : Bool := p.axd.axes.mast.correction && decide (p.axd.axes.mast.cls = some .raise)

/-- An upward correction of MAST ended, with the stranded mark (R118). -/
def correctionLost (e : Env) (p : Plant) : Plant := if correctingUpward p then endMoves e (fun _ => true) [.mast] (setStranded e true p) else p

theorem correctionLost_none (none : correctingUpward p = false) : correctionLost e p = p := by simp [correctionLost, none]

theorem correctionLost_mastWork : MastWork p (correctionLost e p) := by
  obtain ⟨posts, stranded⟩ := setStranded_rest e true p
  unfold correctionLost
  split
  · rw [stranded]
    exact .trans ((MastWork.refl p).write _ _) (endMoves_mastWork e _ _)
  · exact .refl p

theorem correctionLost_msq : (correctionLost e p).msq = if correctingUpward p then { p.msq with stranded := true } else p.msq := by
  obtain ⟨posts, stranded⟩ := setStranded_rest e true p
  obtain ⟨_, _, only⟩ := endMoves_onlyDrives e (fun _ => true) [.mast] (setStranded e true p)
  unfold correctionLost
  split
  · rw [only, stranded]
  · rfl

theorem correctionLost_state : (correctionLost e p).msq.state = p.msq.state := by
  rw [correctionLost_msq]
  split <;> rfl

/-- The correction is ended where MAST stands. -/
theorem correctionLost_ends (correcting : correctingUpward p = true) (sound : listedWait p) :
    (axisOf (correctionLost e p) .mast).state = endedState (axisOf p .mast).state ∧ .mast ∉ (correctionLost e p).axd.waiting := by
  obtain ⟨posts, stranded⟩ := setStranded_rest e true p
  unfold correctionLost
  rw [if_pos correcting, stranded]
  exact endMoves_picked e (fun _ => true) (l := [.mast]) (p := { p with posts := posts, msq := { p.msq with stranded := true } }) (by decide) (by decide) rfl
    (sound .mast)

theorem raiseLoss_none {before after : PermissiveSet} {b : Bool} (none : lostOf before after raisePermissives = []) :
    raiseLoss e (lostOf before after allPermissives) b p = p := by
  unfold raiseLoss
  rw [raiseLost, none]

/-- The loss in RAISING upward halts the mast with the cause of the lowest code lost (R42, R108). -/
theorem raiseLoss_raising {before after : PermissiveSet} {x : Permissive} {l : List Permissive} {target : Int}
    (lost : lostOf before after raisePermissives = x :: l) (state : p.msq.state = .raising target .up) :
    raiseLoss e (lostOf before after allPermissives) false p = haltMast e (lossCause x) .mast (decide (x ≠ .brakeSet)) (correctionLost e p) := by
  have kept := correctionLost_state (e := e) (p := p)
  unfold raiseLoss
  rw [raiseLost, lost]
  simp only [← correctingUpward.eq_1, ← correctionLost.eq_1, kept, state]
  rfl

/-- In any other state, and at a CLEARANCE report, which MSQ judges by R109, the mast state stays (R42). -/
theorem raiseLoss_other {before after : PermissiveSet} {x : Permissive} {l : List Permissive} {b : Bool}
    (lost : lostOf before after raisePermissives = x :: l) (other : b = true ∨ ∀ target, p.msq.state ≠ .raising target .up) :
    raiseLoss e (lostOf before after allPermissives) b p = correctionLost e p := by
  have kept := correctionLost_state (e := e) (p := p)
  unfold raiseLoss
  rw [raiseLost, lost]
  simp only [← correctingUpward.eq_1, ← correctionLost.eq_1, kept]
  split
  · rename_i target state
    exact if_pos (other.resolve_right fun h => h target state)
  · rfl

/-- The lowest code lost: every RAISE permissive before it is given still, or was not given. -/
theorem lostOf_raise {before after : PermissiveSet} {x : Permissive} {lower higher : List Permissive} (order : raisePermissives = lower ++ x :: higher)
    (kept : ∀ y ∈ lower, before.given y = true → after.given y = true) (was : before.given x = true) (now : after.given x = false) :
    lostOf before after raisePermissives = x :: lostOf before after higher := by
  have none : lostOf before after lower = [] := List.filter_eq_nil_iff.2 fun y m => by
    cases given : before.given y with
    | false => simp
    | true => simp [kept y m given]
  rw [order, lostOf, List.filter_append, List.filter_cons_of_pos (by simp [was, now])]
  exact congrArg (· ++ _) none

/-- The three ways of a loss. -/
theorem raiseLoss_cases (e : Env) (p : Plant) (before after : PermissiveSet) (b : Bool) :
    raiseLoss e (lostOf before after allPermissives) b p = p ∨ raiseLoss e (lostOf before after allPermissives) b p = correctionLost e p ∨
      (b = false ∧ (∃ target, p.msq.state = .raising target .up) ∧ ∃ cause report,
        raiseLoss e (lostOf before after allPermissives) b p = haltMast e cause .mast report (correctionLost e p)) := by
  cases lost : lostOf before after raisePermissives with
  | nil => exact .inl (raiseLoss_none lost)
  | cons x l =>
    by_cases up : ∃ target, p.msq.state = .raising target .up
    · obtain ⟨target, state⟩ := up
      cases b with
      | true => exact .inr (.inl (raiseLoss_other lost (.inl rfl)))
      | false => exact .inr (.inr ⟨rfl, ⟨target, state⟩, _, _, raiseLoss_raising lost state⟩)
    · exact .inr (.inl (raiseLoss_other lost (.inr fun target state => up ⟨target, state⟩)))

theorem raiseLoss_mastWork (before after : PermissiveSet) (b : Bool) : MastWork p (raiseLoss e (lostOf before after allPermissives) b p) := by
  rcases raiseLoss_cases e p before after b with same | same | ⟨-, ⟨target, state⟩, cause, report, same⟩ <;> rw [same]
  · exact .refl p
  · exact correctionLost_mastWork
  · exact correctionLost_mastWork.trans (haltMast_mastWork (correctionLost_state.trans state) cause report)

/-! ### A permissive change (R38) -/

theorem changeUsers_headWork (before : PermissiveSet) (b : Bool) :
    HeadWork (raiseLoss e (lostOf before p.pvw.permissives allPermissives) b p) (changeUsers e before b p) := by
  unfold changeUsers headLoss
  dsimp only
  refine pointingPermissives_headWork ?_ _
  split
  · exact endMoves_headWork (.refl _) _ (by decide)
  · exact .refl _

/-- The mast at a loss while RAISING upward. -/
theorem changeUsers_raising {before : PermissiveSet} {x : Permissive} {l : List Permissive} {target : Int}
    (lost : lostOf before p.pvw.permissives raisePermissives = x :: l) (state : p.msq.state = .raising target .up) :
    (changeUsers e before false p).msq.state = .halted (lossCause x) := by
  rw [(changeUsers_headWork before false).msq, raiseLoss_raising lost state, haltMast_msq]

/-- A raise in MOVING is stopped with it (R108, R84). -/
theorem changeUsers_stops {before : PermissiveSet} {x : Permissive} {l : List Permissive} {target : Int}
    (lost : lostOf before p.pvw.permissives raisePermissives = x :: l) (state : p.msq.state = .raising target .up) (sound : listedWait p)
    (moving : (axisOf p .mast).state = .moving) (own : carriesMove (axisOf p .mast) .msq = true) :
    (axisOf (changeUsers e before false p) .mast).state = .stopping := by
  have none : correctingUpward p = false := by
    simp only [carriesMove, Bool.and_eq_true, Bool.not_eq_true'] at own
    obtain ⟨⟨-, none⟩, -⟩ := own
    exact (congrArg (· && _) none).trans (Bool.false_and _)
  obtain ⟨stopped, out⟩ := haltMast_stops (e := e) state sound moving own (lossCause x) (decide (x ≠ .brakeSet))
  have users := changeUsers_headWork (e := e) (p := p) before false
  rw [raiseLoss_raising lost state, correctionLost_none none] at users
  rw [(users.rested out).1, stopped]

/-- No mast state but RAISING changes, and none at a CLEARANCE report. -/
theorem changeUsers_mastKept {before : PermissiveSet} {b : Bool} (other : b = true ∨ ∀ target, p.msq.state ≠ .raising target .up) :
    (changeUsers e before b p).msq.state = p.msq.state := by
  rw [(changeUsers_headWork before b).msq]
  rcases raiseLoss_cases e p before p.pvw.permissives b with same | same | ⟨early, ⟨target, state⟩, -⟩
  · rw [same]
  · rw [same, correctionLost_state]
  · exact absurd state (other.resolve_left (by simp [early]) target)

theorem changeUsers_stowed (before : PermissiveSet) (b : Bool) : (changeUsers e before b p).msq.state = .stowed ↔ p.msq.state = .stowed := by
  rw [(changeUsers_headWork before b).msq]
  rcases raiseLoss_cases e p before p.pvw.permissives b with same | same | ⟨-, ⟨target, state⟩, cause, report, same⟩
  · rw [same]
  · rw [same, correctionLost_state]
  · simp [same, haltMast_msq, state]

theorem changeUsers_position (before : PermissiveSet) (b : Bool) : (axisOf (changeUsers e before b p) .mast).position = (axisOf p .mast).position :=
  (grantedOrSame_position (changeUsers_headWork before b).mast).trans (raiseLoss_mastWork before _ b).position

/-- An upward correction at the loss of a RAISE permissive is ended and leaves the mark (R91, R118). -/
theorem changeUsers_stranded {before : PermissiveSet} {b : Bool} (lost : lostOf before p.pvw.permissives raisePermissives ≠ [])
    (correcting : correctingUpward p = true) (sound : listedWait p) :
    (changeUsers e before b p).msq.stranded = true ∧ (axisOf (changeUsers e before b p) .mast).state = endedState (axisOf p .mast).state := by
  obtain ⟨x, l, cons⟩ := List.exists_cons_of_ne_nil lost
  obtain ⟨ended, out⟩ := correctionLost_ends (e := e) correcting sound
  have mark : (correctionLost e p).msq.stranded = true := by rw [correctionLost_msq, if_pos correcting]
  have users := changeUsers_headWork (e := e) (p := p) before b
  have after : (raiseLoss e (lostOf before p.pvw.permissives allPermissives) b p).msq.stranded = true ∧
      (axisOf (raiseLoss e (lostOf before p.pvw.permissives allPermissives) b p) .mast).state = endedState (axisOf p .mast).state ∧
      .mast ∉ (raiseLoss e (lostOf before p.pvw.permissives allPermissives) b p).axd.waiting := by
    by_cases up : b = false ∧ ∃ target, p.msq.state = .raising target .up
    · obtain ⟨rfl, target, state⟩ := up
      rw [raiseLoss_raising cons state, haltMast_msq]
      obtain ⟨kept, still⟩ := (haltMast_mastWork (e := e) (correctionLost_state.trans state) (lossCause x) (decide (x ≠ .brakeSet))).ended out
        (by rw [ended, endedState_idem])
      exact ⟨mark, kept.trans ended, still⟩
    · rw [raiseLoss_other cons (by
        by_cases early : b = true
        · exact .inl early
        · exact .inr fun target state => up ⟨by simpa using early, target, state⟩)]
      exact ⟨mark, ended, out⟩
  obtain ⟨stranded, state, out⟩ := after
  exact ⟨by rw [users.msq]; exact stranded, by rw [(users.rested out).1]; exact state⟩

end

/-! ### PNT at the change (R130, R131) -/

theorem haltPointing_idle {e : Env} {cause : PatternCause} {p : Plant} (idle : p.pnt.state = .idle) : haltPointing e cause p = p := by
  unfold haltPointing
  rw [idle]

theorem haltPointing_pnt (e : Env) (cause : PatternCause) (p : Plant) :
    (haltPointing e cause p).pnt.state = .idle ∧ (haltPointing e cause p).pnt.record = p.pnt.record := by
  by_cases idle : p.pnt.state = .idle
  · rw [haltPointing_idle idle]
    exact ⟨idle, rfl⟩
  · obtain ⟨_, _, _, _, halted, -⟩ := haltPointing_rest (e := e) (cause := cause) idle
    rw [halted]
    exact ⟨rfl, rfl⟩

section
variable {e : Env} {p : Plant}

/-- What PNT reads of the plant at the change is as it was before MSQ and AXD acted. -/
theorem losses_kept (before : PermissiveSet) (b : Bool) :
    (headLoss e (lostOf before p.pvw.permissives allPermissives) (raiseLoss e (lostOf before p.pvw.permissives allPermissives) b p)).pnt = p.pnt ∧
      (headLoss e (lostOf before p.pvw.permissives allPermissives) (raiseLoss e (lostOf before p.pvw.permissives allPermissives) b p)).pvw = p.pvw := by
  have mast := raiseLoss_mastWork (e := e) (p := p) before p.pvw.permissives b
  generalize raiseLoss e (lostOf before p.pvw.permissives allPermissives) b p = q at mast
  unfold headLoss
  split
  · obtain ⟨_, _, only⟩ := endMoves_onlyDrives e (fun r => carriesMove r .jog || r.correction) headAxes q
    rw [only]
    exact ⟨mast.pnt, mast.pvw⟩
  · exact ⟨mast.pnt, mast.pvw⟩

/-- The loss of BRAKE_SET halts pointing, its record kept (R131). -/
theorem changeUsers_brake {before : PermissiveSet} {b : Bool} (was : before.brakeSet = true) (now : p.pvw.permissives.brakeSet = false) :
    (changeUsers e before b p).pnt.state = .idle ∧ (changeUsers e before b p).pnt.record = p.pnt.record := by
  have lost : Permissive.brakeSet ∈ lostOf before p.pvw.permissives allPermissives := mem_lostOf.2 ⟨mem_allPermissives _, was, now⟩
  obtain ⟨pnt, -⟩ := losses_kept (e := e) (p := p) before b
  unfold changeUsers pointingPermissives
  dsimp only
  rw [if_pos lost, ← pnt]
  exact haltPointing_pnt e .interlock _

theorem needsMet_congr {q : Plant} (pnt : q.pnt = p.pnt) (pvw : q.pvw = p.pvw) (x : Activity) : needsMet e q x = needsMet e p x := by
  unfold needsMet given flagPeakSet
  rw [pnt, pvw]

theorem suspendPointing_eq (e : Env) (x : Activity) (p : Plant) :
    (suspendPointing e x p).pnt.state = .held x (holdCauseNow p) ∧ (x = .tracking → (suspendPointing e x p).monitor = .cold) := by
  obtain ⟨_, set⟩ := setPointing_rest e (.held x (holdCauseNow p)) (suspendWork e x p)
  rw [suspendPointing, set]
  exact ⟨rfl, fun tracking => by rw [tracking]; rfl⟩

/-- An activity a need of which is missing is HELD, and TRACKING ends its monitor (R130, R164). -/
theorem changeUsers_held {before : PermissiveSet} {b : Bool} {x : Activity} (braked : before.brakeSet = false ∨ p.pvw.permissives.brakeSet = true)
    (active : p.pnt.state = .active x) (missing : needsMet e p x = false) :
    (changeUsers e before b p).pnt.state = .held x (holdCauseNow p) ∧ (x = .tracking → (changeUsers e before b p).monitor = .cold) := by
  have kept : Permissive.brakeSet ∉ lostOf before p.pvw.permissives allPermissives := fun lost => by
    obtain ⟨-, was, now⟩ := mem_lostOf.1 lost
    rcases braked with h | h
    · exact Bool.false_ne_true (h.symm.trans was)
    · exact Bool.false_ne_true (now.symm.trans h)
  obtain ⟨pnt, pvw⟩ := losses_kept (e := e) (p := p) before b
  unfold changeUsers
  dsimp only
  generalize headLoss e (lostOf before p.pvw.permissives allPermissives) (raiseLoss e (lostOf before p.pvw.permissives allPermissives) b p) = q at pnt pvw
  have held : pointingPermissives e (lostOf before p.pvw.permissives allPermissives) q = suspendPointing e x q := by
    unfold pointingPermissives
    rw [if_neg kept, pnt, active]
    exact if_neg (by rw [needsMet_congr pnt pvw, missing]; exact Bool.false_ne_true)
  have cause : holdCauseNow q = holdCauseNow p := by rw [holdCauseNow, holdCauseNow, given, given, pvw]
  rw [held, ← cause]
  exact suspendPointing_eq e x q

/-! ### The head at the loss of WIND_MOVE_OK (R43, R91) -/

theorem endMoves_rested (e : Env) (picks : AxisRec → Bool) (l : List Axis) {a : Axis} (rest : endedState (axisOf p a).state = (axisOf p a).state)
    (out : a ∉ p.axd.waiting) : (axisOf (endMoves e picks l p) a).state = (axisOf p a).state := by
  have ended : (axisOf (movesEnded e picks l p) a).state = (axisOf p a).state :=
    movesEnded_keeps e picks (P := fun q => (axisOf q a).state = (axisOf p a).state) (fun b q h => by
      rw [endMove_state, h]
      split
      · exact rest
      · rfl) l rfl
  exact (congrArg AxisRec.state ((afterLeaving_axis e p _ a).2 fun m => out (movesEnded_waiting e picks l m))).trans ended

/-- A suspension stops the moves of the block that works, and no other. -/
theorem suspendWork_axd (e : Env) (x : Activity) (p : Plant) :
    (suspendWork e x p).axd = p.axd ∨ ∃ who l, (suspendWork e x p).axd = (cancelMoves e who l p).axd := by
  have cancelled (who : Requester) (l : List Axis) : (cancelDwell who (cancelMoves e who l p)).axd = (cancelMoves e who l p).axd := by
    obtain ⟨_, dwell⟩ := cancelDwell_rest who (cancelMoves e who l p)
    rw [dwell]
  unfold suspendWork
  split
  · exact .inr ⟨_, _, cancelled .pnt headAxes⟩
  · exact .inr ⟨_, _, cancelled .pnt headAxes⟩
  · unfold suspendPattern
    repeat' split
    · exact .inr ⟨_, _, cancelled .pat pointAxes⟩
    all_goals exact .inl rfl
  · unfold suspendRun
    split
    · exact .inr ⟨_, _, cancelled .pke pointAxes⟩
    all_goals exact .inl rfl
  · exact .inl rfl

theorem axisOf_setPointing (e : Env) (st : PointState) (p : Plant) (a : Axis) : axisOf (setPointing e st p) a = axisOf p a := by
  obtain ⟨_, set⟩ := setPointing_rest e st p
  rw [set]
  exact axisOf_congr rfl a

/-- While WIND_MOVE_OK is not given PNT requests no move: TRACKING alone resumes. -/
theorem pointingPermissives_rested {lost : List Permissive} (braked : Permissive.brakeSet ∉ lost) (wind : given p .windMoveOk = false) {a : Axis}
    (rest : endedState (axisOf p a).state = (axisOf p a).state) (out : a ∉ p.axd.waiting) :
    (axisOf (pointingPermissives e lost p) a).state = (axisOf p a).state := by
  unfold pointingPermissives
  rw [if_neg braked]
  split
  · split
    · rfl
    · rename_i x _ _
      rw [suspendPointing, axisOf_setPointing]
      rcases suspendWork_axd e x p with same | ⟨who, l, same⟩
      · rw [axisOf_congr (congrArg Drives.axes same)]
      · rw [axisOf_congr (congrArg Drives.axes same)]
        exact endMoves_rested e _ l rest out
  · split
    · rename_i x _ _ met
      cases x with
      | tracking => exact congrArg AxisRec.state ((axisOf_congr rfl a).trans (axisOf_setPointing e (.active .tracking) p a))
      | slewing | acquiring | peaking => simp [needsMet, wind] at met
    · rw [axisOf_setPointing]
  all_goals rfl

theorem carriesMove_granted {r r' : AxisRec} (h : grantedOrSame r r') {q : Requester} (own : carriesMove r q = true) : carriesMove r' q = true := by
  rcases h with rfl | h
  · exact own
  · rw [h]
    simp only [carriesMove, Bool.and_eq_true] at own ⊢
    exact ⟨own.1, trivial⟩

/-- A JOG or a correction of a head axis is ended (R43, R91); one that waits may have been granted the grant of the raise halted first
(R94). -/
theorem changeUsers_headEnded {before : PermissiveSet} {b : Bool} (was : before.windMoveOk = true) (now : p.pvw.permissives.windMoveOk = false)
    (braked : p.pvw.permissives.brakeSet = before.brakeSet) (sound : arbiterSound p = true) {a : Axis} (head : a ≠ .mast)
    (carries : (axisOf p a).correction = true ∨ carriesMove (axisOf p a) .jog = true) :
    (axisOf (changeUsers e before b p) a).state = endedState (axisOf p a).state ∨
      ((axisOf p a).state = .waiting ∧ p.axd.grants ≠ [] ∧ (axisOf (changeUsers e before b p) a).state = .stopping) := by
  have lost : Permissive.windMoveOk ∈ lostOf before p.pvw.permissives allPermissives := mem_lostOf.2 ⟨mem_allPermissives _, was, now⟩
  have kept : Permissive.brakeSet ∉ lostOf before p.pvw.permissives allPermissives := fun m => by
    obtain ⟨-, was, now⟩ := mem_lostOf.1 m
    exact Bool.false_ne_true (now.symm.trans (braked.trans was))
  have mast := raiseLoss_mastWork (e := e) (p := p) before p.pvw.permissives b
  have users : changeUsers e before b p = pointingPermissives e (lostOf before p.pvw.permissives allPermissives)
      (endMoves e (fun r => carriesMove r .jog || r.correction) headAxes (raiseLoss e (lostOf before p.pvw.permissives allPermissives) b p)) := by
    unfold changeUsers headLoss
    dsimp only
    rw [if_pos (.inr lost)]
  rw [users]
  generalize raiseLoss e (lostOf before p.pvw.permissives allPermissives) b p = q at mast
  obtain ⟨granted, same⟩ := mast.head a head
  have picked : (carriesMove (axisOf q a) .jog || (axisOf q a).correction) = true := by
    rw [Bool.or_eq_true]
    rcases carries with correction | own
    · obtain ⟨-, -, -, -, still, -⟩ := grantedOrSame_fields granted
      exact .inr (still.trans correction)
    · exact .inl (carriesMove_granted granted own)
  obtain ⟨ended, out⟩ := endMoves_picked e (fun r => carriesMove r .jog || r.correction) (l := headAxes) (by decide)
    (by cases a <;> simp [headAxes] at head ⊢) picked (mast.listed (listedWait_of_sound sound) a)
  obtain ⟨_, _, only⟩ := endMoves_onlyDrives e (fun r => carriesMove r .jog || r.correction) headAxes q
  have wind : given (endMoves e (fun r => carriesMove r .jog || r.correction) headAxes q) .windMoveOk = false := by
    rw [given, only, mast.pvw]
    exact now
  rw [pointingPermissives_rested kept wind (by rw [ended, endedState_idem]) out, ended]
  by_cases waits : (axisOf p a).state = .waiting
  · obtain ⟨state | state, -⟩ := grantedOrSame_fields granted
    · exact .inl (congrArg endedState state)
    · refine .inr ⟨waits, fun none => ?_, congrArg endedState state⟩
      rw [(mast.noGrants none).2 a head, waits] at state
      cases state
  · exact .inl (by rw [(same (not_waiting sound waits)).1])

/-! ### The permissives of a role evaluated (R38) -/

/-- The plant with the permissives of a role formed anew. -/
def reformed (e : Env) (r : Role) (p : Plant) : Plant := { p with pvw := { p.pvw with permissives := evalRole e p r } }

theorem evaluate_same {r : Role} (b : Bool) (same : evalRole e p r = p.pvw.permissives) : evaluate e r b p = p := by
  unfold evaluate
  dsimp only
  rw [if_pos same, same]

/-- A permissive given before and not after is a change. -/
theorem evaluate_changed {r : Role} (b : Bool) {x : Permissive} (was : p.pvw.permissives.given x = true) (now : (evalRole e p r).given x = false) :
    evaluate e r b p = changeUsers e p.pvw.permissives b (reformed e r p) :=
  if_neg fun same => Bool.false_ne_true (now.symm.trans ((congrArg (PermissiveSet.given · x) same).trans was))

/-- A mast RAISING upward is HALTED with the cause of the lowest code lost (R42). -/
theorem evaluate_raising {r : Role} {x : Permissive} {lower higher : List Permissive} {target : Int} (order : raisePermissives = lower ++ x :: higher)
    (kept : ∀ y ∈ lower, p.pvw.permissives.given y = true → (evalRole e p r).given y = true) (was : p.pvw.permissives.given x = true)
    (now : (evalRole e p r).given x = false) (state : p.msq.state = .raising target .up) : (evaluate e r false p).msq.state = .halted (lossCause x) := by
  rw [evaluate_changed false was now]
  exact changeUsers_raising (p := reformed e r p) (lostOf_raise order kept was now) state

/-- The loss of BRAKE_SET halts pointing, its record kept (R131). -/
theorem evaluate_brake {r : Role} (b : Bool) (was : p.pvw.permissives.brakeSet = true) (now : (evalRole e p r).brakeSet = false) :
    (evaluate e r b p).pnt.state = .idle ∧ (evaluate e r b p).pnt.record = p.pnt.record := by
  rw [evaluate_changed (x := .brakeSet) b was now]
  exact changeUsers_brake (p := reformed e r p) was now

/-- An activity that loses a need is HELD (R130). -/
theorem evaluate_held {r : Role} (b : Bool) {x : Permissive} {activity : Activity} (was : p.pvw.permissives.given x = true)
    (now : (evalRole e p r).given x = false) (braked : (evalRole e p r).brakeSet = p.pvw.permissives.brakeSet) (active : p.pnt.state = .active activity)
    (missing : needsMet e (reformed e r p) activity = false) :
    (evaluate e r b p).pnt.state = .held activity (if (evalRole e p r).windMoveOk = true then .level else .wind) ∧
      (activity = .tracking → (evaluate e r b p).monitor = .cold) := by
  rw [evaluate_changed b was now]
  refine changeUsers_held (p := reformed e r p) ?_ active missing
  cases brake : p.pvw.permissives.brakeSet
  · exact .inl rfl
  · exact .inr (braked.trans brake)

/-- Every activity but TRACKING needs WIND_MOVE_OK (R130). -/
theorem needsMet_noWind {x : Activity} (wind : given p .windMoveOk = false) (other : x ≠ .tracking) : needsMet e p x = false := by
  cases x with
  | tracking => exact absurd rfl other
  | slewing | acquiring | peaking => simp [needsMet, wind]

/-- Every activity needs LEVEL_OK in LINKED source, a slew with the PEAK flag (R130). -/
theorem needsMet_noLevel {x : Activity} (source : linked e = true) (level : given p .levelOk = false) (peak : (∃ phase, x = .slewing phase) → flagPeakSet p = true) :
    needsMet e p x = false := by
  cases x with
  | slewing phase => simp [needsMet, source, level, peak ⟨phase, rfl⟩]
  | acquiring | peaking | tracking => simp [needsMet, source, level]

/-- What an evaluation leaves, whatever it changes. -/
structure Evaluated (e : Env) (r : Role) (p q : Plant) : Prop where
  pvw : q.pvw = { p.pvw with permissives := evalRole e p r }
  aut : q.aut = p.aut
  flt : q.flt = p.flt
  stowed : q.msq.state = .stowed ↔ p.msq.state = .stowed
  position : (axisOf q .mast).position = (axisOf p .mast).position

theorem evaluate_evaluated (e : Env) (r : Role) (b : Bool) (p : Plant) : Evaluated e r p (evaluate e r b p) := by
  by_cases same : evalRole e p r = p.pvw.permissives
  · rw [evaluate_same b same]
    exact ⟨by rw [same], rfl, rfl, .rfl, rfl⟩
  · rw [show evaluate e r b p = changeUsers e p.pvw.permissives b (reformed e r p) from if_neg same]
    have mast := raiseLoss_mastWork (e := e) (p := reformed e r p) p.pvw.permissives (reformed e r p).pvw.permissives b
    have users := changeUsers_headWork (e := e) (p := reformed e r p) p.pvw.permissives b
    exact ⟨users.pvw.trans mast.pvw, users.aut.trans mast.aut, users.flt.trans mast.flt, changeUsers_stowed _ b, changeUsers_position _ b⟩

/-- The mast state at a CLEARANCE report is for R109 and R110 to judge. -/
theorem evaluate_byReport (r : Role) : (evaluate e r true p).msq.state = p.msq.state := by
  by_cases same : evalRole e p r = p.pvw.permissives
  · rw [evaluate_same true same]
  · rw [show evaluate e r true p = changeUsers e p.pvw.permissives true (reformed e r p) from if_neg same]
    exact changeUsers_mastKept (.inl rfl)

/-! ### DRIVE_AWAY (R45, R96, R97) -/

theorem mastFault_rest (e : Env) (kind : FaultKind) (axis : FaultAxis) (stored : Bool) (p : Plant) :
    ∃ posts axd msq, mastFault e kind axis stored p = { p with posts := posts, axd := axd, msq := msq } := by
  unfold mastFault headNotParked
  repeat' split
  · exact ⟨_, _, _, rfl⟩
  · exact haltMast_rest e p _ _ _
  · exact haltMast_rest e p _ _ _
  · exact ⟨_, _, _, rfl⟩

theorem pointingFault_headWork (kind : FaultKind) (axis : FaultAxis) {q : Plant} (h : HeadWork p q) : HeadWork p (pointingFault e kind axis q) := by
  unfold pointingFault
  split
  · exact haltPointing_headWork h _
  · exact h

/-- A fault new to the set: its record is stored, or its axis is among the overflow axes (R96). -/
def withFault (kind : FaultKind) (axis : FaultAxis) (p : Plant) : Plant :=
  if p.flt.records.length < 8 then { p with flt := { p.flt with records := p.flt.records ++ [{ kind := kind, axis := axis }] } }
  else { p with flt := { p.flt with overflow := true, overflowAxes := insertNew p.flt.overflowAxes axis } }

theorem withFault_entered (kind : FaultKind) (axis : FaultAxis) (p : Plant) : faultEntered kind axis (withFault kind axis p).flt := by
  unfold withFault faultEntered
  split
  · exact .inl (by simp)
  · exact .inr ⟨rfl, mem_insertNew.2 (.inl rfl)⟩

/-- A fault raised that stands in the set halts again and no more; a new one also reaches MSQ and PNT (R97). -/
theorem raiseFault_cases (e : Env) (kind : FaultKind) (axis : FaultAxis) (p : Plant) :
    (faultEntered kind axis p.flt ∧ ∃ posts axd, raiseFault e kind axis p = { p with posts := posts, axd := axd }) ∨
      ∃ posts axd stored, raiseFault e kind axis p =
        pointingFault e kind axis (mastFault e kind axis stored { withFault kind axis p with posts := posts, axd := axd }) := by
  unfold raiseFault
  dsimp only
  split
  · rename_i found
    exact .inl ⟨.inl found, haltFor_onlyDrives e kind axis true p⟩
  · refine .inr ?_
    generalize stored : decide (p.flt.records.length < 8) = st
    have entered : (if st = true then { p with flt := { p.flt with records := p.flt.records ++ [{ kind := kind, axis := axis }] } }
        else { p with flt := { p.flt with overflow := true, overflowAxes := insertNew p.flt.overflowAxes axis } }) = withFault kind axis p := by
      rw [← stored]
      simp only [decide_eq_true_eq]
      rfl
    rw [entered]
    obtain ⟨_, status⟩ := postStatusIf_rest (decide (faultKey (withFault kind axis p) ≠ faultKey p)) e (withFault kind axis p)
    obtain ⟨_, _, halted⟩ := haltFor_onlyDrives e kind axis st (postStatusIf (decide (faultKey (withFault kind axis p) ≠ faultKey p)) e (withFault kind axis p))
    rw [halted, status]
    exact ⟨_, _, st, rfl⟩

/-- What DRIVE_AWAY on ALL leaves after the loss of the brake. -/
structure DrivenAway (p q : Plant) : Prop where
  pvw : q.pvw = p.pvw
  aut : q.aut = p.aut
  entered : faultEntered .driveAway .all q.flt
  mast : p.msq.state = .halted .brake → q.msq.state = .halted .brake
  idle : p.pnt.state = .idle → q.pnt = p.pnt

theorem driveAway_stowed (stowed : p.msq.state = .stowed) : driveAway e p = p := if_pos stowed

theorem driveAway_drivenAway (out : p.msq.state ≠ .stowed) : DrivenAway p (driveAway e p) := by
  rw [driveAway, if_neg out]
  rcases raiseFault_cases e .driveAway .all p with ⟨entered, posts, axd, again⟩ | ⟨posts, axd, stored, new⟩
  · rw [again]
    exact ⟨rfl, rfl, entered, id, fun _ => rfl⟩
  · rw [new]
    have same : (withFault .driveAway .all p).pvw = p.pvw ∧ (withFault .driveAway .all p).aut = p.aut ∧ (withFault .driveAway .all p).msq = p.msq ∧
        (withFault .driveAway .all p).pnt = p.pnt := by
      unfold withFault
      split <;> exact ⟨rfl, rfl, rfl, rfl⟩
    obtain ⟨pvw, aut, msq, pnt⟩ := same
    have entered := withFault_entered .driveAway .all p
    generalize withFault .driveAway .all p = q at pvw aut msq pnt entered
    obtain ⟨posts', axd', msq', judged⟩ := mastFault_rest e .driveAway .all stored { q with posts := posts, axd := axd }
    have work : HeadWork (mastFault e .driveAway .all stored { q with posts := posts, axd := axd })
        (pointingFault e .driveAway .all (mastFault e .driveAway .all stored { q with posts := posts, axd := axd })) := pointingFault_headWork _ _ (.refl _)
    refine ⟨work.pvw.trans (by rw [judged]; exact pvw), work.aut.trans (by rw [judged]; exact aut), by rw [work.flt, judged]; exact entered, fun halted => ?_,
      fun idle => ?_⟩
    · rw [work.msq]
      have state : q.msq.state = .halted .brake := by rw [msq]; exact halted
      unfold mastFault
      simp [state, faultMastState]
    · have still : (mastFault e .driveAway .all stored { q with posts := posts, axd := axd }).pnt = p.pnt := by rw [judged]; exact pnt
      unfold pointingFault
      split
      · rw [haltPointing_idle (by rw [still]; exact idle)]
        exact still
      · exact still

end

end Sys2Proof.Machine
end

