-- ==== Sys2Proof/Proofs/PeerNotices.lean ====
section
/-! PROOFS. The takings of VEHICLE, WIND and CLEARANCE (R29, R32 to R39, R45, R109, R110): what is stored, and what the permissives that
fall halt, hold and end (O27 to O31). -/

namespace Sys2Proof.Machine

/-- A role notice at the head is taken and gone; nothing but the plant changes with it (R16, R29). -/
theorem takeRole_taken {r : Role} {s : State} {x : ArrivalEntry} {rest : List ArrivalEntry} (act : Env → ArrivalEntry → Plant → Plant)
    (arrivals : s.arrivals = x :: rest) (kind : x.kind = .role r) : takeRole r act s = { s with arrivals := rest, plant := act (envOf s) x s.plant } := by
  rw [takeRole_head act (headOf_eq_some.2 ⟨rest, arrivals, kind⟩)]
  simp only [applyHead, arrivals, List.tail_cons]
  rfl

/-! ### VEHICLE -/

section
variable {s : State} {x : ArrivalEntry} {rest : List ArrivalEntry}

theorem exec_vehicle (arrivals : s.arrivals = x :: rest) (kind : x.kind = .role .vehicle) :
    exec .vehicle s = .next { s with arrivals := rest, plant := takeVehicle (envOf s) x s.plant } :=
  congrArg Host.Outcome.next (takeRole_taken takeVehicle arrivals kind)

end

/-- The brake set, or the mast STOWED: no DRIVE_AWAY (R45). -/
theorem takeVehicle_stays {e : Env} {x : ArrivalEntry} {p : Plant} (stays : ¬ ((vehicleOf x.payload).brakeSet = false ∧ p.msq.state ≠ .stowed)) :
    takeVehicle e x p = evaluate e .vehicle false (storeVehicle (takenEntry (vehicleOf x.payload) x.stamp) p) := by
  unfold takeVehicle
  dsimp only
  split
  · rfl
  · rename_i released
    have stowed : p.msq.state = .stowed := by_contra fun out => stays ⟨by simpa using released, out⟩
    exact driveAway_stowed ((evaluate_evaluated e .vehicle false _).stowed.2 stowed)

/-- The brake released with the mast not STOWED: DRIVE_AWAY after the permissives (R45). -/
theorem takeVehicle_drivenAway {e : Env} {x : ArrivalEntry} {p : Plant} (released : (vehicleOf x.payload).brakeSet = false) (out : p.msq.state ≠ .stowed) :
    DrivenAway (evaluate e .vehicle false (storeVehicle (takenEntry (vehicleOf x.payload) x.stamp) p)) (takeVehicle e x p) := by
  unfold takeVehicle
  dsimp only
  rw [if_neg (by simp [released])]
  exact driveAway_drivenAway (mt ((evaluate_evaluated e .vehicle false _).stowed).1 out)

/-- Settles O27: the evaluation with the losses of VEHICLE, and DRIVE_AWAY after it, which finds the mast HALTED and pointing IDLE. -/
theorem aVehicleNoticeIsStoredAndJudged : Obligations.AVehicleNoticeIsStoredAndJudged := by
  intro s x rest arrivals kind heading v after away lost mast
  have formed : evalRole (envOf s) (storeVehicle (takenEntry v x.stamp) s.plant) .vehicle = after := rfl
  have judged := evaluate_evaluated (envOf s) .vehicle false (storeVehicle (takenEntry v x.stamp) s.plant)
  have halts {y : Permissive} {lower higher : List Permissive} {target : Int} (order : raisePermissives = lower ++ y :: higher)
      (kept : ∀ z ∈ lower, ¬ lost z) (gone : lost y) (state : s.plant.msq.state = .raising target .up) :
      (evaluate (envOf s) .vehicle false (storeVehicle (takenEntry v x.stamp) s.plant)).msq.state = .halted (lossCause y) :=
    evaluate_raising (p := storeVehicle (takenEntry v x.stamp) s.plant) order
      (fun z m was => by_contra fun now => kept z m ⟨was, by rw [← formed]; simpa using now⟩) gone.1 gone.2 state
  have changed {y : Permissive} (gone : lost y) : evaluate (envOf s) .vehicle false (storeVehicle (takenEntry v x.stamp) s.plant) =
      changeUsers (envOf s) s.plant.pvw.permissives false (reformed (envOf s) .vehicle (storeVehicle (takenEntry v x.stamp) s.plant)) :=
    evaluate_changed (e := envOf s) (r := .vehicle) (p := storeVehicle (takenEntry v x.stamp) s.plant) false gone.1 gone.2
  have brakeHeld (set : v.brakeSet = true) : ¬ lost .brakeSet := fun gone => Bool.false_ne_true (gone.2.symm.trans set)
  have idle (gone : lost .brakeSet) :
      (evaluate (envOf s) .vehicle false (storeVehicle (takenEntry v x.stamp) s.plant)).pnt.state = .idle ∧
        (evaluate (envOf s) .vehicle false (storeVehicle (takenEntry v x.stamp) s.plant)).pnt.record = s.plant.pnt.record :=
    evaluate_brake (p := storeVehicle (takenEntry v x.stamp) s.plant) false gone.1 gone.2
  refine ⟨_, exec_vehicle arrivals kind, rfl, ?_⟩
  dsimp only
  by_cases leaves : away
  · have left := takeVehicle_drivenAway (e := envOf s) leaves.1 leaves.2
    have released : v.brakeSet ≠ true := by simp [leaves.1]
    refine ⟨left.pvw.trans judged.pvw, left.aut.trans judged.aut, fun _ => left.entered, fun stays => absurd leaves stays, fun stays => absurd leaves stays,
      fun target state => ⟨fun gone => left.mast ?_, fun set => absurd set released, fun set => absurd set released⟩, fun _ set => absurd set released, fun gone => ?_⟩
    · exact halts (lower := []) rfl (by simp) gone state
    · rw [left.idle (idle gone).1]
      exact idle gone
  · rw [takeVehicle_stays leaves]
    refine ⟨judged.pvw, judged.aut, fun h => absurd h leaves, fun _ => judged.flt, fun _ same => ?_, fun target state => ⟨fun gone => ?_, fun set gone => ?_, fun set kept gone => ?_⟩,
      fun sound set gone correction cls => ?_, idle⟩
    · rw [evaluate_same (p := storeVehicle (takenEntry (vehicleOf x.payload) x.stamp) s.plant) false (formed.trans same)]
      rfl
    · exact halts (lower := []) rfl (by simp) gone state
    · exact halts (lower := [.brakeSet]) rfl (by simpa using brakeHeld set) gone state
    · exact halts (lower := [.brakeSet, .outriggersDown]) rfl (by simpa using ⟨brakeHeld set, kept⟩) gone state
    · obtain ⟨y, mem, loss⟩ : ∃ y, y ∈ raisePermissives ∧ lost y := gone.elim (⟨_, by decide, ·⟩) (⟨_, by decide, ·⟩)
      have correcting : correctingUpward (reformed (envOf s) .vehicle (storeVehicle (takenEntry v x.stamp) s.plant)) = true :=
        Bool.and_eq_true_iff.2 ⟨correction, decide_eq_true cls⟩
      rw [show vehicleOf x.payload = v from rfl, changed loss]
      exact changeUsers_stranded (List.ne_nil_of_mem (mem_lostOf.2 ⟨mem, loss⟩)) correcting (listedWait_of_sound sound)

/-! ### WIND -/

theorem setPeerView_rest (e : Env) (v : PeerView) (p : Plant) : ∃ posts, setPeerView e v p = { p with posts := posts, pvw := v } :=
  postStatusIf_rest _ e { p with pvw := v }

theorem exec_wind {s : State} {x : ArrivalEntry} {rest : List ArrivalEntry} (arrivals : s.arrivals = x :: rest) (kind : x.kind = .role .wind) :
    exec .wind s = .next { s with arrivals := rest, plant := takeWind (envOf s) x s.plant } :=
  congrArg Host.Outcome.next (takeRole_taken takeWind arrivals kind)

/-- The peer view with a WIND value stored, before its permissives (R33, R35, R37). -/
def windStored (c : ConfigRecord) (x : ArrivalEntry) (v : PeerView) : PeerView :=
  stepWind c (windOf x.payload).gust { v with wind := takenEntry (windOf x.payload) x.stamp }

/-- Each of the two permissives is given with its filter BELOW (Table 3-3). -/
theorem evalRole_wind (e : Env) (c : ConfigRecord) (x : ArrivalEntry) (v : PeerView) (p : Plant) (stored : p.pvw = windStored c x v) :
    evalRole e p .wind = { v.permissives with
      windRaiseOk := decide ((windStored c x v).raiseFilter.side = .below), windMoveOk := decide ((windStored c x v).holdFilter.side = .below) } := by
  unfold evalRole
  rw [stored]
  rfl

/-- Settles O30: the evaluation with the losses of WIND; the raise halts before the head, and the grant it returns may go to an axis that the loss of
WIND_MOVE_OK then stops. -/
theorem aWindNoticeGatesMastAndHead : Obligations.AWindNoticeGatesMastAndHead := by
  intro s x rest arrivals kind g c raise hold
  obtain ⟨posts, stored⟩ := setPeerView_rest (envOf s) (windStored c x s.plant.pvw) s.plant
  have taken : takeWind (envOf s) x s.plant = evaluate (envOf s) .wind false { s.plant with posts := posts, pvw := windStored c x s.plant.pvw } := by
    rw [← stored]
    rfl
  generalize before : ({ s.plant with posts := posts, pvw := windStored c x s.plant.pvw } : Plant) = p at taken
  have axis (a : Axis) : axisOf p a = axisOf s.plant a := by rw [← before]; exact axisOf_congr rfl a
  have permissives : p.pvw.permissives = s.plant.pvw.permissives := by rw [← before]; rfl
  have formed : evalRole (envOf s) p .wind =
      { s.plant.pvw.permissives with windRaiseOk := decide (raise.side = .below), windMoveOk := decide (hold.side = .below) } :=
    evalRole_wind (envOf s) c x s.plant.pvw p (by rw [← before])
  have judged := evaluate_evaluated (envOf s) .wind false p
  have fallen {f : WindFilter} (above : f.side = .above) : decide (f.side = .below) = false := by simp [above]
  have raiseGone (above : raise.side = .above) : (evalRole (envOf s) p .wind).given .windRaiseOk = false := by rw [formed]; exact fallen above
  have moveGone (above : hold.side = .above) : (evalRole (envOf s) p .wind).given .windMoveOk = false := by rw [formed]; exact fallen above
  have vehicles : ∀ y ∈ [Permissive.brakeSet, .outriggersDown, .vanLevelOk], p.pvw.permissives.given y = true → (evalRole (envOf s) p .wind).given y = true := by
    rw [formed, permissives]
    simp [PermissiveSet.given]
  have sameBrake : (evalRole (envOf s) p .wind).brakeSet = p.pvw.permissives.brakeSet := by rw [formed, permissives]
  refine ⟨_, exec_wind arrivals kind, rfl, ?_⟩
  dsimp only
  rw [taken]
  refine ⟨?_, by rw [judged.aut, ← before], by rw [judged.flt, ← before], fun target state was above => ?_, fun activity active other was above => ?_,
    fun a head was above carries sound => ?_⟩
  · rw [judged.pvw, formed, ← before]
    rfl
  · have given : p.pvw.permissives.given .windRaiseOk = true := by rw [permissives]; exact was
    have up : p.msq.state = .raising target .up := by rw [← before]; exact state
    refine ⟨evaluate_raising rfl vehicles given (raiseGone above) up, fun sound moving own => ?_⟩
    rw [evaluate_changed false given (raiseGone above)]
    refine changeUsers_stops (p := reformed (envOf s) .wind p) (lostOf_raise rfl vehicles given (raiseGone above)) up ?_ ((congrArg AxisRec.state (axis .mast)).trans moving) ?_
    · rw [← before]
      exact listedWait_of_sound sound
    · exact (congrArg (carriesMove · .msq) (axis .mast)).trans own
  · have given : p.pvw.permissives.given .windMoveOk = true := by rw [permissives]; exact was
    have active : p.pnt.state = .active activity := by rw [← before]; exact active
    obtain ⟨held, -⟩ := evaluate_held false given (moveGone above) sameBrake active (needsMet_noWind (moveGone above) other)
    exact held.trans (congrArg (PointState.held activity) (if_neg (ne_true_of_eq_false (moveGone above))))
  · have given : p.pvw.permissives.given .windMoveOk = true := by rw [permissives]; exact was
    rw [evaluate_changed false given (moveGone above)]
    have ended := changeUsers_headEnded (e := envOf s) (b := false) (before := p.pvw.permissives) (p := reformed (envOf s) .wind p) given (moveGone above) sameBrake
      (by rw [reformed, ← before]; exact sound) head
    have same : axisOf (reformed (envOf s) .wind p) a = axisOf s.plant a := (axisOf_congr rfl a).trans (axis a)
    have grants : (reformed (envOf s) .wind p).axd.grants = s.plant.axd.grants := by rw [reformed, ← before]
    rw [same, grants] at ended
    exact ended carries

/-- Settles O28: `windOf` by which of mean and gust is greater, and what the taking stores by O30. -/
theorem aWindValueIsBroughtIntoRange : Obligations.AWindValueIsBroughtIntoRange := by
  intro payload mean gust
  refine ⟨?_, fun s x rest arrivals kind same => ?_⟩
  · have greater : max mean gust = if gust < mean then mean else gust := by split <;> omega
    exact congrArg (WindValue.mk mean) greater
  · obtain ⟨t, taken, -, pvw, -⟩ := aWindNoticeGatesMastAndHead s x rest arrivals kind
    subst same
    exact ⟨t, taken, by rw [pvw], by rw [pvw], by rw [pvw], by rw [pvw]⟩

/-! ### The wind filters (R35) -/

theorem stepFilter_above {limit hysteresis depth gust : Nat} {f : WindFilter} (above : f.side = .above) :
    stepFilter limit hysteresis depth gust f =
      if gust + hysteresis < limit then if depth ≤ f.run + 1 then { side := .below, run := 0 } else { side := .above, run := f.run + 1 }
      else { side := .above, run := 0 } := by
  have under : (gust : Int) < (limit : Int) - (hysteresis : Int) ↔ gust + hysteresis < limit := by omega
  unfold stepFilter
  simp only [above, under, decide_eq_true_eq]

theorem stepFilter_below {limit hysteresis depth gust : Nat} {f : WindFilter} (below : f.side = .below) :
    stepFilter limit hysteresis depth gust f = if limit ≤ gust then { side := .above, run := 0 } else f := by
  unfold stepFilter
  simp only [below]

/-- Settles O29: the table's rows in turn; under a limit no greater than the hysteresis no gust is under their difference. -/
theorem aWindFilterStepsByItsTable : Obligations.AWindFilterStepsByItsTable := by
  intro limit hysteresis depth gust f under
  refine ⟨fun above out => ?_, fun above hit few => ?_, fun above hit full => ?_, fun below high => ?_, fun below low => ?_, fun narrow above => ?_, fun run => ?_⟩
  · rw [stepFilter_above above, if_neg out]
  · rw [stepFilter_above above, if_pos hit, if_neg (Nat.not_le.2 few)]
  · rw [stepFilter_above above, if_pos hit, if_pos full]
  · rw [stepFilter_below below, if_pos high]
  · rw [stepFilter_below below, if_neg (Nat.not_le.2 low)]
  · rw [stepFilter_above above, if_neg (by omega)]
  · cases side : f.side with
    | above =>
      rw [stepFilter_above side]
      split
      · split
        · exact Nat.zero_le _
        · dsimp only
          omega
      · exact Nat.zero_le _
    | below =>
      rw [stepFilter_below side]
      split
      · exact Nat.zero_le _
      · exact run

end Sys2Proof.Machine
end

