-- ==== Sys2Proof/Proofs/PeerReports.lean ====
section
/-! PROOFS. The takings of CLEARANCE and LEVEL (R29, R34, R39, R44, R109, R110): the mast limited or halted by the obstacle (O31), and the
level report handed to the measurement under way (O32). -/

namespace Sys2Proof.Machine

/-! ### CLEARANCE -/

theorem exec_clearance {s : State} {x : ArrivalEntry} {rest : List ArrivalEntry} (arrivals : s.arrivals = x :: rest) (kind : x.kind = .role .clearance) :
    exec .clearance s = .next { s with arrivals := rest, plant := takeClearance (envOf s) x s.plant } :=
  congrArg Host.Outcome.next (takeRole_taken takeClearance arrivals kind)

section
variable {e : Env} {p : Plant} {b : Nat} {h : Int}

theorem clearanceValue_rest (e : Env) (value : ClearanceValue) (p : Plant) :
    ∃ posts axd msq, clearanceValue e value p = { p with posts := posts, axd := axd, msq := msq } := by
  unfold clearanceValue
  dsimp only
  split
  · split
    · split
      · exact ⟨_, _, _, rfl⟩
      split
      · rename_i b _ _ _ _ _ _ _
        obtain ⟨posts, axd, only⟩ := moveRequest_onlyDrives e (mastMove .raise (allowedTop e b)) { p with msq := { p.msq with state := .raising (allowedTop e b) .up } }
        exact ⟨posts, axd, _, only⟩
      · exact haltMast_rest e p _ _ _
    · split
      · exact haltMast_rest e p _ _ _
      · exact ⟨_, _, _, rfl⟩
    · exact ⟨_, _, _, rfl⟩
  · exact ⟨_, _, _, rfl⟩

/-- RAISING upward under an obstacle (R109). -/
theorem clearanceValue_raising {target : Int} (position : mastPosition p = some h) (state : p.msq.state = .raising target .up) :
    (clearanceValue e (some b) p).msq.state =
      if target ≤ allowedTop e b then .raising target .up else if h < allowedTop e b then .raising (allowedTop e b) .up else .halted .clearance := by
  unfold clearanceValue
  rw [position]
  dsimp only
  rw [state]
  dsimp only
  split
  · exact state
  split
  · obtain ⟨_, _, only⟩ := moveRequest_onlyDrives e (mastMove .raise (allowedTop e b)) { p with msq := { p.msq with state := .raising (allowedTop e b) .up } }
    rw [only]
  · rw [haltMast_msq]

/-- RAISED under an obstacle (R110). -/
theorem clearanceValue_raised (position : mastPosition p = some h) (state : p.msq.state = .raised) :
    (clearanceValue e (some b) p).msq.state = if allowedTop e b < h then .halted .clearance else .raised := by
  unfold clearanceValue
  rw [position]
  dsimp only
  rw [state]
  dsimp only
  split
  · rw [haltMast_msq]
  · exact state

end

/-- Settles O31: the evaluation leaves the mast state at a report, and `clearanceValue` then judges it at the position that no block has moved. -/
theorem aClearanceNoticeLimitsTheMast : Obligations.AClearanceNoticeLimitsTheMast := by
  intro s x rest arrivals kind value c ok
  generalize before : ({ s.plant with pvw := { s.plant.pvw with clearance := takenEntry value x.stamp } } : Plant) = p
  have taken : takeClearance (envOf s) x s.plant = clearanceValue (envOf s) value (evaluate (envOf s) .clearance true p) := by
    rw [← before]
    rfl
  have position : (axisOf p .mast).position = (axisOf s.plant .mast).position := by rw [← before]; rfl
  have given : clearanceGiven (envOf s) p value = ok := by
    dsimp only [ok]
    rw [← position]
    unfold clearanceGiven
    cases value with
    | none => rfl
    | some b =>
      dsimp only [axisOf]
      generalize p.axd.axes.mast.position = position
      cases position <;> rfl
  have formed : evalRole (envOf s) p .clearance = { s.plant.pvw.permissives with clearanceOk := ok } := by
    rw [← given, ← before]
    rfl
  have judged := evaluate_evaluated (envOf s) .clearance true p
  have state : (evaluate (envOf s) .clearance true p).msq.state = s.plant.msq.state := (evaluate_byReport .clearance).trans (by rw [← before])
  obtain ⟨_, _, _, limited⟩ := clearanceValue_rest (envOf s) value (evaluate (envOf s) .clearance true p)
  refine ⟨_, exec_clearance arrivals kind, rfl, ?_, ?_, ?_, fun b h some found => ?_⟩
  · dsimp only
    rw [taken, limited, judged.pvw, formed, ← before]
    rfl
  · dsimp only
    rw [taken, limited, judged.aut, ← before]
  · dsimp only
    rw [taken, limited, judged.flt, ← before]
  · have stands : mastPosition (evaluate (envOf s) .clearance true p) = .some h := judged.position.trans (position.trans found)
    dsimp only
    rw [taken, some]
    exact ⟨fun target raising => clearanceValue_raising stands (state.trans raising), fun raised => clearanceValue_raised stands (state.trans raised)⟩

/-! ### LEVEL -/

theorem exec_level {s : State} {x : ArrivalEntry} {rest : List ArrivalEntry} (arrivals : s.arrivals = x :: rest) (kind : x.kind = .role .level) :
    exec .level s = .next { s with arrivals := rest, plant := takeLevel (envOf s) x s.plant } :=
  congrArg Host.Outcome.next (takeRole_taken takeLevel arrivals kind)

theorem countReport_eq (e : Env) (r : LevelReport) (inTime : Bool) (m : Measurement) : countReport e r inTime m = counted (cfgOf e).peakN r inTime m := by
  unfold countReport counted
  simp only [Bool.and_eq_true, decide_eq_true_eq, and_assoc]

theorem measuredLevel_full {e : Env} {m : Measurement} (full : (cfgOf e).peakN ≤ m.count) : measuredLevel e m = some (meanOf m.sum (cfgOf e).peakN) := if_pos full

theorem measuredLevel_short {e : Env} {m : Measurement} (short : ¬ (cfgOf e).peakN ≤ m.count) : measuredLevel e m = none := if_neg short

/-- A measurement after one more report: with N reports counted its mean is handed to its block (R128, R141). -/
def measured (e : Env) (who : Requester) (m : Measurement) (p : Plant) : Plant :=
  if (cfgOf e).peakN ≤ m.count then handMean e who (meanOf m.sum (cfgOf e).peakN) p else p

theorem runReport_listens {e : Env} {r : LevelReport} {p : Plant} (listens : runListens p = true) :
    runReport e r p = runMeasured e (updateRun (fun x => { x with measurement := judgeReport e r x.measurement }) p) := by
  unfold runListens at listens
  cases status : p.run.status with
  | running st =>
    cases st with
    | settle | measure | closeSettle | closeMeasure => simp only [runReport, status]
    | toPoint | toClose | toBest => simp [status] at listens
  | none | ended | suspended | resumeWait => simp [status] at listens

section
variable {e : Env} {p : Plant} {r : LevelReport} {m : Measurement}

/-- The report at the preset (R128). -/
theorem handReport_preset (phase : p.pnt.state = .active (.slewing .measure)) (judged : judgePreset e p.pnt.completedAt r p.pnt.measurement = m) :
    handReport e r p = measured e .pnt m { p with pnt := { p.pnt with measurement := m } } := by
  have mean (l : Int) : handMean e .pnt l { p with pnt := { p.pnt with measurement := m } } = presetMeasured e l { p with pnt := { p.pnt with measurement := m } } :=
    presetMean_measure phase
  unfold handReport
  rw [if_pos phase]
  unfold presetReport measured
  rw [mean]
  simp only [phase, judged]
  by_cases full : (cfgOf e).peakN ≤ m.count
  · rw [if_pos full, measuredLevel_full full]
  · rw [if_neg full, measuredLevel_short full]

variable (other : p.pnt.state ≠ .active (.slewing .measure))

include other

/-- The report at a search point (R141). -/
theorem handReport_pattern {y : Pattern} (found : p.pat = some y) (judged : judgeReport e r y.measurement = m) (listens : patternListens p = true) :
    handReport e r p = measured e .pat m { p with pat := some { y with measurement := m } } := by
  have written : updatePattern (fun x => { x with measurement := judgeReport e r x.measurement }) p = { p with pat := some { y with measurement := m } } := by
    rw [updatePattern, found, ← judged]
    rfl
  unfold handReport
  rw [if_neg other, if_pos listens, patternReport, if_pos listens, written, patternMeasured, measured]
  dsimp only
  by_cases full : (cfgOf e).peakN ≤ m.count
  · rw [if_pos full, measuredLevel_full full]
    rfl
  · rw [if_neg full, measuredLevel_short full]

variable (silent : patternListens p = false)

include silent

/-- The report at a point of the run (R152, R155). -/
theorem handReport_run (judged : judgeReport e r p.run.measurement = m) (listens : runListens p = true) :
    handReport e r p = measured e .pke m { p with run := { p.run with measurement := m } } := by
  have written : updateRun (fun x => { x with measurement := judgeReport e r x.measurement }) p = { p with run := { p.run with measurement := m } } := by
    rw [updateRun, judged]
  unfold handReport
  rw [if_neg other, if_neg (by simp [silent]), if_pos listens, runReport_listens listens, written, runMeasured, measured]
  dsimp only
  by_cases full : (cfgOf e).peakN ≤ m.count
  · rw [if_pos full, measuredLevel_full full]
    rfl
  · rw [if_neg full, measuredLevel_short full]

/-- No measurement under way, and no new sample of a track (R160). -/
theorem handReport_none (still : runListens p = false) (track : p.monitor.state = .off ∨ p.monitor.lastSequence = some r.sequence) : handReport e r p = p := by
  unfold handReport
  rw [if_neg other, if_neg (by simp [silent]), if_neg (by simp [still])]
  split
  · rfl
  · rename_i on
    have seen := track.resolve_left on
    unfold trackReport
    dsimp only
    rw [if_pos seen, ← seen]

end

/-- A pattern that settles takes no mean (R141). -/
theorem measured_settling_pattern {e : Env} {p : Plant} {m : Measurement} {y : Pattern} {since : Clock} (found : p.pat = some y)
    (status : y.status = .running (.settle since)) : measured e .pat m p = p := by
  have none (l : Int) : handMean e .pat l p = p := by
    change patternMean e l p = p
    unfold patternMean
    simp [found, status]
  rw [measured, none, ite_self]

/-- A run that settles takes no mean (R152). -/
theorem measured_settling_run {e : Env} {p : Plant} {m : Measurement} {since : Clock}
    (status : p.run.status = .running (.settle since) ∨ p.run.status = .running (.closeSettle since)) : measured e .pke m p = p := by
  have none (l : Int) : handMean e .pke l p = p := by
    change runMean e l p = p
    unfold runMean
    rcases status with status | status <;> simp [status]
  rw [measured, none, ite_self]

/-- A LEVEL value in LINKED source: the entry stored, LEVEL_OK given, the report handed on (R34, R44). -/
def levelStored (x : ArrivalEntry) (p : Plant) : Plant := { p with pvw := { p.pvw with level := takenEntry (levelOf x.payload) x.stamp } }

theorem takeLevel_linked {e : Env} (source : linked e = true) (x : ArrivalEntry) (p : Plant) :
    takeLevel e x p = handReport e { level := (levelOf x.payload).level, sequence := (levelOf x.payload).sequence, stamp := x.stamp }
      (evaluate e .level false (levelStored x p)) := if_pos source

/-- Settles O32: with LEVEL_OK given before nothing is evaluated anew, and the report goes to the block that `handReport` finds measuring. -/
theorem aLevelNoticeRefreshesTheEntry : Obligations.ALevelNoticeRefreshesTheEntry := by
  intro s x rest arrivals kind v
  have next := exec_level arrivals kind
  refine ⟨fun source => ?_, fun source => ?_, fun source given => ?_⟩
  · rw [next, takeLevel, if_neg (by simp [linked, cfgOf, envOf, source])]
  · have on : linked (envOf s) = true := decide_eq_true source
    have formed : evalRole (envOf s) (levelStored x s.plant) .level = { s.plant.pvw.permissives with levelOk := true } := rfl
    have judged := evaluate_evaluated (envOf s) .level false (levelStored x s.plant)
    rw [takeLevel_linked on] at next
    have work := handReport_headWork (e := envOf s) (.refl (evaluate (envOf s) .level false (levelStored x s.plant)))
      { level := (levelOf x.payload).level, sequence := (levelOf x.payload).sequence, stamp := x.stamp }
    exact ⟨_, next, rfl, work.pvw.trans (by rw [judged.pvw, formed]; rfl), work.aut.trans judged.aut, work.flt.trans judged.flt⟩
  · intro c p r age late waited lateAtPreset mean atPreset becomes hands
    have same : evaluate (envOf s) .level false p = p := evaluate_same (e := envOf s) (r := .level) (p := p) false (by
      change ({ s.plant.pvw.permissives with levelOk := true } : PermissiveSet) = s.plant.pvw.permissives
      rw [← given])
    have on : linked (envOf s) = true := decide_eq_true source
    have stored : takeLevel (envOf s) x s.plant = handReport (envOf s) r p := (takeLevel_linked on x s.plant).trans (congrArg (handReport (envOf s) r) same)
    have applied (q : Plant) : applyHead q s = { s with arrivals := rest, plant := q } := by
      simp only [applyHead, arrivals, List.tail_cons]
      rfl
    have ends {q : Plant} (handed : handReport (envOf s) r p = q) : becomes q := by
      dsimp only [becomes]
      rw [next, stored, handed]
    have takes {who : Requester} {m : Measurement} {q : Plant} (handed : handReport (envOf s) r p = measured (envOf s) who m q) :
        if c.peakN ≤ m.count then hands (handMean (envOf s) who (mean m) q) else becomes q := by
      split
      · dsimp only [hands]
        rw [applied, next, stored, handed, measured, if_pos ‹_›]
        rfl
      · exact ends (handed.trans (if_neg ‹_›))
    refine ⟨fun phase => ?_, fun y other found => ⟨fun since status => ?_, fun status => ?_⟩, fun other silent => ⟨fun since status => ?_, fun status => ?_⟩,
      fun other silent still track => ends (handReport_none other silent still track)⟩
    · exact takes (handReport_preset phase (countReport_eq (envOf s) r lateAtPreset p.pnt.measurement))
    · have handed := handReport_pattern other found (countReport_eq (envOf s) r (late y.measurement) y.measurement) (by simp [patternListens, found, status])
      exact ends (handed.trans (measured_settling_pattern rfl status))
    · exact takes (handReport_pattern other found (countReport_eq (envOf s) r (late y.measurement) y.measurement) (by simp [patternListens, found, status]))
    · have handed := handReport_run other silent (countReport_eq (envOf s) r (late p.run.measurement) p.run.measurement)
        (by rcases status with status | status <;> simp [runListens, status])
      exact ends (handed.trans (measured_settling_run status))
    · exact takes (handReport_run other silent (countReport_eq (envOf s) r (late p.run.measurement) p.run.measurement)
        (by rcases status with status | status <;> simp [runListens, status]))

end Sys2Proof.Machine
end

