-- ==== Sys2Proof/Proofs/PeerExpiry.lean ====
section
/-! PROOFS. FRESHNESS_EXPIRY (R30, R36, R37, R45): when an entry expires, and what its permissives halt and hold as they fall (O33). -/

namespace Sys2Proof.Machine

/-- A FRESH entry expires past its limit. -/
theorem expired_fresh {α : Type} {now stamp : Stamp} {limit : Nat} {x : PeerEntry α} (fresh : x.state = some .fresh) (at_ : x.stamp = some stamp) :
    expired now limit x = decide (limit < stampAge now stamp) := by
  unfold expired
  rw [fresh, at_]

/-- An entry within its limit does not, nor one that is not FRESH. -/
theorem not_expired {α : Type} {now stamp : Stamp} {limit : Nat} {x : PeerEntry α}
    (young : x.state ≠ some .fresh ∨ (x.stamp = some stamp ∧ (now - stamp).toNat ≤ limit)) : expired now limit x = false := by
  by_cases fresh : x.state = some .fresh
  · obtain ⟨at_, within⟩ := young.resolve_left (not_not.2 fresh)
    rw [expired_fresh fresh at_]
    exact decide_eq_false (Nat.not_lt.2 within)
  · exact expired_unheard fresh now limit

theorem exec_unexpired {s : State} {r : Role} (young : expiryDue (envOf s) s.plant r = false) : exec (.freshnessExpiry r) s = .next s := if_neg (ne_true_of_eq_false young)

/-- The plant with the entry of a role STALE. -/
def staled (posts : PostQueue) (r : Role) (p : Plant) : Plant := { p with posts := posts, pvw := expireEntry r p.pvw }

/-- The permissives with those of a role not given (Table 3-3). -/
def withdrawn (r : Role) (old : PermissiveSet) : PermissiveSet :=
  match r with
  | .vehicle => { old with brakeSet := false, outriggersDown := false, vanLevelOk := false, headingOk := false }
  | .wind => { old with windRaiseOk := false, windMoveOk := false }
  | .clearance => { old with clearanceOk := false }
  | .level => { old with levelOk := false }

section
variable (e : Env) (posts : PostQueue) (r : Role) (p : Plant)

/-- The permissives evaluated on the STALE entry, and for VEHICLE DRIVE_AWAY after them (R30, R45). -/
theorem expireRole_eq : ∃ posts, expireRole e r p =
    if r = .vehicle then driveAway e (evaluate e r false (staled posts r p)) else evaluate e r false (staled posts r p) := by
  obtain ⟨posts, stale⟩ := setPeerView_rest e (expireEntry r p.pvw) p
  refine ⟨posts, ?_⟩
  unfold staled
  rw [← stale]
  rfl

theorem exec_expired {s : State} (due : expiryDue (envOf s) s.plant r = true) : ∃ posts, exec (.freshnessExpiry r) s = .next { s with
    plant := if r = .vehicle then driveAway (envOf s) (evaluate (envOf s) r false (staled posts r s.plant))
      else evaluate (envOf s) r false (staled posts r s.plant) } := by
  obtain ⟨posts, taken⟩ := expireRole_eq (envOf s) r s.plant
  refine ⟨posts, ?_⟩
  rw [← taken]
  exact if_pos due

theorem staled_permissives : (staled posts r p).pvw.permissives = p.pvw.permissives := by cases r <;> rfl

/-- A STALE entry gives none of its permissives (R38). -/
theorem evalRole_staled : evalRole e (staled posts r p) r = withdrawn r p.pvw.permissives := by cases r <;> rfl

/-- What the evaluation of a STALE entry leaves. -/
theorem evaluate_staled :
    (evaluate e r false (staled posts r p)).aut = p.aut ∧ (evaluate e r false (staled posts r p)).flt = p.flt ∧
      (evaluate e r false (staled posts r p)).pvw = { expireEntry r p.pvw with permissives := withdrawn r p.pvw.permissives } ∧
      ((evaluate e r false (staled posts r p)).msq.state = .stowed ↔ p.msq.state = .stowed) := by
  have judged := evaluate_evaluated e r false (staled posts r p)
  exact ⟨judged.aut, judged.flt, judged.pvw.trans (by rw [evalRole_staled]; rfl), judged.stowed⟩

variable {e posts r p}

/-- A mast RAISING upward at the expiry is HALTED with the cause of the lowest code withdrawn (R42). -/
theorem evaluate_staled_raising {x : Permissive} {lower higher : List Permissive} {target : Int} (order : raisePermissives = lower ++ x :: higher)
    (kept : ∀ y ∈ lower, (withdrawn r p.pvw.permissives).given y = p.pvw.permissives.given y) (was : p.pvw.permissives.given x = true)
    (now : (withdrawn r p.pvw.permissives).given x = false) (state : p.msq.state = .raising target .up) :
    (evaluate e r false (staled posts r p)).msq.state = .halted (lossCause x) := by
  refine evaluate_raising (p := staled posts r p) order (fun y m => ?_) ?_ ?_ state
  · rw [evalRole_staled, staled_permissives, kept y m]
    exact id
  · rw [staled_permissives]
    exact was
  · rw [evalRole_staled]
    exact now

/-- An activity that loses a need by the expiry is HELD (R130). -/
theorem evaluate_staled_held {x : Permissive} {activity : Activity} (was : p.pvw.permissives.given x = true)
    (now : (withdrawn r p.pvw.permissives).given x = false) (braked : (withdrawn r p.pvw.permissives).brakeSet = p.pvw.permissives.brakeSet)
    (active : p.pnt.state = .active activity) (missing : needsMet e (reformed e r (staled posts r p)) activity = false) :
    (evaluate e r false (staled posts r p)).pnt.state = .held activity (if (withdrawn r p.pvw.permissives).windMoveOk = true then .level else .wind) ∧
      (activity = .tracking → (evaluate e r false (staled posts r p)).monitor = .cold) := by
  have held := evaluate_held (e := e) (r := r) (p := staled posts r p) false (x := x) (activity := activity) (by rw [staled_permissives]; exact was)
    (by rw [evalRole_staled]; exact now) (by rw [evalRole_staled, staled_permissives]; exact braked) active missing
  rw [evalRole_staled] at held
  exact held

/-- A permissive after the expiry. -/
theorem given_staled (x : Permissive) : given (reformed e r (staled posts r p)) x = (withdrawn r p.pvw.permissives).given x :=
  congrArg (PermissiveSet.given · x) (evalRole_staled e posts r p)

/-- The loss of BRAKE_SET halts pointing (R131). -/
theorem evaluate_staled_brake (was : p.pvw.permissives.brakeSet = true) :
    (evaluate e .vehicle false (staled posts .vehicle p)).pnt.state = .idle ∧ (evaluate e .vehicle false (staled posts .vehicle p)).pnt.record = p.pnt.record :=
  evaluate_brake (p := staled posts .vehicle p) false was (by rw [evalRole_staled]; rfl)

end

/-- Settles O33: the entry STALE, the evaluation with every loss it brings, and for VEHICLE DRIVE_AWAY after it. -/
theorem anEntryExpiresPastItsLimit : Obligations.AnEntryExpiresPastItsLimit := by
  intro s stamp v c age
  refine ⟨fun fresh at_ old => ?_, fun fresh at_ old => ?_, fun fresh at_ old => ?_, fun fresh at_ old => ?_, fun young => exec_unexpired (not_expired young),
    fun young => exec_unexpired (not_expired young), fun young => exec_unexpired (not_expired young), fun young => exec_unexpired (not_expired young)⟩
  · obtain ⟨posts, taken⟩ := exec_expired (r := .vehicle) ((expired_fresh fresh at_).trans (decide_eq_true old))
    obtain ⟨aut, flt, pvw, stowed⟩ := evaluate_staled (envOf s) posts .vehicle s.plant
    by_cases home : s.plant.msq.state = .stowed
    · rw [if_pos rfl, driveAway_stowed (stowed.2 home)] at taken
      refine ⟨_, taken, rfl, aut, pvw, fun out => absurd home out, fun _ => flt, fun was => ?_⟩
      obtain ⟨state, record⟩ := evaluate_staled_brake was
      exact ⟨state, record, fun target raising => by rw [home] at raising; cases raising⟩
    · rw [if_pos rfl] at taken
      have left := driveAway_drivenAway (e := envOf s) (mt stowed.1 home)
      refine ⟨_, taken, rfl, left.aut.trans aut, left.pvw.trans pvw, fun _ => left.entered, fun h => absurd h home, fun was => ?_⟩
      obtain ⟨state, record⟩ := evaluate_staled_brake (e := envOf s) (posts := posts) was
      exact ⟨(congrArg Pointing.state (left.idle state)).trans state, (congrArg Pointing.record (left.idle state)).trans record, fun target raising =>
        left.mast (evaluate_staled_raising (x := .brakeSet) (lower := []) rfl (by simp) was rfl raising)⟩
  · obtain ⟨posts, taken⟩ := exec_expired (r := .wind) ((expired_fresh fresh at_).trans (decide_eq_true old))
    obtain ⟨aut, flt, pvw, -⟩ := evaluate_staled (envOf s) posts .wind s.plant
    refine ⟨_, taken, rfl, aut, flt, pvw, fun target was raising => ?_, fun activity was other active => ?_⟩
    · exact evaluate_staled_raising (x := .windRaiseOk) (lower := [.brakeSet, .outriggersDown, .vanLevelOk]) rfl (by simp [withdrawn, PermissiveSet.given]) was rfl
        raising
    · obtain ⟨held, -⟩ := evaluate_staled_held (r := .wind) (x := .windMoveOk) was rfl rfl active (needsMet_noWind (given_staled .windMoveOk) other)
      exact held
  · obtain ⟨posts, taken⟩ := exec_expired (r := .clearance) ((expired_fresh fresh at_).trans (decide_eq_true old))
    obtain ⟨aut, flt, pvw, -⟩ := evaluate_staled (envOf s) posts .clearance s.plant
    refine ⟨_, taken, rfl, aut, flt, pvw, fun target was raising => ?_⟩
    exact evaluate_staled_raising (x := .clearanceOk) (lower := [.brakeSet, .outriggersDown, .vanLevelOk, .windRaiseOk]) rfl
      (by simp [withdrawn, PermissiveSet.given]) was rfl raising
  · obtain ⟨posts, taken⟩ := exec_expired (r := .level) ((expired_fresh fresh at_).trans (decide_eq_true old))
    obtain ⟨aut, flt, pvw, -⟩ := evaluate_staled (envOf s) posts .level s.plant
    refine ⟨_, taken, rfl, aut, flt, pvw, fun activity source was active peak => ?_⟩
    exact evaluate_staled_held (r := .level) (x := .levelOk) was rfl rfl active (needsMet_noLevel (decide_eq_true source) (given_staled .levelOk) peak)

end Sys2Proof.Machine
end

