-- ==== Sys2Proof/Proofs/StopRest.lean ====
section
/-! PROOFS. What keeps the STOP latch and the command holder, and what writes the latch: the axes at rest under a SET latch stay so
through every operation of the plant, and the latch-set event brings them to rest (R47, R49, R50, R55). -/

namespace Sys2Proof.Machine

/-! ### Axes at rest under a SET latch (R50) -/

/-- No axis carries a move and none is listed as waiting for a grant. -/
structure Stopped (p : Plant) : Prop where
  axes : ∀ a, endedState (axisOf p a).state = (axisOf p a).state
  waiting : p.axd.waiting = []

theorem endedState_eq_self_iff {x : AxisState} : endedState x = x ↔ x ≠ .waiting ∧ x ≠ .moving ∧ x ≠ .settling := by cases x <;> simp [endedState]

theorem endedState_of_rest {x : AxisState} (h : restState x) : endedState x = x := by rcases h with rfl | rfl <;> rfl

/-- While the latch is SET every axis has its move ended. -/
theorem latchSound_iff {p : Plant} : latchSound p = true ↔ (p.aut.latch.isSome = true → ∀ a, endedState (axisOf p a).state = (axisOf p a).state) := by
  unfold latchSound
  rw [Bool.or_eq_true, forall_axes_iff]
  cases p.aut.latch with
  | none => simp
  | some cause =>
    simp only [Option.isNone_some, Bool.false_eq_true, false_or, Option.isSome_some, forall_const]
    refine forall_congr' fun a => ?_
    cases (axisOf p a).state <;> simp [endedState]

/-- With ARB's lists those of the axis states, no axis waits where none is WAITING (R94). -/
theorem stopped_of_sound {p : Plant} (set : p.aut.latch.isSome = true) (arb : arbiterSound p = true) (sound : latchSound p = true) : Stopped p := by
  have ended := latchSound_iff.1 sound set
  exact ⟨ended, List.eq_nil_iff_forall_not_mem.2 fun a => not_waiting arb (endedState_eq_self_iff.1 (ended a)).1⟩

theorem latchSound_of_stopped {p : Plant} (h : p.aut.latch.isSome = true → Stopped p) : latchSound p = true := latchSound_iff.2 fun set => (h set).axes

theorem Stopped.axd {p q : Plant} (h : Stopped p) (axd : q.axd = p.axd) : Stopped q :=
  ⟨fun a => by rw [axisOf_congr (congrArg Drives.axes axd)]; exact h.axes a, by rw [axd]; exact h.waiting⟩

/-- A record written in a state that carries no move. -/
theorem Stopped.putAxis {e : Env} {a : Axis} {r : AxisRec} {p : Plant} (h : Stopped p) (ended : endedState r.state = r.state) : Stopped (putAxis e a r p) := by
  refine ⟨fun b => ?_, by rw [putAxis_axd, waiting_setAxisRaw]; exact h.waiting⟩
  rw [axisOf_putAxis]
  split
  · rw [settleRecord_state]; exact ended
  · exact h.axes b

theorem Stopped.setAxisRaw {a : Axis} {r : AxisRec} {p : Plant} (h : Stopped p) (ended : endedState r.state = r.state) : Stopped (setAxisRaw a r p) := by
  refine ⟨fun b => ?_, h.waiting⟩
  rw [axisOf_setAxisRaw]
  split
  · exact ended
  · exact h.axes b

/-- With none waiting there is none to grant (R94). -/
theorem tryGrant_stopped {p : Plant} (h : Stopped p) (e : Env) : tryGrant e p = p := by
  unfold tryGrant chooseWaiting
  simp [h.waiting]

/-- A drive step of an axis that carries no move: at most a STOPPING axis comes to rest (R84). -/
theorem driveStep_stopped {p : Plant} (h : Stopped p) (e : Env) (a : Axis) : Stopped (driveStep e a p) := by
  have ended := endedState_eq_self_iff.1 (h.axes a)
  unfold driveStep
  cases st : (axisOf p a).state
  case moving => exact absurd st ended.2.1
  case settling => exact absurd st ended.2.2
  case stopping =>
    have slowed : Stopped (putAxis e a (withSpeed e a (stopRamp (axisOf p a).v (axisCfg e a).stopStep) (axisOf p a)) p) := h.putAxis (h.axes a)
    dsimp only [stopStep]
    split
    · refine slowed.putAxis (endedState_of_rest ?_)
      dsimp only
      split
      · exact .inr rfl
      · exact .inl rfl
    · exact slowed
  all_goals exact h

/-! ### Through `Evolves` -/

theorem OnlyDrives.aut {p q : Plant} (h : OnlyDrives p q) : q.aut = p.aut := by obtain ⟨_, _, rfl⟩ := h; rfl

/-- No operation of the other blocks writes AUT. -/
theorem evolves_aut {e : Env} {p q : Plant} (g : Evolves e p q) : q.aut = p.aut := by
  induction g with
  | refl => rfl
  | posted _ _ _ ih | inner _ _ _ _ _ _ _ _ ih | faults _ _ _ ih | written _ _ _ _ ih => exact ih
  | rested _ a r _ _ _ ih => exact (putAxis_onlyDrives e a r _).aut.trans ih
  | abandoned _ a n _ _ ih => exact (abandonWaiting_onlyDrives e a n _).aut.trans ih
  | stopped _ a _ ih => exact (toStopping_onlyDrives e a _).aut.trans ih
  | joined _ a r _ _ _ ih => exact (joinWaiting_onlyDrives e a r _).aut.trans ih
  | replaced _ m x _ _ ih => exact (replaceMove_onlyDrives e m _ _).aut.trans ih
  | granted _ ih => exact (tryGrant_onlyDrives e _).aut.trans ih
  | stepped _ a ih => exact (driveStep_onlyDrives e a _).aut.trans ih
  | completed _ a _ ih => exact (endSettled_onlyDrives e a _).aut.trans ih

/-- Under a SET latch no operation begins a move: a request joins only with the latch CLEAR, and none waits for a grant (R50). -/
theorem evolves_stopped {e : Env} {p q : Plant} (g : Evolves e p q) (set : p.aut.latch.isSome = true) (h : Stopped p) : Stopped q := by
  induction g with
  | refl => exact h
  | posted _ _ _ ih | inner _ _ _ _ _ _ _ _ ih | faults _ _ _ ih => exact ih.axd rfl
  | written _ a r same ih => exact ih.setAxisRaw (by rw [same.state]; exact ih.axes a)
  | rested _ a r _ after _ ih => exact ih.putAxis (endedState_of_rest after)
  | abandoned _ a _ before _ ih => exact absurd before (endedState_eq_self_iff.1 (ih.axes a)).1
  | stopped _ a before ih =>
    have ended := endedState_eq_self_iff.1 (ih.axes a)
    exact absurd before (not_or.2 ended.2)
  | joined g _ _ clear =>
    rw [evolves_aut g] at clear
    rw [clear] at set
    cases set
  | replaced g _ _ clear =>
    rw [evolves_aut g] at clear
    rw [clear] at set
    cases set
  | granted _ ih => rw [tryGrant_stopped ih]; exact ih
  | stepped _ a ih => exact driveStep_stopped ih e a
  | completed _ a before ih => exact absurd before (endedState_eq_self_iff.1 (ih.axes a)).2.2

/-! ### What leaves the latch as it is -/

/-- `q` comes from `p` with the latch as it was and no axis set moving under a SET one; the holder is another only when `free`. -/
structure LatchKept (free : Prop) (p q : Plant) : Prop where
  latch : q.aut.latch = p.aut.latch
  holder : free ∨ q.aut.holder = p.aut.holder
  stopped : p.aut.latch.isSome = true → Stopped p → Stopped q

section
variable {e : Env} {free : Prop} {p q r : Plant}

theorem LatchKept.refl (p : Plant) : LatchKept free p p := ⟨rfl, .inr rfl, fun _ => id⟩

theorem LatchKept.trans (h : LatchKept free p q) (g : LatchKept free q r) : LatchKept free p r where
  latch := g.latch.trans h.latch
  holder := h.holder.elim .inl fun held => g.holder.imp_right fun held' => held'.trans held
  stopped set still := g.stopped (by rw [h.latch]; exact set) (h.stopped set still)

theorem LatchKept.imp {free' : Prop} (h : LatchKept free p q) (f : free → free') : LatchKept free' p q := ⟨h.latch, h.holder.imp_left f, h.stopped⟩

theorem Evolves.latchKept (g : Evolves e p q) : LatchKept free p q :=
  ⟨by rw [evolves_aut g], .inr (by rw [evolves_aut g]), evolves_stopped g⟩

/-- A write of AUT but for the latch, of PVW or of the posts. -/
theorem latchKept_write (posts : PostQueue) (pvw : PeerView) (aut : Authority) (latch : aut.latch = p.aut.latch) (holder : free ∨ aut.holder = p.aut.holder) :
    LatchKept free p { p with posts := posts, pvw := pvw, aut := aut } :=
  ⟨latch, holder, fun _ still => still.axd rfl⟩

theorem latchKept_peers (pvw : PeerView) : LatchKept free p { p with pvw := pvw } := latchKept_write _ pvw _ rfl (.inr rfl)

theorem latchKept_posts (posts : PostQueue) : LatchKept free p { p with posts := posts } := latchKept_write posts _ _ rfl (.inr rfl)

theorem latchKept_post (k : PostKey) (x : List Byte) : LatchKept free p (post e k x p) := latchKept_posts _

theorem latchKept_postStatusIf (c : Bool) : LatchKept free p (postStatusIf c e p) := (postStatusIf_evolves (e := e) .refl c).latchKept

/-! ### PVW's takings and expiries (R29, R30) -/

theorem evaluate_latchKept (role : Role) (byReport : Bool) : LatchKept free p (evaluate e role byReport p) := by
  have formed : LatchKept free p { p with pvw := { p.pvw with permissives := evalRole e p role } } := latchKept_peers _
  unfold evaluate
  dsimp only
  split
  · exact formed
  · exact formed.trans (changeUsers_evolves (e := e) .refl _ byReport).latchKept

theorem setPeerView_latchKept (v : PeerView) : LatchKept free p (setPeerView e v p) := (latchKept_peers v).trans (latchKept_postStatusIf _)

theorem driveAway_latchKept : LatchKept free p (driveAway e p) := (driveAway_evolves (e := e) .refl).latchKept

theorem takeVehicle_latchKept (x : ArrivalEntry) : LatchKept free p (takeVehicle e x p) := by
  have stored : LatchKept free p (evaluate e .vehicle false (storeVehicle (takenEntry (vehicleOf x.payload) x.stamp) p)) :=
    (latchKept_peers _).trans (evaluate_latchKept _ _)
  unfold takeVehicle
  dsimp only
  split
  · exact stored
  · exact stored.trans driveAway_latchKept

theorem takeWind_latchKept (x : ArrivalEntry) : LatchKept free p (takeWind e x p) := (setPeerView_latchKept _).trans (evaluate_latchKept _ _)

theorem takeClearance_latchKept (x : ArrivalEntry) : LatchKept free p (takeClearance e x p) :=
  ((latchKept_peers _).trans (evaluate_latchKept _ _)).trans (clearanceValue_evolves (e := e) .refl _).latchKept

theorem takeLevel_latchKept (x : ArrivalEntry) : LatchKept free p (takeLevel e x p) := by
  unfold takeLevel
  split
  · exact ((latchKept_peers _).trans (evaluate_latchKept _ _)).trans (handReport_evolves (e := e) .refl _).latchKept
  · exact .refl p

theorem expireRole_latchKept (role : Role) : LatchKept free p (expireRole e role p) := by
  have expired : LatchKept free p (evaluate e role false (setPeerView e (expireEntry role p.pvw) p)) := (setPeerView_latchKept _).trans (evaluate_latchKept _ _)
  unfold expireRole
  dsimp only
  split
  · exact expired.trans driveAway_latchKept
  · exact expired

/-! ### AUT's commands (R55, R56) -/

/-- A command that is no motion command, or is refused, leaves the holder (R55). -/
theorem newHolder_kept {c : CommandCode} {v : Verdict} (h : c.isMotion = false ∨ v.outcome = .refused) (source : Nat) (old : Option Nat) :
    newHolder c source v old = old := by
  unfold newHolder
  rcases h with h | h <;> simp [h]

/-- The taking of a command that leaves the holder: what its judgement leaves, and the REPLY (R56). -/
theorem commandDone_kept {c : CommandCode} {owner : Env → ArrivalEntry → Plant → Plant × Verdict} {x : ArrivalEntry} {v : Verdict}
    (judged : judge e c owner x p = (q, v)) (h : c.isMotion = false ∨ v.outcome = .refused) :
    commandDone e c owner x p = postReply e (sequenceOf x.payload) v.outcome v.reason v.value q := by
  unfold commandDone
  rw [judged]
  dsimp only
  rw [newHolder_kept h]
  rfl

/-- The taking of a command: its owner leaves the holder, and AUT sets it for a motion command alone (R55). -/
theorem commandDone_latchKept {c : CommandCode} {owner : Env → ArrivalEntry → Plant → Plant × Verdict} {x : ArrivalEntry}
    (own : commonChecks e c x.source p = none → LatchKept False p (owner e x p).1) : LatchKept (c.isMotion = true) p (commandDone e c owner x p) := by
  have judged : LatchKept False p (judge e c owner x p).1 := by
    cases check : commonChecks e c x.source p with
    | none => rw [judge_owner owner check]; exact own check
    | some v => rw [judge_refused owner check]; exact .refl p
  have settled (v : Verdict) (q : Plant) : LatchKept (c.isMotion = true) q (setHolder (newHolder c x.source v q.aut.holder) q) := by
    refine latchKept_write _ _ _ rfl ?_
    cases motion : c.isMotion with
    | false => exact .inr (newHolder_kept (.inl motion) _ _)
    | true => exact .inl rfl
  exact ((judged.imp False.elim).trans (settled _ _)).trans (latchKept_post _ _)

theorem aimDone_latchKept (x : ArrivalEntry) : LatchKept True p (aimDone e x p) := by
  have done : LatchKept True p (commandDone e .aim ownAim x p) :=
    (commandDone_latchKept fun _ => (ownAim_evolves (e := e) .refl x).latchKept).imp fun _ => trivial
  unfold aimDone
  dsimp only
  split
  · exact done
  · exact done.trans (beginAim_evolves (e := e) .refl).latchKept

end

/-! ### What writes the latch -/

/-- The latch is SET after, and where AXD was sound before no axis carries a move after. -/
structure LatchWritten (p q : Plant) : Prop where
  latch : q.aut.latch.isSome = true
  holder : q.aut.holder = p.aut.holder
  sound : arbiterSound p = true → latchSound p = true → latchSound q = true

/-- The latch written over a SET one, the drives as they were. -/
theorem latchWritten_again {p q : Plant} (set : p.aut.latch.isSome = true) (axd : q.axd = p.axd) (latch : q.aut.latch.isSome = true)
    (holder : q.aut.holder = p.aut.holder) : LatchWritten p q :=
  ⟨latch, holder, fun arb sound => latchSound_of_stopped fun _ => (stopped_of_sound set arb sound).axd axd⟩

/-- The latch SET from CLEAR: the latch-set event ends every move (R49). -/
theorem latchWritten_event {e : Env} {p q : Plant} (axd : q.axd = p.axd) (latch : q.aut.latch.isSome = true) (holder : q.aut.holder = p.aut.holder) :
    LatchWritten p (latchSetEvent e q) := by
  have set := latchSetEvent_latchSet e q
  refine ⟨by rw [set.aut]; exact latch, by rw [set.aut]; exact holder, fun arb _ => latchSound_iff.2 fun _ a => ?_⟩
  have arb' : arbiterSound q = true := by
    have same (a : Axis) : axisOf q a = axisOf p a := axisOf_congr (congrArg Drives.axes axd) a
    unfold arbiterSound at arb ⊢
    simp only [axd, same]
    exact arb
  rw [set.axes arb', endedState_idem]

theorem stopArrival_latchWritten (e : Env) (source : Nat) (stamp : Stamp) (p : Plant) : LatchWritten p (stopArrival e source stamp p) := by
  unfold stopArrival
  dsimp only
  cases latch : p.aut.latch with
  | none =>
    simp only [Option.isNone_none, if_true]
    exact latchWritten_event (by simp [postHalt]) (by simp [postHalt]) (by simp [postHalt])
  | some cause =>
    simp only [Option.isNone_some, Bool.false_eq_true, if_false]
    exact latchWritten_again (by simp [latch]) (by simp) (by simp) (by simp)

/-- A duplicate event restarts the quiet timer, or at the entry to the condition writes the latch (R53). -/
theorem duplicateEvent_latch (e : Env) (p : Plant) : LatchKept False p (duplicateEvent e p) ∨ LatchWritten p (duplicateEvent e p) := by
  unfold duplicateEvent
  split
  · exact .inl (latchKept_write _ _ _ rfl (.inr rfl))
  · cases latch : p.aut.latch with
    | none => exact .inr (latchWritten_event rfl rfl rfl)
    | some cause => exact .inr (latchWritten_again (by simp [latch]) rfl rfl rfl)

end Sys2Proof.Machine
end

