-- ==== Sys2Proof/Proofs/StopSteps.lean ====
section
/-! PROOFS. What one step can do to the STOP latch, to the command holder and to the axes under a SET latch, said once for every
command, and the three statements about them (O8, O10, O11). -/

namespace Sys2Proof.Machine

/-! ### The effects of a step -/

/-- The motion commands, which may make their source the holder (R55, Table 4-3). -/
def takesHolder (c : Instr) : Prop := c = .raise ∨ c = .lower ∨ c = .aim ∨ c = .peak ∨ c = .cancelPointing ∨ c = .jog

/-- What a command can do to the latch and the holder. -/
inductive LatchEffect (c : Instr) (s : State) : State → Prop where
  | kept {t : State} (h : LatchKept (takesHolder c) s.plant t.plant) : LatchEffect c s t
  | written {t : State} (h : LatchWritten s.plant t.plant) : LatchEffect c s t
  | started {t : State} (latch : t.plant.aut.latch.isSome = true) (holder : t.plant.aut.holder = s.plant.aut.holder)
      (sound : quiet s = true → latchSound t.plant = true) : LatchEffect c s t
  | cleared {t : State} (resume : c = .resume) (latch : t.plant.aut.latch = none) (holder : t.plant.aut.holder = s.plant.aut.holder) : LatchEffect c s t
  | cold {t : State} (reason : ResetReason) (start : c = .coldStart reason) (latch : t.plant.aut.latch = none) : LatchEffect c s t

/-- Every next state of an outcome is such an effect. -/
def LatchEffects (c : Instr) (s : State) (o : Host.Outcome State Fault Refusal) : Prop := ∀ t, o = .next t → LatchEffect c s t

section
variable {c : Instr} {s t : State}

theorem LatchEffects.next (h : LatchEffect c s t) : LatchEffects c s (.next t) := by rintro _ ⟨⟩; exact h

theorem LatchEffects.kept (h : LatchKept (takesHolder c) s.plant t.plant) : LatchEffects c s (.next t) := .next (.kept h)

theorem LatchEffects.same (s : State) : LatchEffects c s (.next s) := .kept (.refl _)

theorem LatchEffects.ite {d : Prop} [Decidable d] {t : State} (h : d → LatchEffect c s t) : LatchEffects c s (if d then .next t else .next s) := by
  split
  · exact .next (h ‹_›)
  · exact .same s

theorem LatchEffects.iteKept {d : Prop} [Decidable d] {t : State} (h : d → LatchKept (takesHolder c) s.plant t.plant) :
    LatchEffects c s (if d then .next t else .next s) := .ite fun hd => .kept (h hd)

/-- What an arrival can do to AUT, whatever has become of the line. -/
theorem LatchEffect.arrival (h : LatchKept False s.plant t.plant ∨ LatchWritten s.plant t.plant) : LatchEffect c s t :=
  h.elim (fun kept => .kept (kept.imp False.elim)) .written

/-- A command of the blocks, when it is due. -/
theorem LatchEffects.iteEvolves {d : Prop} [Decidable d] {q : Plant} (h : d → Evolves (envOf s) s.plant q) :
    LatchEffects c s (if d then .next (withPlant q s) else .next s) := .iteKept fun hd => (h hd).latchKept

/-! ### The start (spec/02) -/

theorem enterSafe_latchKept {free : Prop} (cause : ConfigFault) (s : State) : LatchKept free s.plant (enterSafe cause s).plant :=
  latchKept_write _ _ _ rfl (.inr rfl)

theorem execResetRelease_latch (station : BitVec 5) (high : Bool) : LatchEffects c s (execResetRelease station high s) := by
  refine .iteKept fun _ => ?_
  generalize strapped : ({ s with setup := { s.setup with phase := .loading, station := station.toNat, mastNumber := if high then 2 else 1, releasedAt := s.clock } } : State) = r
  have same : s.plant = r.plant := by rw [← strapped]
  rw [same]
  split
  · exact .refl _
  · exact enterSafe_latchKept .strap r

theorem execConfigLoadComplete_latch (record : List Byte) : LatchEffects c s (execConfigLoadComplete record s) := by
  unfold execConfigLoadComplete
  repeat' split
  · exact .kept (enterSafe_latchKept _ s)
  · exact .kept (latchKept_peers _)
  · exact .same s

/-- The inputs of the four axes as one function. -/
def fourPins (mast pan tilt pol : AxisPins) : Axis → AxisPins
  | .mast => mast
  | .pan => pan
  | .tilt => tilt
  | .pol => pol

/-- The start sequence sets the latch over axes that have not moved yet (R26). -/
theorem exec_startSequence_latch (pins : Axis → AxisPins) :
    LatchEffects c s (exec (.startSequence (pins .mast) (pins .pan) (pins .tilt) (pins .pol)) s) := by
  by_cases phase : s.setup.phase = .loaded
  · rw [exec_startSequence phase]
    generalize ({ clock := s.clock, setup := { s.setup with phase := .running } } : Env) = e
    obtain ⟨axd, flt, rest⟩ := started_rest e pins s.plant
    refine .next (.started (by rfl) (by dsimp only; rw [broughtUp, rest]; rfl) fun q => latchSound_iff.2 fun _ a => ?_)
    have cold (b : Axis) : axisOf s.plant b = .cold := by rw [quiet_loaded phase q]; cases b <;> rfl
    dsimp only
    rw [axisOf_broughtUp, (axisOf_started cold a).1]
    split <;> rfl
  · have none : exec (.startSequence (pins .mast) (pins .pan) (pins .tilt) (pins .pol)) s = .next s := if_neg phase
    rw [none]
    exact .same s

/-! ### The line (spec/01) -/

theorem execStuckEvent_latch : LatchEffects c s (execStuckEvent s) := by
  refine .iteKept fun _ => ?_
  dsimp only
  split
  · exact latchKept_posts _
  · exact .refl _

theorem actOnNotice_latch (f : Frame) (s : State) : LatchKept False s.plant (actOnNotice f s).plant ∨ LatchWritten s.plant (actOnNotice f s).plant := by
  unfold actOnNotice
  split
  · exact duplicateEvent_latch _ _
  · exact .inr (stopArrival_latchWritten _ _ _ _)
  · exact .inl (.refl _)
  · exact .inl (.refl _)
  · unfold joinArrivals
    split
    · exact .inl (.refl _)
    · exact .inl (latchKept_posts _)

theorem execNoticeArrival_latch (f : Frame) : LatchEffects c s (execNoticeArrival f s) := by
  unfold execNoticeArrival
  repeat' split
  · exact .next (.arrival (actOnNotice_latch f { s with line := endOfTail s.line }))
  · exact .kept (.refl _)
  · exact .same s

theorem execNoticeBegin_latch : LatchEffects c s (execNoticeBegin s) := by
  unfold execNoticeBegin
  split
  · exact .kept (latchKept_posts _)
  · exact .same s

theorem execContentionLost_latch (bit : Fin 12) : LatchEffects c s (execContentionLost bit s) := by
  unfold execContentionLost
  split
  · exact .iteKept fun _ => latchKept_posts _
  · exact .same s

theorem execSendFault_latch (m : Mismatch) : LatchEffects c s (execSendFault m s) := by
  unfold execSendFault
  split
  · exact .iteKept fun _ => latchKept_posts _
  · exact .same s

theorem execSentWhole_latch : LatchEffects c s (execSentWhole s) := by
  unfold execSentWhole
  split
  · exact .kept (latchKept_posts _)
  · exact .same s

theorem execWithdrawalExpiry_latch : LatchEffects c s (execWithdrawalExpiry s) := by
  unfold execWithdrawalExpiry
  split
  · exact .iteKept fun _ => .refl _
  · exact .same s

theorem execLinkReportPeriodExpiry_latch : LatchEffects c s (execLinkReportPeriodExpiry s) := by
  unfold execLinkReportPeriodExpiry
  split
  · exact .iteKept fun _ => latchKept_posts _
  · exact .same s

/-! ### The takings (R16) -/

theorem takeRole_latch {r : Role} {act : Env → ArrivalEntry → Plant → Plant} (h : ∀ x, LatchKept (takesHolder c) s.plant (act (envOf s) x s.plant)) :
    LatchEffects c s (.next (takeRole r act s)) := by
  unfold takeRole
  split
  · exact .kept (h _)
  · exact .same s

theorem takeCommand_latchKept {code : CommandCode} {owner : Env → ArrivalEntry → Plant → Plant × Verdict}
    (own : ∀ x, commonChecks (envOf s) code x.source s.plant = none → LatchKept False s.plant (owner (envOf s) x s.plant).1) :
    LatchKept (code.isMotion = true) s.plant (takeCommand code owner s).plant := by
  unfold takeCommand
  split
  · exact commandDone_latchKept (own _)
  · exact .refl _

/-- The taking of a motion command. -/
theorem motion_latch {code : CommandCode} {owner : Env → ArrivalEntry → Plant → Plant × Verdict} (motion : takesHolder c)
    (own : ∀ x, commonChecks (envOf s) code x.source s.plant = none → Evolves (envOf s) s.plant (owner (envOf s) x s.plant).1) :
    LatchEffects c s (.next (takeCommand code owner s)) :=
  .kept ((takeCommand_latchKept fun x h => (own x h).latchKept).imp fun _ => motion)

/-- A RESUME that the window does not refuse clears the latch (R51, R52). -/
theorem execResume_latch : LatchEffects .resume s (execResume s) := by
  refine .next ?_
  unfold takeCommand
  split
  · rename_i x _
    have own : LatchKept False s.plant (ownResume (envOf s) x s.plant).1 ∨
        ((ownResume (envOf s) x s.plant).1.aut.latch = none ∧ (ownResume (envOf s) x s.plant).1.aut.holder = s.plant.aut.holder) := by
      unfold ownResume
      split
      · exact .inl (.refl _)
      · exact .inr ⟨by rw [postStatusIf_aut]; rfl, by rw [postStatusIf_aut]; rfl⟩
    rcases own with kept | cleared
    · exact .kept ((commandDone_latchKept fun _ => kept).imp fun h => nomatch h)
    · cases check : commonChecks (envOf s) .resume x.source s.plant with
      | some v => exact .kept ((commandDone_latchKept fun h => by rw [check] at h; cases h).imp fun h => nomatch h)
      | none =>
        refine .cleared rfl ?_ ?_ <;> rw [applyHead_plant, commandDone_kept (judge_owner ownResume check) (.inl rfl)]
        · exact cleared.1
        · exact cleared.2
  · exact .kept (.refl _)

theorem postItem_latchKept {free : Prop} (i : RoundItem) (s : State) : LatchKept free s.plant (postItem i s).plant := by
  cases i <;> exact latchKept_posts _

theorem postRound_latchKept {free : Prop} (l : List RoundItem) (s : State) : LatchKept free s.plant (postRound l s).plant := by
  have kept (l : List RoundItem) (s : State) : LatchKept free s.plant (setRound l s).plant := latchKept_write _ _ _ rfl (.inr rfl)
  induction l generalizing s with
  | nil => exact kept [] s
  | cons i l ih =>
    unfold postRound
    split
    · exact (postItem_latchKept i s).trans (ih _)
    · exact kept _ s

theorem execReport_latch : LatchEffects c s (execReport s) := by
  have taken : LatchKept (takesHolder c) s.plant (takeCommand .report ownReport s).plant :=
    (takeCommand_latchKept fun _ _ => latchKept_write _ _ { s.plant.aut with round := fullRound } rfl (.inr rfl)).imp fun h => nomatch h
  unfold execReport
  dsimp only
  split
  · exact .kept (taken.trans (postRound_latchKept _ _))
  · exact .kept taken

theorem execAim_latch : LatchEffects .aim s (execAim s) := by
  unfold execAim
  split
  · exact .kept ((aimDone_latchKept _).imp fun _ => .inr (.inr (.inl rfl)))
  · exact .same s

theorem execUnknownCommandCode_latch : LatchEffects c s (execUnknownCommandCode s) := by
  unfold execUnknownCommandCode
  split
  · exact .kept (latchKept_posts _)
  · exact .same s

theorem execPositionerStatus_latch : LatchEffects c s (execPositionerStatus s) := by
  unfold execPositionerStatus
  split
  · refine .next ?_
    split
    · exact .arrival (duplicateEvent_latch (envOf s) s.plant)
    · exact .kept (.refl _)
  · exact .same s

/-! ### Timers and periods -/

theorem execStopWindowExpiry_latch : LatchEffects c s (execStopWindowExpiry s) := by
  unfold execStopWindowExpiry
  split
  · exact .iteKept fun _ => latchKept_write _ _ _ rfl (.inr rfl)
  · exact .same s

theorem execDuplicateQuietExpiry_latch : LatchEffects c s (execDuplicateQuietExpiry s) := by
  unfold execDuplicateQuietExpiry
  split
  · exact .iteKept fun _ => latchKept_write _ _ _ rfl (.inr rfl)
  · exact .same s

theorem execStatusPeriodExpiry_latch : LatchEffects c s (execStatusPeriodExpiry s) := by
  unfold execStatusPeriodExpiry
  split
  · exact .iteKept fun _ => latchKept_write _ _ _ rfl (.inr rfl)
  · exact .same s

theorem execScanConversionComplete_latch (r : Count) : LatchEffects c s (execScanConversionComplete r s) := by
  unfold execScanConversionComplete
  split
  · exact .kept (withSampler_evolves (scanResult_evolves (e := envOf s) .refl _ r) _).latchKept
  · exact .same s

theorem execDwellConversionComplete_latch (r : Count) : LatchEffects c s (execDwellConversionComplete r s) := by
  unfold execDwellConversionComplete
  split
  · exact .kept (withSampler_evolves (dwellResult_evolves (e := envOf s) .refl _ _ r) _).latchKept
  · exact .same s

theorem execServoPeriod_latch (a : Axis) (x : AxisPins) : LatchEffects c s (execServoPeriod a x s) := by
  unfold execServoPeriod
  split
  · exact .kept (servoPeriod_evolves (e := envOf s) .refl a x).latchKept
  · exact .kept (readOnly_evolves (e := envOf s) .refl a x).latchKept
  all_goals exact .same s

theorem execSettleTimeExpiry_latch (a : Axis) : LatchEffects c s (execSettleTimeExpiry a s) := by
  refine .iteEvolves fun expired => takeSettled_evolves .refl a ?_
  simp only [settleExpired, Bool.and_eq_true, decide_eq_true_eq] at expired
  exact expired.1.1.1

theorem execAxisReportPeriodExpiry_latch (a : Axis) : LatchEffects c s (execAxisReportPeriodExpiry a s) := by
  unfold execAxisReportPeriodExpiry
  dsimp only
  split
  · refine .iteKept fun _ => (postAxisReport_evolves (e := envOf s) (Evolves.refl.written a _ ?_) a).latchKept
    exact ⟨rfl, rfl, rfl, rfl, rfl, .inl rfl⟩
  · exact .same s

theorem execSearchSettleExpiry_latch : LatchEffects c s (execSearchSettleExpiry s) := by
  unfold execSearchSettleExpiry
  split
  · exact .iteEvolves fun _ => patternMeasure_evolves .refl
  · exact .same s

theorem execPatternResumeDelayExpiry_latch : LatchEffects c s (execPatternResumeDelayExpiry s) := by
  unfold execPatternResumeDelayExpiry
  split
  · exact .iteEvolves fun _ => takeUpPattern_evolves .refl
  · exact .same s

theorem execCrossSettleExpiry_latch : LatchEffects c s (execCrossSettleExpiry s) := by
  unfold execCrossSettleExpiry
  split
  · exact .iteEvolves fun _ => runMeasure_evolves .refl _
  · exact .same s

theorem execClosingSettleExpiry_latch : LatchEffects c s (execClosingSettleExpiry s) := by
  unfold execClosingSettleExpiry
  split
  · exact .iteEvolves fun _ => runMeasure_evolves .refl _
  · exact .same s

theorem execRunResumeDelayExpiry_latch : LatchEffects c s (execRunResumeDelayExpiry s) := by
  unfold execRunResumeDelayExpiry
  split
  · exact .iteEvolves fun _ => takeUpRun_evolves .refl _
  · exact .same s

theorem execTrackSamplePeriodExpiry_latch : LatchEffects c s (execTrackSamplePeriodExpiry s) := by
  unfold execTrackSamplePeriodExpiry
  split
  · exact .iteEvolves fun _ => takeSamplePeriod_evolves .refl
  · exact .same s

/-! ### Every command -/

theorem exec_latchEffects (c : Instr) (s : State) : LatchEffects c s (exec c s) := by
  cases c with
  | coldStart reason => exact .next (.cold reason rfl rfl)
  | resetRelease station high => exact execResetRelease_latch station high
  | configLoadComplete record => exact execConfigLoadComplete_latch record
  | configLoadTimeout => exact .iteKept fun _ => enterSafe_latchKept _ s
  | memoryNoAnswer => exact .iteKept fun _ => enterSafe_latchKept _ s
  | startSequence mast pan tilt pol => exact exec_startSequence_latch (fourPins mast pan tilt pol)
  | lineIdle => exact .iteKept fun _ => .refl _
  | startBit => exact .iteKept fun _ => .refl _
  | stuckEvent => exact execStuckEvent_latch
  | noticeArrival f => exact execNoticeArrival_latch f
  | noticeDiscard => exact .iteKept fun _ => .refl _
  | startOutsideIdle => exact .iteKept fun _ => .refl _
  | noticeBegin => exact execNoticeBegin_latch
  | contentionLost bit => exact execContentionLost_latch bit
  | sendFault m => exact execSendFault_latch m
  | sentWhole => exact execSentWhole_latch
  | withdrawalExpiry => exact execWithdrawalExpiry_latch
  | linkReportPeriodExpiry => exact execLinkReportPeriodExpiry_latch
  | vehicle => exact takeRole_latch takeVehicle_latchKept
  | wind => exact takeRole_latch takeWind_latchKept
  | clearance => exact takeRole_latch takeClearance_latchKept
  | level => exact takeRole_latch takeLevel_latchKept
  | positionerStatus => exact execPositionerStatus_latch
  | resume => exact execResume_latch
  | clearFault => exact .kept ((takeCommand_latchKept fun x _ => (ownClearFault_evolves (e := envOf s) .refl x).latchKept).imp fun h => nomatch h)
  | report => exact execReport_latch
  | raise => exact motion_latch (by simp [takesHolder]) fun x _ => ownRaise_evolves .refl x
  | lower => exact motion_latch (by simp [takesHolder]) fun x _ => ownLower_evolves .refl x
  | aim => exact execAim_latch
  | peak => exact motion_latch (by simp [takesHolder]) fun x _ => ownPeak_evolves .refl x
  | cancelPointing => exact motion_latch (by simp [takesHolder]) fun x _ => ownCancelPointing_evolves .refl x
  | jog => exact motion_latch (by simp [takesHolder]) fun x h => ownJog_evolves .refl x (latch_clear_of_checks rfl h)
  | unknownCommandCode => exact execUnknownCommandCode_latch
  | freshnessExpiry r => exact .iteKept fun _ => expireRole_latchKept r
  | stopWindowExpiry => exact execStopWindowExpiry_latch
  | duplicateQuietExpiry => exact execDuplicateQuietExpiry_latch
  | reportRoundPost => exact .kept (postRound_latchKept _ s)
  | statusPeriodExpiry => exact execStatusPeriodExpiry_latch
  | scanConversionComplete r => exact execScanConversionComplete_latch r
  | dwellConversionComplete r => exact execDwellConversionComplete_latch r
  | dwellFree q => exact .iteEvolves fun _ => takeDwellFree_evolves .refl q
  | servoPeriod a x => exact execServoPeriod_latch a x
  | stallTimeout a => exact .iteEvolves fun _ => takeStall_evolves .refl a
  | settleTimeExpiry a => exact execSettleTimeExpiry_latch a
  | axisReportPeriodExpiry a => exact execAxisReportPeriodExpiry_latch a
  | axisFree a q => exact .iteEvolves fun _ => takeAxisFree_evolves .refl q a
  | driveGrant => exact .kept (Evolves.refl (e := envOf s)).granted.latchKept
  | presetSettleExpiry => exact .iteEvolves fun _ => presetMeasure_evolves .refl
  | searchSettleExpiry => exact execSearchSettleExpiry_latch
  | patternResumeDelayExpiry => exact execPatternResumeDelayExpiry_latch
  | crossSettleExpiry => exact execCrossSettleExpiry_latch
  | closingSettleExpiry => exact execClosingSettleExpiry_latch
  | runResumeDelayExpiry => exact execRunResumeDelayExpiry_latch
  | trackSamplePeriodExpiry => exact execTrackSamplePeriodExpiry_latch
  | fadeTimerExpiry => exact .iteEvolves fun _ => takeFade_evolves .refl
  | lossTimerExpiry => exact .iteEvolves fun _ => takeLoss_evolves .refl

end

/-! ### The statements -/

theorem latchEffect_latchSound {c : Instr} {s t : State} (h : LatchEffect c s t) (start : quiet s = true) (arb : arbiterSound s.plant = true)
    (sound : latchSound s.plant = true) : latchSound t.plant = true := by
  cases h with
  | kept h =>
    refine latchSound_of_stopped fun set => ?_
    rw [h.latch] at set
    exact h.stopped set (stopped_of_sound set arb sound)
  | written h => exact h.sound arb sound
  | started _ _ still => exact still start
  | cleared _ latch => exact latchSound_iff.2 fun set => by rw [latch] at set; cases set
  | cold _ _ latch => exact latchSound_iff.2 fun set => by rw [latch] at set; cases set

/-- Settles O8: under a SET latch no command begins a move, and what sets the latch ends the moves under way. -/
theorem noAxisMovesUnderASetLatch : Obligations.NoAxisMovesUnderASetLatch := by
  intro s t start arb sound h
  unfold step at h
  split at h
  · cases h
    exact sound
  · exact latchEffect_latchSound (exec_latchEffects _ _ t h) start arb sound

/-- Settles O10: every other effect keeps the latch or leaves it SET. -/
theorem onlyResumeOrAColdStartClearsTheLatch : Obligations.OnlyResumeOrAColdStartClearsTheLatch := by
  intro c s t h set clear
  cases exec_latchEffects c s t h with
  | kept h => rw [← h.latch, clear] at set; cases set
  | written h => have still := h.latch; rw [clear] at still; cases still
  | started still => rw [clear] at still; cases still
  | cleared resume => exact .inl resume
  | cold reason start => exact .inr ⟨reason, start⟩

/-- Settles O11: every effect but that of a motion command and of a cold start leaves the holder. -/
theorem onlyMotionCommandsChangeTheHolder : Obligations.OnlyMotionCommandsChangeTheHolder := by
  intro c s t h changed
  cases exec_latchEffects c s t h with
  | kept h => obtain motion | same := h.holder; exacts [by unfold takesHolder at motion; tauto, absurd same changed]
  | written h => exact absurd h.holder changed
  | started _ same => exact absurd same changed
  | cleared _ _ same => exact absurd same changed
  | cold reason start => subst start; simp

end Sys2Proof.Machine
end

