-- ==== Sys2Proof/Proofs/StopReplies.lean ====
section
/-! PROOFS. How a command is judged and answered (R16, R51 to R57): the refusals of the common checks (O34), RESUME (O35, O39); and a STOP
on a SET latch (O17). -/

namespace Sys2Proof.Machine

section
variable {s : State} {x : ArrivalEntry} {c : CommandCode} {v : Verdict}

/-! ### A command taken and answered -/

/-- A command at the head that leaves the holder is answered with its verdict. -/
theorem takeCommand_judged {owner : Env → ArrivalEntry → Plant → Plant × Verdict} {q : Plant} (head : headCommand (some c) s = some x)
    (judged : judge (envOf s) c owner x s.plant = (q, v)) (kept : c.isMotion = false ∨ v.outcome = .refused) : takeCommand c owner s = replied x v q s := by
  rw [takeCommand_head owner head, commandDone_kept judged kept]
  rfl

/-- Outside SAFE a REPORT passes the common checks. -/
theorem commonChecks_report {e : Env} {source : Nat} {p : Plant} (check : commonChecks e .report source p = some v) : isSafe e = true := by
  by_contra live
  rw [commonChecks_free source p (by simpa using live) rfl (by simp)] at check
  cases check

/-- A command that a common check refuses leaves its REPLY and nothing else (R56). -/
theorem exec_refused (head : headCommand (some c) s = some x) (check : commonChecks (envOf s) c x.source s.plant = some v) (refused : v.outcome = .refused) :
    exec (instrOf c) s = .next (replied x v s.plant s) := by
  have taken (owner : Env → ArrivalEntry → Plant → Plant × Verdict) : takeCommand c owner s = replied x v s.plant s :=
    takeCommand_judged head (judge_refused owner check) (.inr refused)
  cases c with
  | report =>
    have safe := commonChecks_report check
    refine (congrArg _ (if_neg ?_)).trans (congrArg _ (taken ownReport))
    simp [safe]
  | aim =>
    simp only [instrOf, exec, execAim, head, aimDone, judge_refused ownAim check, refused, if_true]
    rw [commandDone_kept (judge_refused ownAim check) (.inr refused)]
    rfl
  | resume | clearFault | raise | lower | peak | cancelPointing | jog => exact congrArg _ (taken _)

/-! ### The common checks (R56, Table 4-4) -/

theorem commonChecks_safe {e : Env} (safe : isSafe e = true) (source : Nat) (p : Plant) : commonChecks e c source p = some (refuse .config (configCause e)) :=
  if_pos safe

/-- Outside SAFE a motion command is judged by the latch, the duplicate condition and the holder, in this order. -/
theorem commonChecks_order {e : Env} (live : isSafe e = false) (motion : c.isMotion = true) (source : Nat) (p : Plant) :
    commonChecks e c source p = (checkLatch p).or ((checkDuplicate e p).or (checkHolder source p)) :=
  (if_neg (by simp [live])).trans (if_pos motion)

/-- Outside SAFE a RESUME is judged by the duplicate condition alone. -/
theorem commonChecks_resume {e : Env} (live : isSafe e = false) (source : Nat) (p : Plant) : commonChecks e .resume source p = checkDuplicate e p := by
  simp [commonChecks, live, CommandCode.isMotion]

theorem configCause_fault {e : Env} {cause : ConfigFault} (h : e.setup.result = .fault cause) : configCause e = configFaultCode cause := by
  unfold configCause
  rw [h]

theorem not_safe (live : s.setup.phase ≠ .safe) : isSafe (envOf s) = false := decide_eq_false live

/-- An unknown code is answered and taken. -/
theorem exec_unknown (head : headCommand none s = some x) : exec .unknownCommandCode s = .next (replied x (unknownVerdict (envOf s) x) s.plant s) := by
  simp only [exec, execUnknownCommandCode, head]
  rfl

/-- Settles O34: the first check that fails gives the verdict, in the order of `commonChecks`. -/
theorem theCommonChecksRefuseInOrder : Obligations.TheCommonChecksRefuseInOrder := by
  refine ⟨fun s x c head => ⟨fun cause safe fault => ?_, fun cause live motion set => ?_, fun since live motion clear held => ?_,
    fun h live motion clear none busy held other => ?_⟩, fun s x head => ⟨fun live => ?_, fun cause safe fault => ?_⟩⟩
  · rw [← configCause_fault (e := envOf s) fault]
    exact exec_refused head (commonChecks_safe (isSafe_iff.2 safe) _ _) rfl
  · refine exec_refused head ?_ rfl
    rw [commonChecks_order (not_safe live) motion, checkLatch, set]
    cases cause <;> rfl
  · refine exec_refused head ?_ rfl
    rw [commonChecks_order (not_safe live) motion, checkLatch, clear, checkDuplicate, held]
    rfl
  · refine exec_refused head ?_ rfl
    rw [commonChecks_order (not_safe live) motion, checkLatch, clear, checkDuplicate, none, checkHolder, held]
    exact if_pos ⟨busy, other⟩
  · rw [exec_unknown head, unknownVerdict, not_safe live]
    rfl
  · rw [exec_unknown head, unknownVerdict, isSafe_iff.2 safe, ← configCause_fault (e := envOf s) fault]
    rfl

/-! ### RESUME (R51, R52, R54) -/

/-- A RESUME that no held duplicate condition refuses is judged by the STOP window (R51). -/
theorem exec_resume (head : headCommand (some .resume) s = some x) (live : s.setup.phase ≠ .safe) (none : s.plant.aut.duplicate = none) :
    exec .resume s = .next (replied x (ownResume (envOf s) x s.plant).2 (ownResume (envOf s) x s.plant).1 s) := by
  have passed : commonChecks (envOf s) .resume x.source s.plant = Option.none := by
    rw [commonChecks_resume (not_safe live), checkDuplicate, none]
    rfl
  exact congrArg _ (takeCommand_judged head (judge_owner ownResume passed) (.inl rfl))

theorem setLatch_same {p : Plant} {l : Option LatchCause} (h : p.aut.latch = l) : setLatch l p = p := by
  subst h
  rfl

theorem ownResume_closed {e : Env} {p : Plant} (closed : p.aut.window = none) :
    ownResume e x p = (postStatusIf p.aut.latch.isSome e (setLatch none p), accepted 0) := by
  unfold ownResume
  rw [closed]

theorem ownResume_open {e : Env} {p : Plant} {stamp : Stamp} (opened : p.aut.window = some stamp) :
    ownResume e x p = (p, refuse .stopActive (windowLeft e stamp)) := by
  unfold ownResume
  rw [opened]

/-- Settles O35: an OPEN window refuses; else the latch is CLEAR after, with a status where it was SET. -/
theorem resumeClearsTheLatchAndStartsNothing : Obligations.ResumeClearsTheLatchAndStartsNothing := by
  intro s x head live none
  refine ⟨fun cause closed set => ?_, fun closed clear => ?_, fun stamp opened => ?_⟩ <;> rw [exec_resume head live none]
  · rw [ownResume_closed closed, set]
    rfl
  · rw [ownResume_closed closed, clear, setLatch_same clear]
    rfl
  · rw [ownResume_open opened]
    rfl

/-- Settles O39: the quiet timer ends the condition with a status; until then it refuses a RESUME with what is left of it. -/
theorem theDuplicateConditionOutlastsTheLastEvent : Obligations.TheDuplicateConditionOutlastsTheLastEvent := by
  intro s since held
  refine ⟨fun past => ?_, fun runs => ?_, fun x head live => ⟨quietLeft (envOf s) since, by simp [quietLeft], by simp [quietLeft], rfl, ?_⟩⟩
  · simp only [exec, execDuplicateQuietExpiry, held]
    exact if_pos past
  · simp only [exec, execDuplicateQuietExpiry, held]
    exact if_neg (Nat.not_le.2 runs)
  · refine exec_refused head ?_ rfl
    rw [commonChecks_resume (not_safe live), checkDuplicate, held]
    rfl

/-! ### A STOP on a SET latch (R47, R48, R59) -/

/-- A STOP of another station is judged as such (R13). -/
theorem judgeNotice_stop {e : Env} {f : Frame} (kind : tagKind f.tag = 0) (urgency : tagUrgency f.tag = 0) (payload : f.payload = [])
    (low : 1 ≤ tagSource f.tag) (high : tagSource f.tag ≤ 30) (other : tagSource f.tag ≠ e.setup.station) : judgeNotice e f = .stop := by
  have passed : ¬ ignoredNotice f :=
    not_ignoredNotice low high (by rw [kind, urgency]; rfl) (by rw [kind, payload]; rfl) (by rw [kind]; decide)
  rw [judgeNotice_passed (.inl other) passed, if_pos kind]

/-- The latch SET before: window and cause are written, and a status is posted where the cause changes. -/
theorem stopArrival_set {e : Env} {p : Plant} {cause : LatchCause} (set : p.aut.latch = some cause) (source : Nat) (stamp : Stamp) :
    stopArrival e source stamp p =
      postStatusIf (decide (cause ≠ stopCause source p)) e { p with aut := { p.aut with window := some stamp, latch := some (stopCause source p) } } := by
  simp [stopArrival, set]

/-- Settles O17: a STOP that finds the latch SET writes AUT alone, and the window closes by its stamp. -/
theorem theStopWindowIsRenewedAndCloses : Obligations.TheStopWindowIsRenewedAndCloses := by
  refine ⟨fun s f cause rec wf check kind urgency payload low high other set => ?_, fun s stamp opened => ⟨fun past => ?_, fun runs => ?_⟩⟩
  · have judged : judgeNotice (envOf { s with line := endOfTail s.line }) f = .stop := judgeNotice_stop kind urgency payload low high other
    have after : stopCause (tagSource f.tag) s.plant =
        if s.plant.aut.duplicate.isSome ∧ cause = .duplicate then .duplicate else .stop (tagSource f.tag) := by simp [stopCause, set]
    have arrived : exec (.noticeArrival f) s = .next { s with
        line := endOfTail s.line, plant := stopArrival (envOf s) (tagSource f.tag) (stampOf s.clock) s.plant } := by
      rw [exec_noticeArrival rec wf check, actOnNotice, judged]
      rfl
    rw [arrived, stopArrival_set set, ← after]
    dsimp only
    by_cases same : cause = stopCause (tagSource f.tag) s.plant
    · rw [decide_eq_false (not_not.2 same), if_pos same.symm]
      rfl
    · rw [decide_eq_true same, if_neg fun h => same h.symm]
      rfl
  · simp only [exec, execStopWindowExpiry, opened]
    exact if_pos past
  · simp only [exec, execStopWindowExpiry, opened]
    exact if_neg (Nat.not_le.2 runs)

end

end Sys2Proof.Machine
end

