-- ==== Sys2Proof/Proofs/StopRound.lean ====
section
/-! PROOFS. The report round (R58): an item is posted only where it finds room, so it waits after and no post is dropped; the round keeps
the items from the first that finds none (O37). -/

namespace Sys2Proof.Machine

/-! ### One item (R17, R58) -/

/-- A post that finds room drops nothing, waits, and leaves every other key waiting. -/
theorem postTo_room {k : PostKey} {q : PostQueue} (room : hasRoom k q = true) (tag : Tag) (x : List Byte) :
    (postTo k tag x q).drops = q.drops ∧ hasWaiting k (postTo k tag x q).entries = true ∧
      ∀ k', hasWaiting k' q.entries = true → hasWaiting k' (postTo k tag x q).entries = true := by
  have noRoom (new : hasWaiting k q.entries = false) (full : 6 ≤ q.entries.length) : False := by
    simp only [hasRoom, new, Bool.or_false, decide_eq_true_eq] at room
    exact Nat.not_lt.2 full room
  rcases postTo_cases k tag x q with ⟨waits, posted⟩ | ⟨-, -, posted⟩ | ⟨new, full, -⟩ | ⟨new, full, -⟩
  · rw [posted]
    exact ⟨rfl, (hasWaiting_replace ..).trans waits, fun k' waits' => (hasWaiting_replace ..).trans waits'⟩
  · rw [posted]
    refine ⟨rfl, ?_, fun k' waits' => ?_⟩ <;> dsimp only <;> rw [hasWaiting_append]
    · simp [hasWaiting, newEntry]
    · simp [waits']
  · exact (noRoom new full).elim
  · exact (noRoom new full).elim

theorem postItem_posts (i : RoundItem) (s : State) : ∃ x, (postItem i s).plant.posts = postTo (roundKey i) (postTag (envOf s) (roundKey i)) x s.plant.posts := by
  cases i <;> exact ⟨_, rfl⟩

/-- The group number that a LINK_REPORT in a list of items leaves (R11). -/
def groupAfter (items : List RoundItem) (group : Nat) : Nat := if .link ∈ items then (group + 1) % 3 else group

/-- An item writes the posts and, for LINK_REPORT, the group number. -/
theorem postItem_rest (i : RoundItem) (s : State) :
    postItem i s = { s with
      line := { s.line with group := groupAfter [i] s.line.group }, plant := { s.plant with posts := (postItem i s).plant.posts } } := by
  cases i <;> rfl

/-- One LINK_REPORT at most stands among the items, so the group number advances once at most. -/
theorem groupAfter_cons {i : RoundItem} {items : List RoundItem} (once : (i :: items).count .link ≤ 1) (group : Nat) :
    groupAfter items (groupAfter [i] group) = groupAfter (i :: items) group := by
  unfold groupAfter
  by_cases link : i = .link
  · subst link
    have none : RoundItem.link ∉ items := by
      rw [List.count_cons_self] at once
      exact List.count_eq_zero.1 (by omega)
    simp [none]
  · simp [Ne.symm link]

/-! ### The round -/

/-- `t` comes from `s` by posting the items `done`, each of which found room, and keeping `left`, the first of which finds none. -/
structure RoundAdvanced (done left : List RoundItem) (s t : State) : Prop where
  next : t = { s with
    line := { s.line with group := groupAfter done s.line.group }, plant := { s.plant with posts := t.plant.posts, aut := { s.plant.aut with round := left } } }
  drops : t.plant.posts.drops = s.plant.posts.drops
  waits : ∀ i ∈ done, hasWaiting (roundKey i) t.plant.posts.entries = true
  kept : ∀ k, hasWaiting k s.plant.posts.entries = true → hasWaiting k t.plant.posts.entries = true
  full : ∀ i more, left = i :: more → 6 ≤ t.plant.posts.entries.length ∧ hasWaiting (roundKey i) t.plant.posts.entries = false

/-- Nothing more is posted. -/
theorem setRound_advanced {left : List RoundItem} {s : State} (full : ∀ i more, left = i :: more → hasRoom (roundKey i) s.plant.posts = false) :
    RoundAdvanced [] left s (setRound left s) where
  next := rfl
  drops := rfl
  waits := by simp
  kept _ := id
  full i more first := by
    have none := full i more first
    simp only [hasRoom, Bool.or_eq_false_iff, decide_eq_false_iff_not, Nat.not_lt] at none
    exact none

/-- An item posted before the rest of the round. -/
theorem postItem_advanced {i : RoundItem} {done left : List RoundItem} {s t : State} (once : (i :: done).count .link ≤ 1)
    (room : hasRoom (roundKey i) s.plant.posts = true) (rest : RoundAdvanced done left (postItem i s) t) : RoundAdvanced (i :: done) left s t := by
  obtain ⟨x, posted⟩ := postItem_posts i s
  obtain ⟨drops, waits, kept⟩ := postTo_room room (postTag (envOf s) (roundKey i)) x
  rw [← posted] at drops waits kept
  refine ⟨?_, rest.drops.trans drops, fun j m => ?_, fun k h => rest.kept k (kept k h), rest.full⟩
  · have next := rest.next
    rw [postItem_rest i s] at next
    dsimp only at next
    rw [groupAfter_cons once] at next
    exact next
  · rcases List.mem_cons.1 m with rfl | m
    · exact rest.kept _ waits
    · exact rest.waits j m

theorem postRound_advanced {items : List RoundItem} {s : State} (once : items.count .link ≤ 1) :
    ∃ done left, items = done ++ left ∧ RoundAdvanced done left s (postRound items s) := by
  induction items generalizing s with
  | nil => exact ⟨[], [], rfl, setRound_advanced fun _ _ h => nomatch h⟩
  | cons i rest ih =>
    by_cases room : hasRoom (roundKey i) s.plant.posts = true
    · obtain ⟨done, left, parts, advanced⟩ := ih (s := postItem i s) ((List.count_le_count_cons ..).trans once)
      have here : (i :: done).count .link ≤ 1 := by
        rw [parts, ← List.cons_append, List.count_append] at once
        omega
      refine ⟨i :: done, left, by rw [parts, List.cons_append], ?_⟩
      rw [postRound, if_pos room]
      exact postItem_advanced here room advanced
    · refine ⟨[], i :: rest, rfl, ?_⟩
      rw [postRound, if_neg room]
      refine setRound_advanced fun j more first => ?_
      cases first
      simpa using room

/-- Outside SAFE a REPORT is answered and its round begun (R58). -/
theorem exec_report {s : State} {x : ArrivalEntry} (head : headCommand (some .report) s = some x) (live : s.setup.phase ≠ .safe) :
    exec .report s = .next (postRound fullRound (replied x (accepted 0) { s.plant with aut := { s.plant.aut with round := fullRound } } s)) := by
  have passed : commonChecks (envOf s) .report x.source s.plant = none := commonChecks_free _ _ (not_safe live) rfl (by simp)
  have taken := takeCommand_judged head (judge_owner ownReport passed) (.inl rfl)
  simp only [exec, execReport, taken, head]
  exact congrArg _ (if_pos ⟨rfl, not_safe live⟩)

/-- Settles O37: the items posted are those before the first that finds no room. -/
theorem aRoundPostsWhatFindsRoom : Obligations.ARoundPostsWhatFindsRoom := by
  refine ⟨fun s once => ?_, fun s x head live => ?_⟩
  · obtain ⟨done, left, parts, round⟩ := postRound_advanced (s := s) once
    exact ⟨_, rfl, done, left, parts, round.next, round.drops, round.waits, round.full⟩
  · obtain ⟨done, left, parts, round⟩ := postRound_advanced (items := fullRound)
      (s := replied x (accepted 0) { s.plant with aut := { s.plant.aut with round := fullRound } } s) (by decide)
    exact ⟨_, exec_report head live, done, left, parts, round.next, round.drops, round.waits, round.full⟩

end Sys2Proof.Machine
end

