-- ==== Sys2Proof/Proofs/StopRaise.lean ====
section
/-! PROOFS. A RAISE past the common checks (R104 to R106): what refuses it, what AXD answers to its move, and what its acceptance writes
(O49). -/

namespace Sys2Proof.Machine

/-! ### AXD's answer to a request (R79) -/

section
variable {e : Env} {p q : Plant} {m : MoveRequest}

theorem moveRequest_stopping (clear : p.aut.latch = none) (stopping : (axisOf p m.axis).state = .stopping) :
    moveRequest e m p = (noteRequester m.requester m.axis p, .stopping) := by
  simp [moveRequest, clear, stopping]

/-- A MAST that neither stops nor stands in FAULT is judged from the clamp on. -/
theorem moveRequest_mast (clear : p.aut.latch = none) (moves : (axisOf p .mast).state ≠ .stopping) (sound : (axisOf p .mast).state ≠ .fault)
    (cls : MotionClass) (target : Int) : moveRequest e (mastMove cls target) p = requestFromClamp e (mastMove cls target) p := by
  simp [moveRequest, mastMove, clear, moves, sound, isHead]

theorem requestFromClamp_range (blocked : switchBlocks (axisOf p m.axis) (clampSoft e m.axis m.target) = true) : requestFromClamp e m p = (p, .range) :=
  if_pos blocked

/-- An axis neither IDLE nor STOPPING nor in FAULT has a move under way. -/
theorem endedState_ne {x : AxisState} (notIdle : x ≠ .idle) (moves : x ≠ .stopping) (sound : x ≠ .fault) : endedState x ≠ x := by
  cases x with
  | waiting | moving | settling => exact AxisState.noConfusion
  | idle => exact absurd rfl notIdle
  | stopping => exact absurd rfl moves
  | fault => exact absurd rfl sound

/-- A move of another requester that is no correction is not replaced (R79 step 7, R80). -/
theorem requestFromClamp_busy (free : switchBlocks (axisOf p m.axis) (clampSoft e m.axis m.target) = false)
    (underWay : endedState (axisOf p m.axis).state ≠ (axisOf p m.axis).state) (made : (axisOf p m.axis).correction = false)
    (other : (axisOf p m.axis).requester ≠ some m.requester) : requestFromClamp e m p = (noteRequester m.requester m.axis p, .busy) := by
  unfold requestFromClamp
  simp only [free, Bool.false_eq_true, if_false]
  cases state : (axisOf p m.axis).state
  case waiting | moving | settling => simp [made, other]
  all_goals rw [state] at underWay; exact absurd rfl underWay

theorem grantAxis_state (e : Env) (a : Axis) (p : Plant) : (axisOf (grantAxis e a p) a).state = .moving := by
  unfold grantAxis
  rw [axisOf_putAxis, if_pos rfl, settleRecord_state]

theorem grantAxis_axis_other (e : Env) {a b : Axis} (p : Plant) (other : b ≠ a) : axisOf (grantAxis e a p) b = axisOf p b := by
  unfold grantAxis
  rw [axisOf_putAxis, if_neg other]
  exact axisOf_congr rfl b

/-- MAST stands first among the waiting axes (R95), so it takes a free grant at once and no other axis changes (R94). -/
theorem joinWaiting_mast (e : Env) (r : AxisRec) (p : Plant) :
    (axisOf (joinWaiting e .mast r p) .mast).state = (if p.axd.grants.length < (cfgOf e).budget then .moving else .waiting) ∧
      ∀ b, b ≠ .mast → axisOf (joinWaiting e .mast r p) b = axisOf p b := by
  have first : chooseWaiting (listWaiting .mast (putAxis e .mast { r with state := .waiting } p)).axd = some .mast :=
    if_pos (by rw [waiting_listWaiting]; exact mem_insertNew.2 (.inl rfl))
  have grants : (listWaiting .mast (putAxis e .mast { r with state := .waiting } p)).axd.grants = p.axd.grants :=
    (congrArg Drives.grants (putAxis_axd e .mast _ p)).trans rfl
  have others (b : Axis) (other : b ≠ .mast) : axisOf (listWaiting .mast (putAxis e .mast { r with state := .waiting } p)) b = axisOf p b := by
    rw [axisOf_listWaiting, axisOf_putAxis, if_neg other]
  unfold joinWaiting tryGrant
  rw [grants, first]
  by_cases room : p.axd.grants.length < (cfgOf e).budget
  · simp only [room, if_true]
    exact ⟨grantAxis_state e .mast _, fun b other => (grantAxis_axis_other e _ other).trans (others b other)⟩
  · simp only [room, if_false]
    refine ⟨?_, others⟩
    rw [axisOf_listWaiting, axisOf_putAxis, if_pos rfl, settleRecord_state]

end

/-! ### What refuses a RAISE (R104) -/

section
variable {e : Env} {p q : Plant} {h : Nat}

/-- The first permissive of a list that is not given. -/
theorem lowestMissing_eq {l before after : List Permissive} {y : Permissive} (shape : l = before ++ y :: after) (lower : ∀ z ∈ before, given p z = true)
    (missing : given p y = false) : lowestMissing p l = some y := by
  refine List.find?_eq_some_iff_append.2 ⟨by simp [missing], before, after, shape, fun z m => ?_⟩
  simp [lower z m]

theorem lowestMissing_none (all : raiseGiven p = true) : lowestMissing p raisePermissives = none := by
  refine List.find?_eq_none.2 fun z m => ?_
  simp [List.all_eq_true.1 all z m]

theorem raiseDirection_up (up : positionOrZero p .mast < effectiveHeight e p h) : raiseDirection e p h = .up := if_pos up

theorem raiseObstacle_missing (up : positionOrZero p .mast < effectiveHeight e p h) {y : Permissive} (missing : lowestMissing p raisePermissives = some y) :
    raiseObstacle e p h = some (refusePermissive y) := by
  rw [raiseObstacle, raiseDirection_up up, missing]

theorem raiseObstacle_low (up : positionOrZero p .mast < effectiveHeight e p h) (all : raiseGiven p = true) {a : Int} (top : topNow e p = some a)
    (low : a < effectiveHeight e p h) : raiseObstacle e p h = some (refuse .range a) := by
  rw [raiseObstacle, raiseDirection_up up, lowestMissing_none all, top]
  exact if_pos low

/-- Upward with the permissives given and the target under the allowed top, or downward, nothing is in the way. -/
theorem raiseObstacle_none (all : positionOrZero p .mast < effectiveHeight e p h → raiseGiven p = true)
    (under : ∀ a, topNow e p = some a → positionOrZero p .mast < effectiveHeight e p h → effectiveHeight e p h ≤ a) : raiseObstacle e p h = none := by
  by_cases up : positionOrZero p .mast < effectiveHeight e p h
  · rw [raiseObstacle, raiseDirection_up up, lowestMissing_none (all up)]
    cases top : topNow e p with
    | none => rfl
    | some a => exact if_neg (Int.not_lt.2 (under a top up))
  · have down : raiseDirection e p h = .down := if_neg up
    rw [raiseObstacle, down]

theorem raiseRefusal_free (idle : mastBusy p.msq.state = false) (free : isHeld p .mast = false) : raiseRefusal e p h = raiseObstacle e p h := by
  simp [raiseRefusal, idle, free]

/-! ### The move of a RAISE (R106) -/

/-- The move that a RAISE asks of AXD. -/
def raiseRequest (e : Env) (p : Plant) (h : Nat) : MoveRequest := mastMove (classOf (raiseDirection e p h)) (raiseTarget e p h)

theorem raiseMove_state {answer : Answer} (asked : moveRequest e (raiseRequest e p h) p = (q, answer)) (refused : answer = .stopping ∨ answer = .busy) :
    raiseMove e h p = (q, refuse .state 0) := by
  unfold raiseRequest at asked
  unfold raiseMove
  dsimp only
  rw [asked]
  rcases refused with rfl | rfl <;> rfl

theorem raiseMove_range (asked : moveRequest e (raiseRequest e p h) p = (q, .range)) : raiseMove e h p = (q, refuse .range 0) := by
  unfold raiseRequest at asked
  unfold raiseMove
  dsimp only
  rw [asked]

/-- RAISING is no mast event to PNT (R127, R131). -/
theorem setMast_raising (e : Env) (target : Int) (d : RaiseDirection) (p : Plant) :
    ∃ posts, setMast e (.raising target d) p = { p with posts := posts, msq := { p.msq with state := .raising target d } } := by
  obtain ⟨posts, status⟩ := postStatusIf_rest (decide (mastKey p.msq.state ≠ mastKey (.raising target d))) e
    { p with msq := { p.msq with state := .raising target d } }
  refine ⟨posts, ?_⟩
  unfold setMast
  dsimp only
  rw [status]
  rfl

theorem raiseMove_accepted {target : Int} {clamped : Bool} (asked : moveRequest e (raiseRequest e p h) p = (q, .accepted target clamped)) :
    ∃ posts, raiseMove e h p = ({ q with posts := posts, msq := { state := .raising target (raiseDirection e p h), stranded := false } },
      if target = (h : Int) then accepted 0 else clampedTo target) := by
  obtain ⟨_, stranded⟩ := setStranded_rest e false q
  obtain ⟨posts, raising⟩ := setMast_raising e target (raiseDirection e p h) (setStranded e false q)
  unfold raiseRequest at asked
  unfold raiseMove
  dsimp only
  rw [asked]
  dsimp only
  rw [raising, stranded]
  exact ⟨posts, rfl⟩

/-- What an accepted RAISE makes of the plant `p`: MSQ RAISING, MAST under way to `target`, every other axis as it was (R106). -/
structure Raised (e : Env) (p : Plant) (d : RaiseDirection) (target : Int) (q : Plant) : Prop where
  rest : q = { p with posts := q.posts, axd := q.axd, msq := { state := .raising target d, stranded := false } }
  state : (axisOf q .mast).state = if p.axd.grants.length < (cfgOf e).budget then .moving else .waiting
  requester : (axisOf q .mast).requester = some .msq
  cls : (axisOf q .mast).cls = some (classOf d)
  target : (axisOf q .mast).target = some target
  correction : (axisOf q .mast).correction = false
  others : ∀ b, b ≠ .mast → axisOf q b = axisOf p b

theorem raiseMove_idle (clear : p.aut.latch = none) (rests : (axisOf p .mast).state = .idle)
    (free : switchBlocks (axisOf p .mast) (effectiveHeight e p h) = false) :
    ∃ q, raiseMove e h p = (q, if effectiveHeight e p h = (h : Int) then accepted 0 else clampedTo (effectiveHeight e p h)) ∧
      Raised e p (raiseDirection e p h) (effectiveHeight e p h) q := by
  have asked := moveRequest_idle (e := e) (p := p) (q := raiseRequest e p h) ⟨clear, rests, free, fun head => absurd rfl head⟩
  obtain ⟨posts, moved⟩ := raiseMove_accepted asked
  refine ⟨_, moved, ?_⟩
  dsimp only [raiseRequest, mastMove]
  set record := withRequest (raiseRequest e p h) (effectiveHeight e p h) (axisOf p .mast)
  obtain ⟨_, _, rest⟩ := joinWaiting_rest e .mast record p
  obtain ⟨-, requester, cls, target, correction, -⟩ := (joinWaiting_axis e .mast .mast record p).1 rfl
  obtain ⟨state, others⟩ := joinWaiting_mast e record p
  constructor
  · change ({ joinWaiting e .mast record p with posts := posts, msq := _ } : Plant) =
      { p with posts := posts, axd := (joinWaiting e .mast record p).axd, msq := _ }
    rw [rest]
    rfl
  · exact state
  · exact requester
  · exact cls
  · exact target
  · exact correction
  · exact others

end

/-! ### The command taken -/

section
variable {s : State} {x : ArrivalEntry} {q : Plant} {v : Verdict}

theorem mayMove_iff {source : Nat} : mayMove source s = true ↔
    s.setup.phase = .running ∧ s.plant.aut.latch = none ∧ s.plant.aut.duplicate = none ∧ (busy s.plant = false ∨ s.plant.aut.holder = some source) := by
  simp [mayMove, and_assoc]

/-- A motion command that may move passes the common checks (R56). -/
theorem mayMove_passes {c : CommandCode} {source : Nat} (may : mayMove source s = true) (motion : c.isMotion = true) :
    commonChecks (envOf s) c source s.plant = none := by
  obtain ⟨phase, latch, duplicate, idle⟩ := mayMove_iff.1 may
  exact commonChecks_motion (not_safe (by simp [phase])) motion latch duplicate (idle.imp_right .inl)

/-- A motion command taken makes its source the holder (R55). -/
theorem takeCommand_motion {c : CommandCode} {owner : Env → ArrivalEntry → Plant → Plant × Verdict} (head : headCommand (some c) s = some x)
    (judged : judge (envOf s) c owner x s.plant = (q, v)) (motion : c.isMotion = true) (taken : v.outcome ≠ .refused) :
    takeCommand c owner s = replied x v (setHolder (some x.source) q) s := by
  rw [takeCommand_head owner head, commandDone, judged]
  dsimp only
  rw [newHolder, if_pos ⟨motion, taken⟩]
  rfl

theorem exec_raise_refused (head : headCommand (some .raise) s = some x) (may : mayMove x.source s = true) (own : ownRaise (envOf s) x s.plant = (q, v))
    (refused : v.outcome = .refused) : exec .raise s = .next (replied x v q s) :=
  congrArg _ (takeCommand_judged head ((judge_owner ownRaise (mayMove_passes may rfl)).trans own) (.inr refused))

theorem exec_raise_taken (head : headCommand (some .raise) s = some x) (may : mayMove x.source s = true) (own : ownRaise (envOf s) x s.plant = (q, v))
    (taken : v.outcome ≠ .refused) : exec .raise s = .next (replied x v (setHolder (some x.source) q) s) :=
  congrArg _ (takeCommand_motion head ((judge_owner ownRaise (mayMove_passes may rfl)).trans own) rfl taken)

theorem ownRaise_refused {e : Env} {p : Plant} (refusal : raiseRefusal e p (raiseHeight x.payload) = some v) : ownRaise e x p = (p, v) := by
  rw [ownRaise, refusal]

theorem ownRaise_moves {e : Env} {p : Plant} (refusal : raiseRefusal e p (raiseHeight x.payload) = none) :
    ownRaise e x p = raiseMove e (raiseHeight x.payload) p := by
  rw [ownRaise, refusal]

end

/-- Settles O49: the refusals of R104 in turn, then AXD's answer to the move of R106. -/
theorem aRaiseIsJudgedAndGoesToItsTarget : Obligations.ARaiseIsJudgedAndGoesToItsTarget := by
  intro s x head may p c h top capped lowest wanted target up direction cls goes r
  obtain ⟨-, clear, -, -⟩ := mayMove_iff.1 may
  have sameTop : topNow (envOf s) p = top := by
    unfold topNow isFresh
    dsimp only [top]
    rcases p.pvw.clearance.state with _ | _ | _ | _ <;> rcases p.pvw.clearance.value with _ | _ | value <;> rfl
  clear_value top
  have sameTarget : effectiveHeight (envOf s) p (raiseHeight x.payload) = target := by
    rw [effectiveHeight, raiseTarget, sameTop]
    cases top <;> rfl
  have sameDirection : raiseDirection (envOf s) p (raiseHeight x.payload) = direction := by rw [raiseDirection, sameTarget]
  have goal : clampSoft (envOf s) .mast (raiseTarget (envOf s) p (raiseHeight x.payload)) = target := sameTarget
  have sameUp : up ↔ positionOrZero p .mast < effectiveHeight (envOf s) p (raiseHeight x.payload) := by rw [sameTarget]
  have sameClass : classOf direction = cls := by
    dsimp only [direction, cls]
    split <;> rfl
  have passes (go : goes) : ownRaise (envOf s) x p = raiseMove (envOf s) (raiseHeight x.payload) p := by
    obtain ⟨idle, free, all, under⟩ := go
    refine ownRaise_moves ((raiseRefusal_free idle free).trans (raiseObstacle_none (fun h => all (sameUp.2 h)) fun a is h => ?_))
    exact sameTarget.symm ▸ under a (sameTop.symm.trans is) (sameUp.2 h)
  refine ⟨fun busy => ?_, fun idle held => ?_, fun idle free rises => ⟨fun before y after shape lower missing => ?_, fun a all is low => ?_⟩,
    fun go stands => ?_, fun go moves sound blocked => ?_, fun go rests free => ?_⟩
  · exact exec_raise_refused head may (ownRaise_refused (if_pos busy)) rfl
  · exact exec_raise_refused head may (ownRaise_refused ((if_neg (Bool.eq_false_iff.1 idle)).trans (if_pos held))) rfl
  · exact exec_raise_refused head may
      (ownRaise_refused ((raiseRefusal_free idle free).trans (raiseObstacle_missing (sameUp.1 rises) (lowestMissing_eq shape lower missing)))) rfl
  · exact exec_raise_refused head may
      (ownRaise_refused ((raiseRefusal_free idle free).trans (raiseObstacle_low (sameUp.1 rises) all (sameTop.trans is) (sameTarget.symm ▸ low)))) rfl
  · rcases stands with stopping | ⟨notIdle, sound, made, other, free⟩
    · exact exec_raise_refused head may ((passes go).trans (raiseMove_state (moveRequest_stopping clear stopping) (.inl rfl))) rfl
    by_cases stopping : r.state = .stopping
    · exact exec_raise_refused head may ((passes go).trans (raiseMove_state (moveRequest_stopping clear stopping) (.inl rfl))) rfl
    exact exec_raise_refused head may ((passes go).trans (raiseMove_state
      ((moveRequest_mast clear stopping sound _ _).trans (requestFromClamp_busy (goal.symm ▸ free) (endedState_ne notIdle stopping sound) made other)) (.inr rfl))) rfl
  · refine exec_raise_refused head may ((passes go).trans (raiseMove_range ?_)) rfl
    exact (moveRequest_mast clear moves sound _ _).trans (requestFromClamp_range (goal.symm ▸ blocked))
  · obtain ⟨q, moved, raised⟩ := raiseMove_idle clear rests (sameTarget.symm ▸ free)
    rw [sameTarget, sameDirection] at raised
    rw [sameTarget] at moved
    have taken : (if target = h then accepted 0 else clampedTo target).outcome ≠ .refused := by
      split <;> exact ReplyOutcome.noConfusion
    exact ⟨_, exec_raise_taken head may ((passes go).trans moved) taken, congrArg (setHolder (some x.source)) raised.rest, raised.state, raised.requester,
      raised.cls.trans (congrArg some sameClass), raised.target, raised.correction, raised.others⟩

end Sys2Proof.Machine
end

