-- ==== Sys2Proof/Proofs/SamplerWatches.lean ====
section
/-! PROOFS. The watches (R72 to R75): a step by the table, the event of an edge, and the scan conversion of a channel that one watch follows
(O43). -/

namespace Sys2Proof.Machine

/-! ### A step (R72) -/

section
variable {c : WatchCfg} {result : Count} {w : WatchState}

/-- The run of results on one side, this one counted. -/
def runWith (c : WatchCfg) (result : Count) (w : WatchState) : Nat := if w.runSide = some (resultSide c result) then w.run + 1 else 1

/-- A result on the watch's own side breaks the run. -/
theorem stepWatch_own (own : w.side = some (resultSide c result)) : stepWatch c result w = ({ w with run := 0, runSide := none }, none) := if_pos own

/-- A result on the other side, or in UNKNOWN, short of the depth. -/
theorem stepWatch_short (other : w.side ≠ some (resultSide c result)) (short : runWith c result w < c.depth) :
    stepWatch c result w = ({ w with run := runWith c result w, runSide := some (resultSide c result) }, none) :=
  (if_neg other).trans (if_neg (Nat.not_le.2 short))

/-- At the depth the side is entered, with an edge unless it was UNKNOWN. -/
theorem stepWatch_entered (other : w.side ≠ some (resultSide c result)) (full : c.depth ≤ runWith c result w) :
    stepWatch c result w = ({ w with side := some (resultSide c result), run := 0, runSide := none }, w.side.map fun _ => resultSide c result) := by
  refine (if_neg other).trans ((if_pos full).trans ?_)
  cases w.side <;> rfl

end

/-! ### The event (R73 to R75) -/

theorem edgeSelected_iff {c : WatchCfg} {entered : Side} :
    edgeSelected c entered = true ↔ c.edgeCode ≥ 2 ∨ (c.edgeCode = 0 ∧ entered = .above) ∨ (c.edgeCode = 1 ∧ entered = .below) := by
  rcases c.edgeCode.lt_or_ge 2 with low | high
  · interval_cases code : c.edgeCode <;> cases entered <;> simp [edgeSelected, edgeSelection, code]
  · have both : edgeSelection c = .both := by
      rw [edgeSelection, if_neg (by omega), if_neg (by omega)]
    simp [edgeSelected, both, high]

section
variable {e : Env} {p : Plant}

/-- What a fault raised leaves of the set: a record that stands there, and one that is new where there is room (R96). -/
theorem raiseFault_records {kind : FaultKind} {axis : FaultAxis} (room : p.flt.records.length < 8 ∨ { kind := kind, axis := axis } ∈ p.flt.records) :
    { kind := kind, axis := axis } ∈ (raiseFault e kind axis p).flt.records := by
  by_cases found : { kind := kind, axis := axis } ∈ p.flt.records
  · obtain ⟨posts, axd, halted⟩ := haltFor_onlyDrives e kind axis true p
    rw [raiseFault, if_pos found, halted]
    exact found
  · have free : decide (p.flt.records.length < 8) = true := decide_eq_true (room.resolve_right found)
    generalize entered : ({ p with flt := { p.flt with records := p.flt.records ++ [{ kind := kind, axis := axis }] } } : Plant) = p1
    obtain ⟨_, _, halted⟩ := haltFor_onlyDrives e kind axis true (postStatusIf (decide (faultKey p1 ≠ faultKey p)) e p1)
    generalize judged : postHalt e (.fault kind) axis (faultMastState kind axis true (haltFor e kind axis true (postStatusIf (decide (faultKey p1 ≠ faultKey p)) e p1)).msq.state)
      (haltFor e kind axis true (postStatusIf (decide (faultKey p1 ≠ faultKey p)) e p1)) = p2
    obtain ⟨_, _, _, mast⟩ := mastFault_rest e kind axis true p2
    have raised : raiseFault e kind axis p = pointingFault e kind axis (mastFault e kind axis true p2) := by
      rw [raiseFault, if_neg found, ← judged, ← entered]
      dsimp only
      rw [free]
      rfl
    have kept : p2.flt = p1.flt := by
      rw [← judged, halted]
      exact postStatusIf_flt _ _ _
    rw [raised, (pointingFault_headWork kind axis (.refl _)).flt, mast]
    exact kept ▸ entered ▸ List.mem_append_right _ (List.mem_singleton.2 rfl)

/-- An edge that is not selected changes only the watch (R73). -/
theorem watchEdge_other {i : Nat} {c : WatchCfg} {w : WatchState} {entered : Side} {result : Count} (other : edgeSelected c entered ≠ true) :
    watchEdge e i c w entered result p = setWatch i w p := if_neg other

/-- An edge that is selected makes its side the fault side and acts (R73). -/
theorem watchEdge_selected {i : Nat} {c : WatchCfg} {w : WatchState} {entered : Side} {result : Count} (selected : edgeSelected c entered = true) :
    watchEdge e i c w entered result p = watchAction e i c entered result (setWatch i { w with faultSide := some entered } p) := if_pos selected

/-- A halting action raises the watch's kind on its scope (R75). -/
theorem watchAction_halt {i : Nat} {c : WatchCfg} {entered : Side} {result : Count} {f : FaultAxis} (scope : watchScope c = some f) :
    watchAction e i c entered result p = raiseFault e (watchKind c) f p := by
  unfold watchScope at scope
  unfold watchAction
  cases action : c.action <;> rw [action] at scope <;> cases scope <;> rfl

/-- The fault kind as a table of its code. -/
theorem watchKind_eq (c : WatchCfg) :
    watchKind c = match c.kindCode with | 0 => .pressure | 1 => .current | 2 => .supply | 3 => .baseTilt | _ => .pilot := by
  unfold watchKind
  rcases c.kindCode with _ | _ | _ | _ | _ <;> rfl

/-! ### The conversion (R61, R63) -/

/-- Of steps taken in turn only one changes anything. -/
theorem foldl_only {α : Type} {f : Plant → α → Plant} {x : α} {l : List α} (once : l.Nodup) (mem : x ∈ l) (others : ∀ y ∈ l, y ≠ x → ∀ q, f q y = q) (q : Plant) :
    l.foldl f q = f q x := by
  have rest {l : List α} (same : ∀ y ∈ l, ∀ q, f q y = q) (q : Plant) : l.foldl f q = q := by
    induction l with
    | nil => rfl
    | cons y l ih => rw [List.foldl_cons, same y List.mem_cons_self, ih fun z m => same z (List.mem_cons_of_mem y m)]
  induction l with
  | nil => cases mem
  | cons y l ih =>
    obtain ⟨out, once⟩ := List.nodup_cons.1 once
    rw [List.foldl_cons]
    by_cases same : y = x
    · subst same
      exact rest (fun z m => others z (List.mem_cons_of_mem y m) fun eq => out (eq ▸ m)) _
    · rw [others y List.mem_cons_self same]
      exact ih once (List.mem_of_ne_of_mem (Ne.symm same) mem) fun z m => others z (List.mem_cons_of_mem y m)

/-- A watch of another channel, or with no action, is not run (R72). -/
theorem runWatch_other {channel j : Nat} {result : Count} (none : ∀ d, (cfgOf e).watches[j]? = some d → d.channel = channel → d.action = .none) (q : Plant) :
    runWatch e channel result j q = q := by
  unfold runWatch
  split
  · rename_i d _ found _
    exact if_neg fun h => h.2 (none d found h.1)
  · rfl

/-- The watch that follows the channel, run on its result. -/
theorem runWatch_follows {channel i : Nat} {result : Count} {c : WatchCfg} {w : WatchState} (found : (cfgOf e).watches[i]? = some c) (state : p.watches[i]? = some w)
    (follows : c.channel = channel) (acts : c.action ≠ .none) :
    runWatch e channel result i p = match stepWatch c result w with
      | (w1, some entered) => watchEdge e i c w1 entered result p
      | (w1, none) => setWatch i w1 p := by
  unfold runWatch
  rw [found, state]
  exact if_pos ⟨follows, acts⟩

/-- A channel that one watch follows: that watch is run on its results, and no other (R63). -/
theorem runWatches_one {channel i : Nat} {result : Count} (low : i < 6)
    (others : ∀ j d, j ≠ i → (cfgOf e).watches[j]? = some d → d.channel = channel → d.action = .none) :
    runWatches e channel result p = runWatch e channel result i p :=
  foldl_only (by decide) (by simp; omega) (fun j _ ne => runWatch_other fun d => others j d ne) p

/-- A result that is no pilot level is stored and given to the watches (R63). -/
theorem scanResult_plain {channel : Nat} {result : Count} (plain : isPilot e channel = false) : scanResult e channel result p = takeResult e channel result p := by
  unfold scanResult
  dsimp only
  rw [plain]
  rfl

end

/-- A scan conversion ended: its result served, then the next conversion begun (R61, R63). -/
theorem exec_scanConversion {s : State} {channel : Nat} {result : Count} (converter : s.plant.smp.converter = some { channel := channel, purpose := .scan }) {q : Plant}
    (served : scanResult (envOf s) channel result s.plant = q) :
    exec (.scanConversionComplete result) s = .next (withPlant { q with smp := beginConversion (envOf s) true q.smp } s) := by
  simp only [exec, execScanConversionComplete, converter, served]
  rfl

/-- Settles O43: the table by the branches of `stepWatch`, the event by `watchAction`, and the conversion by the one watch that is run. -/
theorem aWatchStepsByItsTableAndActs : Obligations.AWatchStepsByItsTableAndActs := by
  refine ⟨fun c result w => ?_, fun e i c w entered result p => ?_, fun s channel i c w result converter low found state follows acts others plain => ?_⟩
  · refine ⟨stepWatch_own, stepWatch_short, fun unknown full => ?_, fun old side other full => ?_⟩
    · rw [stepWatch_entered (by simp [unknown]) full, unknown]
      rfl
    · rw [stepWatch_entered (by rw [side]; exact fun h => other (Option.some.inj h)) full, side]
      rfl
  · refine ⟨fun other => watchEdge_other fun h => other (edgeSelected_iff.1 h), fun selected => watchEdge_selected (edgeSelected_iff.2 selected),
      fun selected report => ?_, fun f selected scope room => ?_⟩
    · rw [watchEdge_selected (edgeSelected_iff.2 selected), watchAction, report]
      rfl
    · rw [watchEdge_selected (edgeSelected_iff.2 selected), watchAction_halt scope]
      have raised (k : FaultKind) (kind : k = watchKind c) (room : p.flt.records.length < 8 ∨ { kind := k, axis := f } ∈ p.flt.records) :
          { kind := k, axis := f } ∈ (raiseFault e (watchKind c) f (setWatch i { w with faultSide := some entered } p)).flt.records := by
        subst kind
        exact raiseFault_records room
      exact raised _ (watchKind_eq c).symm room
  · have notPilot : isPilot (envOf s) channel = false := by
      rcases plain with linked | other
      · simp [isPilot, Machine.linked, cfgOf, envOf, linked]
      · simp [isPilot, cfgOf, envOf, other]
    refine exec_scanConversion converter ((scanResult_plain notPilot).trans ((runWatches_one (e := envOf s) low others).trans ?_))
    exact runWatch_follows (e := envOf s) found state follows acts

end Sys2Proof.Machine
end

