-- ==== Sys2Proof/Proofs/SamplerFreed.lean ====
section
/-! PROOFS. A requester told that the dwell or an axis is free asks again (O42): the dwell requested (R66, R67), and the axis by PNT, MSQ, PAT
and PKE (R81, R114, R116, R127, R139, R151). -/

namespace Sys2Proof.Machine

/-! ### The dwell (R66, R67) -/

/-- The sampler of a dwell accepted: every position of the ring emptied. -/
def dwellBegun (e : Env) (q : Requester) (m : Sampler) : Sampler :=
  { ringClear m with dwell := some { identity := m.nextIdentity, requester := q, samples := (cfgOf e).peakN }, nextIdentity := m.nextIdentity + 1 }

/-- The sampler of a dwell refused: its requester noted. -/
def dwellNoted (q : Requester) (m : Sampler) : Sampler := { m with noted := insertNew m.noted q }

section
variable {e : Env} {p : Plant} {q : Requester}

theorem not_linked (localSource : (cfgOf e).source = .localSource) : linked e = false := by simp [linked, localSource]

/-- In LOCAL source a request is judged by the dwell that is active (R66). -/
theorem requestDwell_local (localSource : (cfgOf e).source = .localSource) : requestDwell e q p =
    if ∀ d, p.smp.dwell = some d → d.requester = q then { p with smp := dwellBegun e q p.smp } else { p with smp := dwellNoted q p.smp } := by
  unfold requestDwell
  dsimp only
  rw [if_neg (by simp [not_linked localSource])]
  cases active : p.smp.dwell with
  | none => simp [dwellBegun]
  | some d =>
    by_cases own : d.requester = q
    · simp [own, dwellBegun]
    · simp [own, dwellNoted, active]

theorem requestDwell_free (localSource : (cfgOf e).source = .localSource) (free : p.smp.dwell = none) :
    requestDwell e q p = { p with smp := dwellBegun e q p.smp } :=
  (requestDwell_local localSource).trans (if_pos fun d active => by rw [free] at active; cases active)

theorem requestDwell_own {d : Dwell} (localSource : (cfgOf e).source = .localSource) (active : p.smp.dwell = some d) (own : d.requester = q) :
    requestDwell e q p = { p with smp := dwellBegun e q p.smp } :=
  (requestDwell_local localSource).trans (if_pos fun d' active' => by cases active.symm.trans active'; exact own)

theorem requestDwell_other {d : Dwell} (localSource : (cfgOf e).source = .localSource) (active : p.smp.dwell = some d) (other : d.requester ≠ q) :
    requestDwell e q p = { p with smp := dwellNoted q p.smp } :=
  (requestDwell_local localSource).trans (if_neg fun own => other (own d active))

end

/-- A DWELL_FREE handed to a requester, taken. -/
theorem exec_dwellFree {s : State} {q : Requester} (handed : q ∈ s.plant.smp.freed) :
    exec (.dwellFree q) s = .next (withPlant (takeDwellFree (envOf s) q s.plant) s) := if_pos handed

/-! ### An axis asked again (R81) -/

/-- The axis free event of a requester taken off the list. -/
def freeTaken (q : Requester) (a : Axis) (p : Plant) : Plant := setAxisRaw a { axisOf p a with freed := removeAll (axisOf p a).freed q } p

theorem exec_axisFree {s : State} {a : Axis} {q : Requester} (handed : q ∈ (axisOf s.plant a).freed) :
    exec (.axisFree a q) s = .next (withPlant (handAxisFree (envOf s) q a (freeTaken q a s.plant)) s) := if_pos handed

theorem carriesMove_idle {r : AxisRec} (idle : r.state = .idle) (q : Requester) : carriesMove r q = false := by simp [carriesMove, idle]

theorem clampSoft_idem (e : Env) (a : Axis) (x : Int) : clampSoft e a (clampSoft e a x) = clampSoft e a x := by
  unfold clampSoft clampInt
  omega

/-- A head axis's target at the pointing position lies within its soft limits (R121). -/
theorem clampSoft_pointingTarget {a : Axis} (head : a ≠ .mast) (e : Env) (p : Plant) : clampSoft e a (pointingTarget e p a) = pointingTarget e p a := by
  unfold pointingTarget
  split
  · exact clampSoft_idem e a 0
  · cases a with
    | mast => exact absurd rfl head
    | pan | tilt | pol => exact clampSoft_idem e _ _

/-- Without an active switch none is in the way. -/
theorem switchBlocks_clear {r : AxisRec} (low : r.switchLow = false) (high : r.switchHigh = false) (target : Int) : switchBlocks r target = false := by
  unfold switchBlocks
  split <;> simp [low, high]

theorem grantedOrSame_freed {r r' : AxisRec} (h : grantedOrSame r r') : r'.freed = r.freed := by rcases h with h | h <;> rw [h]

section
variable {e : Env} {p : Plant}

/-- The lists of events outlive a request. -/
theorem joinWaiting_freed (a : Axis) (r : AxisRec) : (axisOf (joinWaiting e a r p) a).freed = r.freed := by
  refine (grantedOrSame_freed (tryGrant_axis e (listWaiting a (putAxis e a { r with state := .waiting } p)) a).1).trans ?_
  rw [axisOf_listWaiting, axisOf_putAxis, if_pos rfl]
  simp [settleRecord, entersRest]

theorem axisOf_freeTaken (q : Requester) (a : Axis) : axisOf (freeTaken q a p) a = { axisOf p a with freed := removeAll (axisOf p a).freed q } := by
  rw [freeTaken, axisOf_setAxisRaw, if_pos rfl]

/-- An event taken puts nothing in the way of a move. -/
theorem mayMoveTo_freeTaken {q : Requester} {a : Axis} {target : Int} (may : mayMoveTo e p a target) : mayMoveTo e (freeTaken q a p) a target := by
  obtain ⟨clear, idle, free, head⟩ := may
  have mast : headFree e (freeTaken q a p) = headFree e p := headFree_position (by
    rw [freeTaken, axisOf_setAxisRaw]
    split
    · rename_i same
      rw [← same]
    · rfl)
  refine ⟨clear, ?_, ?_, fun ne => mast.trans (head ne)⟩ <;> rw [axisOf_freeTaken]
  · exact idle
  · exact free

/-- The axis asked again after its event was taken: it is on its way, and nothing but posts and drives changes with it. -/
theorem moveRequest_freeTaken {m : MoveRequest} (may : mayMoveTo e p m.axis m.target) :
    ∃ posts axd x c, moveRequest e m (freeTaken m.requester m.axis p) = ({ p with posts := posts, axd := axd }, .accepted x c) ∧
      movesTo m.requester m.cls e { p with posts := posts, axd := axd } m.axis m.target ∧
      m.requester ∉ (axisOf { p with posts := posts, axd := axd } m.axis).freed := by
  have may' := mayMoveTo_freeTaken (q := m.requester) may
  obtain ⟨⟨x, c, answer⟩, moves, -, ⟨posts, axd, rest⟩, -⟩ := moveRequest_moves may'
  have left : m.requester ∉ (axisOf (moveRequest e m (freeTaken m.requester m.axis p)).1 m.axis).freed := by
    rw [moveRequest_idle may', joinWaiting_freed, axisOf_freeTaken]
    simp [withRequest, removeAll]
  rw [rest] at moves left
  exact ⟨posts, axd, x, c, Prod.ext rest answer, moves, left⟩

/-! ### PNT (R127, R129) -/

/-- PNT in its slew or return, with the axis on its list. -/
theorem slewAxisFree_listed {a : Axis} (listed : a ∈ p.pnt.slewList) (idle : (axisOf p a).state = .idle)
    (moving : p.pnt.state = .active (.slewing .move) ∨ p.pnt.state = .active (.acquiring .back)) : slewAxisFree e a p = slewRequests e [a] p := by
  have asks := (if_pos ⟨listed, carriesMove_idle idle .pnt⟩ : (if a ∈ p.pnt.slewList ∧ carriesMove (axisOf p a) .pnt = false then slewRequests e [a] p else p) = _)
  unfold slewAxisFree
  rcases moving with state | state <;> rw [state] <;> exact asks

theorem slewAxisFree_nothing {a : Axis} (nothing : p.pnt.state = .idle ∨ a ∉ p.pnt.slewList) : slewAxisFree e a p = p := by
  rcases nothing with idle | out
  · unfold slewAxisFree
    rw [idle]
  · have none := (if_neg fun h => out h.1 : (if a ∈ p.pnt.slewList ∧ carriesMove (axisOf p a) .pnt = false then slewRequests e [a] p else p) = p)
    unfold slewAxisFree
    split
    · exact none
    · exact none
    · rfl

/-- One request of a slew, accepted. -/
theorem slewRequests_one {a : Axis} {q : Plant} {x : Int} {c : Bool} (accepted : moveRequest e (slewMove e p a) p = (q, .accepted x c)) :
    slewRequests e [a] p = q := by
  simp [slewRequests, accepted, refusedForGood]

/-! ### MSQ (R114, R116) -/

theorem mastAxisFree_parking {a : Axis} {l : List Axis} {q : Plant} {x : Int} {c : Bool} (parking : p.msq.state = .parking l) (listed : a ∈ l)
    (idle : (axisOf p a).state = .idle) (accepted : moveRequest e (parkingMove e a) p = (q, .accepted x c)) : mastAxisFree e a p = q := by
  unfold mastAxisFree
  rw [parking]
  refine (if_pos ⟨listed, carriesMove_idle idle .msq⟩).trans ?_
  simp [parkingRequests, accepted]

theorem mastAxisFree_lowering {q : Plant} {x : Int} {c : Bool} (pending : p.msq.state = .lowering true)
    (accepted : moveRequest e (mastMove .lower 0) p = (q, .accepted x c)) : mastAxisFree e .mast p = setPendingMast false q := by
  unfold mastAxisFree
  rw [pending]
  simp [requestLowering, accepted]

/-! ### PAT and PKE (R139, R151) -/

/-- The target of an axis of a point. -/
def pointTarget (x : HeadPoint) (a : Axis) : Int := if a = .tilt then x.tilt else x.pan

/-- An axis of a point asked again and accepted: it stays on the move list. -/
theorem retryAxis_accepted {who : Requester} {a : Axis} {target : HeadPoint} {m : PointMoves} {q : Plant} {x : Int} {c : Bool} (point : a = .pan ∨ a = .tilt)
    (unbarred : m.barred = false) (accepted : moveRequest e (pointMove who a (pointTarget target a) none) p = (q, .accepted x c)) :
    retryAxis e who a target m p = (q, m) := by
  rcases point with rfl | rfl <;> simp_all [retryAxis, requestPointAxis, pointTarget]

theorem patternAxisFree_listed {a : Axis} {y : Pattern} {q : Plant} {x : Int} {c : Bool} (pat : p.pat = some y)
    (moving : y.status = .running .toPoint ∨ y.status = .running .toRowStart) (listed : a ∈ y.moveList) (unbarred : y.barred = false) (point : a = .pan ∨ a = .tilt)
    (idle : (axisOf p a).state = .idle) (accepted : moveRequest e (pointMove .pat a (pointTarget y.targets a) none) p = (q, .accepted x c)) :
    patternAxisFree e a p = updatePattern (setMoves { moveList := y.moveList, blocked := y.blocked, barred := y.barred }) q := by
  have retried := retryAxis_accepted (m := { moveList := y.moveList, blocked := y.blocked, barred := y.barred }) point unbarred accepted
  unfold patternAxisFree
  rw [pat]
  refine (if_pos ⟨listed, carriesMove_idle idle .pat, unbarred⟩).trans ?_
  rcases moving with status | status <;> rw [status] <;> dsimp only <;> rw [retried] <;> exact if_neg (List.ne_nil_of_mem listed)

theorem runAxisFree_listed {a : Axis} {st : RunStage} {q : Plant} {x : Int} {c : Bool} (running : p.run.status = .running st) (listed : a ∈ p.run.moveList)
    (unbarred : p.run.barred = false) (point : a = .pan ∨ a = .tilt) (idle : (axisOf p a).state = .idle)
    (accepted : moveRequest e (pointMove .pke a (pointTarget p.run.targets a) none) p = (q, .accepted x c)) :
    runAxisFree e a p = updateRun (fun y => { y with moveList := p.run.moveList, blocked := p.run.blocked, barred := p.run.barred }) q := by
  have retried := retryAxis_accepted (m := { moveList := p.run.moveList, blocked := p.run.blocked, barred := p.run.barred }) point unbarred accepted
  unfold runAxisFree
  rw [running]
  refine (if_pos ⟨listed, carriesMove_idle idle .pke⟩).trans ?_
  dsimp only
  rw [retried]
  exact if_neg (List.ne_nil_of_mem listed)

end

/-- Settles O42: the dwell by `requestDwell`, and each requester's axis by `moveRequest_freeTaken`. -/
theorem aFreedRequesterAsksAgain : Obligations.AFreedRequesterAsksAgain := by
  refine ⟨fun s q handed localSource => ?_, fun s a handed head => ?_, fun s a q handed => ?_⟩
  · rw [exec_dwellFree handed]
    generalize left : ({ s.plant.smp with freed := removeAll s.plant.smp.freed q } : Sampler) = m
    have taken : takeDwellFree (envOf s) q s.plant =
        if wantsDwell q s.plant = true then requestDwell (envOf s) q { s.plant with smp := m } else { s.plant with smp := m } := by rw [← left]; rfl
    refine ⟨fun wants none => ?_, fun d wants active other out => ?_, fun wantsNot => ?_⟩
    · rw [taken, if_pos wants, requestDwell_free (e := envOf s) localSource (left ▸ none), ← left]
      rfl
    · rw [taken, if_pos wants, requestDwell_other (e := envOf s) localSource (left ▸ active) other, dwellNoted, insertNew, ← left, if_neg out]
      rfl
    · rw [taken, if_neg (Bool.eq_false_iff.1 wantsNot), ← left]
      rfl
  · rw [exec_axisFree handed]
    refine ⟨fun moving listed clear idle free low high => ?_, fun nothing => congrArg (fun q => Host.Outcome.next (withPlant q s)) (slewAxisFree_nothing (p := freeTaken .pnt a s.plant) nothing)⟩
    have ne : a ≠ .mast := by rintro rfl; simp at head
    have may : mayMoveTo (envOf s) s.plant a (pointingTarget (envOf s) s.plant a) := ⟨clear, idle, switchBlocks_clear low high _, fun _ => free⟩
    obtain ⟨posts, axd, x, c, accepted, moves, left⟩ := moveRequest_freeTaken (m := slewMove (envOf s) s.plant a) may
    have asked : handAxisFree (envOf s) .pnt a (freeTaken .pnt a s.plant) = { s.plant with posts := posts, axd := axd } :=
      (slewAxisFree_listed (p := freeTaken .pnt a s.plant) listed (by rw [axisOf_freeTaken]; exact idle) moving).trans
        (slewRequests_one (p := freeTaken .pnt a s.plant) accepted)
    obtain ⟨state, requester, cls, target, -⟩ := moves
    refine ⟨_, rfl, ?_⟩
    rw [asked]
    exact ⟨rfl, state, requester, cls, target.trans (congrArg some (clampSoft_pointingTarget ne _ _)), left⟩
  · rw [exec_axisFree handed]
    intro p e taken asks
    have asked {m : MoveRequest} (may : mayMoveTo e p m.axis m.target) (axis : m.axis = a) (who : m.requester = q) := by
      have := moveRequest_freeTaken may
      rw [axis, who] at this
      exact this
    have rests {target : Int} (may : mayMoveTo e p a target) : (axisOf (freeTaken q a p) a).state = .idle := by
      rw [axisOf_freeTaken]
      exact may.2.1
    refine ⟨fun jog => by subst jog; rfl, fun l msq parking listed head may => ?_, fun msq pending mast may => ?_,
      fun y pat found moving listed unbarred point may => ?_, fun st pke running listed unbarred point may => ?_⟩
    · subst msq
      obtain ⟨posts, axd, x, c, accepted, moves, left⟩ := asked (m := parkingMove e a) may rfl rfl
      have free : handAxisFree e .msq a (freeTaken .msq a p) = { p with posts := posts, axd := axd } :=
        mastAxisFree_parking parking listed (rests may) accepted
      refine ⟨_, rfl, ?_⟩
      rw [free]
      exact ⟨rfl, moves, left, rfl, rfl⟩
    · subst msq mast
      obtain ⟨posts, axd, x, c, accepted, moves, left⟩ := asked (m := mastMove .lower 0) may rfl rfl
      have free : handAxisFree e .msq .mast (freeTaken .msq .mast p) = setPendingMast false { p with posts := posts, axd := axd } :=
        mastAxisFree_lowering pending accepted
      refine ⟨_, rfl, ?_⟩
      rw [free]
      exact ⟨rfl, moves, left, rfl, rfl⟩
    · subst pat
      obtain ⟨posts, axd, x, c, accepted, moves, left⟩ := asked (m := pointMove .pat a (pointTarget y.targets a) none) may rfl rfl
      have free : handAxisFree e .pat a (freeTaken .pat a p) =
          updatePattern (setMoves { moveList := y.moveList, blocked := y.blocked, barred := y.barred }) { p with posts := posts, axd := axd } :=
        patternAxisFree_listed found moving listed unbarred point (rests may) accepted
      refine ⟨_, rfl, ?_⟩
      rw [free]
      refine ⟨rfl, moves, left, ?_, rfl⟩
      rw [found]
      rfl
    · subst pke
      obtain ⟨posts, axd, x, c, accepted, moves, left⟩ := asked (m := pointMove .pke a (pointTarget p.run.targets a) none) may rfl rfl
      have free := runAxisFree_listed (p := freeTaken .pke a p) running listed unbarred point (rests may) accepted
      have free' : handAxisFree e .pke a (freeTaken .pke a p) = _ := free
      refine ⟨_, rfl, ?_⟩
      rw [free']
      exact ⟨rfl, moves, left, rfl, rfl⟩

end Sys2Proof.Machine
end

