-- ==== Sys2Proof/Proofs/SamplerRuns.lean ====
section
/-! PROOFS. A peaking run begun (R150, R151), said whole: what `startRun` writes when no request of its first point is refused for good, and the
two ways in which it is not: PAN and TILT both accepted, or PAN still STOPPING. -/

namespace Sys2Proof.Machine

section
variable {e : Env} {centre : HeadPoint} {delta : Nat} {p : Plant}

/-- The run `startRun` writes, before its first move. -/
def openedRun (centre : HeadPoint) (delta : Nat) : Run := { Run.cold with status := .running .toPoint, centre := centre, delta := some delta }

/-- The run on its way to its first point. -/
def movingRun (e : Env) (centre : HeadPoint) (delta : Nat) : Run :=
  { openedRun centre delta with targets := clampPoint e centre, moveList := [.pan, .tilt] }

/-- The plant of a run opened, with no move of an earlier run to end. -/
def runOpened (centre : HeadPoint) (delta : Nat) (p : Plant) : Plant :=
  { p with
    smp := (cancelDwell .pke p).smp, pnt := { p.pnt with record := p.pnt.record.map fun r => { r with roundCount := 0 } }, run := openedRun centre delta,
    monitor := .cold }

/-- Both axes stay on the move list. -/
def bothListed : PointMoves := { moveList := [.pan, .tilt], blocked := false, barred := false }

/-- The requests of a point change posts and drives alone. -/
theorem requestPoint_onlyDrives (e : Env) (who : Requester) (x : HeadPoint) (p : Plant) : OnlyDrives p (requestPoint e who x p).1 := by
  have axis (a : Axis) (target : Int) (y : Plant × PointMoves) : OnlyDrives y.1 (requestPointAxis e who a target y).1 := by
    have asked := moveRequest_onlyDrives e (pointMove who a target none) y.1
    unfold requestPointAxis
    dsimp only
    split
    · exact .refl _
    · split <;> exact asked
  exact (axis .pan x.pan _).trans (axis .tilt x.tilt _)

/-- A run begun: the requests of its first point, and no other block but the sampler, the round count and the monitor. -/
theorem startRun_moving (still : cancelMoves e .pke pointAxes p = p) (listed : (requestPoint e .pke centre (runOpened centre delta p)).2 = bothListed) :
    ∃ posts axd, (requestPoint e .pke centre (runOpened centre delta p)).1 = { runOpened centre delta p with posts := posts, axd := axd } ∧
      startRun e centre delta p = { runOpened centre delta p with posts := posts, axd := axd, run := movingRun e centre delta } ∧
      noPostOf .dwell p (startRun e centre delta p) := by
  obtain ⟨smp, dwell⟩ := cancelDwell_rest .pke p
  have opened : startRun e centre delta p = runJobs e (16 * ((cfgOf e).roundLimit + 1) + 7 + 1) (.go .toPoint) (runOpened centre delta p) := by
    unfold startRun discardRun runOpened
    rw [still, dwell]
    rfl
  obtain ⟨posts, axd, rest⟩ := requestPoint_onlyDrives e .pke centre (runOpened centre delta p)
  have gone : startRun e centre delta p = { runOpened centre delta p with posts := posts, axd := axd, run := movingRun e centre delta } := by
    have staged : runStage .toPoint (runOpened centre delta p) = runOpened centre delta p := rfl
    have target : runTarget .toPoint (runOpened centre delta p).run = centre := rfl
    rw [opened]
    simp only [runJobs, runMoves, staged, target, listed, rest]
    rfl
  refine ⟨posts, axd, rest, gone, fun P hP h => ?_⟩
  have kept := requestPoint_noDwellReply (P := P) (fun k t x y dwell _ => hP k t x y dwell) e .pke centre (p := runOpened centre delta p) h
  rw [rest] at kept
  rw [gone]
  exact kept

/-- The pattern is left. -/
theorem startRun_pat (may : mayMoveToPoint e p centre) : (startRun e centre delta p).pat = p.pat := by
  obtain ⟨listed, -⟩ := requestPoint_moves (who := .pke) (p := runOpened centre delta p) may
  obtain ⟨_, _, -, begun, -⟩ := startRun_moving (delta := delta) (cancelMoves_rest .pke may) listed
  rw [begun]
  rfl

/-- PAN still STOPPING notes the requester and TILT accepts: both stay on the move list (R139, R151). -/
theorem requestPoint_panStopping {who : Requester} {x : HeadPoint} (stopping : (axisOf p .pan).state = .stopping) (out : .pan ∉ p.axd.waiting)
    (may : mayMoveTo e p .tilt x.tilt) :
    (requestPoint e who x p).2 = bothListed ∧ (axisOf (requestPoint e who x p).1 .pan).state = .stopping ∧
      movesTo who .headMove e (requestPoint e who x p).1 .tilt x.tilt := by
  have pan := moveRequest_stopping (e := e) (m := pointMove who .pan x.pan none) may.1 stopping
  have noted : axisOf (noteRequester who .pan p) .tilt = axisOf p .tilt := by simp [noteRequester]
  have mast : axisOf (noteRequester who .pan p) .mast = axisOf p .mast := by simp [noteRequester]
  have may' : mayMoveTo e (noteRequester who .pan p) .tilt x.tilt := mayMoveTo_kept may rfl noted (headFree_position (congrArg AxisRec.position mast))
  obtain ⟨⟨_, _, answer⟩, moves, -, -, others⟩ := moveRequest_moves (q := pointMove who .tilt x.tilt none) may'
  have both : requestPoint e who x p = ((moveRequest e (pointMove who .tilt x.tilt none) (noteRequester who .pan p)).1, bothListed) := by
    have first : requestPointAxis e who .pan x.pan (p, bothListed) = (noteRequester who .pan p, bothListed) := by
      unfold requestPointAxis
      rw [pan]
      rfl
    unfold requestPoint
    rw [show (⟨[.pan, .tilt], false, false⟩ : PointMoves) = bothListed from rfl, first]
    simp [requestPointAxis, answer, bothListed]
  rw [both]
  refine ⟨rfl, ?_, moves⟩
  rw [(others .pan (by simp [pointMove])).2 out]
  simp [noteRequester, stopping]

/-- A run begun while PAN comes to rest from an earlier move: TILT is on its way, and PAN follows when it is free (R81, R151). -/
theorem startRun_panStopping (stopping : (axisOf p .pan).state = .stopping) (out : .pan ∉ p.axd.waiting) (may : mayMoveTo e p .tilt centre.tilt) :
    (∃ posts axd, startRun e centre delta p = { runOpened centre delta p with posts := posts, axd := axd, run := movingRun e centre delta }) ∧
      (axisOf (startRun e centre delta p) .pan).state = .stopping ∧ movesTo .pke .headMove e (startRun e centre delta p) .tilt centre.tilt ∧
      noPostOf .dwell p (startRun e centre delta p) := by
  have still : cancelMoves e .pke pointAxes p = p := endMoves_of_ended (fun a m => by
    simp only [pointAxes, List.mem_cons, List.not_mem_nil, or_false] at m
    rcases m with rfl | rfl
    · rw [stopping]
      rfl
    · rw [may.2.1]
      rfl) _
  obtain ⟨listed, pan, tilt⟩ := requestPoint_panStopping (who := .pke) (p := runOpened centre delta p) (x := centre) stopping out may
  obtain ⟨posts, axd, rest, begun, after⟩ := startRun_moving (delta := delta) still listed
  rw [rest] at pan tilt
  refine ⟨⟨posts, axd, begun⟩, ?_, ?_, after⟩ <;> rw [begun]
  · exact pan
  · exact tilt

/-- PEAKING entered with its needs given. -/
theorem enterPeaking_may (may : activityMay e p) : enterPeaking e centre delta p = startRun e centre delta (setPointing e (.active .peaking) p) :=
  if_pos ((needsMet_iff (Or.inl rfl)).2 may)

end

end Sys2Proof.Machine
end

