-- ==== Sys2Proof/Proofs/SamplerSettle.lean ====
section
/-! PROOFS. The settle expiries that begin a measurement (R128, R140, R152, R155), and the mean of a search point, which ends the search or moves
the pattern on (R142, R143, R148) (O56). -/

namespace Sys2Proof.Machine

/-! ### A measurement begun (R66) -/

section
variable {e : Env} {p : Plant} {q : Requester}

/-- The sampler after a dwell is asked for: in LINKED source as it was. -/
def dwellAsked (e : Env) (q : Requester) (m : Sampler) : Sampler := (requestDwell e q { Plant.cold with smp := m }).smp

theorem requestDwell_asked (e : Env) (q : Requester) (p : Plant) : requestDwell e q p = { p with smp := dwellAsked e q p.smp } := by
  unfold dwellAsked requestDwell
  dsimp only
  split
  · rfl
  · repeat' split
    all_goals rfl

theorem dwellAsked_linked (source : (cfgOf e).source = .linked) (q : Requester) (m : Sampler) : dwellAsked e q m = m :=
  congrArg Plant.smp (if_pos (decide_eq_true source))

theorem dwellAsked_free (source : (cfgOf e).source = .localSource) {m : Sampler} (free : m.dwell = none) : dwellAsked e q m = dwellBegun e q m :=
  congrArg Plant.smp (requestDwell_free (p := { Plant.cold with smp := m }) source free)

theorem dwellAsked_own (source : (cfgOf e).source = .localSource) {m : Sampler} {d : Dwell} (active : m.dwell = some d) (own : d.requester = q) :
    dwellAsked e q m = dwellBegun e q m :=
  congrArg Plant.smp (requestDwell_own (p := { Plant.cold with smp := m }) source active own)

theorem dwellAsked_other (source : (cfgOf e).source = .localSource) {m : Sampler} {d : Dwell} (active : m.dwell = some d) (other : d.requester ≠ q) :
    dwellAsked e q m = dwellNoted q m :=
  congrArg Plant.smp (requestDwell_other (p := { Plant.cold with smp := m }) source active other)

/-- The settle time has passed. -/
theorem due_iff {s : State} {since : Clock} {wait : Nat} : due s since wait = true ↔ wait ≤ (s.clock - since).toNat := decide_eq_true_iff

/-- PNT's measurement at the preset: a change of phase alone posts nothing (R128, R134). -/
theorem presetMeasure_begun (settling : p.pnt.state = .active (.slewing .settle)) :
    presetMeasure e p = { p with smp := dwellAsked e .pnt p.smp, pnt := { p.pnt with state := .active (.slewing .measure) } } := by
  have phase : setPointing e (.active (.slewing .measure)) p = { p with pnt := { p.pnt with state := .active (.slewing .measure) } } := by
    unfold setPointing
    rw [settling]
    rfl
  unfold presetMeasure
  rw [phase]
  by_cases source : linked e = true
  · exact (if_pos source).trans (by rw [dwellAsked_linked (of_decide_eq_true source)])
  · exact (if_neg source).trans (requestDwell_asked ..)

/-- PAT's measurement at a search point (R140). -/
theorem patternMeasure_begun {y : Pattern} (pat : p.pat = some y) (short : (cfgOf e).source = .linked → y.measurement.count < (cfgOf e).peakN) :
    patternMeasure e p = { p with smp := dwellAsked e .pat p.smp, pat := some { y with status := .running .measure } } := by
  have stage : patternStage .measure p = { p with pat := some { y with status := .running .measure } } := by
    rw [patternStage, updatePattern, pat]
    rfl
  unfold patternMeasure
  rw [stage]
  by_cases source : linked e = true
  · refine (if_pos source).trans ?_
    rw [dwellAsked_linked (of_decide_eq_true source)]
    simp only [patternMeasured]
    rw [measuredLevel_short (Nat.not_le.2 (short (of_decide_eq_true source)))]
  · exact (if_neg source).trans (requestDwell_asked ..)

/-- Reports that have reached N hand their mean on at once (R141). -/
theorem patternMeasure_counted {y : Pattern} (pat : p.pat = some y) (source : (cfgOf e).source = .linked) (full : (cfgOf e).peakN ≤ y.measurement.count) :
    patternMeasure e p = handMean e .pat (meanOf y.measurement.sum (cfgOf e).peakN) { p with pat := some { y with status := .running .measure } } := by
  have stage : patternStage .measure p = { p with pat := some { y with status := .running .measure } } := by
    rw [patternStage, updatePattern, pat]
    rfl
  unfold patternMeasure
  rw [stage]
  refine (if_pos (decide_eq_true source)).trans ?_
  simp only [patternMeasured]
  rw [measuredLevel_full full]
  rfl

/-- PKE's measurement at a cross point or at the closing centre (R152, R155). -/
theorem runMeasure_begun {st : RunStage} (short : (cfgOf e).source = .linked → p.run.measurement.count < (cfgOf e).peakN) :
    runMeasure e st p = { p with smp := dwellAsked e .pke p.smp, run := { p.run with status := .running st } } := by
  unfold runMeasure
  by_cases source : linked e = true
  · refine (if_pos source).trans ?_
    rw [dwellAsked_linked (of_decide_eq_true source), runMeasured]
    rw [show measuredLevel e (runStage st p).run.measurement = none from measuredLevel_short (Nat.not_le.2 (short (of_decide_eq_true source)))]
    rfl
  · exact (if_neg source).trans (requestDwell_asked ..)

theorem runMeasure_counted {st : RunStage} (source : (cfgOf e).source = .linked) (full : (cfgOf e).peakN ≤ p.run.measurement.count) :
    runMeasure e st p = handMean e .pke (meanOf p.run.measurement.sum (cfgOf e).peakN) { p with run := { p.run with status := .running st } } := by
  refine (if_pos (decide_eq_true source)).trans ?_
  rw [runMeasured, show measuredLevel e (runStage st p).run.measurement = _ from measuredLevel_full full]
  rfl

end

/-! ### The expiries -/

section
variable {s : State} {since : Clock}

theorem exec_presetSettle (settling : s.plant.pnt.state = .active (.slewing .settle)) : exec .presetSettleExpiry s =
    if s.setup.cfg.settle ≤ (s.clock - s.plant.pnt.completedAt).toNat then .next (withPlant (presetMeasure (envOf s) s.plant) s) else .next s := by
  simp only [exec, execPresetSettleExpiry, settling, true_and, due_iff]

theorem exec_searchSettle {y : Pattern} (pat : s.plant.pat = some y) (settling : y.status = .running (.settle since)) : exec .searchSettleExpiry s =
    if s.setup.cfg.settle ≤ (s.clock - since).toNat then .next (withPlant (patternMeasure (envOf s) s.plant) s) else .next s := by
  have status : patternStatus s.plant = some (.running (.settle since)) := by rw [patternStatus, pat, ← settling]; rfl
  simp only [exec, execSearchSettleExpiry, status, due_iff]

theorem exec_crossSettle (settling : s.plant.run.status = .running (.settle since)) : exec .crossSettleExpiry s =
    if s.setup.cfg.settle ≤ (s.clock - since).toNat then .next (withPlant (runMeasure (envOf s) .measure s.plant) s) else .next s := by
  simp only [exec, execCrossSettleExpiry, settling, due_iff]

theorem exec_closingSettle (settling : s.plant.run.status = .running (.closeSettle since)) : exec .closingSettleExpiry s =
    if s.setup.cfg.settle ≤ (s.clock - since).toNat then .next (withPlant (runMeasure (envOf s) .closeMeasure s.plant) s) else .next s := by
  simp only [exec, execClosingSettleExpiry, settling, due_iff]

end

/-! ### The mean of a search point (R142, R143) -/

section
variable {e : Env} {p : Plant} {y : Pattern} {level : Int}

theorem patternMean_other (pat : p.pat = some y) (other : y.status ≠ .running .measure) : patternMean e level p = p := by
  unfold patternMean
  rw [pat]
  exact if_neg other

/-- At or above the floor the point is found. -/
theorem patternMean_high (pat : p.pat = some y) (measure : y.status = .running .measure) (high : (cfgOf e).floor ≤ level) :
    patternMean e level p = patternFound e y.targets level (postDwellHere e .search level p) := by
  unfold patternMean searchLevel
  rw [pat]
  exact (if_pos measure).trans (if_pos high)

/-- Below it the pattern advances. -/
theorem patternMean_low (pat : p.pat = some y) (measure : y.status = .running .measure) (low : level < (cfgOf e).floor) :
    patternMean e level p = patternJobs e (patternFuel e) .advance (postDwellHere e .search level p) := by
  unfold patternMean searchLevel
  rw [pat]
  exact (if_pos measure).trans (if_neg (Int.not_le.2 low))

variable {n : Nat}

theorem patternJobs_advance (pat : p.pat = some y) (within : y.point < y.points) :
    patternJobs e (n + 1) .advance p = patternJobs e n .go (updatePattern (fun z => { z with point := z.point + 1 }) p) := by
  simp only [patternJobs, pat]
  exact if_pos within

theorem patternJobs_rowDone (pat : p.pat = some y) (last : y.points ≤ y.point) : patternJobs e (n + 1) .advance p = patternJobs e n .rowEnd p := by
  simp only [patternJobs, pat]
  exact if_neg (Nat.not_lt.2 last)

theorem patternJobs_nextRow (pat : p.pat = some y) (more : y.row < y.rows) : patternJobs e (n + 1) .rowEnd p =
    patternJobs e n .go (updatePattern (fun z => { z with row := z.row + 1, point := 1 }) (takeRowEnd e y.row y.pass p)) := by
  simp only [patternJobs, pat]
  exact if_pos more

theorem patternJobs_nextPass (pat : p.pat = some y) (last : y.rows ≤ y.row) (more : y.pass < y.passes) : patternJobs e (n + 1) .rowEnd p =
    patternJobs e n .go (updatePattern (fun z => { z with pass := z.pass + 1, row := 1, point := 1 }) (takeRowEnd e y.row y.pass p)) := by
  simp only [patternJobs, pat]
  exact (if_neg (Nat.not_lt.2 last)).trans (if_pos more)

theorem patternJobs_exhausted (pat : p.pat = some y) (lastRow : y.rows ≤ y.row) (lastPass : y.passes ≤ y.pass) : patternJobs e (n + 1) .rowEnd p =
    takeExhausted e (updatePattern (fun z => { z with status := .halted .exhausted }) (takeRowEnd e y.row y.pass p)) := by
  simp only [patternJobs, pat]
  exact (if_neg (Nat.not_lt.2 lastRow)).trans (if_neg (Nat.not_lt.2 lastPass))

/-- The pattern on its way to its current point. -/
def patternMoving (e : Env) (z : Pattern) : Pattern :=
  { z with
    status := .running (moveStage z), targets := clampPoint e (patternTarget z z.point), moveList := [.pan, .tilt], blocked := false, barred := false }

/-- The pattern goes to its current point with PAN and TILT at rest. -/
theorem patternJobs_moving (pat : p.pat = some y) (may : mayMoveToPoint e p (patternTarget y y.point)) :
    (patternJobs e (n + 1) .go p).pat = some (patternMoving e y) ∧ moveToPoint .pat e (patternJobs e (n + 1) .go p) (patternTarget y y.point) ∧
      (patternJobs e (n + 1) .go p).pnt = p.pnt ∧ noPostOf .dwell p (patternJobs e (n + 1) .go p) := by
  obtain ⟨moves, -, -, _, _, gone⟩ := patternJobs_go (n := n) pat may
  refine ⟨?_, moves, ?_, fun P hP h => patternJobs_go_noDwellReply (fun k t x y dwell _ => hP k t x y dwell) pat may h⟩ <;> rw [gone]
  rfl

theorem takeRowEnd_noDwell (row pass : Nat) : noPostOf .dwell p (takeRowEnd e row pass p) := fun _ hP h => hP _ _ _ _ (by simp) h

/-- The row end is no part of the pointing position. -/
theorem pointingTarget_rowEnd (row pass : Nat) (a : Axis) : pointingTarget e (takeRowEnd e row pass p) a = pointingTarget e p a := by
  have record : (takeRowEnd e row pass p).pnt.record = p.pnt.record.map fun r => { r with rowEnd := row, passEnd := pass } := rfl
  unfold pointingTarget
  rw [record]
  cases p.pnt.record <;> rfl

/-- The head sent back with every head axis at rest (R129, R148). -/
theorem enterReturn_begun (sound : arbiterSound p = true) (may : ∀ a, a ≠ .mast → mayMoveTo e p a (pointingTarget e p a)) :
    (enterReturn e p).pat = p.pat ∧ (enterReturn e p).pnt = { p.pnt with state := .active (.acquiring .back), slewList := headAxes } ∧
      (∀ a, a ≠ .mast → movesTo .pnt .headMove e (enterReturn e p) a (pointingTarget e p a)) ∧ noPostOf .dwell p (enterReturn e p) := by
  obtain ⟨posts, set⟩ := setPointing_rest e (.active (.acquiring .back)) p
  have heads (a : Axis) : a ∈ headAxes ↔ a ≠ .mast := by cases a <;> decide
  have asks : ∀ a ∈ headAxes, a ≠ .mast ∧ a ∉ p.axd.waiting ∧ mayMoveTo e p a (pointingTarget e p a) := fun a m =>
    have ne := (heads a).1 m
    ⟨ne, not_waiting sound (by rw [(may a ne).2.1]; exact AxisState.noConfusion), may a ne⟩
  generalize begun : ({ setPointing e (.active (.acquiring .back)) p with
    pnt := { (setPointing e (.active (.acquiring .back)) p).pnt with slewList := headAxes } } : Plant) = r
  have opened : enterReturn e p = slewRequests e headAxes r := by rw [← begun]; rfl
  rw [set] at begun
  obtain ⟨⟨_, _, rest⟩, -, moves⟩ := slewRequests_moves (p := r) headAxes (by decide) (by rw [← begun]; exact asks)
  refine ⟨?_, ?_, fun a ne => ?_, fun P hP h => enterReturn_noDwellReply (fun k t x y dwell _ => hP k t x y dwell) e h⟩
  · rw [opened, rest, ← begun]
  · rw [opened, rest, ← begun]
  · have move := moves a ((heads a).2 ne)
    rw [← opened, ← begun] at move
    exact move

theorem takeFound_search {x : HeadPoint} (searching : p.pnt.state = .active (.acquiring .search)) : takeFound e x p = enterPeaking e x (cfgOf e).delta0 p := by
  unfold takeFound
  rw [searching]

theorem takeExhausted_search (searching : p.pnt.state = .active (.acquiring .search)) : takeExhausted e p = enterReturn e p := by
  unfold takeExhausted
  rw [searching]

/-- The found point: the pattern HALTED with it and a run begun from it (R142, R129, R150). -/
theorem patternFound_begun {x : HeadPoint} (pat : p.pat = some y) (searching : p.pnt.state = .active (.acquiring .search)) (needs : activityMay e p)
    (may : mayMoveToPoint e p x) :
    noPostOf .dwell p (patternFound e x level p) ∧ (patternFound e x level p).pnt.state = .active .peaking ∧
      runBegun e x (cfgOf e).delta0 (patternFound e x level p) ∧
      (patternFound e x level p).pat = some { y with status := .halted .found, moveList := [], found := some { point := x, level := level } } := by
  generalize halted : updatePattern (fun z => { z with status := .halted .found, moveList := [], found := some { point := x, level := level } }) p = r
  have found : patternFound e x level p = enterPeaking e x (cfgOf e).delta0 r := by
    rw [← halted]
    exact takeFound_search searching
  have mayR : mayMoveToPoint e r x := by rw [← halted]; exact may
  have needsR : activityMay e r := by rw [← halted]; exact needs
  obtain ⟨posts, active, -⟩ := enterPeaking_begun (delta := (cfgOf e).delta0) mayR
  obtain ⟨state, run⟩ := active needsR
  obtain ⟨_, set⟩ := setPointing_rest e (.active .peaking) r
  rw [found]
  refine ⟨by rw [← halted] at posts ⊢; exact posts, state, run, ?_⟩
  rw [enterPeaking_may needsR, startRun_pat (mayMoveToPoint_setPointing _ mayR), set, ← halted, updatePattern_pat, pat]
  rfl

end

/-- Settles O56: each expiry by its measurement begun or counted, and the mean by `patternFound`, the next point, row or pass, or the return. -/
theorem aSettleExpiryBeginsTheMeasurement : Obligations.ASettleExpiryBeginsTheMeasurement := by
  refine ⟨fun s => ?_, fun e level p y pat => ?_⟩
  · intro p c passed fresh noted asked judged counted mean handed
    have asks (q : Requester) (m : Measurement) : asked q m p.smp (dwellAsked (envOf s) q p.smp) :=
      ⟨fun source free => dwellAsked_free (e := envOf s) source free, fun d source active own => dwellAsked_own (e := envOf s) source active own,
        fun d source active other => dwellAsked_other (e := envOf s) source active other, fun source _ => dwellAsked_linked (e := envOf s) source q p.smp⟩
    refine ⟨fun settling => ?_, fun y since pat settling => ?_, fun since settling => ?_, fun since settling => ?_⟩
    · rw [exec_presetSettle settling]
      refine ⟨fun early => if_neg early, fun late _ => ⟨_, asks .pnt _, ?_⟩⟩
      rw [if_pos late, presetMeasure_begun settling]
      rfl
    · rw [exec_searchSettle pat settling]
      refine ⟨fun early => if_neg early, fun late short => ⟨_, asks .pat _, ?_⟩, fun late full => ?_⟩
      · rw [if_pos late, patternMeasure_begun (e := envOf s) pat short]
        rfl
      · rw [if_pos late, patternMeasure_counted (e := envOf s) pat full.1 full.2]
        rfl
    · rw [exec_crossSettle settling]
      refine ⟨fun early => if_neg early, fun late short => ⟨_, asks .pke _, ?_⟩, fun late full => ?_⟩
      · rw [if_pos late, runMeasure_begun (e := envOf s) (p := s.plant) short]
        rfl
      · rw [if_pos late, runMeasure_counted (e := envOf s) full.1 full.2]
        rfl
    · rw [exec_closingSettle settling]
      refine ⟨fun early => if_neg early, fun late short => ⟨_, asks .pke _, ?_⟩, fun late full => ?_⟩
      · rw [if_pos late, runMeasure_begun (e := envOf s) (p := s.plant) short]
        rfl
      · rw [if_pos late, runMeasure_counted (e := envOf s) full.1 full.2]
        rfl
  · intro c q goesTo may rowEnded
    generalize posted : postDwellHere e .search level p = p1
    have pat1 : p1.pat = some y := by rw [← posted]; exact pat
    have goes {n : Nat} {r : Plant} {z : Pattern} (taken : q = patternJobs e (n + 1) .go r) (found : r.pat = some z)
        (mayZ : mayMoveToPoint e r (patternTarget z z.point)) (posts : noPostOf .dwell p1 r) : dwellPosted .search level p q ∧ goesTo z ∧ q.pnt = r.pnt := by
      obtain ⟨moving, moves, pnt, after⟩ := patternJobs_moving (n := n) found mayZ
      rw [← taken] at moving moves pnt after
      exact ⟨post_payload .refl (posted ▸ posts.trans after), ⟨moving, moves⟩, pnt⟩
    refine ⟨fun other => patternMean_other pat other, fun measure => ⟨fun high searching needs mayPoint => ?_, fun low within mayNext => ?_, fun low last => ?_⟩⟩
    · have taken : q = patternFound e y.targets level (postDwellHere e .search level p) := patternMean_high pat measure high
      obtain ⟨posts, state, run, halted⟩ := patternFound_begun (p := postDwellHere e .search level p) (level := level) pat searching needs mayPoint
      rw [taken]
      exact ⟨post_payload .refl posts, state, run, halted⟩
    · have taken : q = patternJobs e (patternFuel e) .advance p1 := posted ▸ patternMean_low pat measure low
      obtain ⟨post, go, pnt⟩ := goes (taken.trans (patternJobs_advance pat1 within)) (by rw [updatePattern_pat, pat1]; rfl)
        (by rw [← posted]; exact mayNext) (fun _ _ h => h)
      exact ⟨post, go, by rw [pnt, ← posted]; rfl⟩
    · have taken : q = patternJobs e (4 * (cfgOf e).passes * (cfgOf e).rows * ((cfgOf e).points + 1) + 6 + 1) .rowEnd p1 :=
        (posted ▸ patternMean_low pat measure low : q = patternJobs e (patternFuel e) .advance p1).trans (patternJobs_rowDone pat1 last)
      have found : (takeRowEnd e y.row y.pass p1).pat = some y := pat1
      have posts := takeRowEnd_noDwell (e := e) (p := p1) y.row y.pass
      refine ⟨fun more mayNext => ?_, fun lastRow more mayNext => ?_, fun lastRow lastPass searching sound mayHome => ?_⟩
      · obtain ⟨post, go, pnt⟩ := goes (taken.trans (patternJobs_nextRow pat1 more)) (by rw [updatePattern_pat, found]; rfl)
          (by rw [← posted]; exact mayNext) posts
        exact ⟨post, go, (congrArg Pointing.record pnt).trans (by rw [← posted]; rfl)⟩
      · obtain ⟨post, go, pnt⟩ := goes (taken.trans (patternJobs_nextPass pat1 lastRow more)) (by rw [updatePattern_pat, found]; rfl)
          (by rw [← posted]; exact mayNext) posts
        exact ⟨post, go, (congrArg Pointing.record pnt).trans (by rw [← posted]; rfl)⟩
      · generalize halted : updatePattern (fun z => { z with status := .halted .exhausted }) (takeRowEnd e y.row y.pass p1) = r
        have home (a : Axis) : pointingTarget e r a = pointingTarget e p a := by
          rw [← halted, ← posted]
          exact pointingTarget_rowEnd y.row y.pass a
        have returns : q = enterReturn e r := by
          rw [taken, patternJobs_exhausted pat1 lastRow lastPass, halted]
          exact takeExhausted_search (by rw [← halted, ← posted]; exact searching)
        obtain ⟨left, pnt, moves, after⟩ := enterReturn_begun (e := e) (p := r) (by rw [← halted, ← posted]; exact sound)
          (fun a ne => by rw [home, ← halted, ← posted]; exact mayHome a ne)
        rw [← returns] at left pnt moves after
        have ended : noPostOf .dwell p1 r := by rw [← halted]; exact posts
        refine ⟨post_payload .refl (posted ▸ ended.trans after), ?_, ?_, ?_, fun a ne => ?_⟩
        · exact (congrArg Pointing.record pnt).trans (by rw [← halted, ← posted]; rfl)
        · rw [left, ← halted, updatePattern_pat, found]
          rfl
        · exact congrArg Pointing.state pnt
        · rw [← home]
          exact moves a ne

end Sys2Proof.Machine
end

