-- ==== Sys2Proof/Proofs/SamplerScan.lean ====
section
/-! PROOFS. A scan conversion that no watch follows (O40): the result stored and, for a pilot level, the history (R63, R65); the next conversion
(R62, R67); and the level that ends a sweep (R145, R129, R150). -/

namespace Sys2Proof.Machine

/-! ### The result and the next conversion -/

section
variable {e : Env} {p : Plant} {channel : Nat} {result : Count}

theorem isPilot_iff : isPilot e channel = true ↔ (cfgOf e).source = .localSource ∧ channel = (cfgOf e).pilot := by
  have source : linked e = false ↔ (cfgOf e).source = .localSource := by
    cases h : (cfgOf e).source <;> simp [linked, h]
  simp [isPilot, source]

theorem scanRound_eq_nil_iff : scanRound e = [] ↔ (cfgOf e).enabled = 0 := by
  refine ⟨fun none => by_contra fun enabled => scanRound_ne_nil enabled none, fun zero => ?_⟩
  simp [scanRound, zero]

/-- While a dwell is active its conversion follows a scan (R67). -/
theorem beginConversion_dwell {m : Sampler} {d : Dwell} (active : m.dwell = some d) :
    beginConversion e true m = { m with converter := some { channel := (cfgOf e).pilot, purpose := .dwell d.identity } } := by
  unfold beginConversion
  split
  · rename_i found
    cases active.symm.trans found
    rfl
  · rename_i other
    exact (other d rfl active).elim

/-- The conversion that follows a scan with no dwell active: none without an enabled channel (R62). -/
def nextScan (e : Env) (m : Sampler) : Option Conversion := if (cfgOf e).enabled = 0 then none else some { channel := m.scanPointer, purpose := .scan }

theorem beginConversion_free {m : Sampler} (free : m.dwell = none) : beginConversion e true m =
    { m with converter := nextScan e m, scanPointer := if nextScan e m = none then m.scanPointer else nextChannel e m.scanPointer } := by
  have chosen : beginConversion e true m = if scanRound e = [] then { m with converter := none } else
      { m with converter := some { channel := m.scanPointer, purpose := .scan }, scanPointer := nextChannel e m.scanPointer } := by
    unfold beginConversion
    split
    · rename_i found
      cases free.symm.trans found
    · rfl
  rw [chosen]
  by_cases zero : (cfgOf e).enabled = 0
  · have next : nextScan e m = none := if_pos zero
    rw [if_pos (scanRound_eq_nil_iff.2 zero), next, if_pos rfl]
  · have next : nextScan e m = some { channel := m.scanPointer, purpose := .scan } := if_neg zero
    rw [if_neg fun h => zero (scanRound_eq_nil_iff.1 h), next, if_neg (Option.some_ne_none _)]

/-- A result that no watch follows and that is no pilot level is stored (R63). -/
theorem scanResult_stored (unwatched : ∀ w ∈ (cfgOf e).watches, w.channel = channel → w.action = .none) (plain : isPilot e channel = false) :
    scanResult e channel result p = { p with smp := storeResult channel result p.smp } :=
  (scanResult_plain plain).trans (runWatches_none unwatched result)

/-- A pilot level with no dwell active joins the history and is handed on (R63, R65). -/
theorem scanResult_joins (unwatched : ∀ w ∈ (cfgOf e).watches, w.channel = channel → w.action = .none) (pilot : isPilot e channel = true)
    (free : p.smp.dwell = none) : scanResult e channel result p =
      handLevel e (pilotLevel e result) { p with smp := ringWrite (pilotLevel e result) (storeResult channel result p.smp) } := by
  have taken : takeResult e channel result p = { p with smp := storeResult channel result p.smp } := runWatches_none unwatched result
  unfold scanResult
  rw [taken]
  exact (if_pos pilot).trans (congrArg (handLevel e (pilotLevel e result)) (if_pos free))

/-- With a dwell active it is handed on alone (R63). -/
theorem scanResult_busy (unwatched : ∀ w ∈ (cfgOf e).watches, w.channel = channel → w.action = .none) (pilot : isPilot e channel = true) {d : Dwell}
    (active : p.smp.dwell = some d) :
    scanResult e channel result p = handLevel e (pilotLevel e result) { p with smp := storeResult channel result p.smp } := by
  have taken : takeResult e channel result p = { p with smp := storeResult channel result p.smp } := runWatches_none unwatched result
  unfold scanResult
  rw [taken]
  exact (if_pos pilot).trans (congrArg (handLevel e (pilotLevel e result)) (if_neg fun free => Option.some_ne_none d (active.symm.trans free)))

end

/-! ### The level that ends a sweep (R145) -/

/-- With no dwell active a cancellation ends a wait (R69). -/
theorem cancelDwell_free {p : Plant} {q : Requester} (free : p.smp.dwell = none) :
    (cancelDwell q p).smp = { p.smp with noted := removeAll p.smp.noted q } := by
  unfold cancelDwell
  dsimp only
  rw [free]

/-- The found point of a sweep: the PAN position last read, and the row's tilt target. -/
def sweepPoint (e : Env) (x : Pattern) (p : Plant) : HeadPoint := { pan := clampSoft e .pan (positionOrZero p .pan), tilt := x.targets.tilt }

/-- What a level at or above the floor makes of a plant whose pattern `x` sweeps with TILT ready. -/
structure SweepEnded (e : Env) (x : Pattern) (level : Int) (p q : Plant) : Prop where
  posted : postedWith .dwell (dwellPayload .search (sweepPoint e x p).pan (sweepPoint e x p).tilt level) p q
  rest : q = { p with
    posts := q.posts, axd := q.axd, run := q.run, monitor := .cold, smp := { p.smp with sweepHanding := false, noted := removeAll p.smp.noted .pke },
    pat := some { x with status := .halted .found, moveList := [], found := some { point := sweepPoint e x p, level := level } },
    pnt := { p.pnt with state := .active .peaking, record := p.pnt.record.map fun r => { r with roundCount := 0 } } }
  run : q.run = movingRun e (sweepPoint e x p) (cfgOf e).delta0
  pan : (axisOf q .pan).state = .stopping
  tilt : movesTo .pke .headMove e q .tilt x.targets.tilt

section
variable {e : Env} {p : Plant} {x : Pattern} {level : Int}

/-- The sweep's move on PAN ended, its grant handed out: PAN stops, TILT is as it was, and the head may move as before. -/
theorem cancelSweep_stops (sound : arbiterSound p = true) (moving : (axisOf p .pan).state = .moving) (own : carriesMove (axisOf p .pan) .pat = true) {target : Int}
    (may : mayMoveTo e p .tilt target) :
    (axisOf (cancelMove e .pat .pan p) .pan).state = .stopping ∧ .pan ∉ (cancelMove e .pat .pan p).axd.waiting ∧
      mayMoveTo e (cancelMove e .pat .pan p) .tilt target := by
  have listed := listedWait_of_sound sound
  obtain ⟨stopping, out⟩ := endMoves_picked e (fun r => carriesMove r .pat) (l := [.pan]) (by decide) (by decide) own (listed .pan)
  rw [moving] at stopping
  have tilt := (endMoves_notMem e (fun r => carriesMove r .pat) (l := [.pan]) (b := .tilt) (by decide) p).2
    (not_waiting sound (by rw [may.2.1]; exact AxisState.noConfusion))
  exact ⟨stopping, out, mayMoveTo_kept may (endMoves_onlyDrives e _ [.pan] p).aut tilt (headFree_position (endMoves_position e _ [.pan] .mast p))⟩

theorem sweepLevel_ended (pat : p.pat = some x) (sweeping : x.status = .running .sweep) (high : (cfgOf e).floor ≤ level)
    (searching : p.pnt.state = .active (.acquiring .search)) (needs : activityMay e p) (sound : arbiterSound p = true) (free : p.smp.dwell = none)
    (moving : (axisOf p .pan).state = .moving) (own : carriesMove (axisOf p .pan) .pat = true) (may : mayMoveTo e p .tilt x.targets.tilt) :
    SweepEnded e x level p (sweepLevel e level p) := by
  obtain ⟨stopping, out, mayTilt⟩ := cancelSweep_stops (p := setHanding false p) sound moving own may
  have before : Evolves e p (cancelMove e .pat .pan (setHanding false p)) := cancelMove_evolves (.inner .refl _ _ _ _ _ _ _) _ _
  obtain ⟨posts1, axd1, cancelled⟩ := endMoves_onlyDrives e (fun r => carriesMove r .pat) [.pan] (setHanding false p)
  have opened : sweepLevel e level p = patternFound e (sweepPoint e x p) level
      (postDwell e .search (sweepPoint e x p).pan (sweepPoint e x p).tilt level (cancelMove e .pat .pan (setHanding false p))) := by
    unfold sweepLevel
    rw [pat]
    exact if_pos ⟨sweeping, high⟩
  have cancelled' : cancelMove e .pat .pan (setHanding false p) = { setHanding false p with posts := posts1, axd := axd1 } := cancelled
  generalize cancelMove e .pat .pan (setHanding false p) = q at stopping out mayTilt before cancelled' opened
  generalize halted : updatePattern (fun y => { y with status := .halted .found, moveList := [], found := some { point := sweepPoint e x p, level := level } })
    (postDwell e .search (sweepPoint e x p).pan (sweepPoint e x p).tilt level q) = r at opened
  obtain ⟨posts2, set⟩ := setPointing_rest e (.active .peaking) r
  have begun : sweepLevel e level p = startRun e (sweepPoint e x p) (cfgOf e).delta0 (setPointing e (.active .peaking) r) := by
    rw [opened, patternFound, halted, takeFound_search (by rw [← halted, cancelled']; exact searching)]
    exact enterPeaking_may (by rw [← halted, cancelled']; exact needs)
  obtain ⟨⟨posts3, axd3, run⟩, pan, tilt, after⟩ := startRun_panStopping (e := e) (centre := sweepPoint e x p) (delta := (cfgOf e).delta0)
    (p := setPointing e (.active .peaking) r) (by rw [set, ← halted]; exact stopping) (by rw [set, ← halted]; exact out) (by rw [set, ← halted]; exact mayTilt)
  rw [← begun] at run pan tilt after
  have noDwell : noPostOf .dwell (postDwell e .search (sweepPoint e x p).pan (sweepPoint e x p).tilt level q) (sweepLevel e level p) := by
    have written : noPostOf .dwell (postDwell e .search (sweepPoint e x p).pan (sweepPoint e x p).tilt level q) r := by
      rw [← halted]
      exact fun _ _ h => h
    exact (written.trans (setPointing_noDwell _)).trans after
  refine ⟨post_payload before noDwell, ?_, by rw [run], pan, tilt⟩
  have noted : (cancelDwell .pke (setPointing e (.active .peaking) r)).smp = { p.smp with sweepHanding := false, noted := removeAll p.smp.noted .pke } := by
    rw [cancelDwell_free (by rw [set, ← halted, cancelled']; exact free), set, ← halted, cancelled']
    rfl
  rw [run, runOpened, noted, set, ← halted, cancelled', updatePattern]
  simp only [setHanding, pat]
  rfl

end

/-- A sweep to which levels are handed takes them. -/
theorem handLevel_sweep {e : Env} {p : Plant} (handing : p.smp.sweepHanding = true) (level : Int) : handLevel e level p = sweepLevel e level p := if_pos handing

/-- Settles O40: the result by `scanResult`, the next conversion by `beginConversion`, the end of a sweep by `sweepLevel_ended`. -/
theorem aScanResultIsStoredAndTheScanGoesOn : Obligations.AScanResultIsStoredAndTheScanGoesOn := by
  intro s channel result c m pilot level joins stored ringed floorReached converter unwatched
  have pilots : isPilot (envOf s) channel = true ↔ pilot := isPilot_iff
  have goesOn {q : Plant} (served : scanResult (envOf s) channel result s.plant = q) := exec_scanConversion converter served
  refine ⟨fun below => ⟨fun join => ?_, fun d active => ?_, fun other free enabled => ?_⟩, fun x join handing pat sweeping high enabled searching needs sound moving own may => ?_⟩
  · have kept : handLevel (envOf s) level { s.plant with smp := ringed } = { s.plant with smp := ringed } :=
      handLevel_kept fun handing x pat sweeping => Int.not_le.1 fun high => below ⟨join.1, handing, x, pat, sweeping, high⟩
    refine ⟨nextScan (envOf s) m, ?_, rfl⟩
    rw [goesOn ((scanResult_joins (e := envOf s) unwatched (pilots.2 join.1) join.2).trans kept), beginConversion_free (e := envOf s) (m := ringed) join.2]
    rfl
  · have served : scanResult (envOf s) channel result s.plant = { s.plant with smp := stored } := by
      by_cases ofPilot : pilot
      · refine (scanResult_busy (e := envOf s) unwatched (pilots.2 ofPilot) active).trans (handLevel_kept fun handing x pat sweeping => ?_)
        exact Int.not_le.1 fun high => below ⟨ofPilot, handing, x, pat, sweeping, high⟩
      · exact scanResult_stored (e := envOf s) unwatched (Bool.eq_false_iff.2 fun h => ofPilot (pilots.1 h))
    rw [goesOn served, beginConversion_dwell (m := stored) active]
    rfl
  · have plain : isPilot (envOf s) channel = false := Bool.eq_false_iff.2 fun h => other ⟨pilots.1 h, free⟩
    have next : nextScan (envOf s) stored = some { channel := m.scanPointer, purpose := .scan } := if_neg enabled
    have served : scanResult (envOf s) channel result s.plant = { s.plant with smp := stored } := scanResult_stored (e := envOf s) unwatched plain
    rw [goesOn served, beginConversion_free (m := stored) free, next]
    rfl
  · intro point
    have ended := sweepLevel_ended (e := envOf s) (p := { s.plant with smp := ringed }) (level := level) pat sweeping high searching needs sound join.2 moving own may
    have served := (scanResult_joins (e := envOf s) unwatched (pilots.2 join.1) join.2).trans (handLevel_sweep (e := envOf s) (p := { s.plant with smp := ringed }) handing level)
    rw [goesOn served]
    generalize sweepLevel (envOf s) level { s.plant with smp := ringed } = q at ended
    obtain ⟨posted, rest, run, pan, tilt⟩ := ended
    have next : nextScan (envOf s) q.smp = some { channel := m.scanPointer, purpose := .scan } := by
      rw [rest]
      exact if_neg enabled
    have smp : beginConversion (envOf s) true q.smp = _ := beginConversion_free (e := envOf s) (by rw [rest]; exact join.2)
    refine ⟨_, rfl, rfl, posted, ?_, ?_, ?_, ?_, ?_, ?_, ?_, ?_, pan, tilt⟩
    · refine smp.trans ?_
      rw [next, rest]
      rfl
    · rw [withPlant_plant, rest]; rfl
    · rw [withPlant_plant, rest]
    · rw [withPlant_plant, run]; rfl
    · rw [withPlant_plant, run]; rfl
    · rw [withPlant_plant, run]; rfl
    · rw [withPlant_plant, run]; rfl
    · rw [withPlant_plant, run]; rfl

end Sys2Proof.Machine
end

