-- ==== Sys2Proof/Proofs/SamplerAimJudge.lean ====
section
/-! PROOFS. How an AIM is judged (R122): its refusals in order, the pan candidate nearest the position (R125), and the record and the verdict of
one that is taken (R124, R126, R57). -/

namespace Sys2Proof.Machine

theorem mem_headAxes {a : Axis} : a ∈ headAxes ↔ a ≠ .mast := by cases a <;> decide

theorem headAxes_any {f : Axis → Bool} : headAxes.any f = true ↔ ∃ a, a ≠ .mast ∧ f a = true := by simp only [List.any_eq_true, mem_headAxes]

theorem headAxes_none {f : Axis → Bool} (none : ∀ a, a ≠ .mast → f a = false) : headAxes.any f = false :=
  Bool.eq_false_iff.2 fun h => by
    obtain ⟨a, head, is⟩ := headAxes_any.1 h
    exact Bool.noConfusion ((none a head).symm.trans is)

/-! ### The refusals in order (R122 steps 1 to 6) -/

/-- Bearing and elevation within their ranges. -/
def aimInside (a : AimOperands) : Prop := a.bearing < 36000 ∧ -2000 ≤ a.elevation ∧ a.elevation ≤ 9000

/-- The permissives an AIM needs, lowest code first. -/
def aimPermissives : List Permissive := [.brakeSet, .headingOk, .windMoveOk]

section
variable {e : Env} {p : Plant} {a : AimOperands}

theorem aimMast_iff : aimMast e p = true ↔
    (∃ target direction, p.msq.state = .raising target direction) ∨ ((p.msq.state = .raised ∨ ∃ cause, p.msq.state = .halted cause) ∧ headFree e p = true) := by
  unfold aimMast
  cases p.msq.state <;> simp

theorem aimRefusal_range (out : ¬ aimInside a) : aimRefusal e p a = some (refuse .range 0) := by
  refine if_pos ?_
  unfold aimInside at out
  omega

/-- Within the ranges the permissives are judged next. -/
theorem aimRefusal_inside (inside : aimInside a) : aimRefusal e p a = match lowestMissing p aimPermissives with
    | some x => some (refusePermissive x)
    | none => if aimMast e p = false then some (refuse .state 0)
      else if headAxes.any (isHeld p) then some (refuseFault p) else if headJogged p then some (refuse .state 0) else none := by
  refine (if_neg ?_).trans rfl
  unfold aimInside at inside
  omega

theorem aimRefusal_permissive (inside : aimInside a) {x : Permissive} (missing : lowestMissing p aimPermissives = some x) :
    aimRefusal e p a = some (refusePermissive x) := by
  rw [aimRefusal_inside inside, missing]

/-- With the permissives given the mast, the faults and a JOG are judged in turn. -/
theorem aimRefusal_permitted (inside : aimInside a) (permitted : ∀ z ∈ aimPermissives, given p z = true) : aimRefusal e p a =
    if aimMast e p = false then some (refuse .state 0)
    else if headAxes.any (isHeld p) then some (refuseFault p) else if headJogged p then some (refuse .state 0) else none := by
  have none : lowestMissing p aimPermissives = Option.none := List.find?_eq_none.2 fun z m => by simp [permitted z m]
  rw [aimRefusal_inside inside, none]

theorem aimRefusal_mast (inside : aimInside a) (permitted : ∀ z ∈ aimPermissives, given p z = true) (down : aimMast e p = false) :
    aimRefusal e p a = some (refuse .state 0) := (aimRefusal_permitted inside permitted).trans (if_pos down)

theorem aimRefusal_up (inside : aimInside a) (permitted : ∀ z ∈ aimPermissives, given p z = true) (up : aimMast e p = true) : aimRefusal e p a =
    if headAxes.any (isHeld p) then some (refuseFault p) else if headJogged p then some (refuse .state 0) else none :=
  (aimRefusal_permitted inside permitted).trans (if_neg (by simp [up]))

theorem aimRefusal_held (inside : aimInside a) (permitted : ∀ z ∈ aimPermissives, given p z = true) (up : aimMast e p = true)
    (held : headAxes.any (isHeld p) = true) : aimRefusal e p a = some (refuseFault p) := (aimRefusal_up inside permitted up).trans (if_pos held)

theorem aimRefusal_jogged (inside : aimInside a) (permitted : ∀ z ∈ aimPermissives, given p z = true) (up : aimMast e p = true)
    (free : headAxes.any (isHeld p) = false) (jogged : headJogged p = true) : aimRefusal e p a = some (refuse .state 0) :=
  (aimRefusal_up inside permitted up).trans ((if_neg (by simp [free])).trans (if_pos jogged))

theorem aimRefusal_none (inside : aimInside a) (permitted : ∀ z ∈ aimPermissives, given p z = true) (up : aimMast e p = true)
    (free : headAxes.any (isHeld p) = false) (jogged : headJogged p = false) : aimRefusal e p a = none :=
  (aimRefusal_up inside permitted up).trans ((if_neg (by simp [free])).trans (if_neg (by simp [jogged])))

end

/-! ### The pan candidate (R125) -/

theorem panBetter_iff {position x y : Int} : panBetter position x y = true ↔
    (x - position).natAbs < (y - position).natAbs ∨ ((x - position).natAbs = (y - position).natAbs ∧ x.natAbs < y.natAbs) := by
  simp [panBetter]

theorem panBetter_irrefl (position x : Int) : panBetter position x x = false := by simp [panBetter]

theorem panBetter_asymm {position x y : Int} (h : panBetter position x y = true) : panBetter position y x = false := by
  rw [Bool.eq_false_iff, Ne, panBetter_iff]
  rw [panBetter_iff] at h
  omega

/-- The better of the best candidate so far and the next one. -/
def pickPan (position : Int) (best : Option Int) (x : Int) : Option Int :=
  match best with
  | none => some x
  | some y => if panBetter position x y then some x else some y

/-- A candidate that beats every other, or stands first and is beaten by none, is picked. -/
theorem foldl_pickPan {position k : Int} {l : List Int} : ∀ {b : Int}, (k = b ∨ k ∈ l) →
    (∀ y ∈ b :: l, y = k ∨ panBetter position k y = true ∨ (k = b ∧ panBetter position y k = false)) → l.foldl (pickPan position) (some b) = some k := by
  induction l with
  | nil => exact fun mem _ => congrArg some ((mem.resolve_right List.not_mem_nil).symm)
  | cons x l ih =>
    intro b mem wins
    rw [List.foldl_cons]
    by_cases first : k = b
    · subst first
      have kept : panBetter position x k = false := by
        rcases wins x (by simp) with same | better | ⟨-, worse⟩
        · rw [same, panBetter_irrefl]
        · exact panBetter_asymm better
        · exact worse
      rw [show pickPan position (some k) x = some k from if_neg (by simp [kept])]
      exact ih (.inl rfl) fun y m => wins y (by rcases List.mem_cons.1 m with rfl | m <;> simp [*])
    · have beats : ∀ y ∈ b :: x :: l, y = k ∨ panBetter position k y = true := fun y m => (wins y m).imp_right fun h => h.resolve_right fun h => first h.1
      by_cases next : x = k
      · have better : panBetter position x b = true := next ▸ ((beats b (by simp)).resolve_left (Ne.symm first))
        rw [show pickPan position (some b) x = some x from if_pos better]
        exact ih (.inl next.symm) fun y m => (beats y (List.mem_cons_of_mem b (next ▸ m))).imp_right .inl
      · have later : k ∈ l := by
          rcases mem with h | h
          · exact absurd h first
          · exact List.mem_of_ne_of_mem (Ne.symm next) h
        have either : pickPan position (some b) x = some x ∨ pickPan position (some b) x = some b := by
          unfold pickPan
          dsimp only
          split
          · exact .inl rfl
          · exact .inr rfl
        rcases either with h | h <;> rw [h]
        · exact ih (.inr later) fun y m => (beats y (List.mem_cons_of_mem b m)).imp_right .inl
        · exact ih (.inr later) fun y m => (beats y (by rcases List.mem_cons.1 m with rfl | m <;> simp [*])).imp_right .inl

section
variable {e : Env} {position : Int} {rel : Nat}

theorem mem_panCandidates {k : Int} : k ∈ panCandidates e rel ↔
    k ∈ [(rel : Int) - 36000, rel, rel + 36000] ∧ (cfgOf e).pan.softMin ≤ k ∧ k ≤ (cfgOf e).pan.softMax := by
  simp only [panCandidates, List.mem_filter, Bool.and_eq_true, decide_eq_true_eq, List.mem_cons, List.not_mem_nil, or_false]
  constructor <;> rintro ⟨h, r⟩ <;> exact ⟨by tauto, r⟩

theorem panPreset_none (empty : ∀ k, k ∉ panCandidates e rel) : panPreset e position rel = none := by
  unfold panPreset
  rw [List.eq_nil_iff_forall_not_mem.2 empty]
  rfl

/-- The candidate nearest the position; of two as near the one of smaller absolute value, and of two alike in that too, rel. -/
theorem panPreset_nearest {k : Int} (legal : k ∈ panCandidates e rel) (nearest : ∀ y ∈ panCandidates e rel,
      (k - position).natAbs ≤ (y - position).natAbs ∧
        ((k - position).natAbs = (y - position).natAbs → k.natAbs ≤ y.natAbs ∧ (k.natAbs = y.natAbs → k = rel ∨ k = y))) :
    panPreset e position rel = some k := by
  have fold : panPreset e position rel = (panCandidates e rel).foldl (pickPan position) none := rfl
  have first : k = rel → ∃ rest, panCandidates e rel = k :: rest := fun same => by
    subst same
    exact ⟨_, List.filter_cons_of_pos (by simpa using (mem_panCandidates.1 legal).2)⟩
  have wins : ∀ y ∈ panCandidates e rel, y = k ∨ panBetter position k y = true ∨ (k = rel ∧ panBetter position y k = false) := fun y m => by
    obtain ⟨near, tie⟩ := nearest y m
    rw [Bool.eq_false_iff, Ne, panBetter_iff, panBetter_iff]
    omega
  rw [fold]
  cases all : panCandidates e rel with
  | nil => rw [all] at legal; cases legal
  | cons b l =>
    rw [all] at legal wins
    refine foldl_pickPan (List.mem_cons.1 legal) fun y m => (wins y m).imp_right fun h => h.imp_right fun h => ⟨?_, h.2⟩
    obtain ⟨rest, starts⟩ := first h.1
    rw [all] at starts
    exact (List.cons.inj starts).1.symm

end

/-! ### The preset, its record and its targets (R124, R126) -/

section
variable {e : Env} {p : Plant} {a : AimOperands} {k : Int}

theorem relativeBearing_eq (bearing heading : Nat) : (relativeBearing bearing heading : Int) = ((bearing : Int) - heading) % 36000 :=
  Int.toNat_of_nonneg (Int.emod_nonneg _ (by decide))

/-- TILT as an AIM asks for it, before the clamp: the elevation less the platform correction. -/
def aimTilt (p : Plant) (a : AimOperands) : Int := a.elevation - platformCorrection (basisOf p) (relativeBearing a.bearing (basisOf p).heading)

/-- The preset with pan candidate `k`. -/
def aimPreset (e : Env) (p : Plant) (a : AimOperands) (k : Int) : Preset :=
  { pan := k, tilt := clampSoft e .tilt (aimTilt p a), pol := clampSoft e .pol a.pol,
    clampedValue := if clampSoft e .tilt (aimTilt p a) ≠ aimTilt p a then some (clampSoft e .tilt (aimTilt p a))
      else if clampSoft e .pol a.pol ≠ a.pol then some (clampSoft e .pol a.pol) else none }

theorem presetOf_eq : presetOf e p a = (panPreset e (positionOrZero p .pan) (relativeBearing a.bearing (basisOf p).heading)).map (aimPreset e p a) := rfl

/-- The verdict on an AIM that is taken: CLAMPED with the tilt, or else the pol, when clamping changed it (R57, R126 step 3). -/
def aimVerdict (x : Preset) : Verdict :=
  match x.clampedValue with
  | some v => clampedTo v
  | none => accepted 0

theorem aimVerdict_taken (x : Preset) : (aimVerdict x).outcome ≠ .refused := by
  unfold aimVerdict
  split <;> exact ReplyOutcome.noConfusion

theorem aimVerdict_eq : aimVerdict (aimPreset e p a k) = if clampSoft e .tilt (aimTilt p a) ≠ aimTilt p a then clampedTo (clampSoft e .tilt (aimTilt p a))
    else if clampSoft e .pol a.pol ≠ a.pol then clampedTo (clampSoft e .pol a.pol) else accepted 0 := by
  by_cases tilt : clampSoft e .tilt (aimTilt p a) = aimTilt p a
  · by_cases pol : clampSoft e .pol a.pol = a.pol <;> simp [aimVerdict, aimPreset, tilt, pol]
  · simp [aimVerdict, aimPreset, tilt]

/-- The offsets are those of the record there was when KEEP_OFFSETS asks for them. -/
theorem aimOffsets_eq (keep : Bool) : aimOffsets p keep =
    (if keep then (p.pnt.record.map (·.panOffset)).getD 0 else 0, if keep then (p.pnt.record.map (·.tiltOffset)).getD 0 else 0) := by
  cases keep
  · rfl
  · cases recorded : p.pnt.record <;> simp [aimOffsets, recorded]

end

/-- The plant with this pointing record: where the targets are looked for (R121). -/
def recorded (r : PointingRecord) (p : Plant) : Plant := { p with pnt := { p.pnt with record := some r } }

theorem aimMeetsSwitch_iff {e : Env} {p : Plant} {r : PointingRecord} :
    aimMeetsSwitch e p r = true ↔ ∃ a, a ≠ .mast ∧ switchBlocks (axisOf p a) (pointingTarget e (recorded r p) a) = true :=
  headAxes_any (f := fun a => switchBlocks (axisOf p a) (pointingTarget e (recorded r p) a))

/-! ### The command judged -/

section
variable {s : State} {x : ArrivalEntry} {v : Verdict} {k : Int}

theorem ownAim_refused {e : Env} {p : Plant} (refusal : aimRefusal e p (aimOf x.payload) = some v) : ownAim e x p = (p, v) := by
  rw [ownAim, refusal]

theorem ownAim_unreachable {e : Env} {p : Plant} (free : aimRefusal e p (aimOf x.payload) = none) (noPreset : presetOf e p (aimOf x.payload) = none) :
    ownAim e x p = (p, refuse .unreachable 0) := by
  rw [ownAim, free, noPreset]

/-- Past steps 1 to 7 of R122 an active switch alone refuses. -/
theorem ownAim_preset {e : Env} {p : Plant} {y : Preset} (free : aimRefusal e p (aimOf x.payload) = none) (preset : presetOf e p (aimOf x.payload) = some y) :
    ownAim e x p = if aimMeetsSwitch e p (aimRecord p (aimOf x.payload) y) then (p, refuse .range 0)
      else (takeAim e (aimRecord p (aimOf x.payload) y) p, aimVerdict y) := by
  rw [ownAim, free, preset]
  rfl

theorem exec_aim_refused (head : headCommand (some .aim) s = some x) (may : mayMove x.source s = true) (own : ownAim (envOf s) x s.plant = (s.plant, v))
    (refused : v.outcome = .refused) : exec .aim s = .next (replied x v s.plant s) := by
  have judged := (judge_owner (c := .aim) ownAim (mayMove_passes may rfl)).trans own
  simp only [exec, execAim, head, aimDone, judged, refused, if_true]
  rw [commandDone_kept judged (.inr refused)]
  rfl

/-- One that is taken: the holder set and the REPLY posted before the slew is begun (R126 steps 3 to 5). -/
theorem exec_aim_taken (head : headCommand (some .aim) s = some x) (may : mayMove x.source s = true) {q : Plant} (own : ownAim (envOf s) x s.plant = (q, v))
    (taken : v.outcome ≠ .refused) : exec .aim s = .next
      (applyHead (beginAim (envOf s) (postReply (envOf s) (sequenceOf x.payload) v.outcome v.reason v.value (setHolder (some x.source) q))) s) := by
  have judged := (judge_owner (c := .aim) ownAim (mayMove_passes may rfl)).trans own
  simp only [exec, execAim, head, aimDone, judged, taken, if_false, commandDone]
  rw [newHolder, if_pos ⟨rfl, taken⟩]

end

end Sys2Proof.Machine
end

