-- ==== Sys2Proof/Proofs/SamplerAimMoves.lean ====
section
/-! PROOFS. The axes at an AIM: the moves of the work it replaces ended (R126 step 1, R81), PNT's own cancelled where no slew begins (R126
step 4), and the requests of a slew, axis by axis (R127, R79, R80). -/

namespace Sys2Proof.Machine

/-! ### Axes that an event does not pick (R84, R94) -/

/-- As it was, or granted where it waited (R94). -/
def grantedWaiting (r r' : AxisRec) : Prop := r' = r ∨ (r.state = .waiting ∧ grantedOrSame r r')

theorem grantedWaiting_trans {r r' r'' : AxisRec} (h : grantedWaiting r r') (g : grantedWaiting r' r'') : grantedWaiting r r'' := by
  rcases h with rfl | ⟨waited, granted⟩
  · exact g
  · rcases g with rfl | ⟨-, later⟩
    · exact .inr ⟨waited, granted⟩
    · exact .inr ⟨waited, grantedOrSame_trans granted later⟩

theorem grantedWaiting.granted {r r' : AxisRec} (h : grantedWaiting r r') : grantedOrSame r r' := h.elim .inl And.right

/-- Of the axes only listed ones are granted, and these wait. -/
theorem grantedWaiting_of_listed {p q : Plant} (listed : listedWait p) {b : Axis}
    (h : grantedOrSame (axisOf p b) (axisOf q b) ∧ (b ∉ p.axd.waiting → axisOf q b = axisOf p b)) : grantedWaiting (axisOf p b) (axisOf q b) := by
  by_cases waits : b ∈ p.axd.waiting
  · exact .inr ⟨listed b waits, h.1⟩
  · exact .inl (h.2 waits)

/-- A move that waits is carried before and after its grant. -/
theorem carriesMove_grantedWaiting {r r' : AxisRec} (h : grantedWaiting r r') (q : Requester) : carriesMove r' q = carriesMove r q := by
  rcases h with rfl | ⟨waited, rfl | h⟩
  · rfl
  · rfl
  · rw [h]
    simp [carriesMove, waited]

theorem carriesMove_underWay {r : AxisRec} {q : Requester} (h : carriesMove r q = true) :
    (r.state = .waiting ∨ r.state = .moving ∨ r.state = .settling) ∧ r.requester = some q ∧ r.correction = false := by
  cases state : r.state <;> simp_all [carriesMove]

theorem carriesMove_ended {r r' : AxisRec} (h : r'.state = endedState r.state) (q : Requester) : carriesMove r' q = false := by
  rw [Bool.eq_false_iff]
  intro carries
  obtain ⟨underWay, -⟩ := carriesMove_underWay carries
  rw [h] at underWay
  cases state : r.state <;> simp [state, endedState] at underWay

theorem switchBlocks_granted {r r' : AxisRec} (h : grantedOrSame r r') (target : Int) : switchBlocks r' target = switchBlocks r target := by
  rcases h with h | h <;> rw [h]
  rfl

section
variable (e : Env) (picks : AxisRec → Bool)

theorem axisOf_movesEnded_notPicked {l : List Axis} {b : Axis} {p : Plant} (left : picks (axisOf p b) = false) :
    axisOf (movesEnded e picks l p) b = axisOf p b := by
  induction l generalizing p with
  | nil => rfl
  | cons a l ih =>
    rw [movesEnded_cons]
    split
    · rename_i picked
      have ne : b ≠ a := fun same => by rw [← same, left] at picked; cases picked
      rw [ih (by rw [axisOf_endMove_ne e ne, left]), axisOf_endMove_ne e ne]
    · exact ih left

/-- An axis that is not picked: as it was, or granted where it waited. -/
theorem endMoves_notPicked {l : List Axis} {b : Axis} {p : Plant} (listed : listedWait p) (left : picks (axisOf p b) = false) :
    grantedWaiting (axisOf p b) (axisOf (endMoves e picks l p) b) := by
  refine grantedWaiting_of_listed listed ?_
  obtain ⟨granted, same⟩ := afterLeaving_axis e p (movesEnded e picks l p) b
  rw [axisOf_movesEnded_notPicked e picks left] at granted same
  exact ⟨granted, fun out => same fun m => out (movesEnded_waiting e picks l m)⟩

/-- With no grant held none is returned, and none is handed out. -/
theorem endMoves_quiet {l : List Axis} {p : Plant} (none : p.axd.grants = []) : endMoves e picks l p = movesEnded e picks l p := by
  rw [endMoves_eq, afterLeaving, none]
  simp [handGrants]

theorem endMoves_none {l : List Axis} (p : Plant) : endMoves e (fun _ => false) l p = p := by
  have ended : movesEnded e (fun _ => false) l p = p := List.foldl_fixed' (fun _ => rfl) l
  rw [endMoves_eq, ended, afterLeaving, Nat.sub_self]
  rfl

theorem endMove_switchBlocks (a b : Axis) (p : Plant) (target : Int) :
    switchBlocks (axisOf (endMove e a p) b) target = switchBlocks (axisOf p b) target := by
  have kept (x r : AxisRec) : switchBlocks (settleRecord e x r) target = switchBlocks r target := by
    obtain ⟨-, -, -, -, -, -, position, -, -, -, low, high, -⟩ := settleRecord_fields e x r
    simp only [switchBlocks, position, low, high]
  by_cases same : b = a
  · subst same
    unfold endMove
    cases (axisOf p b).state <;> simp [abandonWaiting, toStopping, kept] <;> rfl
  · rw [axisOf_endMove_ne e same]

theorem endMoves_switchBlocks (l : List Axis) (b : Axis) (p : Plant) (target : Int) :
    switchBlocks (axisOf (endMoves e picks l p) b) target = switchBlocks (axisOf p b) target :=
  (switchBlocks_granted (afterLeaving_axis e p _ b).1 target).trans
    (movesEnded_keeps e picks (P := fun q => switchBlocks (axisOf q b) target = switchBlocks (axisOf p b) target)
      (fun a q h => (endMove_switchBlocks e a b q target).trans h) l rfl)

end

/-! ### The moves of the work replaced (R126 step 1) -/

/-- The moves that end with the work replaced. -/
def aimPicks (p : Plant) (r : AxisRec) : Bool :=
  match replacedWork p with
  | some .pat => carriesMove r .pat
  | some .pke => carriesMove r .pke
  | _ => false

theorem endedByAim_iff {p : Plant} {a : Axis} : endedByAim p a = true ↔ a ∈ pointAxes ∧ aimPicks p (axisOf p a) = true := by
  have shape : endedByAim p a = (decide (a ∈ pointAxes) && aimPicks p (axisOf p a)) := rfl
  rw [shape, Bool.and_eq_true, decide_eq_true_eq]

theorem aimPicks_carries {p : Plant} {r : AxisRec} (h : aimPicks p r = true) : ∃ q, (q = .pat ∨ q = .pke) ∧ carriesMove r q = true := by
  unfold aimPicks at h
  split at h
  · exact ⟨.pat, .inl rfl, h⟩
  · exact ⟨.pke, .inr rfl, h⟩
  · cases h

/-- PNT's own moves and corrections are not picked. -/
theorem aimPicks_other {p : Plant} {r : AxisRec} (h : r.requester = some .pnt ∨ r.correction = true) : aimPicks p r = false := by
  rw [Bool.eq_false_iff]
  intro picked
  obtain ⟨q, which, carries⟩ := aimPicks_carries picked
  obtain ⟨-, own, plain⟩ := carriesMove_underWay carries
  rcases h with h | h
  · rw [h] at own
    rcases which with rfl | rfl <;> cases own
  · rw [h] at plain
    cases plain

section
variable {e : Env} {p P q : Plant}

theorem axisOf_axd (same : p.axd = q.axd) (a : Axis) : axisOf p a = axisOf q a := axisOf_congr (congrArg Drives.axes same) a

/-- The axes once the work replaced is ended: one whose move was that work's has its move ended and waits no more. -/
theorem workEnded_picked (listed : listedWait p) (first : P.axd = (endMoves e (aimPicks p) pointAxes p).axd) {a : Axis} (ended : endedByAim p a = true) :
    (axisOf P a).state = endedState (axisOf p a).state ∧ a ∉ P.axd.waiting := by
  obtain ⟨mem, picked⟩ := endedByAim_iff.1 ended
  rw [axisOf_axd first, first]
  exact endMoves_picked e _ (by decide) mem picked (listed a)

/-- Any other is as it was, or granted where it waited. -/
theorem workEnded_kept (listed : listedWait p) (first : P.axd = (endMoves e (aimPicks p) pointAxes p).axd) {a : Axis} (kept : endedByAim p a = false) :
    grantedWaiting (axisOf p a) (axisOf P a) := by
  rw [axisOf_axd first]
  by_cases mem : a ∈ pointAxes
  · exact endMoves_notPicked e _ listed (Bool.eq_false_iff.2 fun picked => Bool.eq_false_iff.1 kept (endedByAim_iff.2 ⟨mem, picked⟩))
  · exact grantedWaiting_of_listed listed (endMoves_notMem e _ mem p)

theorem workEnded_listed (listed : listedWait p) (first : P.axd = (endMoves e (aimPicks p) pointAxes p).axd) : listedWait P := fun a m => by
  rw [axisOf_axd first]
  exact listedWait_endMoves e _ _ listed a (first ▸ m)

/-- A grant comes with the end of the work of PAT or PKE alone, and of one that a grant was held for. -/
theorem workEnded_granted (first : P.axd = (endMoves e (aimPicks p) pointAxes p).axd) {a : Axis} (left : aimPicks p (axisOf p a) = false)
    (granted : axisOf P a ≠ axisOf p a) : replacedWork p ≠ some .pnt ∧ p.axd.grants ≠ [] := by
  rw [axisOf_axd first] at granted
  refine ⟨fun own => granted ?_, fun none => granted ?_⟩
  · have picks : aimPicks p = fun _ => false := by
      funext r
      rw [aimPicks, own]
    rw [picks, endMoves_none]
  · rw [endMoves_quiet e _ none, axisOf_movesEnded_notPicked e _ left]

/-- The axes after an AIM that begins no slew. -/
theorem axesRested_of_cancelled (listed : listedWait p) (first : P.axd = (endMoves e (aimPicks p) pointAxes p).axd)
    (second : q.axd = (cancelMoves e .pnt headAxes P).axd) : axesRested p q := by
  have listedP := workEnded_listed listed first
  have left {a : Axis} (other : a = .mast ∨ carriesMove (axisOf P a) .pnt = false) : grantedWaiting (axisOf P a) (axisOf q a) := by
    rw [axisOf_axd second]
    rcases other with rfl | other
    · exact grantedWaiting_of_listed listedP (endMoves_notMem e _ (by decide) P)
    · exact endMoves_notPicked e _ listedP other
  have cancelled {a : Axis} (head : a ≠ .mast) (own : carriesMove (axisOf P a) .pnt = true) : (axisOf q a).state = endedState (axisOf P a).state := by
    rw [axisOf_axd second]
    exact (endMoves_picked e _ (by decide) (mem_headAxes.2 head) own (listedP a)).1
  refine fun a => ⟨fun ended => ?_, fun head own => ?_, fun kept other => ?_⟩
  · obtain ⟨state, out⟩ := workEnded_picked listed first ended
    rcases left (.inr (carriesMove_ended state .pnt)) with same | ⟨waits, -⟩
    · rw [same, state]
    · rw [state] at waits
      cases was : (axisOf p a).state <;> simp [was, endedState] at waits
  · obtain ⟨-, requester, -⟩ := carriesMove_underWay own
    have unpicked : aimPicks p (axisOf p a) = false := aimPicks_other (.inl requester)
    have kept : grantedWaiting (axisOf p a) (axisOf P a) :=
      workEnded_kept listed first (Bool.eq_false_iff.2 fun h => Bool.eq_false_iff.1 unpicked (endedByAim_iff.1 h).2)
    have state := cancelled head ((carriesMove_grantedWaiting kept .pnt).trans own)
    by_cases same : axisOf P a = axisOf p a
    · exact .inl (by rw [state, same])
    · obtain ⟨waited, granted⟩ := kept.resolve_left same
      obtain ⟨notPnt, held⟩ := workEnded_granted first unpicked same
      refine .inr ⟨waited, notPnt, held, ?_⟩
      rw [state, granted.resolve_left same]
      rfl
  · have first := workEnded_kept listed first kept
    exact grantedOrSame_trans first.granted (left (other.imp_right fun h => (carriesMove_grantedWaiting first .pnt).trans h)).granted

end

end Sys2Proof.Machine
end

