-- ==== Sys2Proof/Proofs/SamplerAimSlew.lean ====
section
/-! PROOFS. What the requests of a slew do to the head axes whatever they are at (R127, R79, R80): one axis, then a list of them, then after
the work an AIM replaces is ended (R126). -/

namespace Sys2Proof.Machine

/-! ### What PNT's request makes of an axis -/

def underWay (r : AxisRec) : Prop := r.state = .waiting ∨ r.state = .moving ∨ r.state = .settling

/-- The position is present and farther from `goal` than the window (R80). -/
def farFrom (window : Nat) (goal : Int) (r : AxisRec) : Bool :=
  match r.position with
  | some x => decide (window < (goal - x).natAbs)
  | none => false

/-- What PNT's request toward `goal` makes of `r`: PNT's move where the axis was IDLE or carried PNT's own move or a correction, in its place;
PNT noted where the axis stops. -/
def Slewed (window : Nat) (goal : Int) (r t : AxisRec) : Prop :=
  (r.state = .idle ∨ (underWay r ∧ (r.correction = true ∨ r.requester = some .pnt)) →
    t.requester = some .pnt ∧ t.cls = some .headMove ∧ t.target = some goal ∧ t.correction = false ∧ (r.state = .moving → t.state = .moving) ∧
      (r.state = .settling → t.state = if farFrom window goal r then .moving else .settling) ∧
      (r.state = .idle ∨ r.state = .waiting → t.state = .waiting ∨ t.state = .moving)) ∧
  (r.state = .stopping → t.state = .stopping ∧ .pnt ∈ t.noted)

section
variable {window : Nat} {goal : Int} {r t u : AxisRec}

/-- A grant before the request. -/
theorem Slewed.after_grant (h : grantedWaiting r t) (g : Slewed window goal t u) : Slewed window goal r u := by
  rcases h with rfl | ⟨waited, granted⟩
  · exact g
  · obtain ⟨state, requester, -, -, correction, -⟩ := grantedOrSame_fields granted
    obtain ⟨asked, -⟩ := g
    have moves : underWay t := state.elim (fun h => .inl (h.trans waited)) fun h => .inr (.inl h)
    refine ⟨fun premise => ?_, fun stops => by rw [waited] at stops; cases stops⟩
    have own : t.correction = true ∨ t.requester = some .pnt := by
      rcases premise with idle | ⟨-, own⟩
      · rw [waited] at idle; cases idle
      · rw [correction, requester]; exact own
    obtain ⟨req, cls, target, plain, moving, -, waiting⟩ := asked (.inr ⟨moves, own⟩)
    refine ⟨req, cls, target, plain, fun h => ?_, fun h => ?_, fun _ => ?_⟩
    · rw [waited] at h; cases h
    · rw [waited] at h; cases h
    · exact state.elim (fun h => waiting (.inr (h.trans waited))) fun h => .inr (moving h)

/-- A grant after the request. -/
theorem Slewed.granted (h : Slewed window goal r t) (g : grantedWaiting t u) : Slewed window goal r u := by
  rcases g with rfl | ⟨waits, granted⟩
  · exact h
  · obtain ⟨state, requester, cls, target, correction, -⟩ := grantedOrSame_fields granted
    obtain ⟨asked, stopping⟩ := h
    refine ⟨fun premise => ?_, fun stops => by have h := (stopping stops).1; rw [waits] at h; cases h⟩
    obtain ⟨req, kind, goal, plain, moving, settling, -⟩ := asked premise
    refine ⟨requester.trans req, cls.trans kind, target.trans goal, correction.trans plain, fun h => ?_, fun h => ?_, fun _ => ?_⟩
    · rw [moving h] at waits; cases waits
    · rw [settling h] at waits
      split at waits <;> cases waits
    · exact state.imp_left fun h => h.trans waits

end

/-! ### One request (R79, R80) -/

/-- What PNT's requests on a list of axes, toward the pointing position, do. -/
structure SlewStep (e : Env) (l : List Axis) (p q : Plant) : Prop where
  drives : OnlyDrives p q
  listed : listedWait q
  others : ∀ b, b ∉ l → grantedWaiting (axisOf p b) (axisOf q b)
  asked : ∀ a ∈ l, Slewed (axisCfg e a).window (pointingTarget e p a) (axisOf p a) (axisOf q a)

section
variable {e : Env} {p : Plant} {a : Axis}

theorem listedWait_putAxis (h : listedWait p) {r : AxisRec} (kept : (axisOf p a).state = .waiting → r.state = .waiting) : listedWait (putAxis e a r p) := by
  intro b m
  rw [putAxis_axd] at m
  have before := h b m
  rw [axisOf_putAxis]
  split
  · rename_i same
    rw [settleRecord_state, kept (same ▸ before)]
  · exact before

theorem listedWait_joinWaiting (h : listedWait p) (r : AxisRec) : listedWait (joinWaiting e a r p) := by
  refine listedWait_tryGrant e fun b m => ?_
  rw [axisOf_listWaiting, axisOf_putAxis]
  rw [waiting_listWaiting, putAxis_axd] at m
  split
  · exact settleRecord_state e _ _
  · rename_i other
    exact h b ((mem_insertNew.1 m).resolve_left other)

theorem slewStep_noted (listed : listedWait p) (asked : (axisOf p a).state = .stopping ∨
      ((axisOf p a).state ≠ .idle ∧ (axisOf p a).correction = false ∧ (axisOf p a).requester ≠ some .pnt)) :
    SlewStep e [a] p (noteRequester .pnt a p) := by
  have axis (b : Axis) : axisOf (noteRequester .pnt a p) b = if b = a then { axisOf p a with noted := insertNew (axisOf p a).noted .pnt } else axisOf p b :=
    axisOf_setAxisRaw a b _ p
  refine ⟨setAxisRaw_onlyDrives _ _ p, fun b m => ?_, fun b out => ?_, fun b m => ?_⟩
  · rw [axis]
    split
    · rename_i same
      exact listed a (same ▸ m)
    · exact listed b m
  · rw [axis, if_neg (fun same => out (by simp [same]))]
    exact .inl rfl
  · rw [List.mem_singleton.1 m, axis, if_pos rfl]
    refine ⟨fun own => ?_, fun stops => ⟨stops, mem_insertNew.2 (.inl rfl)⟩⟩
    rcases asked with h | ⟨notIdle, plain, other⟩
    · rcases own with idle | ⟨w | w | w, -⟩ <;> simp_all
    · rcases own with idle | ⟨-, correction | own⟩
      · exact absurd idle notIdle
      · rw [plain] at correction; cases correction
      · exact absurd own other

theorem slewStep_joined (listed : listedWait p) (idle : (axisOf p a).state = .idle) :
    SlewStep e [a] p (joinWaiting e a (withRequest (slewMove e p a) (pointingTarget e p a) (axisOf p a)) p) := by
  refine ⟨joinWaiting_onlyDrives e a _ p, listedWait_joinWaiting listed _, fun b out => ?_, fun b m => ?_⟩
  · exact grantedWaiting_of_listed listed ((joinWaiting_axis e a b _ p).2 fun same => out (by simp [same]))
  · rw [List.mem_singleton.1 m]
    obtain ⟨state, requester, cls, target, correction, -⟩ := (joinWaiting_axis e a a (withRequest (slewMove e p a) (pointingTarget e p a) (axisOf p a)) p).1 rfl
    refine ⟨fun _ => ⟨requester, cls, target, correction, ?_, ?_, fun _ => state⟩, ?_⟩ <;> simp [idle]

theorem slewStep_replaced (listed : listedWait p) (moves : underWay (axisOf p a)) : SlewStep e [a] p (replaceMove e (slewMove e p a) (pointingTarget e p a) p) := by
  -- the record written, by the state the axis is in
  have written : ∃ r, replaceMove e (slewMove e p a) (pointingTarget e p a) p = putAxis e a r p ∧ r.requester = some .pnt ∧ r.cls = some .headMove ∧
      r.target = some (pointingTarget e p a) ∧ r.correction = false ∧ ((axisOf p a).state = .waiting → r.state = .waiting) ∧
      ((axisOf p a).state = .moving → r.state = .moving) ∧
      ((axisOf p a).state = .settling → r.state = if farFrom (axisCfg e a).window (pointingTarget e p a) (axisOf p a) then .moving else .settling) := by
    have shape : replaceMove e (slewMove e p a) (pointingTarget e p a) p =
        (let r := withRequest (slewMove e p a) (pointingTarget e p a) (axisOf p a)
        match (axisOf p a).state with
        | .settling => if farFrom (axisCfg e a).window (pointingTarget e p a) (axisOf p a)
            then putAxis e a { r with state := .moving, settleTimer := 0, settlePeriods := 0, stallTimer := 0, stallRef := r.position } p
            else putAxis e a { r with settleTimer := 0 } p
        | _ => putAxis e a r p) := by
      unfold replaceMove
      dsimp only [slewMove, withRequest]
      cases (axisOf p a).state <;> rfl
    rw [shape]
    rcases moves with state | state | state <;> rw [state] <;> dsimp only
    · exact ⟨_, rfl, rfl, rfl, rfl, rfl, fun _ => state, nofun, nofun⟩
    · exact ⟨_, rfl, rfl, rfl, rfl, rfl, nofun, fun _ => state, nofun⟩
    · split
      · exact ⟨_, rfl, rfl, rfl, rfl, rfl, nofun, nofun, fun _ => rfl⟩
      · exact ⟨_, rfl, rfl, rfl, rfl, rfl, nofun, nofun, fun _ => state⟩
  obtain ⟨r, put, requester, cls, target, correction, waiting, moving, settling⟩ := written
  rw [put]
  refine ⟨putAxis_onlyDrives e a r p, listedWait_putAxis listed waiting, fun b out => ?_, fun b m => ?_⟩
  · rw [axisOf_putAxis, if_neg (fun same => out (by simp [same]))]
    exact .inl rfl
  · rw [List.mem_singleton.1 m, axisOf_putAxis, if_pos rfl]
    obtain ⟨who, kind, goal, plain, -⟩ := settleRecord_fields e (axisOf p a) r
    unfold Slewed
    rw [who, kind, goal, plain, settleRecord_state]
    refine ⟨fun _ => ⟨requester, cls, target, correction, moving, settling, ?_⟩, fun stops => ?_⟩
    · rintro (idle | waits)
      · rcases moves with h | h | h <;> rw [idle] at h <;> cases h
      · exact .inl (waiting waits)
    · rcases moves with h | h | h <;> rw [stops] at h <;> cases h

/-- A move of the requester's own or a correction is replaced in its place (R79 step 7, R80). -/
theorem requestFromClamp_own {m : MoveRequest} (free : switchBlocks (axisOf p m.axis) (clampSoft e m.axis m.target) = false)
    (moves : underWay (axisOf p m.axis)) (own : (axisOf p m.axis).correction = true ∨ (axisOf p m.axis).requester = some m.requester) :
    requestFromClamp e m p = (replaceMove e m (clampSoft e m.axis m.target) p,
      .accepted (clampSoft e m.axis m.target) (decide (clampSoft e m.axis m.target ≠ m.target))) := by
  have taken : ((axisOf p m.axis).correction || decide ((axisOf p m.axis).requester = some m.requester)) = true := by simpa using own
  unfold requestFromClamp
  simp only [free, Bool.false_eq_true, if_false]
  rcases moves with state | state | state <;> simp only [state, taken, if_true]

/-- AXD would judge PNT's request on the axis from the clamp on, and no switch is in its way (R79). -/
def slewable (e : Env) (p : Plant) (a : Axis) : Prop :=
  a ≠ .mast ∧ (axisOf p a).state ≠ .fault ∧ switchBlocks (axisOf p a) (pointingTarget e p a) = false

/-- PNT's request on one head axis is never refused for good. -/
theorem moveRequest_slewStep (clear : p.aut.latch = none) (free : headFree e p = true) (listed : listedWait p) (may : slewable e p a) :
    refusedForGood (moveRequest e (slewMove e p a) p).2 = false ∧ SlewStep e [a] p (moveRequest e (slewMove e p a) p).1 := by
  obtain ⟨head, sound, noSwitch⟩ := may
  by_cases stopping : (axisOf p a).state = .stopping
  · rw [moveRequest_stopping clear stopping]
    exact ⟨rfl, slewStep_noted listed (.inl stopping)⟩
  · have clamped : clampSoft e a (slewMove e p a).target = pointingTarget e p a := clampSoft_pointingTarget head e p
    have judged : moveRequest e (slewMove e p a) p = requestFromClamp e (slewMove e p a) p := by
      simp [moveRequest, slewMove, clear, stopping, sound, free]
    have noBar : switchBlocks (axisOf p (slewMove e p a).axis) (clampSoft e (slewMove e p a).axis (slewMove e p a).target) = false :=
      (congrArg _ clamped).trans noSwitch
    by_cases idle : (axisOf p a).state = .idle
    · rw [moveRequest_idle (q := slewMove e p a) ⟨clear, idle, noBar, fun _ => free⟩]
      refine ⟨rfl, ?_⟩
      dsimp only [slewMove] at clamped ⊢
      rw [clamped]
      exact slewStep_joined listed idle
    · have moves : underWay (axisOf p a) := by
        unfold underWay
        cases state : (axisOf p a).state <;> simp_all
      rw [judged]
      by_cases own : (axisOf p a).correction = true ∨ (axisOf p a).requester = some .pnt
      · rw [requestFromClamp_own (m := slewMove e p a) noBar moves own]
        refine ⟨rfl, ?_⟩
        rw [show clampSoft e (slewMove e p a).axis (slewMove e p a).target = pointingTarget e p a from clamped]
        exact slewStep_replaced listed moves
      · obtain ⟨made, other⟩ := not_or.1 own
        have plain : (axisOf p a).correction = false := by simpa using made
        rw [requestFromClamp_busy (m := slewMove e p a) noBar (endedState_ne idle stopping sound) plain other]
        exact ⟨rfl, slewStep_noted listed (.inr ⟨idle, plain, other⟩)⟩

end

/-! ### The requests of a slew -/

theorem OnlyDrives.pointingTarget {p q : Plant} (h : OnlyDrives p q) (e : Env) (a : Axis) : pointingTarget e q a = Machine.pointingTarget e p a := by
  obtain ⟨_, _, rfl⟩ := h
  rfl

/-- PNT's requests on head axes none of which is in FAULT and none of which has a switch in its way. -/
theorem slewRequests_slewStep {e : Env} (l : List Axis) : ∀ {p : Plant}, l.Nodup → p.aut.latch = none → headFree e p = true → listedWait p →
    (∀ a ∈ l, slewable e p a) → SlewStep e l p (slewRequests e l p) := by
  induction l with
  | nil => exact fun _ _ _ listed _ => ⟨.refl _, listed, fun _ _ => .inl rfl, nofun⟩
  | cons a l ih =>
    intro p once clear free listed may
    obtain ⟨out, once⟩ := List.nodup_cons.1 once
    obtain ⟨good, step⟩ := moveRequest_slewStep clear free listed (may a List.mem_cons_self)
    have goes : slewRequests e (a :: l) p = slewRequests e l (moveRequest e (slewMove e p a) p).1 := by simp [slewRequests, good]
    rw [goes]
    generalize (moveRequest e (slewMove e p a) p).1 = z at step
    have kept (b : Axis) (other : b ≠ a) : grantedWaiting (axisOf p b) (axisOf z b) := step.others b (by simpa using other)
    have freeZ : headFree e z = true :=
      (headFree_position (grantedOrSame_position (kept .mast (Ne.symm (may a List.mem_cons_self).1)).granted)).trans free
    have mayZ : ∀ b ∈ l, slewable e z b := fun b m => by
      obtain ⟨head, sound, noSwitch⟩ := may b (List.mem_cons_of_mem a m)
      have granted := (kept b fun same => out (same ▸ m)).granted
      refine ⟨head, fun fault => ?_, ?_⟩
      · rcases (grantedOrSame_fields granted).1 with h | h
        · exact sound (h.symm.trans fault)
        · rw [h] at fault; cases fault
      · rw [step.drives.pointingTarget, switchBlocks_granted granted, noSwitch]
    have rest := ih once (step.drives.aut ▸ clear) freeZ step.listed mayZ
    refine ⟨step.drives.trans rest.drives, rest.listed, fun b m => ?_, fun b m => ?_⟩
    · obtain ⟨other, later⟩ := not_or.1 (mt List.mem_cons.2 m)
      exact grantedWaiting_trans (kept b other) (rest.others b later)
    · rcases List.mem_cons.1 m with rfl | later
      · exact (step.asked b (by simp)).granted (rest.others b out)
      · have asked := rest.asked b later
        rw [step.drives.pointingTarget] at asked
        exact asked.after_grant (kept b fun same => out (same ▸ later))

/-! ### The slew of an AIM (R126 step 5) -/

/-- The head axes after an AIM that slews, from what its requests find once the work replaced is ended. -/
theorem axesSlewed_of_step {e : Env} {p P q : Plant} {goal : Axis → Int} (listed : listedWait p)
    (first : P.axd = (endMoves e (aimPicks p) pointAxes p).axd) (goals : ∀ a, a ≠ .mast → pointingTarget e P a = goal a)
    (step : SlewStep e headAxes P q) : axesSlewed e goal p q := by
  intro a head
  have slewed := step.asked a (mem_headAxes.2 head)
  rw [goals a head] at slewed
  by_cases ended : endedByAim p a = true
  · obtain ⟨asked, stopping⟩ := slewed
    rw [(workEnded_picked listed first ended).1] at asked stopping
    obtain ⟨who, which, carries⟩ := aimPicks_carries (endedByAim_iff.1 ended).2
    obtain ⟨moves, requester, plain⟩ := carriesMove_underWay carries
    have other : (axisOf p a).requester ≠ some .pnt := by
      rw [requester]
      rcases which with rfl | rfl <;> simp
    dsimp only
    rcases moves with state | state | state <;> rw [state] at asked stopping ⊢ <;> dsimp only [endedState] at asked stopping
    · obtain ⟨req, cls, target, correction, -, -, waiting⟩ := asked (.inl rfl)
      exact ⟨fun _ => ⟨req, cls, target, correction, nofun, nofun, fun _ => waiting (.inl rfl)⟩, fun h => absurd rfl (h.resolve_left nofun).2⟩
    · exact ⟨fun own => by simp [plain, other] at own, fun _ => stopping rfl⟩
    · exact ⟨fun own => by simp [plain, other] at own, fun _ => stopping rfl⟩
  · have slewed := slewed.after_grant (workEnded_kept listed first (Bool.eq_false_iff.2 ended))
    obtain ⟨asked, stopping⟩ := slewed
    refine ⟨fun own => asked ?_, fun stops => stopping ?_⟩
    · rcases own with idle | ⟨-, picked⟩ | own
      · exact .inl idle
      · exact absurd picked ended
      · exact .inr own
    · exact stops.elim id fun h => absurd h.1 ended

end Sys2Proof.Machine
end

