-- ==== Sys2Proof/Proofs/SamplerAim.lean ====
section
/-! PROOFS. An AIM taken (O52): the work it replaces ended (R126 step 1, R69), the record written and the REPLY posted (R126 steps 2 and 3), and
what it begins: WAITING_MAST, HELD or the slew (R126 steps 4 and 5, R127, R130). -/

namespace Sys2Proof.Machine

/-! ### The work replaced (R126 step 1) -/

section
variable {e : Env} {p P q : Plant}

/-- What an AIM makes of the plant before it writes the record, by whose work it replaces. -/
inductive WorkEnded (e : Env) (p : Plant) : Plant → Prop
  | nothing (work : replacedWork p = none) : WorkEnded e p p
  | preset (work : replacedWork p = some .pnt) : WorkEnded e p (cancelDwell .pnt { p with pnt := { p.pnt with measurement := .blank } })
  | search (work : replacedWork p = some .pat) (way : patternUnderWay p = true) : WorkEnded e p (haltPattern e (.aborted .aim) p)
  | run (work : replacedWork p = some .pke) : WorkEnded e p (discardRun e p)

/-- The work of an activity, `PointState.active` or `PointState.held`, ended. -/
theorem aimEnds_workEnded {x : Activity} (work : replacedWork p = match x with
      | .slewing _ => some .pnt
      | .acquiring .search => if patternUnderWay p then some .pat else none
      | .acquiring .back => none
      | .peaking | .tracking => some .pke) : WorkEnded e p (aimEnds e x p) := by
  cases x with
  | slewing phase => exact .preset work
  | acquiring phase =>
    cases phase with
    | back => exact .nothing work
    | search =>
      by_cases way : patternUnderWay p = true
      · exact .search (work.trans (if_pos way)) way
      · rw [show aimEnds e (.acquiring .search) p = p from if_neg way]
        exact .nothing (work.trans (if_neg way))
  | peaking | tracking => exact .run work

theorem endForAim_workEnded (e : Env) (p : Plant) : WorkEnded e p (endForAim e p) := by
  unfold endForAim
  cases state : p.pnt.state with
  | active x =>
    refine aimEnds_workEnded ?_
    rw [replacedWork, state]
    rcases x with _ | (_ | _) | _ | _ <;> rfl
  | held x cause =>
    refine aimEnds_workEnded ?_
    rw [replacedWork, state]
    rcases x with _ | (_ | _) | _ | _ <;> rfl
  | lost => exact .run (by rw [replacedWork, state])
  | idle | waitingMast | pointed => exact .nothing (by rw [replacedWork, state])

theorem haltPattern_way (cause : PatternCause) (way : patternUnderWay p = true) : haltPattern e cause p =
    updatePattern (fun x => { x with status := .halted cause, moveList := [], measurement := .blank }) (stopPattern e p) := if_pos way

theorem cancelDwell_axd (who : Requester) (p : Plant) : (cancelDwell who p).axd = p.axd := by
  obtain ⟨_, dwell⟩ := cancelDwell_rest who p
  rw [dwell]

/-- The axes once the work is ended: the moves picked are ended, and no other. -/
theorem endForAim_axd (e : Env) (p : Plant) : (endForAim e p).axd = (endMoves e (aimPicks p) pointAxes p).axd := by
  have picks {f : AxisRec → Bool} (same : ∀ r, aimPicks p r = f r) : aimPicks p = f := funext same
  have ended := endForAim_workEnded e p
  generalize endForAim e p = q at ended
  cases ended with
  | nothing work => rw [picks (f := fun _ => false) fun _ => by rw [aimPicks, work], endMoves_none]
  | preset work => rw [picks (f := fun _ => false) fun _ => by rw [aimPicks, work], endMoves_none, cancelDwell_axd]
  | search work way =>
    rw [picks (f := fun r => carriesMove r .pat) fun _ => by rw [aimPicks, work], haltPattern_way _ way]
    exact cancelDwell_axd .pat _
  | run work =>
    rw [picks (f := fun r => carriesMove r .pke) fun _ => by rw [aimPicks, work]]
    exact cancelDwell_axd .pke _

theorem endForAim_headWork (e : Env) (p : Plant) : HeadWork p (endForAim e p) := by
  have ended := endForAim_workEnded e p
  generalize endForAim e p = q at ended
  cases ended with
  | nothing => exact .refl p
  | preset =>
    obtain ⟨_, dwell⟩ := cancelDwell_rest .pnt { p with pnt := { p.pnt with measurement := .blank } }
    rw [dwell]
    exact (HeadWork.refl p).write _ _ _ _ _ _ _
  | search => exact haltPattern_headWork (.refl p) _
  | run => exact discardRun_headWork (.refl p)

/-- A requester's dwell or wait cancelled: it waits no more, and the dwell is none of its own (R69). -/
theorem cancelDwell_ended (who : Requester) (p : Plant) :
    who ∉ (cancelDwell who p).smp.noted ∧ (cancelDwell who p).smp.dwell = p.smp.dwell.filter fun d => decide (d.requester ≠ who) := by
  have out : who ∉ removeAll p.smp.noted who := by simp [removeAll]
  cases active : p.smp.dwell with
  | none => simp [cancelDwell, active, out]
  | some d => by_cases own : d.requester = who <;> simp [cancelDwell, active, own, out, dwellFreed, ringClear, Option.filter]

/-- The same of a requester whose moves are cancelled with it. -/
theorem cancelWork_ended (e : Env) (who : Requester) (p : Plant) : ∃ posts axd smp,
    cancelDwell who (cancelMoves e who pointAxes p) = { p with posts := posts, axd := axd, smp := smp } ∧
      who ∉ smp.noted ∧ smp.dwell = p.smp.dwell.filter fun d => decide (d.requester ≠ who) := by
  have cancelled := cancelDwell_ended who (cancelMoves e who pointAxes p)
  have kept : (cancelMoves e who pointAxes p).smp = p.smp := endMoves_smp e _ _ p
  obtain ⟨posts, axd, smp, stopped, -⟩ := cancelWork_rest e who pointAxes p
  rw [kept, stopped] at cancelled
  exact ⟨posts, axd, smp, stopped, cancelled⟩

theorem endForAim_work (e : Env) (p : Plant) : workReplaced p (endForAim e p) := by
  have ended := endForAim_workEnded e p
  generalize endForAim e p = q at ended
  unfold workReplaced
  cases ended with
  | nothing work =>
    rw [work]
    exact ⟨nofun, fun _ => rfl, rfl, rfl, nofun, nofun, fun _ => rfl⟩
  | preset work =>
    rw [work]
    obtain ⟨smp, dwell⟩ := cancelDwell_rest .pnt { p with pnt := { p.pnt with measurement := .blank } }
    have cancelled := cancelDwell_ended .pnt { p with pnt := { p.pnt with measurement := .blank } }
    rw [dwell] at cancelled ⊢
    exact ⟨nofun, fun _ => rfl, rfl, rfl, fun _ => rfl, fun r own => Option.some.inj own ▸ cancelled, nofun⟩
  | search work way =>
    rw [work]
    obtain ⟨posts, axd, smp, stopped, cancelled⟩ := cancelWork_ended e .pat p
    rw [haltPattern_way _ way, stopPattern, stopped]
    refine ⟨fun _ => ⟨?_, rfl⟩, fun other => absurd rfl other, rfl, rfl, nofun, fun r own => Option.some.inj own ▸ cancelled, nofun⟩
    unfold patternUnderWay at way
    cases found : p.pat with
    | none => rw [found] at way; cases way
    | some y => rfl
  | run work =>
    rw [work]
    obtain ⟨posts, axd, smp, stopped, cancelled⟩ := cancelWork_ended e .pke p
    rw [discardRun, stopped]
    exact ⟨nofun, fun _ => rfl, rfl, rfl, nofun, fun r own => Option.some.inj own ▸ cancelled, nofun⟩

/-- What is ended stays ended through a change of the drives, the pointing state and the record. -/
theorem workReplaced_kept (h : workReplaced p P) (pat : q.pat = P.pat) (run : q.run = P.run) (monitor : q.monitor = P.monitor)
    (measurement : q.pnt.measurement = P.pnt.measurement) (smp : q.smp = P.smp) : workReplaced p q := by
  unfold workReplaced at h ⊢
  rw [pat, run, monitor, measurement, smp]
  exact h

end

/-! ### What an AIM begins (R126 steps 4 and 5) -/

/-- `q` comes from `p` by changes of the drives, the pointing state and the slew list. -/
def SlewWork (p q : Plant) : Prop := ∃ posts axd state slewList, q = { p with posts := posts, axd := axd, pnt := { p.pnt with state := state, slewList := slewList } }

section
variable {e : Env} {p q r : Plant}

theorem SlewWork.trans (h : SlewWork p q) (g : SlewWork q r) : SlewWork p r := by
  obtain ⟨_, _, _, _, rfl⟩ := h
  obtain ⟨_, _, _, _, rfl⟩ := g
  exact ⟨_, _, _, _, rfl⟩

theorem OnlyDrives.slewWork (h : OnlyDrives p q) : SlewWork p q := by
  obtain ⟨_, _, rfl⟩ := h
  exact ⟨_, _, _, _, rfl⟩

theorem setPointing_slewWork (e : Env) (st : PointState) (p : Plant) : SlewWork p (setPointing e st p) := by
  obtain ⟨_, set⟩ := setPointing_rest e st p
  exact ⟨_, _, _, _, set⟩

theorem cancelMoves_slewWork (e : Env) (who : Requester) (l : List Axis) (p : Plant) : SlewWork p (cancelMoves e who l p) := (endMoves_onlyDrives e _ l p).slewWork

theorem slewRequests_slewWork (e : Env) (l : List Axis) : ∀ p : Plant, SlewWork p (slewRequests e l p) := by
  induction l with
  | nil => exact fun _ => ⟨_, _, _, _, rfl⟩
  | cons a l ih =>
    intro p
    have asked : SlewWork p (moveRequest e (slewMove e p a) p).1 := (moveRequest_onlyDrives e _ p).slewWork
    unfold slewRequests
    dsimp only
    split
    · have listed (z : Plant) : SlewWork z { z with pnt := { z.pnt with slewList := [] } } := ⟨_, _, _, _, rfl⟩
      exact asked.trans ((cancelMoves_slewWork e .pnt headAxes _).trans ((listed _).trans (setPointing_slewWork e .idle _)))
    · exact asked.trans (ih _)

theorem startSlew_slewWork (e : Env) (p : Plant) : SlewWork p (startSlew e p) :=
  SlewWork.trans ⟨_, _, _, _, rfl⟩ (slewRequests_slewWork e headAxes { p with pnt := { p.pnt with slewList := headAxes } })

/-- Without a raise SLEWING is entered. -/
theorem beginAim_up (up : ¬ ∃ target direction, p.msq.state = .raising target direction) : beginAim e p = enterSlewing e p := by
  unfold beginAim
  split
  · rename_i raising
    exact absurd ⟨_, _, raising⟩ up
  all_goals rfl

theorem beginAim_raising (raising : ∃ target direction, p.msq.state = .raising target direction) : beginAim e p =
    setPointing e .waitingMast { cancelMoves e .pnt headAxes p with pnt := { (cancelMoves e .pnt headAxes p).pnt with slewList := [] } } := by
  obtain ⟨target, direction, raising⟩ := raising
  rw [beginAim, raising]

theorem enterSlewing_met (met : needsMet e p (.slewing .move) = true) :
    enterSlewing e p = startSlew e (setPointing e (.active (.slewing .move)) p) := if_pos met

theorem enterSlewing_missing (missing : needsMet e p (.slewing .move) = false) :
    enterSlewing e p = setPointing e (.held (.slewing .move) (holdCauseNow p)) (cancelMoves e .pnt headAxes p) := if_neg (by simp [missing])

theorem beginAim_slewWork (e : Env) (p : Plant) : SlewWork p (beginAim e p) := by
  by_cases raising : ∃ target direction, p.msq.state = .raising target direction
  · rw [beginAim_raising raising]
    exact (cancelMoves_slewWork e .pnt headAxes p).trans (SlewWork.trans ⟨_, _, _, _, rfl⟩ (setPointing_slewWork e .waitingMast _))
  · rw [beginAim_up raising]
    unfold enterSlewing
    split
    · exact (setPointing_slewWork e _ p).trans (startSlew_slewWork e _)
    · exact (cancelMoves_slewWork e .pnt headAxes p).trans (setPointing_slewWork e _ _)

theorem beginAim_headWork (e : Env) (p : Plant) : HeadWork p (beginAim e p) := by
  have cancelled : HeadWork p (cancelMoves e .pnt headAxes p) := endMoves_headWork (.refl p) _ (by decide)
  by_cases raising : ∃ target direction, p.msq.state = .raising target direction
  · rw [beginAim_raising raising]
    exact setPointing_headWork (cancelled.write _ _ _ _ _ _ _) _
  · rw [beginAim_up raising]
    unfold enterSlewing
    split
    · exact startSlew_headWork (setPointing_headWork (.refl p) _)
    · exact setPointing_headWork cancelled _

theorem setPointing_axd (e : Env) (st : PointState) (p : Plant) : (setPointing e st p).axd = p.axd := by
  obtain ⟨_, set⟩ := setPointing_rest e st p
  rw [set]

/-- During a raise: WAITING_MAST, PNT's own moves cancelled. -/
theorem beginAim_waits (raising : ∃ target direction, p.msq.state = .raising target direction) :
    (beginAim e p).pnt.state = .waitingMast ∧ (beginAim e p).pnt.slewList = [] ∧ (beginAim e p).axd = (cancelMoves e .pnt headAxes p).axd := by
  rw [beginAim_raising raising]
  refine ⟨setPointing_state e _ _, ?_, setPointing_axd e _ _⟩
  obtain ⟨_, set⟩ := setPointing_rest e .waitingMast { cancelMoves e .pnt headAxes p with pnt := { (cancelMoves e .pnt headAxes p).pnt with slewList := [] } }
  rw [set]

/-- With a need missing: HELD, PNT's own moves cancelled. -/
theorem beginAim_holds (up : ¬ ∃ target direction, p.msq.state = .raising target direction) (missing : needsMet e p (.slewing .move) = false) :
    (beginAim e p).pnt.state = .held (.slewing .move) (holdCauseNow p) ∧ (beginAim e p).axd = (cancelMoves e .pnt headAxes p).axd := by
  rw [beginAim_up up, enterSlewing_missing missing]
  exact ⟨setPointing_state e _ _, setPointing_axd e _ _⟩

/-- With every need met: SLEWING, each head axis asked. -/
theorem beginAim_slews (up : ¬ ∃ target direction, p.msq.state = .raising target direction) (met : needsMet e p (.slewing .move) = true)
    (clear : p.aut.latch = none) (free : headFree e p = true) (listed : listedWait p) (may : ∀ a, a ≠ .mast → slewable e p a) :
    (beginAim e p).pnt.state = .active (.slewing .move) ∧ (beginAim e p).pnt.slewList = headAxes ∧
      ∃ z, z.axd = p.axd ∧ z.pnt.record = p.pnt.record ∧ SlewStep e headAxes z (beginAim e p) := by
  obtain ⟨posts, set⟩ := setPointing_rest e (.active (.slewing .move)) p
  rw [beginAim_up up, enterSlewing_met met, startSlew, set]
  have step := slewRequests_slewStep (p := { p with posts := posts, pnt := { p.pnt with state := .active (.slewing .move), slewList := headAxes } })
    headAxes (by decide) clear free listed fun a m => may a (mem_headAxes.1 m)
  obtain ⟨posts', axd, done⟩ := step.drives
  exact ⟨by rw [done], by rw [done], { p with posts := posts, pnt := { p.pnt with state := .active (.slewing .move), slewList := headAxes } }, rfl, rfl, step⟩

end

/-! ### The AIM up to its REPLY -/

/-- The plant of an AIM taken, its REPLY posted. -/
def aimReplied (e : Env) (x : ArrivalEntry) (v : Verdict) (r : PointingRecord) (p : Plant) : Plant :=
  postReply e (sequenceOf x.payload) v.outcome v.reason v.value (setHolder (some x.source) (takeAim e r p))

section
variable {e : Env} {x : ArrivalEntry} {v : Verdict} {r : PointingRecord} {p : Plant}

theorem aimReplied_axd : (aimReplied e x v r p).axd = (endMoves e (aimPicks p) pointAxes p).axd := endForAim_axd e p

theorem aimReplied_headFree : headFree e (aimReplied e x v r p) = headFree e p :=
  headFree_position ((congrArg AxisRec.position (axisOf_axd aimReplied_axd .mast)).trans (endMoves_position e _ _ .mast p))

theorem aimReplied_msq : (aimReplied e x v r p).msq = p.msq := (endForAim_headWork e p).msq

theorem aimReplied_given (z : Permissive) : given (aimReplied e x v r p) z = given p z := by
  have kept : (aimReplied e x v r p).pvw = p.pvw := (endForAim_headWork e p).pvw
  rw [given, given, kept]

theorem aimReplied_needs (wind : given p .windMoveOk = true) :
    needsMet e (aimReplied e x v r p) (.slewing .move) = (!r.flagPeak || (!linked e || given p .levelOk)) := by
  unfold needsMet
  simp only [aimReplied_given, wind, Bool.true_and]
  rfl

/-- One post of the REPLY, and no later one (R17). -/
theorem aim_reply : postedWith .reply (replyPayload (sequenceOf x.payload) v.outcome v.reason v.value) p (beginAim e (aimReplied e x v r p)) := by
  have before : min 65535 p.posts.drops ≤ (takeAim e r p).posts.drops := evolves_drops (takeAim_evolves (e := e) .refl r)
  have after : min 65535 (takeAim e r p).posts.drops ≤ (beginAim e (aimReplied e x v r p)).posts.drops :=
    evolves_drops (p := setHolder (some x.source) (takeAim e r p)) (beginAim_evolves (postReply_evolves (e := e) .refl _ _ _ _))
  have posted := post_payload (e := e) (k := .reply) (r := setHolder (some x.source) (takeAim e r p)) .refl
    (fun _ hP h => beginAim_noDwellReply (fun k t x y _ ne => hP k t x y ne) e h : noPostOf .reply (aimReplied e x v r p) (beginAim e (aimReplied e x v r p)))
  unfold postedWith at posted ⊢
  rw [setHolder_posts] at posted
  exact posted.imp_right fun h => by omega

theorem aim_work : workReplaced p (beginAim e (aimReplied e x v r p)) := by
  obtain ⟨posts, axd, state, slewList, begun⟩ := beginAim_slewWork e (aimReplied e x v r p)
  rw [begun]
  exact workReplaced_kept (endForAim_work e p) rfl rfl rfl rfl rfl

theorem aim_record : (beginAim e (aimReplied e x v r p)).pnt.record = some r := by
  obtain ⟨posts, axd, state, slewList, begun⟩ := beginAim_slewWork e (aimReplied e x v r p)
  rw [begun]
  rfl

/-- The blocks that an AIM leaves, and the MAST axis but for a grant that it waits for. -/
theorem aim_kept (e : Env) (x : ArrivalEntry) (v : Verdict) (r : PointingRecord) (p : Plant) :
    (beginAim e (aimReplied e x v r p)).aut = { p.aut with holder := some x.source } ∧ (beginAim e (aimReplied e x v r p)).msq = p.msq ∧
      (beginAim e (aimReplied e x v r p)).flt = p.flt ∧ (beginAim e (aimReplied e x v r p)).pvw = p.pvw ∧
      grantedOrSame (axisOf p .mast) (axisOf (beginAim e (aimReplied e x v r p)) .mast) ∧
      (.mast ∉ p.axd.waiting → axisOf (beginAim e (aimReplied e x v r p)) .mast = axisOf p .mast) := by
  have taken := endForAim_headWork e p
  have begun := beginAim_headWork e (aimReplied e x v r p)
  have mast : axisOf (aimReplied e x v r p) .mast = axisOf (endForAim e p) .mast := rfl
  refine ⟨begun.aut.trans (congrArg (fun y : Authority => { y with holder := some x.source }) taken.aut), begun.msq.trans taken.msq, begun.flt.trans taken.flt,
    begun.pvw.trans taken.pvw, grantedOrSame_trans taken.mast (mast ▸ begun.mast), fun out => ?_⟩
  obtain ⟨first, still⟩ := taken.rested out
  exact ((begun.rested still).1.trans mast).trans first

theorem aim_waits (raising : ∃ target direction, p.msq.state = .raising target direction) :
    (beginAim e (aimReplied e x v r p)).pnt.state = .waitingMast ∧ (beginAim e (aimReplied e x v r p)).pnt.slewList = [] ∧
      (listedWait p → axesRested p (beginAim e (aimReplied e x v r p))) := by
  obtain ⟨state, slewList, axd⟩ := beginAim_waits (e := e) (p := aimReplied e x v r p) (by rw [aimReplied_msq]; exact raising)
  exact ⟨state, slewList, fun listed => axesRested_of_cancelled listed aimReplied_axd axd⟩

/-- LEVEL_OK missing for a slew that asks for it (R130). -/
def levelMissing (e : Env) (r : PointingRecord) (p : Plant) : Prop := r.flagPeak = true ∧ linked e = true ∧ given p .levelOk = false

section
variable (up : ¬ ∃ target direction, p.msq.state = .raising target direction) (wind : given p .windMoveOk = true)
include up wind

theorem aim_holds (missing : levelMissing e r p) : (beginAim e (aimReplied e x v r p)).pnt.state = .held (.slewing .move) .level ∧
    (beginAim e (aimReplied e x v r p)).axd = (cancelMoves e .pnt headAxes (aimReplied e x v r p)).axd := by
  obtain ⟨peak, link, level⟩ := missing
  have cause : holdCauseNow (aimReplied e x v r p) = .level := if_pos ((aimReplied_given _).trans wind)
  rw [← cause]
  exact beginAim_holds (by rw [aimReplied_msq]; exact up) (by simp [aimReplied_needs wind, peak, link, level])

/-- The slew on whatever the head axes are at, none in FAULT. -/
theorem aim_slews (met : ¬ levelMissing e r p) (clear : p.aut.latch = none) (free : headFree e p = true) (listed : listedWait p)
    (sound : ∀ a, a ≠ .mast → (axisOf p a).state ≠ .fault)
    (noSwitch : ∀ a, a ≠ .mast → switchBlocks (axisOf p a) (pointingTarget e (recorded r p) a) = false) :
    (beginAim e (aimReplied e x v r p)).pnt.state = .active (.slewing .move) ∧ (beginAim e (aimReplied e x v r p)).pnt.slewList = headAxes ∧
      axesSlewed e (pointingTarget e (recorded r p)) p (beginAim e (aimReplied e x v r p)) := by
  have axd : (aimReplied e x v r p).axd = (endMoves e (aimPicks p) pointAxes p).axd := aimReplied_axd
  have may (a : Axis) (head : a ≠ .mast) : slewable e (aimReplied e x v r p) a := by
    refine ⟨head, fun fault => ?_, ?_⟩
    · by_cases ended : endedByAim p a = true
      · rw [(workEnded_picked listed axd ended).1] at fault
        have was := sound a head
        cases state : (axisOf p a).state <;> simp_all [endedState]
      · rcases (grantedOrSame_fields (workEnded_kept listed axd (Bool.eq_false_iff.2 ended)).granted).1 with h | h
        · exact sound a head (h.symm.trans fault)
        · rw [h] at fault; cases fault
    · rw [axisOf_axd axd, endMoves_switchBlocks]
      exact noSwitch a head
  have needs : needsMet e (aimReplied e x v r p) (.slewing .move) = true := by
    rw [aimReplied_needs wind]
    unfold levelMissing at met
    cases peak : r.flagPeak <;> cases link : linked e <;> cases level : given p .levelOk <;> simp_all
  have latch : (aimReplied e x v r p).aut.latch = none := (congrArg Authority.latch (endForAim_headWork e p).aut).trans clear
  obtain ⟨state, slewList, z, same, record, step⟩ :=
    beginAim_slews (by rw [aimReplied_msq]; exact up) needs latch (aimReplied_headFree.trans free) (workEnded_listed listed axd) may
  refine ⟨state, slewList, axesSlewed_of_step listed (same.trans axd) (fun a _ => ?_) step⟩
  unfold pointingTarget
  rw [record]
  rfl

end

/-- With the head axes IDLE none has a move to end. -/
theorem aim_idle (idle : ∀ a, a ≠ .mast → (axisOf p a).state = .idle) : (aimReplied e x v r p).axd = p.axd ∧
    (cancelMoves e .pnt headAxes (aimReplied e x v r p)).axd = p.axd := by
  have rest {q : Plant} (same : q.axd = p.axd) (picks : AxisRec → Bool) {l : List Axis} (heads : .mast ∉ l) : endMoves e picks l q = q :=
    endMoves_of_ended (fun a m => by rw [axisOf_axd same, idle a fun mast => heads (mast ▸ m)]; rfl) picks
  have first : (aimReplied e x v r p).axd = p.axd := aimReplied_axd.trans (congrArg Plant.axd (rest rfl _ (by decide)))
  exact ⟨first, (congrArg Plant.axd (rest first _ (by decide))).trans first⟩

end

end Sys2Proof.Machine
end

