-- ==== Sys2Proof/Proofs/SamplerAimTaken.lean ====
section
/-! PROOFS. O52 assembled: what refuses an AIM, in order, and what one that is taken does. -/

namespace Sys2Proof.Machine

section
variable {e : Env} {p : Plant} {a : AimOperands} {k : Int}

/-- Where a slew to the record of an AIM goes: no further clamp changes the polarisation. -/
theorem aimRecord_target (b : Axis) : pointingTarget e (recorded (aimRecord p a (aimPreset e p a k)) p) b = match b with
    | .pan => clampSoft e .pan (k + (aimOffsets p a.keepOffsets).1)
    | .tilt => clampSoft e .tilt (clampSoft e .tilt (aimTilt p a) + (aimOffsets p a.keepOffsets).2)
    | .pol | .mast => clampSoft e .pol a.pol := by
  cases b with
  | pan | tilt => rfl
  | pol | mast => exact clampSoft_idem e .pol a.pol

end

/-- An axis that was IDLE is on its way (R79 step 7). -/
theorem axesSlewed_idle {e : Env} {p q : Plant} {goal : Axis → Int} (slewed : axesSlewed e goal p q) {b : Axis} (head : b ≠ .mast)
    (idle : (axisOf p b).state = .idle) : ((axisOf q b).state = .waiting ∨ (axisOf q b).state = .moving) ∧ (axisOf q b).requester = some .pnt ∧
      (axisOf q b).cls = some .headMove ∧ (axisOf q b).target = some (goal b) := by
  obtain ⟨asked, -⟩ := slewed b head
  obtain ⟨requester, cls, target, -, -, -, moves⟩ := asked (.inl idle)
  exact ⟨moves (.inl idle), requester, cls, target⟩

/-- Settles O52: what refuses an AIM in the order of R122; one that is taken ends the work it replaces, then waits, holds or slews by
the mast state and the needs, and each head axis by what it was at. -/
theorem anAimWritesTheRecordAndSlews : Obligations.AnAimWritesTheRecordAndSlews := by
  intro s x head may p e c bearing elevation pol inside permitted isRaising mastUp free basis rel correction legal distance nearest tiltPreset polPreset keep
    record goal verdict refused
  obtain ⟨-, clear, -, -⟩ := mayMove_iff.1 may
  have refuses {v : Verdict} (refusal : aimRefusal e p (aimOf x.payload) = some v) (no : v.outcome = .refused) : refused v :=
    exec_aim_refused head may (ownAim_refused refusal) no
  have within : inside ↔ aimInside (aimOf x.payload) := and_congr_left' Int.ofNat_lt
  have risen : mastUp ↔ aimMast e p = true := aimMast_iff.symm
  have unheld (h : free) : headAxes.any (isHeld p) = false := headAxes_none h
  have legal_iff (k : Int) : legal k ↔ k ∈ panCandidates e (relativeBearing (aimOf x.payload).bearing (basisOf p).heading) := by
    rw [mem_panCandidates, relativeBearing_eq]
    exact .rfl
  have unrefused (ok : inside) (perms : permitted) (up : mastUp) (unheldHead : free) (unjogged : headJogged p = false) : aimRefusal e p (aimOf x.payload) = none :=
    aimRefusal_none (within.1 ok) perms (risen.1 up) (unheld unheldHead) unjogged
  refine ⟨fun out => refuses (aimRefusal_range (mt within.2 out)) rfl,
    fun before y after ok shape lower missing => refuses (aimRefusal_permissive (within.1 ok) (lowestMissing_eq shape lower missing)) rfl,
    fun ok perms down => refuses (aimRefusal_mast (within.1 ok) perms (Bool.eq_false_iff.2 (mt risen.2 down))) rfl,
    fun ok perms up held => refuses (aimRefusal_held (within.1 ok) perms (risen.1 up) ?_) rfl,
    fun ok perms up unheldHead jogged => refuses (aimRefusal_jogged (within.1 ok) perms (risen.1 up) (unheld unheldHead) jogged) rfl,
    fun ok perms up unheldHead unjogged none => ?_, fun k ok perms up unheldHead unjogged near => ?_⟩
  · obtain ⟨a, named⟩ := not_forall.1 held
    obtain ⟨headAxis, holds⟩ := Classical.not_imp.1 named
    exact headAxes_any.2 ⟨a, headAxis, by simpa using holds⟩
  · have noPreset : presetOf e p (aimOf x.payload) = Option.none := by
      rw [presetOf_eq, panPreset_none fun k m => none k ((legal_iff k).2 m)]
      rfl
    exact exec_aim_refused head may (ownAim_unreachable (unrefused ok perms up unheldHead unjogged) noPreset) rfl
  · have preset : presetOf e p (aimOf x.payload) = some (aimPreset e p (aimOf x.payload) k) := by
      rw [presetOf_eq, panPreset_nearest ((legal_iff k).1 near.1) fun y m => by
        rw [relativeBearing_eq]
        exact near.2 y ((legal_iff y).2 m)]
      rfl
    have own := ownAim_preset (unrefused ok perms up unheldHead unjogged) preset
    have recorded_eq : aimRecord p (aimOf x.payload) (aimPreset e p (aimOf x.payload) k) = record k := by
      rw [aimRecord, aimOffsets_eq]
      rfl
    have goal_eq (a : Axis) : pointingTarget e (recorded (record k) p) a = goal k a := by
      rw [← recorded_eq, aimRecord_target, aimOffsets_eq]
      cases a <;> rfl
    have verdict_eq : aimVerdict (aimPreset e p (aimOf x.payload) k) = verdict := aimVerdict_eq
    have switch_iff : aimMeetsSwitch e p (record k) = true ↔ ∃ a, a ≠ .mast ∧ switchBlocks (axisOf p a) (goal k a) = true := by
      simp only [aimMeetsSwitch_iff, goal_eq]
    rw [recorded_eq, verdict_eq] at own
    refine ⟨fun blocked => exec_aim_refused head may (own.trans (if_pos (switch_iff.2 blocked))) rfl, fun noSwitch => ?_⟩
    have unblocked : aimMeetsSwitch e p (record k) = false := Bool.eq_false_iff.2 fun h => by
      obtain ⟨a, headAxis, blocks⟩ := switch_iff.1 h
      exact Bool.noConfusion ((noSwitch a headAxis).symm.trans blocks)
    have wind : Machine.given p .windMoveOk = true := perms .windMoveOk (by decide)
    have level_iff : levelMissing e (record k) p ↔ bitAt x.payload 8 0 = true ∧ c.source = .linked ∧ p.pvw.permissives.levelOk = false :=
      and_congr_right' (and_congr_left' decide_eq_true_iff)
    have headUp (notRaising : ¬ isRaising) : headFree e p = true := (up.resolve_left notRaising).2
    obtain ⟨aut, msq, flt, pvw, mast, mastKept⟩ := aim_kept e x verdict (record k) p
    refine ⟨beginAim e (aimReplied e x verdict (record k) p),
      exec_aim_taken head may (own.trans (if_neg (by simp [unblocked]))) (verdict_eq ▸ aimVerdict_taken _), aim_reply, aim_record, aut, msq, flt, pvw, aim_work,
      fun raising => ?_, fun notRaising peak source level => ?_, fun notRaising met sound arbiter => ?_, fun raising => ⟨(aim_waits raising).1, mast, mastKept⟩,
      fun notRaising idle none => ?_⟩
    · obtain ⟨state, slewList, rested⟩ := aim_waits (e := e) (x := x) (v := verdict) (r := record k) raising
      exact ⟨state, slewList, fun arbiter => rested (listedWait_of_sound arbiter)⟩
    · obtain ⟨state, axd⟩ := aim_holds (x := x) (v := verdict) notRaising wind (level_iff.2 ⟨peak, source, level⟩)
      exact ⟨state, fun arbiter => axesRested_of_cancelled (listedWait_of_sound arbiter) aimReplied_axd axd⟩
    · obtain ⟨state, slewList, slewed⟩ := aim_slews (x := x) (v := verdict) notRaising wind (mt level_iff.1 met) clear (headUp notRaising)
        (listedWait_of_sound arbiter) sound fun a m => (congrArg _ (goal_eq a)).trans (noSwitch a m)
      rw [funext goal_eq] at slewed
      exact ⟨state, slewList, slewed, mast⟩
    · refine ⟨mastKept (by rw [none]; exact List.not_mem_nil), ?_⟩
      split
      · rename_i missing
        obtain ⟨state, axd⟩ := aim_holds (x := x) (v := verdict) notRaising wind (level_iff.2 missing)
        exact ⟨state, fun a => axisOf_axd (axd.trans (aim_idle idle).2) a⟩
      · rename_i met
        have listed : listedWait p := fun a m => by rw [none] at m; cases m
        obtain ⟨state, slewList, slewed⟩ := aim_slews (x := x) (v := verdict) notRaising wind (mt level_iff.1 met) clear (headUp notRaising)
          listed (fun a m => by rw [idle a m]; exact AxisState.noConfusion) fun a m => (congrArg _ (goal_eq a)).trans (noSwitch a m)
        rw [funext goal_eq] at slewed
        exact ⟨state, slewList, fun a headAxis => axesSlewed_idle slewed headAxis (idle a headAxis)⟩

end Sys2Proof.Machine
end

