-- ==== Sys2Proof/Proofs/AxisMoves.lean ====
section
/-! PROOFS. What an operation of the plant can do to the drives, said once: `DriveMove` writes one axis record with the place the axis
has on ARB's lists, and `Evolves` is a chain of such moves. The invariants of AXD and ARB are then kept move by move (R78, R79, R82, R94). -/

namespace Sys2Proof.Machine

/-! ### One axis record and its place on ARB's lists -/

/-- Where ARB lists an axis: nowhere, among the waiting ones, or among the holders of a grant (R94). -/
inductive Place where
  | off | waits | holds
  deriving DecidableEq

def placeOf : AxisState → Place
  | .idle | .fault | .stopping => .off
  | .waiting => .waits
  | .moving | .settling => .holds

theorem placeOf_waits {x : AxisState} : placeOf x = .waits ↔ x = .waiting := by cases x <;> simp [placeOf]

theorem placeOf_holds {x : AxisState} : placeOf x = .holds ↔ x = .moving ∨ x = .settling := by cases x <;> simp [placeOf]

theorem placeOf_rest {x : AxisState} (h : restState x) : placeOf x = .off := by rcases h with rfl | rfl <;> rfl

/-- A record written: its outputs follow its state and its speed when they did before, and a new target is one clamped to the soft limits. -/
structure RecordWrite (e : Env) (a : Axis) (r r' : AxisRec) : Prop where
  sound : axisSound e a r = true → axisSound e a r' = true
  target : r'.target = r.target ∨ r'.target = none ∨ ∃ x, r'.target = some (clampSoft e a x)

/-- One move of the drives: a record written, and its axis entered on a list of ARB or taken from it as its state says (R94). -/
inductive DriveMove (e : Env) (p q : Plant) : Prop where
  | same (axd : q.axd = p.axd)
  | kept (a : Axis) (r : AxisRec) (w : RecordWrite e a (axisOf p a) r) (place : placeOf r.state = placeOf (axisOf p a).state)
      (axd : q.axd = (setAxisRaw a r p).axd)
  | joined (a : Axis) (r : AxisRec) (w : RecordWrite e a (axisOf p a) r) (before : placeOf (axisOf p a).state = .off) (after : r.state = .waiting)
      (axd : q.axd = (listWaiting a (setAxisRaw a r p)).axd)
  | abandoned (a : Axis) (r : AxisRec) (w : RecordWrite e a (axisOf p a) r) (before : (axisOf p a).state = .waiting) (after : placeOf r.state = .off)
      (axd : q.axd = (leaveWaiting a (setAxisRaw a r p)).axd)
  | left (a : Axis) (r : AxisRec) (w : RecordWrite e a (axisOf p a) r) (before : placeOf (axisOf p a).state = .holds) (after : placeOf r.state = .off)
      (axd : q.axd = (leaveGrants a (setAxisRaw a r p)).axd)
  | granted (a : Axis) (r : AxisRec) (flag : Alternation) (listed : a ∈ p.axd.waiting) (room : p.axd.grants.length < (cfgOf e).budget)
      (w : (axisOf p a).state = .waiting → RecordWrite e a (axisOf p a) r) (after : r.state = .moving) (target : r.target = (axisOf p a).target)
      (axd : q.axd = { (setAxisRaw a r p).axd with
        waiting := removeAll p.axd.waiting a, grants := insertNew p.axd.grants a, lastGranted := flag })

/-- A chain of moves. -/
def DriveMoves (e : Env) : Plant → Plant → Prop := Relation.ReflTransGen (DriveMove e)

/-! ### The outputs of a record (R78, R82) -/

/-- The states in which the brake is released (R78). -/
def drives : AxisState → Bool
  | .idle | .waiting | .fault => false
  | .moving | .settling | .stopping => true

theorem drives_rest {x : AxisState} (h : restState x) : drives x = false := by rcases h with rfl | rfl <;> rfl

theorem drives_holds {x : AxisState} (h : x = .moving ∨ x = .settling) : drives x = true := by rcases h with rfl | rfl <;> rfl

section
variable {e : Env} {a : Axis} {r r' : AxisRec}

theorem speedCode_zero (e : Env) (a : Axis) : speedCode e a 0 = 0 := by
  have half (d : Nat) : d / (2 * d) = 0 := by
    rcases Nat.eq_zero_or_pos d with rfl | pos
    · rfl
    · exact Nat.div_eq_of_lt (by omega)
  have zero : roundUp (((0 : Int).natAbs : Int) * 1023) ((axisCfg e a).fullScale : Int) = 0 := by
    have := half (axisCfg e a).fullScale
    simp only [roundUp, Int.natAbs_zero, Int.natCast_zero, Int.zero_mul, Int.mul_zero, Int.zero_add]
    exact_mod_cast this
  rw [speedCode, zero]
  rfl

theorem axisSound_iff : axisSound e a r = true ↔ r.code = speedCode e a r.v ∧ r.dirDriven = decide (r.v < 0) ∧
    r.brakeSet = !drives r.state ∧ (drives r.state = false → r.v = 0) := by
  unfold axisSound axisAtRest
  cases r.state <;> simp [and_assoc, drives]

/-- The outputs kept, and the brake as the new state has it. -/
theorem axisSound_kept (state : drives r'.state = drives r.state) (v : r'.v = r.v) (brake : r'.brakeSet = r.brakeSet) (code : r'.code = r.code)
    (dir : r'.dirDriven = r.dirDriven) (h : axisSound e a r = true) : axisSound e a r' = true := by
  rw [axisSound_iff] at h ⊢
  rw [state, v, brake, code, dir]
  exact h

/-- A new speed with the outputs that follow it, the brake released as it was. -/
theorem axisSound_speed {v : Int} (before : drives r.state = true) (after : drives r'.state = true) (outputs : r'.v = v ∧ r'.code = speedCode e a v ∧
    r'.dirDriven = decide (v < 0)) (brake : r'.brakeSet = r.brakeSet) (h : axisSound e a r = true) : axisSound e a r' = true := by
  obtain ⟨rfl, code, dir⟩ := outputs
  rw [axisSound_iff] at h ⊢
  refine ⟨code, dir, ?_, fun rest => by rw [after] at rest; cases rest⟩
  rw [brake, h.2.2.1, before, after]

/-- An axis at rest drives nothing, whatever it did before. -/
theorem axisSound_still (state : drives r'.state = false) (v : r'.v = 0) (brake : r'.brakeSet = true) (code : r'.code = 0) (dir : r'.dirDriven = false) :
    axisSound e a r' = true := by
  rw [axisSound_iff, v, brake, code, dir, state, speedCode_zero]
  exact ⟨rfl, rfl, rfl, fun _ => rfl⟩

/-! ### The writes -/

theorem RecordWrite.settled (h : RecordWrite e a r r') (x : AxisRec) : RecordWrite e a r (settleRecord e x r') := by
  obtain ⟨-, -, target, -, -, -, -, -, v, brake, -⟩ := settleRecord_fields e x r'
  have outputs : (settleRecord e x r').code = r'.code ∧ (settleRecord e x r').dirDriven = r'.dirDriven := by
    unfold settleRecord
    dsimp only
    split <;> exact ⟨rfl, rfl⟩
  exact ⟨fun s => axisSound_kept (by rw [settleRecord_state]) v brake outputs.1 outputs.2 (h.sound s), target ▸ h.target⟩

theorem SameDrive.recordWrite (h : SameDrive e a r r') : RecordWrite e a r r' :=
  ⟨axisSound_kept (by rw [h.state]) h.v h.brake h.code h.dir, h.target⟩

/-- A rest position taken as the hold target (R84). -/
theorem restTarget (position t : Option Int) :
    position.map (clampSoft e a) = t ∨ position.map (clampSoft e a) = none ∨ ∃ x, position.map (clampSoft e a) = some (clampSoft e a x) := by
  cases position with
  | none => exact .inr (.inl rfl)
  | some x => exact .inr (.inr ⟨x, rfl⟩)

end

section
variable {e : Env} {p q r : Plant} {a : Axis}

/-- What writes only posts and other blocks. -/
theorem driveMoves_axd (h : DriveMoves e p q) (axd : r.axd = q.axd) : DriveMoves e p r := h.tail (.same axd)

theorem driveMove_putAxis {x : AxisRec} (w : RecordWrite e a (axisOf p a) x) (place : placeOf x.state = placeOf (axisOf p a).state) :
    DriveMove e p (putAxis e a x p) :=
  .kept a _ (w.settled _) (by rw [settleRecord_state]; exact place) (putAxis_axd e a x p)

theorem driveMove_grantAxis (listed : a ∈ p.axd.waiting) (room : p.axd.grants.length < (cfgOf e).budget) : DriveMove e p (grantAxis e a p) := by
  refine .granted a _ (nameGranted a p.axd.lastGranted) listed room (fun waits => RecordWrite.settled ?_ _) ?_ ?_ (putAxis_axd e a _ _)
  · generalize hd : ({ p with axd := { p.axd with
      waiting := removeAll p.axd.waiting a, grants := insertNew p.axd.grants a, lastGranted := nameGranted a p.axd.lastGranted } } : Plant) = p1
    have same : axisOf p1 a = axisOf p a := axisOf_congr (by rw [← hd]) a
    rw [same]
    refine ⟨fun s => ?_, .inl rfl⟩
    rw [axisSound_iff] at s
    obtain ⟨code, dir, -, still⟩ := s
    rw [still (by rw [waits]; rfl)] at code dir
    exact axisSound_iff.2 ⟨code, dir, rfl, fun rest => nomatch rest⟩
  · exact settleRecord_state _ _ _
  · obtain ⟨-, -, target, -⟩ := settleRecord_fields e (axisOf { p with axd := { p.axd with
      waiting := removeAll p.axd.waiting a, grants := insertNew p.axd.grants a, lastGranted := nameGranted a p.axd.lastGranted } } a) _
    refine target.trans ?_
    cases a <;> rfl

theorem driveMove_tryGrant (e : Env) (p : Plant) : DriveMove e p (tryGrant e p) := by
  unfold tryGrant
  split
  · split
    · exact driveMove_grantAxis (chooseWaiting_mem ‹_›) ‹_›
    · exact .same rfl
  · exact .same rfl

theorem driveMoves_joinWaiting {x : AxisRec} (before : restState (axisOf p a).state) (same : SameDrive e a { axisOf p a with state := x.state } x) :
    DriveMoves e p (joinWaiting e a x p) := by
  have write : RecordWrite e a (axisOf p a) { x with state := .waiting } :=
    ⟨axisSound_kept (drives_rest before).symm same.v same.brake same.code same.dir, same.target⟩
  have joined : DriveMove e p (listWaiting a (putAxis e a { x with state := .waiting } p)) :=
    .joined a _ (write.settled (axisOf p a)) (placeOf_rest before) (settleRecord_state _ _ _)
      (congrArg (fun d : Drives => { d with waiting := insertNew d.waiting a }) (putAxis_axd e a { x with state := .waiting } p))
  exact .tail (.single joined) (driveMove_tryGrant e _)

theorem driveMove_abandonWaiting {next : AxisState} (before : (axisOf p a).state = .waiting) (after : restState next) :
    DriveMove e p (abandonWaiting e a next p) := by
  refine .abandoned a _ (RecordWrite.settled ?_ _) before ?_ (congrArg (fun d : Drives => { d with waiting := removeAll d.waiting a }) (putAxis_axd e a _ p))
  · exact ⟨fun _ => axisSound_still (drives_rest after) rfl rfl rfl rfl, restTarget _ _⟩
  · rw [settleRecord_state]
    exact placeOf_rest after

theorem driveMove_toStopping (before : (axisOf p a).state = .moving ∨ (axisOf p a).state = .settling) : DriveMove e p (toStopping e a p) := by
  refine .left a _ (RecordWrite.settled ?_ _) (placeOf_holds.2 before) ?_ (congrArg (fun d : Drives => { d with grants := removeAll d.grants a }) (putAxis_axd e a _ p))
  · exact ⟨axisSound_kept (drives_holds before).symm rfl rfl rfl rfl, .inl rfl⟩
  · rw [settleRecord_state]
    rfl

theorem driveMove_replaceMove (m : MoveRequest) (x : Int) : DriveMove e p (replaceMove e m (clampSoft e m.axis x) p) := by
  generalize hr : withRequest m (clampSoft e m.axis x) (axisOf p m.axis) = r
  have state : r.state = (axisOf p m.axis).state := by rw [← hr]; rfl
  have write {x' : AxisRec} (st : drives x'.state = drives r.state) (v : x'.v = r.v) (brake : x'.brakeSet = r.brakeSet) (code : x'.code = r.code)
      (dir : x'.dirDriven = r.dirDriven) (target : x'.target = r.target) : RecordWrite e m.axis (axisOf p m.axis) x' := by
    refine ⟨axisSound_kept (st.trans (congrArg drives state)) ?_ ?_ ?_ ?_, .inr (.inr ⟨x, ?_⟩)⟩
    · rw [v, ← hr]; rfl
    · rw [brake, ← hr]; rfl
    · rw [code, ← hr]; rfl
    · rw [dir, ← hr]; rfl
    · rw [target, ← hr]; rfl
  unfold replaceMove
  dsimp only
  rw [hr]
  cases st : r.state
  case settling =>
    dsimp only
    refine iteInduction (fun _ => ?_) fun _ => ?_
    · exact driveMove_putAxis (write (by rw [st]; rfl) rfl rfl rfl rfl rfl) (by rw [← state, st]; rfl)
    · exact driveMove_putAxis (write (by rw [st]) rfl rfl rfl rfl rfl) (by rw [← state, st])
  all_goals exact driveMove_putAxis (write rfl rfl rfl rfl rfl rfl) (congrArg placeOf state)

/-- A drive step that keeps the grant: a new speed, and SETTLING or MOVING entered (R82, R83). -/
theorem driveMove_speed {v : Int} {x : AxisRec} (before : (axisOf p a).state = .moving ∨ (axisOf p a).state = .settling) (after : x.state = .moving ∨ x.state = .settling)
    (outputs : x.v = v ∧ x.code = speedCode e a v ∧ x.dirDriven = decide (v < 0)) (brake : x.brakeSet = (axisOf p a).brakeSet) (target : x.target = (axisOf p a).target) :
    DriveMove e p (putAxis e a x p) :=
  driveMove_putAxis ⟨axisSound_speed (drives_holds before) (drives_holds after) outputs brake, .inl target⟩
    ((placeOf_holds.2 after).trans (placeOf_holds.2 before).symm)

/-- A STOPPING axis at rest (R84). -/
theorem driveMove_comeToRest (before : (axisOf p a).state = .stopping) : DriveMove e p (comeToRest e a p) := by
  have rests : restState (if isHeld p a then .fault else .idle) := by cases isHeld p a; exacts [.inl rfl, .inr rfl]
  refine driveMove_putAxis ⟨fun _ => axisSound_still (drives_rest rests) rfl rfl rfl rfl, restTarget _ _⟩ ?_
  rw [before]
  exact placeOf_rest rests

theorem driveMoves_driveStep (a : Axis) : DriveMoves e p (driveStep e a p) := by
  unfold driveStep
  cases st : (axisOf p a).state
  case moving =>
    dsimp only [moveStep]
    split
    · exact .single (driveMove_speed (.inl st) (.inr rfl) ⟨rfl, rfl, rfl⟩ rfl rfl)
    · exact .single (driveMove_speed (.inl st) (.inl st) ⟨rfl, rfl, rfl⟩ rfl rfl)
  case settling =>
    dsimp only [settleStep]
    split
    · exact .single (driveMove_speed (.inr st) (.inl rfl) ⟨rfl, rfl, rfl⟩ rfl rfl)
    · exact .single (driveMove_speed (.inr st) (.inr st) ⟨rfl, rfl, rfl⟩ rfl rfl)
  case stopping =>
    have slowed : DriveMove e p (putAxis e a (withSpeed e a (stopRamp (axisOf p a).v (axisCfg e a).stopStep) (axisOf p a)) p) :=
      driveMove_putAxis ⟨axisSound_speed (by rw [st]; rfl) (by rw [withSpeed, st]; rfl) ⟨rfl, rfl, rfl⟩ rfl, .inl rfl⟩ rfl
    dsimp only [stopStep]
    split
    · refine .tail (.single slowed) (driveMove_comeToRest ?_)
      rw [axisOf_putAxis, if_pos rfl, settleRecord_state]
      exact st
    · exact .single slowed
  all_goals exact .refl

theorem driveMoves_endSettled (before : (axisOf p a).state = .settling) : DriveMoves e p (endSettled e a p) := by
  have left : DriveMove e p (leaveGrants a (putAxis e a { clearMove (atRest (axisOf p a)) with state := .idle } p)) := by
    refine .left a _ (RecordWrite.settled ?_ _) (by rw [before]; rfl) (by rw [settleRecord_state]; rfl)
      (congrArg (fun d : Drives => { d with grants := removeAll d.grants a }) (putAxis_axd e a _ p))
    exact ⟨fun _ => axisSound_still rfl rfl rfl rfl rfl, .inl rfl⟩
  have idle : (axisOf (leaveGrants a (putAxis e a { clearMove (atRest (axisOf p a)) with state := .idle } p)) a).state = .idle := by simp
  unfold endSettled
  dsimp only
  split
  · refine .tail (.single left) (driveMove_putAxis ⟨axisSound_kept ?_ rfl rfl rfl rfl, .inl rfl⟩ ?_)
    · rw [idle]; rfl
    · rw [idle]; rfl
  · exact .single left

/-- What operations of the plant can do to the drives. -/
theorem Evolves.driveMoves (g : Evolves e p q) : DriveMoves e p q := by
  induction g with
  | refl => exact .refl
  | posted _ _ _ ih | inner _ _ _ _ _ _ _ _ ih | faults _ _ _ ih => exact driveMoves_axd ih rfl
  | written _ a r same ih => exact ih.tail (.kept a r same.recordWrite (by rw [same.state]) rfl)
  | rested _ a r before after same ih =>
    refine ih.tail (driveMove_putAxis ⟨?_, same.target⟩ ((placeOf_rest after).trans (placeOf_rest before).symm))
    exact axisSound_kept ((drives_rest after).trans (drives_rest before).symm) same.v same.brake same.code same.dir
  | abandoned _ a _ before after ih => exact ih.tail (driveMove_abandonWaiting before after)
  | stopped _ a before ih => exact ih.tail (driveMove_toStopping before)
  | joined _ a r _ before same ih => exact .trans ih (driveMoves_joinWaiting before same)
  | replaced _ m x _ _ ih => exact ih.tail (driveMove_replaceMove m x)
  | granted _ ih => exact ih.tail (driveMove_tryGrant e _)
  | stepped _ a ih => exact .trans ih (driveMoves_driveStep a)
  | completed _ a before ih => exact .trans ih (driveMoves_endSettled before)

end

end Sys2Proof.Machine
end

