-- ==== Sys2Proof/Proofs/AxisSteps.lean ====
section
/-! PROOFS. What one step can do to the drives and to the limits they are held to, said once for every command: a chain of moves under the
configuration in use, or a part that has not started with no axis on ARB's lists. -/

namespace Sys2Proof.Machine

/-! ### The effects of a step on the drives -/

/-- What a command can do to the drives of a quiet part. -/
inductive DriveEffect (s t : State) : Prop where
  | moves (e : Env) (cfg : cfgOf e = s.setup.cfg) (kept : t.setup.cfg = s.setup.cfg) (g : quiet s = true → DriveMoves e s.plant t.plant)
  | bare (axd : quiet s = true → t.plant.axd = .cold) (ordered : limitsOrdered t.setup.cfg = true)

/-- Every next state of an outcome is such an effect. -/
def DriveEffects (s : State) (o : Host.Outcome State Fault Refusal) : Prop := ∀ t, o = .next t → DriveEffect s t

section
variable {s t : State}

theorem DriveEffect.of_moves (g : DriveMoves (envOf s) s.plant t.plant) (kept : t.setup.cfg = s.setup.cfg) : DriveEffect s t :=
  .moves (envOf s) rfl kept fun _ => g

theorem DriveEffect.of_axd (axd : t.plant.axd = s.plant.axd) (kept : t.setup.cfg = s.setup.cfg) : DriveEffect s t :=
  .of_moves (driveMoves_axd .refl axd) kept

theorem DriveEffects.next (h : DriveEffect s t) : DriveEffects s (.next t) := by rintro _ ⟨⟩; exact h

theorem DriveEffects.same (s : State) : DriveEffects s (.next s) := .next (.of_axd rfl rfl)

theorem DriveEffects.ite {c : Prop} [Decidable c] {t : State} (h : c → DriveEffect s t) : DriveEffects s (if c then .next t else .next s) := by
  split
  · exact .next (h ‹_›)
  · exact .same s

theorem DriveEffects.iteAxd {c : Prop} [Decidable c] {t : State} (axd : t.plant.axd = s.plant.axd) (kept : t.setup.cfg = s.setup.cfg) :
    DriveEffects s (if c then .next t else .next s) := .ite fun _ => .of_axd axd kept

theorem DriveEffects.evolves {q : Plant} (h : Evolves (envOf s) s.plant q) : DriveEffects s (.next (withPlant q s)) :=
  .next (.of_moves h.driveMoves rfl)

/-- A command of the blocks, when it is due. -/
theorem DriveEffects.iteEvolves {c : Prop} [Decidable c] {q : Plant} (h : c → Evolves (envOf s) s.plant q) :
    DriveEffects s (if c then .next (withPlant q s) else .next s) := .ite fun hc => .of_moves (h hc).driveMoves rfl

/-! ### The start (spec/02) -/

theorem quiet_load_plant (phase : s.setup.phase = .reset ∨ s.setup.phase = .loading) (q : quiet s = true) : s.plant.axd = .cold := by
  obtain ⟨-, -, plant⟩ := (quiet_loading phase).1 q
  rw [plant]
  rfl

/-- SAFE is entered from a load, with no axis read yet and the configuration blank (R25). -/
theorem enterSafe_drives (c : ConfigFault) (phase : s.setup.phase = .reset ∨ s.setup.phase = .loading) : DriveEffect s (enterSafe c s) :=
  .bare (quiet_load_plant phase) rfl

theorem execResetRelease_drives (station : BitVec 5) (high : Bool) : DriveEffects s (execResetRelease station high s) := by
  refine .ite fun phase => ?_
  split
  · exact .of_axd rfl rfl
  · exact .bare (quiet_load_plant (.inl phase)) rfl

theorem limitsOrdered_of_legal {c : ConfigRecord} (h : cfgLegal c = true) : limitsOrdered c = true := by
  simp only [cfgLegal, axisCfgLegal, Bool.and_eq_true] at h
  simp only [limitsOrdered, h, Bool.and_true]

/-- A record in use has its soft limits in order (R23). -/
theorem loadOf_ordered (station : Nat) (record : List Byte) : limitsOrdered (loadOf station record).2 = true := by
  unfold loadOf
  dsimp only
  split
  · split
    · rfl
    · exact limitsOrdered_of_legal (clamped_cfgLegal _)
  · rfl

theorem execConfigLoadComplete_drives (record : List Byte) : DriveEffects s (execConfigLoadComplete record s) := by
  unfold execConfigLoadComplete
  split
  · rename_i loads
    have phase := loadOpen_loading loads.1
    have ordered := loadOf_ordered s.setup.station record
    split
    · exact .next (enterSafe_drives _ (.inr phase))
    · rename_i loaded
      rw [loaded] at ordered
      exact .next (.bare (quiet_load_plant (.inr phase)) ordered)
  · exact .same s

section
variable {e : Env} {p : Plant} {a : Axis}

theorem driveMove_enterAtStart (kind : FaultKind) (rest : restState (axisOf p a).state) : DriveMove e p (enterAtStart e kind a p) := by
  refine .kept a { axisOf p a with state := .fault, reportStart := some e.clock } ⟨?_, .inl rfl⟩ (placeOf_rest rest).symm ?_
  · exact axisSound_kept (drives_rest rest).symm rfl rfl rfl rfl
  · unfold enterAtStart
    cases a <;> rfl

theorem driveMoves_startAxis (x : AxisPins) (rest : restState (axisOf p a).state) : DriveMoves e p (startAxis e a x p) := by
  have same := readAxis_same (e := e) a x (axisOf p a)
  have read : DriveMoves e p (setAxisRaw a (readAxis e a x (axisOf p a)) p) := .single (.kept a _ same.recordWrite (by rw [same.state]) rfl)
  unfold startAxis
  dsimp only
  split
  · refine read.tail (driveMove_enterAtStart .sensor ?_)
    rw [axisOf_setAxisRaw, if_pos rfl, same.state]
    exact rest
  · exact read

theorem startedAxis_rest (x : AxisPins) : restState (startedAxis e a x .cold).state := by
  rw [(startedAxis_cold e a x).1]
  split
  · exact .inr rfl
  · exact .inl rfl

theorem driveMoves_axesStarted (pins : Axis → AxisPins) (cold : ∀ a, axisOf p a = .cold) : DriveMoves e p (axesStarted e pins p) := by
  have scan (a : Axis) : axisOf (beginScan e p) a = .cold := cold a
  have idle : restState AxisRec.cold.state := .inl rfl
  have mast := driveMoves_startAxis (e := e) (pins .mast) (p := beginScan e p) (a := .mast) (by rw [scan]; exact idle)
  have pan := mast.trans (driveMoves_startAxis (pins .pan) (a := .pan) (by simpa [axisOf_startAxis, scan] using idle))
  have tilt := pan.trans (driveMoves_startAxis (pins .tilt) (a := .tilt) (by simpa [axisOf_startAxis, scan] using idle))
  have pol := tilt.trans (driveMoves_startAxis (pins .pol) (a := .pol) (by simpa [axisOf_startAxis, scan] using idle))
  have scanned : DriveMove e p (beginScan e p) := .same rfl
  exact pol.head scanned

theorem driveMoves_deriveMast (rest : restState (axisOf p .mast).state) : DriveMoves e p (deriveMast e p) := by
  rw [deriveMast_eq]
  dsimp only
  split
  · exact (Relation.ReflTransGen.single (.same rfl)).tail (driveMove_enterAtStart .headUnparked rest)
  · exact .single (.same rfl)

end

/-- The start sequence: every axis read, those without a reading in FAULT, and MAST when the head is unparked (R26, R27). -/
theorem execStartSequence_drives (pins : Axis → AxisPins) :
    DriveEffects s (exec (.startSequence (pins .mast) (pins .pan) (pins .tilt) (pins .pol)) s) := by
  by_cases phase : s.setup.phase = .loaded
  · rw [exec_startSequence phase]
    refine .next (.moves { clock := s.clock, setup := { s.setup with phase := .running } } rfl rfl fun q => ?_)
    have cold (b : Axis) : axisOf s.plant b = .cold := by rw [quiet_loaded phase q]; cases b <;> rfl
    have read := driveMoves_axesStarted (e := { clock := s.clock, setup := { s.setup with phase := .running } }) pins cold
    refine driveMoves_axd (read.trans (driveMoves_deriveMast ?_)) rfl
    rw [axisOf_axesStarted cold]
    exact startedAxis_rest _
  · have none : exec (.startSequence (pins .mast) (pins .pan) (pins .tilt) (pins .pol)) s = .next s := if_neg phase
    rw [none]
    exact .same s

/-! ### The line (spec/01) -/

section
variable {e : Env} {p q : Plant}

theorem latchSetEvent_driveMoves (h : DriveMoves e p q) : DriveMoves e p (latchSetEvent e q) := h.trans (latchSetEvent_evolves .refl).driveMoves

theorem stopArrival_driveMoves (source : Nat) (stamp : Stamp) : DriveMoves e p (stopArrival e source stamp p) := by
  have latched : DriveMoves e p (postStatusIf (decide (p.aut.latch ≠ some (stopCause source p))) e
      { p with aut := { p.aut with window := some stamp, latch := some (stopCause source p) } }) := driveMoves_axd .refl (by simp)
  unfold stopArrival
  dsimp only
  split
  · exact latchSetEvent_driveMoves (driveMoves_axd latched rfl)
  · exact latched

theorem duplicateEvent_driveMoves : DriveMoves e p (duplicateEvent e p) := by
  have entered (m : MastState) : DriveMoves e p (enterDuplicate e m p) := driveMoves_axd .refl rfl
  unfold duplicateEvent
  repeat' split
  · exact driveMoves_axd .refl rfl
  · exact latchSetEvent_driveMoves (entered _)
  · exact entered _

end

theorem actOnNotice_drives (f : Frame) : DriveEffect s (actOnNotice f { s with line := endOfTail s.line }) := by
  unfold actOnNotice
  split
  · exact .of_moves duplicateEvent_driveMoves rfl
  · exact .of_moves (stopArrival_driveMoves _ _) rfl
  · exact .of_axd rfl rfl
  · exact .of_axd rfl rfl
  · unfold joinArrivals
    split <;> exact .of_axd rfl rfl

theorem execNoticeArrival_drives (f : Frame) : DriveEffects s (execNoticeArrival f s) := by
  unfold execNoticeArrival
  repeat' split
  · exact .next (actOnNotice_drives f)
  · exact .next (.of_axd rfl rfl)
  · exact .same s

theorem execStuckEvent_drives : DriveEffects s (execStuckEvent s) := by
  refine .ite fun _ => ?_
  dsimp only
  split <;> exact .of_axd rfl rfl

theorem execNoticeBegin_drives : DriveEffects s (execNoticeBegin s) := by
  unfold execNoticeBegin
  split
  · exact .next (.of_axd rfl rfl)
  · exact .same s

theorem execContentionLost_drives (bit : Fin 12) : DriveEffects s (execContentionLost bit s) := by
  unfold execContentionLost
  split
  · exact .iteAxd rfl rfl
  · exact .same s

theorem execSendFault_drives (m : Mismatch) : DriveEffects s (execSendFault m s) := by
  unfold execSendFault
  split
  · exact .iteAxd rfl rfl
  · exact .same s

theorem execSentWhole_drives : DriveEffects s (execSentWhole s) := by
  unfold execSentWhole
  split
  · exact .next (.of_axd rfl rfl)
  · exact .same s

theorem execWithdrawalExpiry_drives : DriveEffects s (execWithdrawalExpiry s) := by
  unfold execWithdrawalExpiry
  split
  · exact .iteAxd rfl rfl
  · exact .same s

theorem execLinkReportPeriodExpiry_drives : DriveEffects s (execLinkReportPeriodExpiry s) := by
  unfold execLinkReportPeriodExpiry
  split
  · exact .iteAxd rfl rfl
  · exact .same s

/-! ### The takings (R16) -/

section
variable {e : Env} {p q : Plant}

theorem driveMoves_peers (v : PeerView) : DriveMoves e p { p with pvw := v } := driveMoves_axd .refl rfl

theorem evaluate_driveMoves (h : DriveMoves e p q) (role : Role) (byReport : Bool) : DriveMoves e p (evaluate e role byReport q) := by
  have formed : DriveMoves e p { q with pvw := { q.pvw with permissives := evalRole e q role } } := driveMoves_axd h rfl
  unfold evaluate
  dsimp only
  split
  · exact formed
  · exact formed.trans (changeUsers_evolves .refl _ byReport).driveMoves

theorem driveAway_driveMoves (h : DriveMoves e p q) : DriveMoves e p (driveAway e q) := h.trans (driveAway_evolves .refl).driveMoves

theorem setPeerView_driveMoves (v : PeerView) : DriveMoves e p (setPeerView e v p) := driveMoves_axd .refl (by simp [setPeerView])

theorem takeVehicle_driveMoves (x : ArrivalEntry) : DriveMoves e p (takeVehicle e x p) := by
  have stored : DriveMoves e p (evaluate e .vehicle false (storeVehicle (takenEntry (vehicleOf x.payload) x.stamp) p)) :=
    evaluate_driveMoves (driveMoves_peers _) _ _
  unfold takeVehicle
  dsimp only
  split
  · exact stored
  · exact driveAway_driveMoves stored

theorem takeWind_driveMoves (x : ArrivalEntry) : DriveMoves e p (takeWind e x p) := evaluate_driveMoves (setPeerView_driveMoves _) _ _

theorem takeClearance_driveMoves (x : ArrivalEntry) : DriveMoves e p (takeClearance e x p) :=
  (evaluate_driveMoves (driveMoves_peers _) _ _).trans (clearanceValue_evolves .refl _).driveMoves

theorem takeLevel_driveMoves (x : ArrivalEntry) : DriveMoves e p (takeLevel e x p) := by
  unfold takeLevel
  split
  · exact (evaluate_driveMoves (driveMoves_peers _) _ _).trans (handReport_evolves .refl _).driveMoves
  · exact .refl

theorem expireRole_driveMoves (role : Role) : DriveMoves e p (expireRole e role p) := by
  have expired : DriveMoves e p (evaluate e role false (setPeerView e (expireEntry role p.pvw) p)) := evaluate_driveMoves (setPeerView_driveMoves _) _ _
  unfold expireRole
  dsimp only
  split
  · exact driveAway_driveMoves expired
  · exact expired

/-- A command taken: its owner when the common checks pass, the holder and the REPLY (R56). -/
theorem commandDone_driveMoves {c : CommandCode} {owner : Env → ArrivalEntry → Plant → Plant × Verdict} {x : ArrivalEntry}
    (own : commonChecks e c x.source p = none → DriveMoves e p (owner e x p).1) : DriveMoves e p (commandDone e c owner x p) := by
  have judged : DriveMoves e p (judge e c owner x p).1 := by
    cases check : commonChecks e c x.source p with
    | none => rw [judge_owner owner check]; exact own check
    | some v => rw [judge_refused owner check]; exact .refl
  exact driveMoves_axd judged rfl

theorem aimDone_driveMoves (x : ArrivalEntry) : DriveMoves e p (aimDone e x p) := by
  have done : DriveMoves e p (commandDone e .aim ownAim x p) := commandDone_driveMoves fun _ => (ownAim_evolves .refl x).driveMoves
  unfold aimDone
  dsimp only
  split
  · exact done
  · exact done.trans (beginAim_evolves .refl).driveMoves

theorem ownResume_driveMoves (x : ArrivalEntry) : DriveMoves e p (ownResume e x p).1 := by
  unfold ownResume
  split
  · exact .refl
  · exact driveMoves_axd .refl (by simp)

end

theorem takeRole_drives {r : Role} {act : Env → ArrivalEntry → Plant → Plant} (h : ∀ x, DriveMoves (envOf s) s.plant (act (envOf s) x s.plant)) :
    DriveEffects s (.next (takeRole r act s)) := by
  refine .next ?_
  unfold takeRole
  split
  · exact .of_moves (h _) rfl
  · exact .of_axd rfl rfl

theorem takeCommand_drives {c : CommandCode} {owner : Env → ArrivalEntry → Plant → Plant × Verdict}
    (own : ∀ x, commonChecks (envOf s) c x.source s.plant = none → DriveMoves (envOf s) s.plant (owner (envOf s) x s.plant).1) :
    DriveEffect s (takeCommand c owner s) := by
  unfold takeCommand
  split
  · exact .of_moves (commandDone_driveMoves (own _)) rfl
  · exact .of_axd rfl rfl

/-- A command whose owner is an operation of the blocks. -/
theorem DriveEffects.command {c : CommandCode} {owner : Env → ArrivalEntry → Plant → Plant × Verdict}
    (own : ∀ x, commonChecks (envOf s) c x.source s.plant = none → Evolves (envOf s) s.plant (owner (envOf s) x s.plant).1) :
    DriveEffects s (.next (takeCommand c owner s)) := .next (takeCommand_drives fun x h => (own x h).driveMoves)

theorem postRound_axd (l : List RoundItem) (s : State) : (postRound l s).plant.axd = s.plant.axd ∧ (postRound l s).setup = s.setup := by
  induction l generalizing s with
  | nil => exact ⟨rfl, rfl⟩
  | cons i l ih =>
    have item : (postItem i s).plant.axd = s.plant.axd ∧ (postItem i s).setup = s.setup := by cases i <;> exact ⟨rfl, rfl⟩
    unfold postRound
    split
    · exact ⟨(ih _).1.trans item.1, (ih _).2.trans item.2⟩
    · exact ⟨rfl, rfl⟩

theorem postRound_drives (l : List RoundItem) (h : DriveEffect s t) : DriveEffect s (postRound l t) := by
  obtain ⟨axd, setup⟩ := postRound_axd l t
  cases h with
  | moves e cfg kept g => exact .moves e cfg (by rw [setup, kept]) fun q => driveMoves_axd (g q) axd
  | bare cold ordered => exact .bare (fun q => axd.trans (cold q)) (by rw [setup]; exact ordered)

theorem execReport_drives : DriveEffects s (execReport s) := by
  have taken : DriveEffect s (takeCommand .report ownReport s) := takeCommand_drives fun _ _ => driveMoves_axd .refl rfl
  unfold execReport
  dsimp only
  split
  · exact .next (postRound_drives _ taken)
  · exact .next taken

theorem execAim_drives : DriveEffects s (execAim s) := by
  unfold execAim
  split
  · exact .next (.of_moves (aimDone_driveMoves _) rfl)
  · exact .same s

theorem execUnknownCommandCode_drives : DriveEffects s (execUnknownCommandCode s) := by
  unfold execUnknownCommandCode
  split
  · exact .next (.of_axd rfl rfl)
  · exact .same s

theorem execPositionerStatus_drives : DriveEffects s (execPositionerStatus s) := by
  unfold execPositionerStatus
  split
  · refine .next ?_
    split
    · exact .of_moves duplicateEvent_driveMoves rfl
    · exact .of_axd rfl rfl
  · exact .same s

/-! ### Timers and periods -/

theorem execStopWindowExpiry_drives : DriveEffects s (execStopWindowExpiry s) := by
  unfold execStopWindowExpiry
  split
  · exact .iteAxd rfl rfl
  · exact .same s

theorem execDuplicateQuietExpiry_drives : DriveEffects s (execDuplicateQuietExpiry s) := by
  unfold execDuplicateQuietExpiry
  split
  · exact .iteAxd rfl rfl
  · exact .same s

theorem execStatusPeriodExpiry_drives : DriveEffects s (execStatusPeriodExpiry s) := by
  unfold execStatusPeriodExpiry
  split
  · exact .iteAxd rfl rfl
  · exact .same s

theorem execScanConversionComplete_drives (r : Count) : DriveEffects s (execScanConversionComplete r s) := by
  unfold execScanConversionComplete
  split
  · exact .evolves (withSampler_evolves (scanResult_evolves .refl _ r) _)
  · exact .same s

theorem execDwellConversionComplete_drives (r : Count) : DriveEffects s (execDwellConversionComplete r s) := by
  unfold execDwellConversionComplete
  split
  · exact .evolves (withSampler_evolves (dwellResult_evolves .refl _ _ r) _)
  · exact .same s

theorem execServoPeriod_drives (a : Axis) (x : AxisPins) : DriveEffects s (execServoPeriod a x s) := by
  unfold execServoPeriod
  split
  · exact .evolves (servoPeriod_evolves .refl a x)
  · exact .evolves (readOnly_evolves .refl a x)
  all_goals exact .same s

theorem settleExpired_settling {a : Axis} (h : settleExpired (envOf s) a (axisOf s.plant a) = true) : (axisOf s.plant a).state = .settling := by
  simp only [settleExpired, Bool.and_eq_true, decide_eq_true_eq] at h
  exact h.1.1.1

theorem execAxisReportPeriodExpiry_drives (a : Axis) : DriveEffects s (execAxisReportPeriodExpiry a s) := by
  unfold execAxisReportPeriodExpiry
  dsimp only
  split
  · refine .ite fun _ => .of_moves (postAxisReport_evolves (Evolves.refl.written a _ ?_) a).driveMoves rfl
    exact ⟨rfl, rfl, rfl, rfl, rfl, .inl rfl⟩
  · exact .same s

theorem execSearchSettleExpiry_drives : DriveEffects s (execSearchSettleExpiry s) := by
  unfold execSearchSettleExpiry
  split
  · exact .iteEvolves fun _ => patternMeasure_evolves .refl
  · exact .same s

theorem execPatternResumeDelayExpiry_drives : DriveEffects s (execPatternResumeDelayExpiry s) := by
  unfold execPatternResumeDelayExpiry
  split
  · exact .iteEvolves fun _ => takeUpPattern_evolves .refl
  · exact .same s

theorem execCrossSettleExpiry_drives : DriveEffects s (execCrossSettleExpiry s) := by
  unfold execCrossSettleExpiry
  split
  · exact .iteEvolves fun _ => runMeasure_evolves .refl _
  · exact .same s

theorem execClosingSettleExpiry_drives : DriveEffects s (execClosingSettleExpiry s) := by
  unfold execClosingSettleExpiry
  split
  · exact .iteEvolves fun _ => runMeasure_evolves .refl _
  · exact .same s

theorem execRunResumeDelayExpiry_drives : DriveEffects s (execRunResumeDelayExpiry s) := by
  unfold execRunResumeDelayExpiry
  split
  · exact .iteEvolves fun _ => takeUpRun_evolves .refl _
  · exact .same s

theorem execTrackSamplePeriodExpiry_drives : DriveEffects s (execTrackSamplePeriodExpiry s) := by
  unfold execTrackSamplePeriodExpiry
  split
  · exact .iteEvolves fun _ => takeSamplePeriod_evolves .refl
  · exact .same s

/-! ### Every command -/

theorem exec_drives (c : Instr) (s : State) : DriveEffects s (exec c s) := by
  cases c with
  | coldStart => exact .next (.bare (fun _ => rfl) rfl)
  | resetRelease station high => exact execResetRelease_drives station high
  | configLoadComplete record => exact execConfigLoadComplete_drives record
  | configLoadTimeout => exact .ite fun h => enterSafe_drives _ (.inr h.1)
  | memoryNoAnswer => exact .ite fun h => enterSafe_drives _ (.inr h)
  | startSequence mast pan tilt pol => exact execStartSequence_drives (fourPins mast pan tilt pol)
  | lineIdle => exact .iteAxd rfl rfl
  | startBit => exact .iteAxd rfl rfl
  | stuckEvent => exact execStuckEvent_drives
  | noticeArrival f => exact execNoticeArrival_drives f
  | noticeDiscard => exact .iteAxd rfl rfl
  | startOutsideIdle => exact .iteAxd rfl rfl
  | noticeBegin => exact execNoticeBegin_drives
  | contentionLost bit => exact execContentionLost_drives bit
  | sendFault m => exact execSendFault_drives m
  | sentWhole => exact execSentWhole_drives
  | withdrawalExpiry => exact execWithdrawalExpiry_drives
  | linkReportPeriodExpiry => exact execLinkReportPeriodExpiry_drives
  | vehicle => exact takeRole_drives takeVehicle_driveMoves
  | wind => exact takeRole_drives takeWind_driveMoves
  | clearance => exact takeRole_drives takeClearance_driveMoves
  | level => exact takeRole_drives takeLevel_driveMoves
  | positionerStatus => exact execPositionerStatus_drives
  | resume => exact .next (takeCommand_drives fun x _ => ownResume_driveMoves x)
  | clearFault => exact .command fun x _ => ownClearFault_evolves .refl x
  | report => exact execReport_drives
  | raise => exact .command fun x _ => ownRaise_evolves .refl x
  | lower => exact .command fun x _ => ownLower_evolves .refl x
  | aim => exact execAim_drives
  | peak => exact .command fun x _ => ownPeak_evolves .refl x
  | cancelPointing => exact .command fun x _ => ownCancelPointing_evolves .refl x
  | jog => exact .command fun x h => ownJog_evolves .refl x (latch_clear_of_checks rfl h)
  | unknownCommandCode => exact execUnknownCommandCode_drives
  | freshnessExpiry r => exact .ite fun _ => .of_moves (expireRole_driveMoves r) rfl
  | stopWindowExpiry => exact execStopWindowExpiry_drives
  | duplicateQuietExpiry => exact execDuplicateQuietExpiry_drives
  | reportRoundPost => exact .next (postRound_drives _ (.of_axd rfl rfl))
  | statusPeriodExpiry => exact execStatusPeriodExpiry_drives
  | scanConversionComplete r => exact execScanConversionComplete_drives r
  | dwellConversionComplete r => exact execDwellConversionComplete_drives r
  | dwellFree q => exact .iteEvolves fun _ => takeDwellFree_evolves .refl q
  | servoPeriod a x => exact execServoPeriod_drives a x
  | stallTimeout a => exact .iteEvolves fun _ => takeStall_evolves .refl a
  | settleTimeExpiry a => exact .iteEvolves fun expired => takeSettled_evolves .refl a (settleExpired_settling expired)
  | axisReportPeriodExpiry a => exact execAxisReportPeriodExpiry_drives a
  | axisFree a q => exact .iteEvolves fun _ => takeAxisFree_evolves .refl q a
  | driveGrant => exact .evolves Evolves.refl.granted
  | presetSettleExpiry => exact .iteEvolves fun _ => presetMeasure_evolves .refl
  | searchSettleExpiry => exact execSearchSettleExpiry_drives
  | patternResumeDelayExpiry => exact execPatternResumeDelayExpiry_drives
  | crossSettleExpiry => exact execCrossSettleExpiry_drives
  | closingSettleExpiry => exact execClosingSettleExpiry_drives
  | runResumeDelayExpiry => exact execRunResumeDelayExpiry_drives
  | trackSamplePeriodExpiry => exact execTrackSamplePeriodExpiry_drives
  | fadeTimerExpiry => exact .iteEvolves fun _ => takeFade_evolves .refl
  | lossTimerExpiry => exact .iteEvolves fun _ => takeLoss_evolves .refl

/-- A step is a tick or a command; either way its effect on the drives is one of those named. -/
theorem step_drives (h : step s = .next t) (q : quiet s = true) : (∃ e, cfgOf e = s.setup.cfg ∧ t.setup.cfg = s.setup.cfg ∧ DriveMoves e s.plant t.plant) ∨
    (t.plant.axd = .cold ∧ limitsOrdered t.setup.cfg = true) := by
  have effect : DriveEffect s t := by
    unfold step at h
    split at h
    · cases h
      exact .of_axd rfl rfl
    · cases exec_drives _ _ t h with
      | moves e cfg kept g => exact .moves e cfg kept g
      | bare axd ordered => exact .bare axd ordered
  cases effect with
  | moves e cfg kept g => exact .inl ⟨e, cfg, kept, g q⟩
  | bare axd ordered => exact .inr ⟨axd q, ordered⟩

end

end Sys2Proof.Machine
end

