-- ==== Sys2Proof/Proofs/AxisInvariants.lean ====
section
/-! PROOFS. The invariants of AXD and ARB, kept move by move: the lists and the budget (O7), the outputs of an axis (O6), and its target (O9). -/

namespace Sys2Proof.Machine

/-! ### ARB's lists (R94) -/

/-- A grant is held in MOVING and SETTLING, an axis waits in WAITING, and neither list repeats an axis. -/
structure ListsAgree (p : Plant) : Prop where
  grantsOnce : p.axd.grants.Nodup
  waitingOnce : p.axd.waiting.Nodup
  holds : ∀ a, a ∈ p.axd.grants ↔ placeOf (axisOf p a).state = .holds
  waits : ∀ a, a ∈ p.axd.waiting ↔ placeOf (axisOf p a).state = .waits

theorem arbiterSound_iff {p : Plant} : arbiterSound p = true ↔ ListsAgree p := by
  simp only [arbiterSound, Bool.and_eq_true, decide_eq_true_eq, forall_axes_iff]
  refine ⟨fun ⟨⟨g, w⟩, h⟩ => ⟨g, w, fun a => (h a).1.trans placeOf_holds.symm, fun a => (h a).2.trans placeOf_waits.symm⟩, fun h => ?_⟩
  exact ⟨⟨h.grantsOnce, h.waitingOnce⟩, fun a => ⟨(h.holds a).trans placeOf_holds, (h.waits a).trans placeOf_waits⟩⟩

theorem removeAll_nodup {l : List Axis} (h : l.Nodup) (a : Axis) : (removeAll l a).Nodup := h.filter _

theorem insertNew_nodup {l : List Axis} (h : l.Nodup) (a : Axis) : (insertNew l a).Nodup := by
  unfold insertNew
  split
  · exact h
  · exact List.nodup_append.2 ⟨h, List.nodup_singleton a, fun x mem y here => by simp only [List.mem_singleton] at here; rintro rfl; exact ‹a ∉ l› (here ▸ mem)⟩

theorem insertNew_length_le {l : List Axis} (a : Axis) : (insertNew l a).length ≤ l.length + 1 := by
  unfold insertNew
  split <;> simp

section
variable {e : Env} {p q : Plant} {a : Axis} {r : AxisRec}

/-- The records after one is written. -/
theorem axisOf_written (axes : q.axd.axes = (setAxisRaw a r p).axd.axes) (b : Axis) : axisOf q b = if b = a then r else axisOf p b :=
  (axisOf_congr axes b).trans (axisOf_setAxisRaw a b r p)

/-- The lists agree again when the one axis written stands where its new state puts it. -/
theorem ListsAgree.written (h : ListsAgree p) (axes : q.axd.axes = (setAxisRaw a r p).axd.axes) (grantsOnce : q.axd.grants.Nodup)
    (waitingOnce : q.axd.waiting.Nodup) (holds : a ∈ q.axd.grants ↔ placeOf r.state = .holds) (waits : a ∈ q.axd.waiting ↔ placeOf r.state = .waits)
    (others : ∀ b, b ≠ a → ((b ∈ q.axd.grants ↔ b ∈ p.axd.grants) ∧ (b ∈ q.axd.waiting ↔ b ∈ p.axd.waiting))) : ListsAgree q := by
  refine ⟨grantsOnce, waitingOnce, fun b => ?_, fun b => ?_⟩ <;> rw [axisOf_written axes] <;> by_cases same : b = a
  · rw [if_pos same, same]; exact holds
  · rw [if_neg same]; exact (others b same).1.trans (h.holds b)
  · rw [if_pos same, same]; exact waits
  · rw [if_neg same]; exact (others b same).2.trans (h.waits b)

/-- Every move keeps the lists those of the axis states. -/
theorem DriveMove.lists (move : DriveMove e p q) (h : ListsAgree p) : ListsAgree q := by
  cases move with
  | same axd => exact ⟨axd ▸ h.grantsOnce, axd ▸ h.waitingOnce, fun b => by rw [axisOf_axd axd, axd, h.holds], fun b => by rw [axisOf_axd axd, axd, h.waits]⟩
  | kept a r _ place axd =>
    obtain ⟨grants, waiting⟩ : q.axd.grants = p.axd.grants ∧ q.axd.waiting = p.axd.waiting := by rw [axd]; cases a <;> exact ⟨rfl, rfl⟩
    refine h.written (congrArg Drives.axes axd :) ?_ ?_ ?_ ?_ fun b _ => ?_ <;> simp only [grants, waiting, place]
    · exact h.grantsOnce
    · exact h.waitingOnce
    · exact h.holds a
    · exact h.waits a
    · simp
  | joined a r _ before after axd =>
    obtain ⟨grants, waiting⟩ : q.axd.grants = p.axd.grants ∧ q.axd.waiting = insertNew p.axd.waiting a := by rw [axd]; cases a <;> exact ⟨rfl, rfl⟩
    refine h.written (congrArg Drives.axes axd :) ?_ ?_ ?_ ?_ fun b other => ?_ <;> simp only [grants, waiting, after]
    · exact h.grantsOnce
    · exact insertNew_nodup h.waitingOnce a
    · rw [h.holds, before]; decide
    · simp [mem_insertNew, placeOf]
    · simp [mem_insertNew, other]
  | abandoned a r _ before after axd =>
    obtain ⟨grants, waiting⟩ : q.axd.grants = p.axd.grants ∧ q.axd.waiting = removeAll p.axd.waiting a := by rw [axd]; cases a <;> exact ⟨rfl, rfl⟩
    refine h.written (congrArg Drives.axes axd :) ?_ ?_ ?_ ?_ fun b other => ?_ <;> simp only [grants, waiting, after]
    · exact h.grantsOnce
    · exact removeAll_nodup h.waitingOnce a
    · rw [h.holds, before]; decide
    · simp [removeAll_mem]
    · simp [removeAll_mem, other]
  | left a r _ before after axd =>
    obtain ⟨grants, waiting⟩ : q.axd.grants = removeAll p.axd.grants a ∧ q.axd.waiting = p.axd.waiting := by rw [axd]; cases a <;> exact ⟨rfl, rfl⟩
    refine h.written (congrArg Drives.axes axd :) ?_ ?_ ?_ ?_ fun b other => ?_ <;> simp only [grants, waiting, after]
    · exact removeAll_nodup h.grantsOnce a
    · exact h.waitingOnce
    · simp [removeAll_mem]
    · rw [h.waits, before]; decide
    · simp [removeAll_mem, other]
  | granted a r flag _ _ _ after _ axd =>
    refine h.written (congrArg Drives.axes axd :) ?_ ?_ ?_ ?_ fun b other => ?_ <;> simp only [axd, after]
    · exact insertNew_nodup h.grantsOnce a
    · exact removeAll_nodup h.waitingOnce a
    · simp [mem_insertNew, placeOf]
    · simp [removeAll_mem, placeOf]
    · exact ⟨by simp [mem_insertNew, other], by simp [removeAll_mem, other]⟩

/-- A grant is given only while one is free (R94). -/
theorem DriveMove.grants (move : DriveMove e p q) (h : p.axd.grants.length ≤ (cfgOf e).budget) : q.axd.grants.length ≤ (cfgOf e).budget := by
  have written (a : Axis) (r : AxisRec) : (setAxisRaw a r p).axd.grants = p.axd.grants := by cases a <;> rfl
  cases move with
  | same axd => rw [axd]; exact h
  | kept a r _ _ axd => rw [axd, written]; exact h
  | joined a r _ _ _ axd | abandoned a r _ _ _ axd => rw [axd]; exact (written a r).symm ▸ h
  | left a r _ _ _ axd =>
    have fewer : q.axd.grants = removeAll p.axd.grants a := by rw [axd]; exact congrArg (removeAll · a) (written a r)
    rw [fewer]
    exact (List.length_filter_le _ _).trans h
  | granted a r _ _ room _ _ _ axd => rw [axd]; exact (insertNew_length_le a).trans room

/-! ### The records (R78, R79, R82) -/

theorem axisSound_at (axes : q.axd.axes = (setAxisRaw a r p).axd.axes) (write : RecordWrite e a (axisOf p a) r)
    (h : ∀ b, axisSound e b (axisOf p b) = true) (b : Axis) : axisSound e b (axisOf q b) = true := by
  rw [axisOf_written axes]
  by_cases same : b = a
  · rw [if_pos same, same]
    exact write.sound (h a)
  · rw [if_neg same]
    exact h b

/-- Every move keeps the outputs those of the state and the speed; a grant finds its axis in WAITING and so at speed 0. -/
theorem DriveMove.outputs (move : DriveMove e p q) (agree : ListsAgree p) (h : ∀ b, axisSound e b (axisOf p b) = true) (b : Axis) :
    axisSound e b (axisOf q b) = true := by
  cases move with
  | same axd => rw [axisOf_axd axd]; exact h b
  | kept a r w _ axd | joined a r w _ _ axd | abandoned a r w _ _ axd | left a r w _ _ axd => exact axisSound_at (congrArg Drives.axes axd :) w h b
  | granted a r _ listed _ w _ _ axd => exact axisSound_at (congrArg Drives.axes axd :) (w (placeOf_waits.1 ((agree.waits a).1 listed))) h b

/-- A target within the soft limits, where there is one. -/
def TargetIn (c : AxisCfg) (t : Option Int) : Prop := ∀ x, t = some x → c.softMin ≤ x ∧ x ≤ c.softMax

theorem targetWithin_iff {c : AxisCfg} {r : AxisRec} : targetWithin c r = true ↔ TargetIn c r.target := by
  unfold targetWithin TargetIn
  cases r.target <;> simp

theorem limitsOrdered_iff {e : Env} : limitsOrdered (cfgOf e) = true ↔ ∀ a, (axisCfg e a).softMin ≤ (axisCfg e a).softMax := by
  simp only [limitsOrdered, Bool.and_eq_true, decide_eq_true_eq]
  refine ⟨fun ⟨⟨⟨mast, pan⟩, tilt⟩, pol⟩ a => ?_, fun h => ⟨⟨⟨h .mast, h .pan⟩, h .tilt⟩, h .pol⟩⟩
  cases a <;> assumption

/-- A target kept, taken away, or clamped to the soft limits (R79 step 5). -/
theorem TargetIn.written {t t' : Option Int} (ordered : (axisCfg e a).softMin ≤ (axisCfg e a).softMax) (h : TargetIn (axisCfg e a) t)
    (write : t' = t ∨ t' = none ∨ ∃ x, t' = some (clampSoft e a x)) : TargetIn (axisCfg e a) t' := by
  rcases write with rfl | rfl | ⟨y, rfl⟩
  · exact h
  · rintro x ⟨⟩
  · rintro x ⟨⟩
    exact inRangeInt_iff.1 (clampInt_inRange ordered y)

theorem DriveMove.target (move : DriveMove e p q) (b : Axis) :
    (axisOf q b).target = (axisOf p b).target ∨ (axisOf q b).target = none ∨ ∃ x, (axisOf q b).target = some (clampSoft e b x) := by
  have written {a : Axis} {r : AxisRec} (axes : q.axd.axes = (setAxisRaw a r p).axd.axes)
      (w : r.target = (axisOf p a).target ∨ r.target = none ∨ ∃ x, r.target = some (clampSoft e a x)) :
      (axisOf q b).target = (axisOf p b).target ∨ (axisOf q b).target = none ∨ ∃ x, (axisOf q b).target = some (clampSoft e b x) := by
    rw [axisOf_written axes]
    by_cases same : b = a
    · rw [if_pos same, same]
      exact w
    · rw [if_neg same]
      exact .inl rfl
  cases move with
  | same axd => rw [axisOf_axd axd]; exact .inl rfl
  | kept a r w _ axd | joined a r w _ _ axd | abandoned a r w _ _ axd | left a r w _ _ axd => exact written (congrArg Drives.axes axd :) w.target
  | granted a r _ _ _ _ _ target axd => exact written (congrArg Drives.axes axd :) (.inl target)

/-! ### A chain of moves -/

/-- What every move keeps, a chain of them keeps. -/
theorem DriveMoves.keeps {P : Plant → Prop} (step : ∀ p q, DriveMove e p q → P p → P q) (g : DriveMoves e p q) (h : P p) : P q := by
  induction g with
  | refl => exact h
  | tail _ move ih => exact step _ _ move ih

end

/-! ### The statements -/

theorem axisOf_cold {p : Plant} (axd : p.axd = .cold) (a : Axis) : axisOf p a = .cold := by
  rw [axisOf_axd (q := Plant.cold) axd]
  cases a <;> rfl

theorem listsAgree_cold {p : Plant} (axd : p.axd = .cold) : ListsAgree p := by
  refine ⟨?_, ?_, fun a => ?_, fun a => ?_⟩ <;> simp [axisOf_cold axd, axd, Drives.cold, AxisRec.cold, placeOf]

/-- What a record is held to is the configuration's. -/
theorem axisSound_cfg {e f : Env} (same : cfgOf e = cfgOf f) (a : Axis) (r : AxisRec) : axisSound e a r = axisSound f a r := by
  have cfg : axisCfg e a = axisCfg f a := by cases a <;> simp [axisCfg, same]
  unfold axisSound speedCode
  rw [cfg]

/-- Settles O7: each move enters its axis on a list, or takes it from one, as its state says, and a grant is given only with one free. -/
theorem arbiterListsAndGrantsStaySound : Obligations.ArbiterListsAndGrantsStaySound := by
  refine ⟨fun s t q sound h => ?_, fun s t q sound h => ?_⟩
  · rcases step_drives h q with ⟨e, -, -, g⟩ | ⟨axd, -⟩
    · exact arbiterSound_iff.2 (g.keeps (fun _ _ move => move.lists) (arbiterSound_iff.1 sound))
    · exact arbiterSound_iff.2 (listsAgree_cold axd)
  · simp only [budgetSound, decide_eq_true_eq] at sound ⊢
    rcases step_drives h q with ⟨e, cfg, kept, g⟩ | ⟨axd, -⟩
    · rw [← cfg] at sound
      rw [kept, ← cfg]
      exact g.keeps (P := fun p => p.axd.grants.length ≤ (cfgOf e).budget) (fun _ _ move => move.grants) sound
    · rw [axd]
      exact Nat.zero_le _

/-- Settles O6: each move writes the outputs with the state and the speed they follow, given that a grant goes to an axis that waits. -/
theorem axisOutputsFollowStateAndSpeed : Obligations.AxisOutputsFollowStateAndSpeed := by
  intro s t q sound arb h
  rw [axesSound, forall_axes_iff] at sound ⊢
  rcases step_drives h q with ⟨e, cfg, kept, g⟩ | ⟨axd, -⟩
  · have before (a : Axis) : axisSound e a (axisOf s.plant a) = true := (axisSound_cfg (f := envOf s) cfg a _).trans (sound a)
    have after := g.keeps (P := fun p => ListsAgree p ∧ ∀ a, axisSound e a (axisOf p a) = true)
      (fun _ _ move ⟨agree, outputs⟩ => ⟨move.lists agree, move.outputs agree outputs⟩) ⟨arbiterSound_iff.1 arb, before⟩
    exact fun a => (axisSound_cfg (e := envOf t) (f := e) (kept.trans cfg.symm) a _).trans (after.2 a)
  · intro a
    rw [axisOf_cold axd]
    exact axisSound_still rfl rfl rfl rfl rfl

/-- Settles O9: each move keeps the target, takes it away, or writes one clamped to the soft limits. -/
theorem targetsStayWithinTheSoftLimits : Obligations.TargetsStayWithinTheSoftLimits := by
  intro s t q sound h
  have cfg_congr {e f : Env} (same : cfgOf e = cfgOf f) (a : Axis) : axisCfg e a = axisCfg f a := by cases a <;> simp [axisCfg, same]
  simp only [targetsSound, Bool.and_eq_true, forall_axes_iff, targetWithin_iff] at sound ⊢
  obtain ⟨ordered, within⟩ := sound
  rcases step_drives h q with ⟨e, cfg, kept, g⟩ | ⟨axd, orderedNow⟩
  · have limits := limitsOrdered_iff.1 (cfg.symm ▸ ordered : limitsOrdered (cfgOf e) = true)
    have before (a : Axis) : TargetIn (axisCfg e a) (axisOf s.plant a).target := cfg_congr (f := e) (e := envOf s) cfg.symm a ▸ within a
    refine ⟨kept.symm ▸ ordered, fun a => ?_⟩
    rw [cfg_congr (e := envOf t) (f := e) (kept.trans cfg.symm)]
    exact g.keeps (P := fun p => ∀ a, TargetIn (axisCfg e a) (axisOf p a).target)
      (fun _ _ move inside b => (inside b).written (limits b) (move.target b)) before a
  · refine ⟨orderedNow, fun a x some => ?_⟩
    rw [axisOf_cold axd] at some
    cases some

end Sys2Proof.Machine
end

