-- ==== Sys2Proof/Proofs/AxisGrants.lean ====
section
/-! PROOFS. A free grant given by the order of R95 (O48). -/

namespace Sys2Proof.Machine

/-- The order of R95 names one waiting axis. -/
theorem chooseWaiting_first {d : Drives} {a : Axis} (h : standsFirst d a) : chooseWaiting d = some a := by
  unfold chooseWaiting
  rcases h with ⟨rfl, mast⟩ | ⟨rfl, mast, pan, turn⟩ | ⟨rfl, mast, tilt, turn⟩ | ⟨rfl, some, only⟩
  · rw [if_pos mast]
  · rw [if_neg mast, if_pos pan]
    by_cases tilt : .tilt ∈ d.waiting
    · rw [if_pos ⟨pan, tilt⟩, turn.resolve_left (not_not.2 tilt)]
    · rw [if_neg fun both => tilt both.2]
  · rw [if_neg mast]
    by_cases pan : .pan ∈ d.waiting
    · rw [if_pos ⟨pan, tilt⟩, turn.resolve_left (not_not.2 pan)]
    · rw [if_neg fun both => pan both.1, if_neg pan, if_pos tilt]
  · obtain ⟨b, mem⟩ := List.exists_mem_of_ne_nil _ some
    have pol : .pol ∈ d.waiting := only b mem ▸ mem
    have none (c : Axis) (other : c ≠ .pol) : c ∉ d.waiting := fun listed => other (only c listed)
    rw [if_neg (none .mast (by decide)), if_neg fun both => none .pan (by decide) both.1, if_neg (none .pan (by decide)),
      if_neg (none .tilt (by decide)), if_pos pol]

section
variable {e : Env} {p : Plant} {a : Axis}

theorem tryGrant_first (room : p.axd.grants.length < (cfgOf e).budget) (first : standsFirst p.axd a) : tryGrant e p = grantAxis e a p := by
  rw [tryGrant, if_pos room, chooseWaiting_first first]

theorem tryGrant_none (h : (cfgOf e).budget ≤ p.axd.grants.length ∨ p.axd.waiting = []) : tryGrant e p = p := by
  unfold tryGrant
  split
  · rw [show chooseWaiting p.axd = none by simp [chooseWaiting, h.resolve_left (by omega)]]
  · rfl

/-- What a write adds to the record: the axis free events and the report period (R81, R85). -/
theorem settleRecord_rest (e : Env) (x r : AxisRec) :
    ∃ freed noted start, settleRecord e x r = { r with freed := freed, noted := noted, reportStart := start } := by
  unfold settleRecord
  dsimp only
  split <;> exact ⟨_, _, _, rfl⟩

/-- The record of an axis that takes a grant (R94, R88). -/
theorem axisOf_grantAxis (e : Env) (a : Axis) (p : Plant) :
    axisOf (grantAxis e a p) a = settleRecord e (axisOf p a)
      { axisOf p a with state := .moving, brakeSet := false, v := 0, stallTimer := 0, stallRef := (axisOf p a).position } := by
  unfold grantAxis
  rw [axisOf_putAxis, if_pos rfl]
  cases a <;> rfl

theorem grantAxis_axd (e : Env) (a : Axis) (p : Plant) : (grantAxis e a p).axd =
    { axes := (grantAxis e a p).axd.axes, grants := insertNew p.axd.grants a, waiting := removeAll p.axd.waiting a,
      lastGranted := nameGranted a p.axd.lastGranted } := by
  unfold grantAxis
  rw [putAxis_axd]
  cases a <;> rfl

end

/-- Settles O48: DRIVE_GRANT is one grant handed out, to the axis the order of R95 names. -/
theorem aFreeGrantGoesByTheOrder : Obligations.AFreeGrantGoesByTheOrder := by
  intro s d
  refine ⟨fun a room fresh first => ?_, fun none => ?_⟩
  · refine ⟨withPlant (grantAxis (envOf s) a s.plant) s, ?_, ?_, ?_, fun b other => grantAxis_axis_other _ _ other, ?_⟩
    · exact congrArg (fun q => Host.Outcome.next (withPlant q s)) (tryGrant_first (e := envOf s) room first)
    · obtain ⟨posts, axd, rest⟩ := tryGrant_rest (envOf s) s.plant
      rw [tryGrant_first (e := envOf s) room first] at rest
      simp only [withPlant, rest]
    · refine (grantAxis_axd (envOf s) a s.plant).trans ?_
      rw [insertNew, if_neg fresh]
      rfl
    · obtain ⟨freed, noted, start, written⟩ := settleRecord_rest (envOf s) (axisOf s.plant a)
        { axisOf s.plant a with state := .moving, brakeSet := false, v := 0, stallTimer := 0, stallRef := (axisOf s.plant a).position }
      rw [show axisOf (withPlant (grantAxis (envOf s) a s.plant) s).plant a = _ from (axisOf_grantAxis (envOf s) a s.plant).trans written]
      exact ⟨rfl, rfl, rfl, rfl, rfl, rfl⟩
  · exact congrArg (fun q => Host.Outcome.next (withPlant q s)) (tryGrant_none (e := envOf s) none)

end Sys2Proof.Machine
end

