-- ==== Sys2Proof/Proofs/AxisRequests.lean ====
section
/-! PROOFS. A move request judged in the order of R79, and taken in place of the move under way (R80): O44. -/

namespace Sys2Proof.Machine

theorem isHead_iff {a : Axis} : isHead a = true ↔ a ≠ .mast := by cases a <;> simp [isHead]

/-- A write of one record leaves ARB's lists and every other block. -/
theorem putAxis_axes (e : Env) (a : Axis) (r : AxisRec) (p : Plant) :
    putAxis e a r p = { p with posts := (putAxis e a r p).posts, axd := { p.axd with axes := (putAxis e a r p).axd.axes } } := by
  obtain ⟨posts, rest⟩ := putAxis_rest e a r p
  rw [rest]
  cases a <;> rfl

theorem axisOf_putAxis_other (e : Env) {a b : Axis} (r : AxisRec) (p : Plant) (other : b ≠ a) : axisOf (putAxis e a r p) b = axisOf p b := by
  rw [axisOf_putAxis, if_neg other]

/-- The record of the axis written, but for the axis free events and the report period. -/
theorem axisOf_putAxis_same (e : Env) (a : Axis) (r : AxisRec) (p : Plant) :
    ∃ freed noted start, axisOf (putAxis e a r p) a = { r with freed := freed, noted := noted, reportStart := start } := by
  obtain ⟨freed, noted, start, h⟩ := settleRecord_rest e (axisOf p a) r
  exact ⟨freed, noted, start, by rw [axisOf_putAxis, if_pos rfl, h]⟩

section
variable {e : Env} {q : MoveRequest} {p : Plant}

/-- A request that neither the latch, nor STOPPING, nor FAULT, nor the cradle refuses is judged from the clamp on. -/
theorem moveRequest_fromClamp (clear : p.aut.latch = none) (moves : (axisOf p q.axis).state ≠ .stopping)
    (sound : (axisOf p q.axis).state ≠ .fault ∨ lowerException p q = true) (free : ¬ (q.axis ≠ .mast ∧ q.requester ≠ .jog ∧ headFree e p = false)) :
    moveRequest e q p = requestFromClamp e q p := by
  have given : ¬ ((axisOf p q.axis).state = .fault ∧ lowerException p q = false) := by
    rintro ⟨fault, none⟩
    exact sound.elim (fun h => h fault) fun h => by rw [h] at none; cases none
  simp only [moveRequest, clear, Option.isSome_none, Bool.false_eq_true, if_false, moves, given, isHead_iff, free]

theorem moveRequest_cradle (clear : p.aut.latch = none) (moves : (axisOf p q.axis).state ≠ .stopping)
    (sound : (axisOf p q.axis).state ≠ .fault ∨ lowerException p q = true) (cradled : q.axis ≠ .mast ∧ q.requester ≠ .jog ∧ headFree e p = false) :
    moveRequest e q p = (p, .cradle) := by
  have given : ¬ ((axisOf p q.axis).state = .fault ∧ lowerException p q = false) := by
    rintro ⟨fault, none⟩
    exact sound.elim (fun h => h fault) fun h => by rw [h] at none; cases none
  simp only [moveRequest, clear, Option.isSome_none, Bool.false_eq_true, if_false, moves, given, isHead_iff, if_pos cradled]

theorem requestFromClamp_rest (free : switchBlocks (axisOf p q.axis) (clampSoft e q.axis q.target) = false)
    (rest : (axisOf p q.axis).state = .idle ∨ (axisOf p q.axis).state = .fault) :
    requestFromClamp e q p = (joinWaiting e q.axis (withRequest q (clampSoft e q.axis q.target) (axisOf p q.axis)) p,
      .accepted (clampSoft e q.axis q.target) (decide (clampSoft e q.axis q.target ≠ q.target))) := by
  rcases rest with state | state <;> simp [requestFromClamp, free, state]

/-- A target outside the window about the position. -/
def beyondWindow (e : Env) (a : Axis) (target : Int) (position : Option Int) : Prop := ∃ x, position = some x ∧ (axisCfg e a).window < (target - x).natAbs

/-- The record a replaced move leaves (R80). -/
theorem replaceMove_put (e : Env) (q : MoveRequest) (target : Int) (p : Plant) :
    ∃ state timer periods stallTimer stallRef, replaceMove e q target p = putAxis e q.axis { withRequest q target (axisOf p q.axis) with
        state := state, settleTimer := timer, settlePeriods := periods, stallTimer := stallTimer, stallRef := stallRef } p ∧
      ((axisOf p q.axis).state ≠ .settling → state = (axisOf p q.axis).state) ∧
      ((axisOf p q.axis).state = .settling → timer = 0 ∧ (beyondWindow e q.axis target (axisOf p q.axis).position → state = .moving) ∧
        (¬ beyondWindow e q.axis target (axisOf p q.axis).position → state = .settling ∧ periods = (axisOf p q.axis).settlePeriods)) := by
  unfold replaceMove beyondWindow
  dsimp only
  rw [show (withRequest q target (axisOf p q.axis)).state = (axisOf p q.axis).state from rfl,
    show (withRequest q target (axisOf p q.axis)).position = (axisOf p q.axis).position from rfl]
  cases state : (axisOf p q.axis).state
  case settling =>
    cases position : (axisOf p q.axis).position with
    | none => exact ⟨_, _, _, _, _, rfl, nofun, fun _ => ⟨rfl, nofun, fun _ => ⟨rfl, rfl⟩⟩⟩
    | some x =>
      by_cases far : (axisCfg e q.axis).window < (target - x).natAbs
      · exact ⟨_, _, _, _, _, if_pos (decide_eq_true far), nofun, fun _ => ⟨rfl, fun _ => rfl, fun near => absurd ⟨x, rfl, far⟩ near⟩⟩
      · exact ⟨_, _, _, _, _, if_neg (by simpa using far), nofun, fun _ => ⟨rfl, fun ⟨_, here, away⟩ => absurd (Option.some.inj here ▸ away) far, fun _ => ⟨rfl, rfl⟩⟩⟩
  all_goals exact ⟨_, _, _, _, _, rfl, fun _ => state, nofun⟩

end

/-- Settles O44: `moveRequest` read branch by branch, and the writes of the two branches that accept. -/
theorem aMoveRequestIsJudgedInOrder : Obligations.AMoveRequestIsJudgedInOrder := by
  intro e q p r target noted cradled exempt
  have lowers : lowerException p q = true ↔ exempt := by
    simp [lowerException, exempt, and_assoc]
  refine ⟨fun set => ?_, moveRequest_stopping, fun clear fault held => ?_, fun clear ⟨moves, sound⟩ => ?_⟩
  · exact if_pos (Option.isSome_iff_ne_none.2 set)
  · have none : lowerException p q = false := by rw [← Bool.not_eq_true, lowers]; exact held
    simp [moveRequest, clear, show (axisOf p q.axis).state = .fault from fault, none]
  have given : (axisOf p q.axis).state ≠ .fault ∨ lowerException p q = true := sound.imp_right lowers.2
  have judged (free : ¬ cradled) : moveRequest e q p = requestFromClamp e q p := moveRequest_fromClamp clear moves given free
  refine ⟨moveRequest_cradle clear moves given, fun free blocked => ?_, fun free noSwitch idle fault plain other => ?_, fun free noSwitch rest => ?_,
    fun free noSwitch moving own => ?_⟩
  · rw [judged free, requestFromClamp_range blocked]
  · rw [judged free, requestFromClamp_busy noSwitch (endedState_ne idle moves fault) plain other]
    rfl
  · rw [judged free, requestFromClamp_rest noSwitch rest]
    obtain ⟨state, requester, cls, goal, -, -, -, drift, -⟩ := (joinWaiting_axis e q.axis q.axis (withRequest q target r) p).1 rfl
    exact ⟨rfl, state, requester, cls, goal, drift⟩
  · intro t far
    have taken : moveRequest e q p = (replaceMove e q target p, .accepted target (decide (target ≠ q.target))) :=
      (judged free).trans (requestFromClamp_own noSwitch moving own)
    obtain ⟨state, timer, periods, stallTimer, stallRef, put, others, settling⟩ := replaceMove_put e q target p
    have result : t = putAxis e q.axis { withRequest q target r with
        state := state, settleTimer := timer, settlePeriods := periods, stallTimer := stallTimer, stallRef := stallRef } p := by
      rw [← put]
      exact congrArg Prod.fst taken
    obtain ⟨freed, noted, start, written⟩ := axisOf_putAxis_same e q.axis { withRequest q target r with
      state := state, settleTimer := timer, settlePeriods := periods, stallTimer := stallTimer, stallRef := stallRef } p
    refine ⟨congrArg Prod.snd taken, ?_, fun b other => ?_, ?_⟩
    · rw [result]
      exact putAxis_axes _ _ _ _
    · rw [result, axisOf_putAxis_other e _ p other]
    · rw [result, written]
      exact ⟨rfl, rfl, rfl, rfl, rfl, rfl, rfl, others, settling⟩

end Sys2Proof.Machine
end

