-- ==== Sys2Proof/Proofs/AxisClearing.lean ====
section
/-! PROOFS. CLEAR_FAULT: the records that leave, and the axes that nothing holds any more (O36). -/

namespace Sys2Proof.Machine

section
variable {e : Env} {a b : Axis} {p q : Plant}

/-- A FAULT that nothing holds any more (R100). -/
def released (p : Plant) (a : Axis) : Bool := decide ((axisOf p a).state = .fault) && !isHeld p a

/-- The record of an axis freed from FAULT: IDLE, with its position as hold target (R100). -/
def idleAgain (e : Env) (a : Axis) (r : AxisRec) : AxisRec := { r with state := .idle, target := r.position.map (clampSoft e a) }

/-- With a valid sensor an axis is freed or left as it is. -/
theorem freeAxis_valid (valid : (axisOf p a).sensorValid = true) :
    freeAxis e a p = if released p a then putAxis e a (idleAgain e a (axisOf p a)) p else p := by
  unfold freeAxis released
  dsimp only
  rw [if_pos valid]
  simp only [Bool.and_eq_true, decide_eq_true_eq, Bool.not_eq_true']
  rfl

theorem axisOf_freeAxis (valid : (axisOf p a).sensorValid = true) (b : Axis) :
    axisOf (freeAxis e a p) b = if b = a ∧ released p b = true then settleRecord e (axisOf p b) (idleAgain e b (axisOf p b)) else axisOf p b := by
  rw [freeAxis_valid valid]
  by_cases same : b = a
  · subst same
    cases free : released p b <;> simp
  · cases released p a <;> simp [same]

/-- Every block but the posts and the axis records is as it was. -/
structure OnlyAxes (p q : Plant) : Prop where
  blocks : q = { p with posts := q.posts, axd := q.axd }
  lists : q.axd = { p.axd with axes := q.axd.axes }

theorem OnlyAxes.refl (p : Plant) : OnlyAxes p p := ⟨rfl, rfl⟩

theorem OnlyAxes.trans {r : Plant} (h : OnlyAxes p q) (g : OnlyAxes q r) : OnlyAxes p r :=
  ⟨by rw [g.blocks, h.blocks], by rw [g.lists, h.lists]⟩

theorem onlyAxes_putAxis (e : Env) (a : Axis) (r : AxisRec) (p : Plant) : OnlyAxes p (putAxis e a r p) := by
  have axes := putAxis_axes e a r p
  exact ⟨by rw [axes], by rw [axes]⟩

theorem onlyAxes_freeAxis (valid : (axisOf p a).sensorValid = true) : OnlyAxes p (freeAxis e a p) := by
  rw [freeAxis_valid valid]
  split
  · exact onlyAxes_putAxis e a _ p
  · exact .refl p

theorem OnlyAxes.held (h : OnlyAxes p q) (a : Axis) : isHeld q a = isHeld p a := by rw [h.blocks]; rfl

/-- The axes of a list freed in turn: each only by what it itself is. -/
theorem freeAxes_all (l : List Axis) (once : l.Nodup) : ∀ p : Plant, (∀ a, (axisOf p a).sensorValid = true) →
    OnlyAxes p (l.foldl (fun q a => freeAxis e a q) p) ∧
      ∀ b, axisOf (l.foldl (fun q a => freeAxis e a q) p) b = 
        if b ∈ l ∧ released p b = true then settleRecord e (axisOf p b) (idleAgain e b (axisOf p b)) else axisOf p b := by
  induction l with
  | nil => exact fun p _ => ⟨.refl p, fun b => by simp⟩
  | cons a l ih =>
    intro p valid
    obtain ⟨fresh, once⟩ := List.nodup_cons.1 once
    have first := onlyAxes_freeAxis (e := e) (valid a)
    have write := axisOf_freeAxis (e := e) (valid a)
    have still (b : Axis) : (axisOf (freeAxis e a p) b).sensorValid = true := by
      rw [write]
      split
      · obtain ⟨_, _, _, written⟩ := settleRecord_rest e (axisOf p b) (idleAgain e b (axisOf p b))
        rw [written]
        exact valid b
      · exact valid b
    obtain ⟨rest, axes⟩ := ih once (freeAxis e a p) still
    refine ⟨first.trans rest, fun b => ?_⟩
    rw [List.foldl_cons, axes]
    by_cases same : b = a
    · rw [if_neg fun h => fresh (same ▸ h.1), write]
      simp [same]
    · have other : axisOf (freeAxis e a p) b = axisOf p b := by rw [write, if_neg fun h => same h.1]
      simp only [released, other, first.held, List.mem_cons, same, false_or]

end

/-- Settles O36: the records are filtered by their condition, and each axis is freed by its own state and what still holds it. -/
theorem clearFaultRemovesWhatNoLongerHolds : Obligations.ClearFaultRemovesWhatNoLongerHolds := by
  intro s x head live left
  have passes := commonChecks_free (c := .clearFault) x.source s.plant (not_safe live) rfl (by simp)
  have exec_judged {q : Plant} {v : Verdict} (own : ownClearFault (envOf s) x s.plant = (q, v)) : exec .clearFault s = .next (replied x v q s) :=
    congrArg _ (takeCommand_judged head ((judge_owner ownClearFault passes).trans own) (.inl rfl))
  refine ⟨fun all => exec_judged (if_pos (congrArg List.length all)), fun some valid => ?_⟩
  generalize status : postStatusIf (decide (faultKey { s.plant with flt := { records := left, overflow := false, overflowAxes := [] } } ≠ faultKey s.plant)) (envOf s)
    { s.plant with flt := { records := left, overflow := false, overflowAxes := [] } } = p
  have fewer : ¬ left.length = s.plant.flt.records.length := fun h => some (List.filter_eq_self.2 (List.length_filter_eq_length_iff.1 h))
  obtain ⟨posts, cleared⟩ : ∃ posts, p = { s.plant with posts := posts, flt := { records := left, overflow := false, overflowAxes := [] } } := by
    rw [← status]
    unfold postStatusIf
    split <;> exact ⟨_, rfl⟩
  have axis (a : Axis) : axisOf p a = axisOf s.plant a := axisOf_axd (by rw [cleared]) a
  obtain ⟨rest, axes⟩ := freeAxes_all (e := envOf s) allAxes (by decide) p fun a => by rw [axis]; exact valid a
  refine ⟨allAxes.foldl (fun q a => freeAxis (envOf s) a q) p, exec_judged ?_, ?_⟩
  · rw [← status]
    exact if_neg fewer
  generalize allAxes.foldl (fun q a => freeAxis (envOf s) a q) p = q at rest axes
  have records : q.flt = { records := left, overflow := false, overflowAxes := [] } := by rw [rest.blocks, cleared]
  refine ⟨records, by rw [rest.blocks, cleared], rest.lists.trans (by rw [cleared]), fun a => ?_⟩
  have listed : a ∈ allAxes := by cases a <;> decide
  have free : released p a = true ↔ (axisOf s.plant a).state = .fault ∧ left.all (fun r => !faultNames r.axis a) = true := by
    have held : isHeld p a = left.any fun r => faultNames r.axis a := by rw [cleared]; exact Bool.or_false _
    rw [released, axis, held, Bool.and_eq_true, decide_eq_true_iff, List.all_eq_not_any_not]
    simp only [Bool.not_not]
  rw [axes]
  split
  · rename_i gone
    rw [if_pos ⟨listed, free.2 gone⟩, axis]
    obtain ⟨-, -, target, -⟩ := settleRecord_fields (envOf s) (axisOf s.plant a) (idleAgain (envOf s) a (axisOf s.plant a))
    refine ⟨settleRecord_state _ _ _, target, ?_⟩
    simp [settleRecord, idleAgain, entersRest, gone.1]
  · rename_i stays
    rw [if_neg fun h => stays (free.1 h.2), axis]

end Sys2Proof.Machine
end

