-- ==== Sys2Proof/Proofs/AxisJog.lean ====
section
/-! PROOFS. A JOG judged by R92 and R93, and the move it asks for (O55). -/

namespace Sys2Proof.Machine

/-! ### The judgement -/

section
variable {e : Env} {p : Plant} {a : Axis} {distance : Int} {recovery : Bool}

/-- Whose work keeps the axis from a JOG (R92 step 2). -/
def KeptFromJog (p : Plant) (a : Axis) : Prop :=
  (∃ activity, p.pnt.state = .active activity ∨ ∃ cause, p.pnt.state = .held activity cause) ∨ p.pnt.state = .waitingMast ∨
    (∃ l, p.msq.state = .parking l) ∨ ((axisOf p a).state ≠ .idle ∧ (axisOf p a).state ≠ .fault ∧ (axisOf p a).requester ≠ some .jog)

theorem pointingKeepsHead_iff {x : PointState} :
    pointingKeepsHead x = true ↔ (∃ activity, x = .active activity ∨ ∃ cause, x = .held activity cause) ∨ x = .waitingMast := by
  cases x <;> simp [pointingKeepsHead]

theorem jogBlocked_iff : jogBlocked p a = true ↔ KeptFromJog p a := by
  unfold jogBlocked KeptFromJog
  rw [Bool.or_eq_true, Bool.or_eq_true, pointingKeepsHead_iff]
  cases p.msq.state <;> simp [or_assoc, and_assoc]

/-- A RECOVERY JOG is for a mast at rest and brings the axis nearer its stow position (R93). -/
theorem recoveryAllowed_iff : recoveryAllowed e p a distance = true ↔ (p.msq.state = .stowed ∨ ∃ cause, p.msq.state = .halted cause) ∧
    ∀ y, (axisOf p a).position = some y → (clampSoft e a (jogTarget p a distance) - stowPosition e a).natAbs < (y - stowPosition e a).natAbs := by
  unfold recoveryAllowed
  cases p.msq.state <;> cases (axisOf p a).position <;> simp

theorem jogRefusal_kept (head : a ≠ .mast) (kept : jogBlocked p a = true) : jogRefusal e p a distance recovery = some (refuse .state 0) := by
  simp [jogRefusal, isHead_iff.2 head, kept]

/-- Past steps 1 and 2, the permissives. -/
theorem jogRefusal_permissive (head : a ≠ .mast) (free : jogBlocked p a = false) {y : Permissive} (missing : lowestMissing p [.brakeSet, .windMoveOk] = some y) :
    jogRefusal e p a distance recovery = some (refusePermissive y) := by
  simp [jogRefusal, isHead_iff.2 head, free, missing]

/-- Past the permissives, the cradle and the RECOVERY, and then FAULT. -/
theorem jogRefusal_permitted (head : a ≠ .mast) (free : jogBlocked p a = false) (given : lowestMissing p [.brakeSet, .windMoveOk] = none) :
    jogRefusal e p a distance recovery =
      if headFree e p = false ∧ recovery = false then some (refuse .state 0)
      else if headFree e p = false ∧ recoveryAllowed e p a distance = false then some (refuse .range 0)
      else if (axisOf p a).state = .fault then some (refuseFault p)
      else none := by
  simp [jogRefusal, isHead_iff.2 head, free, given]

/-- The request of a JOG (R92 step 6). -/
def jogAsks (e : Env) (p : Plant) (a : Axis) (distance : Int) (recovery : Bool) : MoveRequest :=
  { axis := a, requester := .jog, cls := .headMove, target := jogTarget p a distance, cap := none, recovery := recovery && !headFree e p }

theorem jogMove_idle (idle : (axisOf p a).state = .idle) : jogMove e a distance recovery p =
    (if switchBlocks (axisOf p a) (clampSoft e a (jogTarget p a distance)) then (p, refuse .range 0)
    else (joinWaiting e a (withRequest (jogAsks e p a distance recovery) (clampSoft e a (jogTarget p a distance)) (axisOf p a)) p,
      if clampSoft e a (jogTarget p a distance) = jogTarget p a distance then accepted 0
      else clampedTo (clampInt (-32768) 32767 (clampSoft e a (jogTarget p a distance) - positionOrZero p a)))) := by
  have asked : jogRequest e (jogAsks e p a distance recovery) p = requestFromClamp e (jogAsks e p a distance recovery) p := by
    simp [jogRequest, jogAsks, idle]
  unfold jogMove
  dsimp only
  cases blocked : switchBlocks (axisOf p a) (clampSoft e a (jogTarget p a distance))
  · have answer := asked.trans (requestFromClamp_rest (q := jogAsks e p a distance recovery) blocked (.inl idle))
    unfold jogAsks at answer ⊢
    rw [answer]
    by_cases inside : clampSoft e a (jogTarget p a distance) = jogTarget p a distance <;> simp [inside]
  · have answer := asked.trans (requestFromClamp_range (m := jogAsks e p a distance recovery) blocked)
    unfold jogAsks at answer
    rw [answer]
    rfl

theorem ownJog_refused {x : ArrivalEntry} {v : Verdict} (named : jogAxis x.payload = some a)
    (refused : jogRefusal e p a (jogDistance x.payload) (jogRecovery x.payload) = some v) : ownJog e x p = (p, v) := by
  simp [ownJog, named, refused]

theorem ownJog_moves {x : ArrivalEntry} (named : jogAxis x.payload = some a) (passes : jogRefusal e p a (jogDistance x.payload) (jogRecovery x.payload) = none) :
    ownJog e x p = jogMove e a (jogDistance x.payload) (jogRecovery x.payload) p := by
  simp [ownJog, named, passes]

theorem jogAxis_of_byte {payload : List Byte} (byte : (byteAt payload 2).toNat = axisCode a) : jogAxis payload = some a := by
  unfold jogAxis
  rw [byte]
  cases a <;> rfl

theorem jogAxis_none {payload : List Byte} (above : 3 < (byteAt payload 2).toNat) : jogAxis payload = none := by
  unfold jogAxis
  split <;> first | rfl | omega

end

/-! ### The statement -/

/-- Settles O55: steps 1 to 5 of R92 by `jogRefusal`, and the request of an IDLE axis. -/
theorem aJogMovesOneHeadAxis : Obligations.AJogMovesOneHeadAxis := by
  intro s x head may p e distance recovery needs
  have judged {q : Plant} {v : Verdict} (own : ownJog e x p = (q, v)) : judge e .jog ownJog x p = (q, v) :=
    (judge_owner ownJog (mayMove_passes may rfl)).trans own
  have refuses {v : Verdict} (own : ownJog e x p = (p, v)) (refused : v.outcome = .refused) : exec .jog s = .next (replied x v p s) :=
    congrArg _ (takeCommand_judged head (judged own) (.inr refused))
  refine ⟨fun above => refuses (by simp [ownJog, jogAxis_none above]) rfl,
    fun mast => refuses (ownJog_refused (jogAxis_of_byte (a := .mast) mast) (by simp [jogRefusal, isHead])) rfl, fun a isHeadAxis byte => ?_⟩
  intro r kept permitted target stow restful nearer allowed
  have named : jogAxis x.payload = some a := jogAxis_of_byte (byte.trans (by cases a <;> rfl))
  have refusal {v : Verdict} (h : jogRefusal e p a distance recovery = some v) (refused : v.outcome = .refused) : exec .jog s = .next (replied x v p s) :=
    refuses (ownJog_refused named h) refused
  have blocked : jogBlocked p a = true ↔ kept := jogBlocked_iff
  have stowAt : stowPosition e a = stow := by cases a <;> rfl
  have recovers : recoveryAllowed e p a distance = true ↔ restful ∧ nearer := by rw [recoveryAllowed_iff, stowAt]; rfl
  have unblocked (free : ¬ kept) : jogBlocked p a = false := by rw [← Bool.not_eq_true, blocked]; exact free
  have given (all : permitted) : lowestMissing p [.brakeSet, .windMoveOk] = none := List.find?_eq_none.2 fun z m => by
    rw [Bool.not_eq_true, Bool.not_eq_false']
    exact all z m
  have late (free : ¬ kept) (all : permitted) := jogRefusal_permitted (e := e) (distance := distance) (recovery := recovery) isHeadAxis (unblocked free) (given all)
  have passes (free : ¬ kept) (all : permitted) (ok : allowed) : jogRefusal e p a distance recovery =
      if (axisOf p a).state = .fault then some (refuseFault p) else none := by
    rw [late free all]
    rcases ok with up | ⟨marked, near⟩
    · simp [up]
    · simp [marked, recovers.2 near]
  have moves (free : ¬ kept) (all : permitted) (ok : allowed) (idle : r.state = .idle) : ownJog e x p = jogMove e a distance recovery p :=
    ownJog_moves named ((passes free all ok).trans (if_neg (by rw [show (axisOf p a).state = .idle from idle]; simp)))
  refine ⟨fun keeps => refusal (jogRefusal_kept isHeadAxis (blocked.2 keeps)) rfl,
    fun before y after free shape lower missing => refusal (jogRefusal_permissive isHeadAxis (unblocked free) (lowestMissing_eq shape lower missing)) rfl,
    fun free all under plain => refusal ((late free all).trans (if_pos ⟨under, plain⟩)) rfl,
    fun free all under marked no => refusal ((late free all).trans ?_) rfl,
    fun free all ok fault => refusal ((passes free all ok).trans (if_pos fault)) rfl,
    fun free all ok idle bar => refuses ((moves free all ok idle).trans ((jogMove_idle idle).trans (if_pos bar))) rfl,
    fun free all ok idle clear => ?_⟩
  · rw [if_neg (by simp [marked]), if_pos ⟨under, by rw [← Bool.not_eq_true, recovers]; exact no⟩]
  · have own := (moves free all ok idle).trans ((jogMove_idle idle).trans (if_neg (Bool.eq_false_iff.1 clear)))
    obtain ⟨posts, axd, rest⟩ := joinWaiting_rest e a (withRequest (jogAsks e p a distance recovery) target (axisOf p a)) p
    have joined (b : Axis) := joinWaiting_axis e a b (withRequest (jogAsks e p a distance recovery) target (axisOf p a)) p
    obtain ⟨state, requester, cls, goal, -, -, mark, -⟩ := (joined a).1 rfl
    have held (b : Axis) : axisOf (setHolder (some x.source) (joinWaiting e a (withRequest (jogAsks e p a distance recovery) target (axisOf p a)) p)) b =
        axisOf (joinWaiting e a (withRequest (jogAsks e p a distance recovery) target (axisOf p a)) p) b := axisOf_congr rfl b
    refine ⟨setHolder (some x.source) (joinWaiting e a (withRequest (jogAsks e p a distance recovery) target (axisOf p a)) p),
      congrArg _ (takeCommand_motion head (judged own) rfl ?_), ?_, ?_⟩
    · split <;> simp [accepted, clampedTo]
    · rw [rest]
      rfl
    · simp only [held]
      exact ⟨state, requester, cls, goal, mark, fun none b other => ((joined b).2 other).2 (by rw [none]; simp)⟩

end Sys2Proof.Machine
end

