-- ==== Sys2Proof/Proofs/AxisCancel.lean ====
section
/-! PROOFS. A halt of pointing as three requesters stopped in turn, each with its moves and its dwell, and the CANCEL_POINTING that
brings it (O54). -/

namespace Sys2Proof.Machine

/-! ### One requester stopped -/

/-- `q` comes from `p` with the moves of a requester on some axes ended and its dwell cancelled, when `on`; neither, when not. -/
structure WorkStopped (e : Env) (on : Bool) (who : Requester) (l : List Axis) (p q : Plant) : Prop where
  axd : q.axd = (endMoves e (fun r => on && carriesMove r who) l p).axd
  dwell : q.smp.dwell = p.smp.dwell.filter fun d => !(on && decide (d.requester = who))

section
variable {e : Env} {on : Bool} {who : Requester} {l : List Axis} {p q : Plant} {a : Axis}

theorem WorkStopped.none (e : Env) (who : Requester) (l : List Axis) (p : Plant) : WorkStopped e false who l p p := by
  refine ⟨?_, ?_⟩
  · simp only [Bool.false_and, endMoves_none]
  · cases p.smp.dwell <;> simp [Option.filter]

theorem cancelWork_stopped (e : Env) (who : Requester) (l : List Axis) (p : Plant) :
    WorkStopped e true who l p (cancelDwell who (cancelMoves e who l p)) := by
  refine ⟨?_, ?_⟩
  · rw [cancelDwell_axd]
    simp only [Bool.true_and]
    rfl
  · rw [(cancelDwell_ended who (cancelMoves e who l p)).2, cancelMoves_smp]
    simp only [Bool.true_and, decide_not]

/-- An axis with another's move: as it was, or granted where it waited; and as it was when no grant is held that could return. -/
theorem WorkStopped.other (h : WorkStopped e on who l p q) (listed : listedWait p) (apart : (on && carriesMove (axisOf p a) who) = false) :
    grantedWaiting (axisOf p a) (axisOf q a) ∧ (p.axd.grants = [] → axisOf q a = axisOf p a) := by
  rw [axisOf_axd h.axd]
  refine ⟨endMoves_notPicked e _ listed apart, fun none => ?_⟩
  rw [endMoves_quiet e _ none, axisOf_movesEnded_notPicked e _ apart]

/-- The requester's own move is ended. -/
theorem WorkStopped.own (h : WorkStopped e on who l p q) (listed : listedWait p) (once : l.Nodup) (mem : a ∈ l)
    (carries : (on && carriesMove (axisOf p a) who) = true) : (axisOf q a).state = endedState (axisOf p a).state ∧ a ∉ q.axd.waiting := by
  rw [axisOf_axd h.axd, h.axd]
  exact endMoves_picked e (fun r => on && carriesMove r who) once mem carries (listed a)

/-- An axis at the end of its move, and on no list, stays so. -/
theorem WorkStopped.rested (h : WorkStopped e on who l p q) (rest : endedState (axisOf p a).state = (axisOf p a).state) (out : a ∉ p.axd.waiting) :
    (axisOf q a).state = (axisOf p a).state ∧ a ∉ q.axd.waiting := by
  rw [axisOf_axd h.axd, h.axd]
  exact ⟨endMoves_rested e _ l rest out, fun m => out (endMoves_waiting e _ m)⟩

theorem WorkStopped.listed (h : WorkStopped e on who l p q) (listed : listedWait p) : listedWait q := by
  intro b m
  rw [h.axd] at m
  rw [axisOf_axd h.axd]
  exact listedWait_endMoves e _ l listed b m

theorem WorkStopped.noGrants (h : WorkStopped e on who l p q) (none : p.axd.grants = []) : q.axd.grants = [] := by
  rw [h.axd, endMoves_quiet e _ none]
  exact movesEnded_grants e _ l none

end

/-! ### A halt of pointing (R131, R133) -/

/-- The three stops of a halt: PNT's slew, the pattern when one is under way, and the run. -/
structure PointingStopped (e : Env) (p p1 p2 q : Plant) : Prop where
  slew : WorkStopped e true .pnt headAxes p p1
  pattern : WorkStopped e (patternUnderWay p) .pat pointAxes p1 p2
  run : WorkStopped e true .pke pointAxes p2 q

section
variable {e : Env} {cause : PatternCause} {p : Plant}

theorem stopSlew_stopped (e : Env) (p : Plant) : WorkStopped e true .pnt headAxes p (stopSlew e p) := by
  obtain ⟨axd, dwell⟩ := cancelWork_stopped e .pnt headAxes p
  exact ⟨axd, dwell⟩

theorem stopSlew_pat (e : Env) (p : Plant) : (stopSlew e p).pat = p.pat := by
  obtain ⟨_, _, _, work, -⟩ := cancelWork_rest e .pnt headAxes p
  simp only [stopSlew, work]

theorem haltPattern_stopped (e : Env) (cause : PatternCause) (p : Plant) : WorkStopped e (patternUnderWay p) .pat pointAxes p (haltPattern e cause p) := by
  cases way : patternUnderWay p
  · rw [show haltPattern e cause p = p from if_neg (by simp [way])]
    exact .none e _ _ p
  · rw [haltPattern_way cause way]
    obtain ⟨axd, dwell⟩ := cancelWork_stopped e .pat pointAxes p
    exact ⟨axd, dwell⟩

theorem discardRun_stopped (e : Env) (p : Plant) : WorkStopped e true .pke pointAxes p (discardRun e p) := by
  obtain ⟨axd, dwell⟩ := cancelWork_stopped e .pke pointAxes p
  exact ⟨axd, dwell⟩

/-- PNT's record of a point found while it was held, dropped with the halt. -/
def forgetFound (p : Plant) : Plant := { p with pnt := { p.pnt with foundWhileHeld := none } }

theorem haltPointing_eq (busy : p.pnt.state ≠ .idle) :
    haltPointing e cause p = setPointing e .idle (forgetFound (discardRun e (haltPattern e cause (stopSlew e p)))) := by
  unfold haltPointing
  split
  · exact absurd ‹_› busy
  all_goals rfl

theorem rested_eq (e : Env) (q : Plant) : ∃ posts pnt, setPointing e .idle (forgetFound q) = { q with posts := posts, pnt := pnt } := by
  obtain ⟨posts, last⟩ := setPointing_rest e .idle (forgetFound q)
  exact ⟨posts, _, last⟩

theorem patternUnderWay_congr {p q : Plant} (same : p.pat = q.pat) : patternUnderWay p = patternUnderWay q := by rw [patternUnderWay, patternUnderWay, same]

theorem haltPointing_stops (busy : p.pnt.state ≠ .idle) : ∃ p1 p2, PointingStopped e p p1 p2 (haltPointing e cause p) ∧
    (patternUnderWay p = false → (haltPointing e cause p).pat = p.pat) := by
  rw [haltPointing_eq busy]
  have way : patternUnderWay (stopSlew e p) = patternUnderWay p := patternUnderWay_congr (stopSlew_pat e p)
  obtain ⟨axd, dwell⟩ := discardRun_stopped e (haltPattern e cause (stopSlew e p))
  obtain ⟨posts, pnt, last⟩ := rested_eq e (discardRun e (haltPattern e cause (stopSlew e p)))
  refine ⟨stopSlew e p, haltPattern e cause (stopSlew e p), ⟨stopSlew_stopped e p, way ▸ haltPattern_stopped e cause _, ?_, ?_⟩, fun none => ?_⟩
  · rw [last]; exact axd
  · rw [last]; exact dwell
  · have kept : haltPattern e cause (stopSlew e p) = stopSlew e p := if_neg (by simp [way, none])
    obtain ⟨_, _, _, work, -⟩ := cancelWork_rest e .pke pointAxes (stopSlew e p)
    rw [last, kept]
    simp only [discardRun, monitorOff, work]
    exact stopSlew_pat e p

end

section
variable {e : Env} {p p1 p2 q : Plant} {a : Axis}

/-- An axis with a move that is none of the three's. -/
theorem PointingStopped.others (h : PointingStopped e p p1 p2 q) (listed : listedWait p) (pnt : carriesMove (axisOf p a) .pnt = false)
    (pat : carriesMove (axisOf p a) .pat = false) (pke : carriesMove (axisOf p a) .pke = false) : grantedWaiting (axisOf p a) (axisOf q a) := by
  have first := (h.slew.other listed (a := a) pnt).1
  have second := grantedWaiting_trans first (h.pattern.other (h.slew.listed listed) (by rw [carriesMove_grantedWaiting first, pat, Bool.and_false])).1
  exact grantedWaiting_trans second (h.run.other (h.pattern.listed (h.slew.listed listed)) ((carriesMove_grantedWaiting second _).trans pke)).1

/-- PNT's own move is ended first. -/
theorem PointingStopped.slews (h : PointingStopped e p p1 p2 q) (listed : listedWait p) (head : a ≠ .mast) (carries : carriesMove (axisOf p a) .pnt = true) :
    (axisOf q a).state = endedState (axisOf p a).state := by
  obtain ⟨state, out⟩ := h.slew.own listed (by decide) (mem_headAxes.2 head) carries
  obtain ⟨state2, out2⟩ := h.pattern.rested (by rw [state, endedState_idem]) out
  obtain ⟨state3, -⟩ := h.run.rested (by rw [state2, state, endedState_idem]) out2
  rw [state3, state2, state]

/-- A move of the pattern under way or of the run is ended after PNT's, and may have been granted the grant of one ended before it. -/
theorem PointingStopped.points (h : PointingStopped e p p1 p2 q) (listed : listedWait p) (mem : a ∈ pointAxes)
    (carries : carriesMove (axisOf p a) .pke = true ∨ (patternUnderWay p = true ∧ carriesMove (axisOf p a) .pat = true)) :
    ∃ r, grantedWaiting (axisOf p a) r ∧ (p.axd.grants = [] → r = axisOf p a) ∧ (axisOf q a).state = endedState r.state := by
  have apart {who other : Requester} (ne : who ≠ other) (own : carriesMove (axisOf p a) who = true) : carriesMove (axisOf p a) other = false := by
    obtain ⟨-, requester, -⟩ := carriesMove_underWay own
    simp [carriesMove, requester, ne]
  have once : pointAxes.Nodup := by decide
  rcases carries with pke | ⟨way, pat⟩
  · obtain ⟨first, same⟩ := h.slew.other listed (a := a) (apart (other := .pnt) (by decide) pke)
    have listed1 := h.slew.listed listed
    obtain ⟨second, same2⟩ := h.pattern.other listed1 (a := a) (by
      rw [carriesMove_grantedWaiting first, apart (other := .pat) (by decide) pke, Bool.and_false])
    have both := grantedWaiting_trans first second
    obtain ⟨state, -⟩ := h.run.own (h.pattern.listed listed1) once mem ((carriesMove_grantedWaiting both _).trans pke)
    exact ⟨axisOf p2 a, both, fun none => (same2 (h.slew.noGrants none)).trans (same none), state⟩
  · obtain ⟨first, same⟩ := h.slew.other listed (a := a) (apart (other := .pnt) (by decide) pat)
    have listed1 := h.slew.listed listed
    obtain ⟨state, out⟩ := h.pattern.own listed1 once mem (by rw [way, carriesMove_grantedWaiting first, pat]; rfl)
    obtain ⟨state3, -⟩ := h.run.rested (by rw [state, endedState_idem]) out
    exact ⟨axisOf p1 a, first, same, state3.trans state⟩

/-- The dwell that stays is the pattern's when none is under way. -/
theorem PointingStopped.dwell (h : PointingStopped e p p1 p2 q) (sound : dwellSound p = true) :
    q.smp.dwell = if p.smp.dwell.all (fun d => decide (d.requester = .pat)) = true ∧ patternUnderWay p = false then p.smp.dwell else none := by
  rw [h.run.dwell, h.pattern.dwell, h.slew.dwell]
  cases active : p.smp.dwell with
  | none => simp
  | some d =>
    simp only [dwellSound, active, Option.all_some, decide_eq_true_eq] at sound ⊢
    rcases sound with pnt | pat | pke
    · simp [Option.filter, pnt]
    · cases patternUnderWay p <;> simp [Option.filter, pat]
    · cases patternUnderWay p <;> simp [Option.filter, pke]

end

/-! ### The statement -/

/-- Settles O54: the halt by its three stops, the run and the monitor cold, and the holder AUT's. -/
theorem aCancelHaltsPointing : Obligations.ACancelHaltsPointing := by
  intro s x head may sound p working
  have own (q : Plant) (h : haltPointing (envOf s) (.aborted .cancel) s.plant = q) :
      exec .cancelPointing s = .next (replied x (accepted 0) (setHolder (some x.source) q) s) := by
    have judged : judge (envOf s) .cancelPointing ownCancelPointing x s.plant = (q, accepted 0) :=
      (judge_owner ownCancelPointing (mayMove_passes may rfl)).trans (congrArg (·, accepted 0) h)
    exact congrArg _ (takeCommand_motion head judged rfl (by simp [accepted]))
  refine ⟨fun idle => own p (haltPointing_idle idle), fun busy => ?_⟩
  obtain ⟨posts, axd, smp, pat, halted, -, ended⟩ := haltPointing_rest (e := envOf s) (cause := .aborted .cancel) busy
  obtain ⟨p1, p2, stopped, patKept⟩ := haltPointing_stops (e := envOf s) (cause := .aborted .cancel) busy
  have axis (a : Axis) : axisOf (setHolder (some x.source) (haltPointing (envOf s) (.aborted .cancel) s.plant)) a =
      axisOf (haltPointing (envOf s) (.aborted .cancel) s.plant) a := axisOf_congr rfl a
  have dwell := stopped.dwell sound
  simp only [halted] at patKept
  refine ⟨setHolder (some x.source) (haltPointing (envOf s) (.aborted .cancel) s.plant), own _ rfl, ?_⟩
  refine ⟨by rw [halted]; rfl, by rw [halted]; rfl, by rw [halted]; rfl, by rw [halted]; rfl, by rw [halted]; rfl, dwell,
    fun way => by rw [halted]; exact ended way, fun none => by rw [halted]; exact patKept none, by rw [halted]; rfl, by rw [halted]; rfl, by rw [halted]; rfl,
    by rw [halted]; rfl, by rw [halted]; rfl, fun a arb none => ?_, fun a arb notMast => ⟨fun carries => ?_, fun notPol carries => ?_⟩⟩
  · simp only [working, Bool.or_eq_false_iff] at none
    obtain ⟨⟨pnt, pat⟩, pke⟩ := none
    have kept := stopped.others (listedWait_of_sound arb) pnt pat pke
    rw [axis]
    refine ⟨kept.granted, fun out => ?_⟩
    rcases kept with same | ⟨waits, -⟩
    · exact same
    · exact absurd (((arbiterSound_iff.1 arb).waits a).2 (by rw [waits]; rfl)) out
  · rw [axis, stopped.slews (listedWait_of_sound arb) notMast carries]
    obtain ⟨state, -⟩ := carriesMove_underWay carries
    rcases state with state | state | state <;> rw [state] <;> rfl
  · have mem : a ∈ pointAxes := by cases a <;> simp_all [pointAxes]
    obtain ⟨r, granted, noGrants, state⟩ := stopped.points (listedWait_of_sound arb) mem carries
    have moves := carries.elim (fun h => (carriesMove_underWay h).1) fun h => (carriesMove_underWay h.2).1
    rw [axis, state]
    refine ⟨fun driven => ?_, fun waits => ?_⟩
    · rcases granted with rfl | ⟨waits, -⟩
      · rcases moves.resolve_left driven with state | state <;> rw [state] <;> rfl
      · exact absurd waits driven
    · by_cases idle : r = axisOf s.plant a
      · exact .inl (by rw [idle, waits]; rfl)
      · refine .inr ⟨fun none => idle (noGrants none), ?_⟩
        rcases granted with same | ⟨-, same | move⟩
        · exact absurd same idle
        · exact absurd same idle
        · rw [move]; rfl

end Sys2Proof.Machine
end

