-- ==== Sys2Proof/Proofs/AxisServo.lean ====
section
/-! PROOFS. One servo period of one axis: its checks, its drive step and the drift check (O45). -/

namespace Sys2Proof.Machine

/-! ### Writes of one record -/

theorem setAxisRaw_setAxisRaw (a : Axis) (r r' : AxisRec) (p : Plant) : setAxisRaw a r (setAxisRaw a r' p) = setAxisRaw a r p := by cases a <;> rfl

theorem setAxisRaw_self (a : Axis) (p : Plant) : setAxisRaw a (axisOf p a) p = p := by cases a <;> rfl

theorem axisOf_setAxisRaw_same (a : Axis) (r : AxisRec) (p : Plant) : axisOf (setAxisRaw a r p) a = r := by simp

theorem onlyAxes_setAxisRaw (a : Axis) (r : AxisRec) (p : Plant) : OnlyAxes p (setAxisRaw a r p) := by cases a <;> exact ⟨rfl, rfl⟩

/-- A write that changes neither state nor drift flag posts nothing (R85, R118). -/
theorem putAxis_posts_same {e : Env} {a : Axis} {r : AxisRec} {p : Plant} (state : r.state = (axisOf p a).state) (drift : r.drift = (axisOf p a).drift) :
    (putAxis e a r p).posts = p.posts := by
  have shown : driftShown (setAxisRaw a (settleRecord e (axisOf p a) r) p) = driftShown p := by
    obtain ⟨_, _, _, written⟩ := settleRecord_rest e (axisOf p a) r
    rw [written]
    cases a
    case mast =>
      have same : r.drift = p.axd.axes.mast.drift := drift
      simp [driftShown, setAxisRaw, setAxes, same]
    all_goals rfl
  unfold putAxis
  dsimp only
  rw [if_neg (by simp [state, drift]), shown]
  simp [postStatusIf]

/-- `q` is `p` with the record of one axis written, the axis free events and the report period apart, and posts made. -/
structure AxisWritten (a : Axis) (p q : Plant) (r : AxisRec) : Prop where
  only : OnlyAxes p q
  others : ∀ b, b ≠ a → axisOf q b = axisOf p b
  record : ∃ freed noted start, axisOf q a = { r with freed := freed, noted := noted, reportStart := start }

theorem AxisWritten.trans {a : Axis} {p q q' : Plant} {r r' : AxisRec} (h : AxisWritten a p q r) (g : AxisWritten a q q' r') : AxisWritten a p q' r' :=
  ⟨h.only.trans g.only, fun b other => (g.others b other).trans (h.others b other), g.record⟩

theorem axisWritten_put (e : Env) (a : Axis) (r : AxisRec) (p : Plant) : AxisWritten a p (putAxis e a r p) r :=
  ⟨onlyAxes_putAxis e a r p, fun _ other => axisOf_putAxis_other e r p other, axisOf_putAxis_same e a r p⟩

theorem axisWritten_raw (a : Axis) (r : AxisRec) (p : Plant) : AxisWritten a p (setAxisRaw a r p) r :=
  ⟨onlyAxes_setAxisRaw a r p, fun b other => by rw [axisOf_setAxisRaw, if_neg other], ⟨_, _, _, axisOf_setAxisRaw_same a r p⟩⟩

/-! ### The checks of a period (R86 to R89, R117) -/

/-- The record of an axis with a valid reading and no switch active. -/
def readIn (r : AxisRec) (w : SensorWord) : AxisRec := { r with sensorValid := true, switchLow := false, switchHigh := false, position := some w.toInt }

/-- A record inside its margins with the stall count of the period. -/
def countedIn (r : AxisRec) (timer : Nat) (ref : Option Int) (due : Bool) : AxisRec :=
  { r with outsideHigh := false, outsideLow := false, stallTimer := timer, stallRef := ref, stallDue := due }

section
variable {e : Env} {a : Axis} {p : Plant} {y : Int}

theorem readAxis_valid {r : AxisRec} {x : Int} (read : r.position = some x) (w : SensorWord) :
    readAxis e a { reading := some w, low := false, high := false } r = readIn r w := by
  simp [readAxis, read, readIn]

theorem overtravelCheck_inside (read : (axisOf p a).position = some y) (low : (axisCfg e a).softMin - (axisCfg e a).margin ≤ y)
    (high : y ≤ (axisCfg e a).softMax + (axisCfg e a).margin) :
    overtravelCheck e a p = setAxisRaw a { axisOf p a with outsideHigh := false, outsideLow := false } p := by
  have above : beyondHigh e a y = false := decide_eq_false (by omega)
  have below : beyondLow e a y = false := decide_eq_false (by omega)
  simp [overtravelCheck, read, above, below]

theorem limitCheck_none (noSwitch : atSwitch (axisOf p a) = false) : limitCheck e a p = p := if_neg (by simp [noSwitch])

theorem atSwitch_clear {r : AxisRec} (low : r.switchLow = false) (high : r.switchHigh = false) : atSwitch r = false := by simp [atSwitch, low, high]

theorem sensorCheck_valid (wasValid : Bool) (valid : (axisOf p a).sensorValid = true) : sensorCheck e a wasValid p = p := by simp [sensorCheck, valid]

/-- The stall fields alone written; below the stall speed or short of the stall time no timeout is due (R88). -/
def StallCounted (e : Env) (a : Axis) (p q : Plant) : Prop :=
  ∃ timer ref due, q = setAxisRaw a { axisOf p a with stallTimer := timer, stallRef := ref, stallDue := due } p ∧
    ((axisOf p a).state = .moving → (axisOf p a).position ≠ none →
      (axisOf p a).v.natAbs < (axisCfg e a).stallSpeed ∨ (axisOf p a).stallTimer + 1 < (axisCfg e a).stallTime → due = false)

theorem stallCount_counted (e : Env) (a : Axis) (p : Plant) : StallCounted e a p (stallCount e a p) := by
  unfold stallCount
  dsimp only
  split
  · refine iteInduction (motive := StallCounted e a p) (fun slow => ?_) fun _ => ⟨_, _, _, rfl, fun _ _ _ => rfl⟩
    refine ⟨_, _, _, rfl, fun _ _ short => decide_eq_false ?_⟩
    omega
  · rename_i out
    refine ⟨_, _, _, (setAxisRaw_self a p).symm, fun moving read => ?_⟩
    obtain ⟨y, some⟩ := Option.ne_none_iff_exists'.1 read
    exact absurd some (out y moving)

theorem judgeCradle_above (before : Option Int) (read : mastPosition p = some y) (above : ((cfgOf e).cradleClear : Int) ≤ y) : judgeCradle e before p = p := by
  unfold judgeCradle
  rw [read]
  have still : ¬ y < ((cfgOf e).cradleClear : Int) := by omega
  cases before <;> simp [still]

/-- A period with a reading inside the margins, no switch active and MAST clear of the cradle raises nothing. -/
theorem periodChecks_pass {w : SensorWord} {x : Int} (read : (axisOf p a).position = some x) (low : (axisCfg e a).softMin - (axisCfg e a).margin ≤ w.toInt)
    (high : w.toInt ≤ (axisCfg e a).softMax + (axisCfg e a).margin) (cradle : a = .mast → ((cfgOf e).cradleClear : Int) ≤ w.toInt) :
    ∃ timer ref due, periodChecks e a (axisOf p a) (setAxisRaw a (readAxis e a { reading := some w, low := false, high := false } (axisOf p a)) p) =
        setAxisRaw a (countedIn (readIn (axisOf p a) w) timer ref due) p ∧
      ((axisOf p a).state = .moving → (axisOf p a).v.natAbs < (axisCfg e a).stallSpeed ∨ (axisOf p a).stallTimer + 1 < (axisCfg e a).stallTime → due = false) := by
  rw [readAxis_valid read]
  have inside : overtravelCheck e a (setAxisRaw a (readIn (axisOf p a) w) p) =
      setAxisRaw a { readIn (axisOf p a) w with outsideHigh := false, outsideLow := false } p := by
    rw [overtravelCheck_inside (by rw [axisOf_setAxisRaw_same]; rfl) low high, axisOf_setAxisRaw_same, setAxisRaw_setAxisRaw]
  obtain ⟨timer, ref, due, count, short⟩ := stallCount_counted e a (setAxisRaw a { readIn (axisOf p a) w with outsideHigh := false, outsideLow := false } p)
  rw [axisOf_setAxisRaw_same, setAxisRaw_setAxisRaw] at count
  rw [axisOf_setAxisRaw_same] at short
  refine ⟨timer, ref, due, ?_, fun moving => short moving (by simp [readIn])⟩
  have checked : sensorCheck e a (axisOf p a).sensorValid (stallCount e a (limitCheck e a (overtravelCheck e a (setAxisRaw a (readIn (axisOf p a) w) p)))) =
      setAxisRaw a (countedIn (readIn (axisOf p a) w) timer ref due) p := by
    rw [inside, limitCheck_none (by rw [axisOf_setAxisRaw_same]; exact atSwitch_clear rfl rfl), count, sensorCheck_valid _ (by rw [axisOf_setAxisRaw_same]; rfl)]
    rfl
  unfold periodChecks
  dsimp only
  rw [checked]
  cases a with
  | mast => exact judgeCradle_above _ rfl (cradle rfl)
  | pan | tilt | pol => rfl

end

/-! ### The drive step (R82 to R84) -/

section
variable {e : Env} {a : Axis} {p : Plant} {before : AxisState}

/-- The record that a MOVING axis writes (R82, R83). -/
def movedRecord (e : Env) (a : Axis) (r : AxisRec) : AxisRec :=
  let error := r.target.getD 0 - r.position.getD 0
  let v := rampToward r.v (demandedSpeed e a r error) (axisCfg e a).speedStep
  if error.natAbs ≤ (axisCfg e a).window ∧ v.natAbs ≤ (axisCfg e a).speedStep then
    { withSpeed e a v r with state := .settling, settleTimer := 0, settlePeriods := 0, stallTimer := 0, stallRef := none }
  else withSpeed e a v r

theorem driveStep_moving (state : (axisOf p a).state = .moving) : driveStep e a p = putAxis e a (movedRecord e a (axisOf p a)) p := by
  simp only [driveStep, state, moveStep, movedRecord, apply_ite (putAxis e a · p)]

/-- The record that a SETTLING axis writes (R83). -/
def settledRecord (e : Env) (a : Axis) (r : AxisRec) : AxisRec :=
  let r1 := withSpeed e a (rampToward r.v 0 (axisCfg e a).speedStep) r
  if (axisCfg e a).window < (r.target.getD 0 - r.position.getD 0).natAbs then
    { r1 with state := .moving, settleTimer := 0, settlePeriods := 0, stallTimer := 0, stallRef := r.position }
  else { r1 with settleTimer := r.settleTimer + 1, settlePeriods := r.settlePeriods + 1 }

theorem driveStep_settling (state : (axisOf p a).state = .settling) : driveStep e a p = putAxis e a (settledRecord e a (axisOf p a)) p := by
  simp only [driveStep, state, settleStep, settledRecord, apply_ite (putAxis e a · p)]

theorem driveStep_stopping (state : (axisOf p a).state = .stopping) : driveStep e a p = stopStep e a p := by simp only [driveStep, state]

theorem stopStep_slows (driven : stopRamp (axisOf p a).v (axisCfg e a).stopStep ≠ 0) :
    stopStep e a p = putAxis e a (withSpeed e a (stopRamp (axisOf p a).v (axisCfg e a).stopStep) (axisOf p a)) p := if_neg driven

/-- The record of an axis come to rest (R84). -/
def restedRecord (e : Env) (a : Axis) (held : Bool) (r : AxisRec) : AxisRec :=
  { clearMove (atRest r) with state := if held then .fault else .idle, target := r.position.map (clampSoft e a) }

/-- At speed 0 the axis comes to rest, in FAULT when held (R84). -/
theorem stopStep_rests (slow : stopRamp (axisOf p a).v (axisCfg e a).stopStep = 0) :
    AxisWritten a p (stopStep e a p) (restedRecord e a (isHeld p a) (axisOf p a)) := by
  have first := axisWritten_put e a (withSpeed e a 0 (axisOf p a)) p
  have step : stopStep e a p = putAxis e a (restedRecord e a (isHeld p a) (axisOf (putAxis e a (withSpeed e a 0 (axisOf p a)) p) a))
      (putAxis e a (withSpeed e a 0 (axisOf p a)) p) := by
    rw [← first.only.held]
    unfold stopStep
    dsimp only
    rw [slow, if_pos rfl]
    rfl
  obtain ⟨freed, noted, start, slowed⟩ := first.record
  have rested := first.trans (axisWritten_put e a (restedRecord e a (isHeld p a) (axisOf (putAxis e a (withSpeed e a 0 (axisOf p a)) p) a)) _)
  obtain ⟨freed, noted, start, written⟩ := rested.record
  rw [step]
  refine ⟨rested.only, rested.others, freed, noted, start, written.trans ?_⟩
  rw [slowed]
  rfl

/-! ### The drift check (R90) -/

theorem driftCheck_near {x t : Int} (idle : (axisOf p a).state = .idle) (read : (axisOf p a).position = some x) (target : (axisOf p a).target = some t)
    (near : ¬ 2 * (axisCfg e a).window < (x - t).natAbs) : driftCheck e a p = putAxis e a { axisOf p a with drift := false } p := by
  simp [driftCheck, idle, read, target, near]

theorem driftCheck_shown {x t : Int} (idle : (axisOf p a).state = .idle) (read : (axisOf p a).position = some x) (target : (axisOf p a).target = some t)
    (far : 2 * (axisCfg e a).window < (x - t).natAbs) (barred : correctionAllowed e a x t p = false) :
    driftCheck e a p = putAxis e a { axisOf p a with drift := true } p := by
  simp [driftCheck, idle, read, target, far, barred]

theorem driftCheck_corrects {x t : Int} (idle : (axisOf p a).state = .idle) (read : (axisOf p a).position = some x) (target : (axisOf p a).target = some t)
    (far : 2 * (axisCfg e a).window < (x - t).natAbs) (allowed : correctionAllowed e a x t p = true) :
    driftCheck e a p = joinWaiting e a { axisOf p a with
      requester := some (axisOf p a).lastOwner, cls := some (correctionClass a x t), correction := true, drift := false, recovery := false } p := by
  simp [driftCheck, idle, read, target, far, allowed]

/-! ### The period -/

/-- A period that ends with its drive step. -/
theorem periodDrive_drives (due : (axisOf p a).state = .moving → (axisOf p a).stallDue = false) (waited : before ≠ .waiting)
    (on : (axisOf (driveStep e a p) a).state ≠ .idle) : periodDrive e a before p = driveStep e a p := by
  have go : ¬ ((axisOf p a).state = .moving ∧ ((axisOf p a).stallDue = true ∨ before = .waiting)) := by
    rintro ⟨moving, stalled | waits⟩
    · rw [due moving] at stalled; cases stalled
    · exact waited waits
  unfold periodDrive
  rw [if_neg go]
  exact if_neg on

/-- A period that ends with the drift check. -/
theorem periodDrive_rests (off : (axisOf p a).state ≠ .moving) (idle : (axisOf (driveStep e a p) a).state = .idle) :
    periodDrive e a before p = driftCheck e a (driveStep e a p) := by
  unfold periodDrive
  rw [if_neg fun h => off h.1]
  exact if_pos idle

end

end Sys2Proof.Machine
end

