-- ==== Sys2Proof/Proofs/AxisPeriod.lean ====
section
/-! PROOFS. SERVO_PERIOD with a valid reading inside the margins, in the states that drive and in IDLE (O45). -/

namespace Sys2Proof.Machine

section
variable {s : State} {a : Axis} {w : SensorWord} {x : Int}

/-- The inputs of a period with a valid reading and no switch active. -/
def plainPins (w : SensorWord) : AxisPins := { reading := some w, low := false, high := false }

theorem exec_servoPeriod (running : s.setup.phase = .running) (pins : AxisPins) :
    exec (.servoPeriod a pins) s = .next (withPlant (servoPeriod (envOf s) a pins s.plant) s) := by
  have step : exec (.servoPeriod a pins) s = execServoPeriod a pins s := rfl
  rw [step, execServoPeriod, running]

/-- The record that the drive step and the drift check of a plain period find, and that no stall is due in MOVING. -/
theorem servoPeriod_plain (read : (axisOf s.plant a).position = some x) (low : (axisCfg (envOf s) a).softMin - (axisCfg (envOf s) a).margin ≤ w.toInt)
    (high : w.toInt ≤ (axisCfg (envOf s) a).softMax + (axisCfg (envOf s) a).margin) (cradle : a = .mast → (s.setup.cfg.cradleClear : Int) ≤ w.toInt) :
    ∃ timer ref due, servoPeriod (envOf s) a (plainPins w) s.plant =
        periodDrive (envOf s) a (axisOf s.plant a).state (setAxisRaw a (countedIn (readIn (axisOf s.plant a) w) timer ref due) s.plant) ∧
      ((axisOf s.plant a).state = .moving →
        (axisOf s.plant a).v.natAbs < (axisCfg (envOf s) a).stallSpeed ∨ (axisOf s.plant a).stallTimer + 1 < (axisCfg (envOf s) a).stallTime → due = false) := by
  obtain ⟨timer, ref, due, checks, short⟩ := periodChecks_pass (e := envOf s) read low high cradle
  exact ⟨timer, ref, due, congrArg (periodDrive (envOf s) a (axisOf s.plant a).state) checks, short⟩

/-- A period that writes the record of its axis and no more, as a state. -/
theorem AxisWritten.next {q : Plant} {r : AxisRec} (h : AxisWritten a s.plant q r) :
    withPlant q s = { s with plant := { s.plant with posts := q.posts, axd := { s.plant.axd with axes := q.axd.axes } } } := by
  rw [← h.only.lists]
  exact congrArg (withPlant · s) h.only.blocks

end

/-! ### The records a drive step writes -/

section
variable {e : Env} {a : Axis} {r : AxisRec} {y target : Int}

/-- The outputs of a record are those of its speed (R82 steps 4 and 5). -/
def drivenAt (e : Env) (a : Axis) (r : AxisRec) (v : Int) : Prop := r.v = v ∧ r.code = speedCode e a v ∧ r.dirDriven = decide (v < 0)

/-- What a drive step leaves of a record. -/
def movesOn (r r' : AxisRec) : Prop := r'.brakeSet = r.brakeSet ∧ r'.target = r.target ∧ r'.position = r.position ∧ r'.drift = r.drift

theorem movedRecord_moves (read : r.position = some y) (goal : r.target = some target) :
    let v := rampToward r.v (demandedSpeed e a r (target - y)) (axisCfg e a).speedStep
    drivenAt e a (movedRecord e a r) v ∧ movesOn r (movedRecord e a r) ∧
      (movedRecord e a r).state = if (target - y).natAbs ≤ (axisCfg e a).window ∧ v.natAbs ≤ (axisCfg e a).speedStep then .settling else r.state := by
  unfold movedRecord
  simp only [read, goal, Option.getD_some]
  split <;> exact ⟨⟨rfl, rfl, rfl⟩, ⟨rfl, rfl, rfl, rfl⟩, rfl⟩

theorem settledRecord_moves (read : r.position = some y) (goal : r.target = some target) :
    drivenAt e a (settledRecord e a r) (rampToward r.v 0 (axisCfg e a).speedStep) ∧ movesOn r (settledRecord e a r) ∧
      (if (axisCfg e a).window < (target - y).natAbs then (settledRecord e a r).state = .moving
      else (settledRecord e a r).state = r.state ∧ (settledRecord e a r).settleTimer = r.settleTimer + 1 ∧
        (settledRecord e a r).settlePeriods = r.settlePeriods + 1) := by
  unfold settledRecord
  simp only [read, goal, Option.getD_some]
  split <;> exact ⟨⟨rfl, rfl, rfl⟩, ⟨rfl, rfl, rfl, rfl⟩, by simp [withSpeed]⟩

/-- A write over a reading posts nothing when neither state nor drift flag changes. -/
theorem posts_putAxis_over {r' : AxisRec} {p : Plant} (state : r'.state = r.state) (drift : r'.drift = r.drift) :
    (putAxis e a r' (setAxisRaw a r p)).posts = p.posts :=
  putAxis_posts_same (by rw [axisOf_setAxisRaw_same, state]) (by rw [axisOf_setAxisRaw_same, drift])

theorem axisWritten_over (e : Env) (a : Axis) (r r' : AxisRec) (p : Plant) : AxisWritten a p (putAxis e a r' (setAxisRaw a r p)) r' :=
  (axisWritten_raw a r p).trans (axisWritten_put e a r' _)

end

section
variable {e : Env} {a : Axis} {r : AxisRec} {p : Plant}

theorem driveStep_moving_over (state : r.state = .moving) :
    driveStep e a (setAxisRaw a r p) = putAxis e a (movedRecord e a r) (setAxisRaw a r p) := by
  have found := axisOf_setAxisRaw_same a r p
  rw [driveStep_moving (by rw [found, state]), found]

theorem driveStep_settling_over (state : r.state = .settling) :
    driveStep e a (setAxisRaw a r p) = putAxis e a (settledRecord e a r) (setAxisRaw a r p) := by
  have found := axisOf_setAxisRaw_same a r p
  rw [driveStep_settling (by rw [found, state]), found]

theorem driveStep_slows_over (state : r.state = .stopping) (driven : stopRamp r.v (axisCfg e a).stopStep ≠ 0) :
    driveStep e a (setAxisRaw a r p) = putAxis e a (withSpeed e a (stopRamp r.v (axisCfg e a).stopStep) r) (setAxisRaw a r p) := by
  have found := axisOf_setAxisRaw_same a r p
  rw [driveStep_stopping (by rw [found, state]), stopStep_slows (by rw [found]; exact driven), found]

theorem driveStep_rests_over (state : r.state = .stopping) (slow : stopRamp r.v (axisCfg e a).stopStep = 0) :
    AxisWritten a p (driveStep e a (setAxisRaw a r p)) (restedRecord e a (isHeld p a) r) := by
  have found := axisOf_setAxisRaw_same a r p
  have rests := stopStep_rests (e := e) (a := a) (p := setAxisRaw a r p) (by rw [found]; exact slow)
  rw [found, (onlyAxes_setAxisRaw a r p).held] at rests
  rw [driveStep_stopping (by rw [found, state])]
  exact (axisWritten_raw a r p).trans rests

end

section
variable {e : Env} {a : Axis} {r : AxisRec} {p : Plant} {y : Int} {before : AxisState}

theorem clampSoft_inside (within : (axisCfg e a).softMin ≤ y ∧ y ≤ (axisCfg e a).softMax) : clampSoft e a y = y := by
  unfold clampSoft clampInt
  omega

/-- A period that brings a STOPPING axis to rest: inside the soft limits the drift check that may follow finds it at its hold target. -/
theorem periodDrive_rest (state : r.state = .stopping) (slow : stopRamp r.v (axisCfg e a).stopStep = 0) (read : r.position = some y)
    (within : (axisCfg e a).softMin ≤ y ∧ y ≤ (axisCfg e a).softMax) (waited : before ≠ .waiting) : ∃ q, periodDrive e a before (setAxisRaw a r p) = q ∧
      ∃ drift, AxisWritten a p q { restedRecord e a (isHeld p a) r with drift := drift } := by
  have found : (axisOf (setAxisRaw a r p) a).state = .stopping := by rw [axisOf_setAxisRaw_same, state]
  have rests := driveStep_rests_over (e := e) (a := a) (p := p) state slow
  obtain ⟨freed, noted, start, written⟩ := rests.record
  have now : (axisOf (driveStep e a (setAxisRaw a r p)) a).state = if isHeld p a then .fault else .idle := by rw [written]; rfl
  cases held : isHeld p a
  · rw [held] at now rests written
    have target : (axisOf (driveStep e a (setAxisRaw a r p)) a).target = some y := by
      rw [written]
      exact (congrArg (Option.map (clampSoft e a)) read).trans (congrArg some (clampSoft_inside within))
    have position : (axisOf (driveStep e a (setAxisRaw a r p)) a).position = some y := by rw [written]; exact read
    refine ⟨_, periodDrive_rests (by rw [found]; simp) now, false, ?_⟩
    rw [driftCheck_near now position target (by simp), written]
    obtain ⟨only, others, record⟩ := rests.trans (axisWritten_put e a _ _)
    exact ⟨only, others, record⟩
  · rw [held] at now rests
    exact ⟨_, periodDrive_drives (fun moving => by rw [found] at moving; cases moving) waited (by rw [now]; simp), r.drift, rests⟩

theorem periodDrive_idle_over (state : r.state = .idle) : periodDrive e a before (setAxisRaw a r p) = driftCheck e a (setAxisRaw a r p) := by
  have found : (axisOf (setAxisRaw a r p) a).state = .idle := by rw [axisOf_setAxisRaw_same, state]
  have still : driveStep e a (setAxisRaw a r p) = setAxisRaw a r p := by simp only [driveStep, found]
  rw [periodDrive_rests (by rw [found]; simp) (by rw [still, found]), still]

theorem headFree_setAxisRaw (head : a ≠ .mast) : headFree e (setAxisRaw a r p) = headFree e p := by cases a <;> first | rfl | exact absurd rfl head

/-- What a correction needs, by its class (R90). -/
theorem correctionAllowed_over {target : Int} (clear : r.switchLow = false ∧ r.switchHigh = false) :
    correctionAllowed e a y target (setAxisRaw a r p) = true ↔ p.aut.latch = none ∧ (correctionClass a y target = .raise → raiseGiven p = true) ∧
      (a ≠ .mast → headMoveGiven p = true ∧ headFree e p = true) := by
  have noSwitch : switchBlocks (axisOf (setAxisRaw a r p) a) target = false := by
    rw [axisOf_setAxisRaw_same, switchBlocks, clear.1, clear.2]
    cases r.position <;> simp
  have latch : (setAxisRaw a r p).aut.latch.isNone = true ↔ p.aut.latch = none := Option.isNone_iff_eq_none
  unfold correctionAllowed
  rw [noSwitch, Bool.not_false, Bool.and_true, Bool.and_eq_true, latch]
  refine and_congr_right fun _ => ?_
  by_cases head : a = .mast
  · subst head
    by_cases up : y < target <;> simp [correctionClass, isHead, up, raiseGiven, given]
  · simp [correctionClass, isHead_iff.2 head, head, headFree_setAxisRaw head, headMoveGiven, given]

end

/-- Settles O45: the drive step by the state it finds, and the drift check in IDLE. -/
theorem aServoPeriodDrivesTheAxis : Obligations.AServoPeriodDrivesTheAxis := by
  refine ⟨fun s a w x target => ?_, fun s a w x target => ?_⟩
  · intro e r c err top toward outputs running read goal low high within cradle short driving
    obtain ⟨timer, ref, due, period, dueNow⟩ := servoPeriod_plain read low high cradle
    have step := (exec_servoPeriod running (plainPins w)).trans (congrArg (fun q => Host.Outcome.next (withPlant q s)) period)
    generalize read1 : countedIn (readIn r w) timer ref due = r1 at period step
    have found := axisOf_setAxisRaw_same a r1 s.plant
    have position : r1.position = some w.toInt := by rw [← read1]; rfl
    have aim : r1.target = some target := by rw [← read1]; exact goal
    have speed : r1.v = r.v := by rw [← read1]; rfl
    have state : r1.state = r.state := by rw [← read1]; rfl
    have drift : r1.drift = r.drift := by rw [← read1]; rfl
    have brake : r1.brakeSet = r.brakeSet := by rw [← read1]; rfl
    have noStall : r1.state = .moving → r1.stallDue = false := fun moving => by rw [← read1]; exact dueNow (state.symm.trans moving) short
    have waited : r.state ≠ .waiting := by rcases driving with h | h | h <;> rw [h] <;> simp
    have drives {r2 : AxisRec} (one : driveStep e a (setAxisRaw a r1 s.plant) = putAxis e a r2 (setAxisRaw a r1 s.plant)) (on : r2.state ≠ .idle) :
        exec (.servoPeriod a (plainPins w)) s = .next (withPlant (putAxis e a r2 (setAxisRaw a r1 s.plant)) s) := by
      rw [step, periodDrive_drives (by rw [found]; exact noStall) waited (by rw [one, axisOf_putAxis, if_pos rfl, settleRecord_state]; exact on), one]
    rcases driving with moving | settling | stopping
    · obtain ⟨out, ⟨sameBrake, sameTarget, samePosition, sameDrift⟩, next⟩ := movedRecord_moves (e := e) (a := a) position aim
      have one := drives (driveStep_moving_over (state.trans moving))
      have posts := posts_putAxis_over (e := e) (a := a) (r := r1) (r' := movedRecord e a r1) (p := s.plant)
      have frame := axisWritten_over e a r1 (movedRecord e a r1) s.plant
      generalize putAxis e a (movedRecord e a r1) (setAxisRaw a r1 s.plant) = q at one posts frame
      obtain ⟨freed, noted, start, written⟩ := frame.record
      have kept : demandedSpeed e a r1 (target - w.toInt) = clampInt (-top) top (roundAway (err * (c.gain : Int)) 16) := by rw [← read1]; rfl
      rw [state, moving] at next
      rw [speed, kept] at out next
      refine ⟨_, one ?_, frame.next, frame.others, ?_, fun same _ => ?_, fun _ => ?_, fun settling => ?_, fun stopping => ?_⟩
      · rw [next]; split <;> simp
      · exact (congrArg AxisRec.position written).trans (samePosition.trans position)
      · have stays : (movedRecord e a r1).state = r.state := (congrArg AxisRec.state written).symm.trans same
        exact posts (stays.trans state.symm) sameDrift
      · rw [show axisOf (withPlant q s).plant a = _ from written]
        exact ⟨out, sameBrake.trans brake, sameTarget.trans aim, next⟩
      · exact absurd (moving.symm.trans settling) (by simp)
      · exact absurd (moving.symm.trans stopping) (by simp)
    · obtain ⟨out, ⟨sameBrake, sameTarget, samePosition, sameDrift⟩, next⟩ := settledRecord_moves (e := e) (a := a) position aim
      have one := drives (driveStep_settling_over (state.trans settling))
      have posts := posts_putAxis_over (e := e) (a := a) (r := r1) (r' := settledRecord e a r1) (p := s.plant)
      have frame := axisWritten_over e a r1 (settledRecord e a r1) s.plant
      generalize putAxis e a (settledRecord e a r1) (setAxisRaw a r1 s.plant) = q at one posts frame
      obtain ⟨freed, noted, start, written⟩ := frame.record
      rw [state, settling] at next
      rw [speed] at out
      refine ⟨_, one ?_, frame.next, frame.others, ?_, fun same _ => ?_, fun moving => ?_, fun _ => ?_, fun stopping => ?_⟩
      · split at next
        · rw [next]; simp
        · rw [next.1]; simp
      · exact (congrArg AxisRec.position written).trans (samePosition.trans position)
      · have stays : (settledRecord e a r1).state = r.state := (congrArg AxisRec.state written).symm.trans same
        exact posts (stays.trans state.symm) sameDrift
      · exact absurd (settling.symm.trans moving) (by simp)
      · rw [show axisOf (withPlant q s).plant a = _ from written]
        refine ⟨out, sameBrake.trans brake, ?_⟩
        split at next
        · rw [if_pos ‹_›]; exact next
        · rw [if_neg ‹_›]
          have count : r1.settleTimer = r.settleTimer ∧ r1.settlePeriods = r.settlePeriods := by rw [← read1]; exact ⟨rfl, rfl⟩
          rw [count.1, count.2] at next
          exact next
      · exact absurd (settling.symm.trans stopping) (by simp)
    · have stays := state.trans stopping
      have ramp : stopRamp r1.v (axisCfg e a).stopStep = stopRamp r.v c.stopStep := by rw [speed]
      by_cases slow : stopRamp r.v c.stopStep = 0
      · obtain ⟨q, ends, drift, frame⟩ := periodDrive_rest (before := r.state) stays (ramp.trans slow) position (within stopping) waited
        rw [ends] at step
        obtain ⟨freed, noted, start, written⟩ := frame.record
        have restState : (axisOf (withPlant q s).plant a).state = if isHeld s.plant a then .fault else .idle := by rw [show axisOf (withPlant q s).plant a = _ from written]; rfl
        refine ⟨_, step, frame.next, frame.others, ?_, fun same _ => ?_, fun moving => ?_, fun settling => ?_, fun _ => ?_⟩
        · exact (congrArg AxisRec.position written).trans position
        · rw [restState, stopping] at same
          split at same <;> cases same
        · exact absurd (stopping.symm.trans moving) (by simp)
        · exact absurd (stopping.symm.trans settling) (by simp)
        · change ite (stopRamp r.v c.stopStep ≠ 0) _ _
          rw [if_neg (not_not.2 slow), show axisOf (withPlant q s).plant a = _ from written]
          refine ⟨rfl, rfl, rfl, rfl, ?_, rfl, ?_⟩
          · exact congrArg (Option.map (clampSoft e a)) position
          · rw [← read1]; rfl
      · have one := drives (driveStep_slows_over (e := e) (a := a) stays (by rw [ramp]; exact slow))
        have posts := posts_putAxis_over (e := e) (a := a) (r := r1) (r' := withSpeed e a (stopRamp r1.v (axisCfg e a).stopStep) r1) (p := s.plant) rfl rfl
        have frame := axisWritten_over e a r1 (withSpeed e a (stopRamp r1.v (axisCfg e a).stopStep) r1) s.plant
        generalize putAxis e a (withSpeed e a (stopRamp r1.v (axisCfg e a).stopStep) r1) (setAxisRaw a r1 s.plant) = q at one posts frame
        obtain ⟨freed, noted, start, written⟩ := frame.record
        refine ⟨_, one (by rw [withSpeed, stays]; simp), frame.next, frame.others, ?_, fun _ _ => posts, fun moving => ?_, fun settling => ?_, fun _ => ?_⟩
        · exact (congrArg AxisRec.position written).trans position
        · exact absurd (stopping.symm.trans moving) (by simp)
        · exact absurd (stopping.symm.trans settling) (by simp)
        · change ite (stopRamp r.v c.stopStep ≠ 0) _ _
          rw [if_pos slow, show axisOf (withPlant q s).plant a = _ from written, ramp]
          exact ⟨⟨rfl, rfl, rfl⟩, stays, brake⟩
  · intro p r c drifted cls may running idle read goal low high cradle
    obtain ⟨timer, ref, due, period, -⟩ := servoPeriod_plain read low high cradle
    have step := (exec_servoPeriod running (plainPins w)).trans (congrArg (fun q => Host.Outcome.next (withPlant q s)) period)
    generalize read1 : countedIn (readIn r w) timer ref due = r1 at period step
    have position : r1.position = some w.toInt := by rw [← read1]; rfl
    have aim : r1.target = some target := by rw [← read1]; exact goal
    have state : r1.state = .idle := by rw [← read1]; exact idle
    have owner : r1.lastOwner = r.lastOwner := by rw [← read1]; rfl
    have clear : r1.switchLow = false ∧ r1.switchHigh = false := by rw [← read1]; exact ⟨rfl, rfl⟩
    have named : correctionClass a w.toInt target = cls := by simp only [correctionClass, isHead_iff]; rfl
    have allowed : correctionAllowed (envOf s) a w.toInt target (setAxisRaw a r1 p) = true ↔ may := by
      rw [correctionAllowed_over clear, named]
    rw [periodDrive_idle_over state] at step
    have idle1 : (axisOf (setAxisRaw a r1 p) a).state = .idle := by rw [axisOf_setAxisRaw_same, state]
    have at1 : (axisOf (setAxisRaw a r1 p) a).position = some w.toInt := by rw [axisOf_setAxisRaw_same, position]
    have aim1 : (axisOf (setAxisRaw a r1 p) a).target = some target := by rw [axisOf_setAxisRaw_same, aim]
    by_cases corrects : drifted ∧ may
    · obtain ⟨far, ok⟩ := corrects
      have joins := driftCheck_corrects idle1 at1 aim1 far (allowed.2 ok)
      rw [axisOf_setAxisRaw_same, named, owner] at joins
      obtain ⟨posts, axd, rest⟩ := joinWaiting_rest (envOf s) a { r1 with
        requester := some r.lastOwner, cls := some cls, correction := true, drift := false, recovery := false } (setAxisRaw a r1 p)
      obtain ⟨waits, requester, kind, goal, made, -, -, drift, there⟩ := (joinWaiting_axis (envOf s) a a { r1 with
        requester := some r.lastOwner, cls := some cls, correction := true, drift := false, recovery := false } (setAxisRaw a r1 p)).1 rfl
      rw [← joins] at rest waits requester kind goal made drift there
      refine ⟨_, step, ?_, there.trans position, goal.trans aim, fun _ _ => ⟨waits, requester, kind, made, drift⟩, fun no => absurd ⟨far, ok⟩ no⟩
      rw [rest]
      rfl
    · obtain ⟨shown, drift, ends⟩ : ∃ shown, (shown = true ↔ drifted) ∧
          driftCheck (envOf s) a (setAxisRaw a r1 p) = putAxis (envOf s) a { r1 with drift := shown } (setAxisRaw a r1 p) := by
        by_cases far : drifted
        · have barred : correctionAllowed (envOf s) a w.toInt target (setAxisRaw a r1 p) = false := by
            rw [← Bool.not_eq_true, allowed]
            exact fun ok => corrects ⟨far, ok⟩
          exact ⟨true, iff_of_true rfl far, by rw [driftCheck_shown idle1 at1 aim1 far barred, axisOf_setAxisRaw_same]⟩
        · exact ⟨false, iff_of_false (by simp) far, by rw [driftCheck_near idle1 at1 aim1 far, axisOf_setAxisRaw_same]⟩
      have frame := axisWritten_over (envOf s) a r1 { r1 with drift := shown } p
      rw [← ends] at frame
      obtain ⟨freed, noted, start, written⟩ := frame.record
      refine ⟨_, step, congrArg (withPlant · s) frame.only.blocks, ?_⟩
      rw [show axisOf (withPlant (driftCheck (envOf s) a (setAxisRaw a r1 p)) s).plant a = _ from written]
      exact ⟨position, aim, fun far ok => absurd ⟨far, ok⟩ corrects, fun _ => ⟨state, drift, frame.others⟩⟩

end Sys2Proof.Machine
end

