-- ==== Sys2Proof/Proofs/AxisEndings.lean ====
section
/-! PROOFS. What the halts of MSQ and PNT do to the axes: moves ended and returned grants handed out, in one event or several (R94). -/

namespace Sys2Proof.Machine

/-! ### The inputs of an axis, which no end of a move writes -/

/-- What a servo period reads into a record, and the stall timeout it makes due. -/
def inputs (r : AxisRec) : Option Int × Bool × Bool × Bool × Bool := (r.position, r.sensorValid, r.switchLow, r.switchHigh, r.stallDue)

section
variable {e : Env} {p q r : Plant} {a b : Axis}

theorem inputs_settleRecord (e : Env) (x r : AxisRec) : inputs (settleRecord e x r) = inputs r := by
  obtain ⟨_, _, _, written⟩ := settleRecord_rest e x r
  rw [written]
  rfl

theorem inputs_granted {r r' : AxisRec} (h : grantedOrSame r r') : inputs r' = inputs r := by
  rcases h with h | h
  · rw [h]
  · rw [h]; rfl

theorem inputs_putAxis {r : AxisRec} (kept : inputs r = inputs (axisOf p a)) (b : Axis) : inputs (axisOf (putAxis e a r p) b) = inputs (axisOf p b) := by
  rw [axisOf_putAxis]
  split
  · rw [inputs_settleRecord, kept, ‹b = a›]
  · rfl

theorem inputs_endMove (a b : Axis) (p : Plant) : inputs (axisOf (endMove e a p) b) = inputs (axisOf p b) := by
  have stops : inputs (axisOf (toStopping e a p) b) = inputs (axisOf p b) := by
    unfold toStopping
    rw [axisOf_leaveGrants]
    exact inputs_putAxis (by rfl) b
  unfold endMove
  split
  · unfold abandonWaiting
    rw [axisOf_leaveWaiting]
    exact inputs_putAxis (by rfl) b
  · exact stops
  · exact stops
  all_goals rfl

theorem inputs_endMoves (picks : AxisRec → Bool) (l : List Axis) (b : Axis) (p : Plant) : inputs (axisOf (endMoves e picks l p) b) = inputs (axisOf p b) :=
  have ended : inputs (axisOf (movesEnded e picks l p) b) = inputs (axisOf p b) :=
    movesEnded_keeps e picks (P := fun q => inputs (axisOf q b) = inputs (axisOf p b)) (fun a q h => (inputs_endMove (e := e) a b q).trans h) l (p := p) rfl
  (inputs_granted (afterLeaving_axis e p (movesEnded e picks l p) b).1).trans ended

theorem endMove_still (rest : endedState (axisOf p a).state = (axisOf p a).state) : endMove e a p = p := by
  unfold endMove
  cases state : (axisOf p a).state
  case waiting | moving | settling => rw [state] at rest; cases rest
  all_goals rfl

/-- An axis that carries no move and waits for no grant is left as it is. -/
theorem endMoves_still (picks : AxisRec → Bool) (l : List Axis) (rest : endedState (axisOf p a).state = (axisOf p a).state) (out : a ∉ p.axd.waiting) :
    axisOf (endMoves e picks l p) a = axisOf p a := by
  have same : axisOf (movesEnded e picks l p) a = axisOf p a :=
    movesEnded_keeps e picks (P := fun q => axisOf q a = axisOf p a) (fun b q h => by
      by_cases here : a = b
      · rw [← here, endMove_still (by rw [h]; exact rest), h]
      · rw [axisOf_endMove_ne e here, h]) l rfl
  exact ((afterLeaving_axis e p _ a).2 fun m => out (movesEnded_waiting e picks l m)).trans same

/-! ### Ends of moves, one event after another -/

/-- The drives of `q` come from those of `p` by events that end moves. -/
inductive EndsMoves (e : Env) (p : Plant) : Plant → Prop where
  | same {q : Plant} (axd : q.axd = p.axd) : EndsMoves e p q
  | ended {q r : Plant} (h : EndsMoves e p q) (picks : AxisRec → Bool) (l : List Axis) (axd : r.axd = (endMoves e picks l q).axd) : EndsMoves e p r

theorem EndsMoves.axd (h : EndsMoves e p q) (same : r.axd = q.axd) : EndsMoves e p r := by
  cases h with
  | same axd => exact .same (same.trans axd)
  | ended h picks l axd => exact .ended h picks l (same.trans axd)

theorem EndsMoves.trans (h : EndsMoves e p q) (g : EndsMoves e q r) : EndsMoves e p r := by
  induction g with
  | same axd => exact h.axd axd
  | ended _ picks l axd ih => exact .ended ih picks l axd

theorem EndsMoves.inputs (h : EndsMoves e p q) (b : Axis) : inputs (axisOf q b) = inputs (axisOf p b) := by
  induction h with
  | same axd => rw [axisOf_axd axd]
  | ended _ picks l axd ih => rw [axisOf_axd axd, inputs_endMoves, ih]

theorem EndsMoves.still (h : EndsMoves e p q) (rest : endedState (axisOf p a).state = (axisOf p a).state) (out : a ∉ p.axd.waiting) :
    axisOf q a = axisOf p a ∧ a ∉ q.axd.waiting := by
  induction h with
  | same axd => rw [axisOf_axd axd, axd]; exact ⟨rfl, out⟩
  | ended _ picks l axd ih =>
    obtain ⟨same, out⟩ := ih
    rw [axisOf_axd axd, axd, endMoves_still picks l (by rw [same]; exact rest) out]
    exact ⟨same, fun m => out (endMoves_waiting e picks m)⟩

theorem endsMoves_cancelMoves (who : Requester) (l : List Axis) (p : Plant) : EndsMoves e p (cancelMoves e who l p) := .ended (.same rfl) _ l rfl

theorem endsMoves_cancelMastWork (e : Env) (p : Plant) : EndsMoves e p (cancelMastWork e p) := by
  unfold cancelMastWork
  split
  · exact endsMoves_cancelMoves _ _ p
  · exact endsMoves_cancelMoves _ _ p
  · exact endsMoves_cancelMoves _ _ p
  all_goals exact .same rfl

theorem endsMoves_haltMast (cause : HoldCause) (axis : Axis) (report : Bool) (p : Plant) : EndsMoves e p (haltMast e cause axis report p) := by
  obtain ⟨posts, halted⟩ := haltMast_eq e p cause axis report
  exact (endsMoves_cancelMastWork e p).axd (by rw [halted])

theorem endsMoves_mastFault (kind : FaultKind) (axis : FaultAxis) (stored : Bool) (p : Plant) : EndsMoves e p (mastFault e kind axis stored p) := by
  unfold mastFault headNotParked
  split
  · split
    · exact .same rfl
    · split
      · exact endsMoves_haltMast _ _ _ p
      · exact endsMoves_haltMast _ _ _ p
  · exact .same rfl

theorem WorkStopped.endsMoves {on : Bool} {who : Requester} {l : List Axis} (h : WorkStopped e on who l p q) : EndsMoves e p q := .ended (.same rfl) _ l h.axd

theorem endsMoves_haltPointing (cause : PatternCause) (p : Plant) : EndsMoves e p (haltPointing e cause p) := by
  by_cases idle : p.pnt.state = .idle
  · rw [haltPointing_idle idle]
    exact .same rfl
  · obtain ⟨p1, p2, stops, -⟩ := haltPointing_stops (e := e) (cause := cause) idle
    exact (stops.slew.endsMoves.trans stops.pattern.endsMoves).trans stops.run.endsMoves

theorem endsMoves_pointingFault (kind : FaultKind) (axis : FaultAxis) (p : Plant) : EndsMoves e p (pointingFault e kind axis p) := by
  unfold pointingFault
  split
  · exact endsMoves_haltPointing _ p
  · exact .same rfl

theorem axisInsideStow_inputs (same : inputs (axisOf q a) = inputs (axisOf p a)) : axisInsideStow e q a = axisInsideStow e p a := by
  simp only [inputs, Prod.mk.injEq] at same
  simp only [axisInsideStow, same]

theorem headInsideStow_inputs (same : ∀ a, a ≠ .mast → inputs (axisOf q a) = inputs (axisOf p a)) : headInsideStow e q = headInsideStow e p := by
  simp only [headInsideStow, headAxes, List.all_cons, List.all_nil, axisInsideStow_inputs (same .pan (by decide)), axisInsideStow_inputs (same .tilt (by decide)),
    axisInsideStow_inputs (same .pol (by decide))]

/-! ### The work of another requester through a halt of pointing -/

/-- A move that is none of PNT's, PAT's and PKE's, through a halt of pointing. -/
theorem haltPointing_others {cause : PatternCause} (listed : listedWait p) (apart : ∀ who ∈ [Requester.pnt, .pat, .pke], carriesMove (axisOf p a) who = false) :
    grantedWaiting (axisOf p a) (axisOf (haltPointing e cause p) a) ∧ (p.axd.grants = [] → axisOf (haltPointing e cause p) a = axisOf p a) ∧
      listedWait (haltPointing e cause p) := by
  by_cases idle : p.pnt.state = .idle
  · rw [haltPointing_idle idle]
    exact ⟨.inl rfl, fun _ => rfl, listed⟩
  · obtain ⟨p1, p2, stops, -⟩ := haltPointing_stops (e := e) (cause := cause) idle
    have listed1 := stops.slew.listed listed
    have listed2 := stops.pattern.listed listed1
    obtain ⟨first, same1⟩ := stops.slew.other listed (a := a) (apart .pnt (by simp))
    obtain ⟨second, same2⟩ := stops.pattern.other listed1 (a := a) (by rw [carriesMove_grantedWaiting first, apart .pat (by simp), Bool.and_false])
    have both := grantedWaiting_trans first second
    obtain ⟨third, same3⟩ := stops.run.other listed2 (a := a) ((carriesMove_grantedWaiting both _).trans (apart .pke (by simp)))
    refine ⟨grantedWaiting_trans both third, fun none => ?_, stops.run.listed listed2⟩
    have none1 := stops.slew.noGrants none
    rw [same3 (stops.pattern.noGrants none1), same2 none1, same1 none]

end

end Sys2Proof.Machine
end

