-- ==== Sys2Proof/Proofs/AxisFaults.lean ====
section
/-! PROOFS. A fault raised: the fault set, and each axis it names halted by its state (R96, R97, R98). -/

namespace Sys2Proof.Machine

/-! ### One axis halted (R98) -/

/-- The record of an axis halted by a fault, by its state. -/
def haltedRecord (e : Env) (a : Axis) (r : AxisRec) : AxisRec :=
  match r.state with
  | .idle => settleRecord e r { r with state := .fault, drift := false }
  | .waiting => settleRecord e r { clearMove (atRest r) with state := .fault, target := r.position.map (clampSoft e a) }
  | .moving | .settling => settleRecord e r { r with state := .stopping, settleTimer := 0, settlePeriods := 0, stallTimer := 0, stallRef := none, cap := none }
  | .stopping | .fault => r

/-- The state after the halt. -/
def haltedState : AxisState → AxisState
  | .idle | .waiting | .fault => .fault
  | .moving | .settling | .stopping => .stopping

section
variable {e : Env} {p q : Plant} {a b : Axis} {r : AxisRec}

theorem haltedRecord_state (e : Env) (a : Axis) (r : AxisRec) : (haltedRecord e a r).state = haltedState r.state := by
  unfold haltedRecord haltedState
  cases state : r.state
  case stopping | fault => exact state
  all_goals exact settleRecord_state _ _ _

theorem haltedState_rests (x : AxisState) : endedState (haltedState x) = haltedState x := by cases x <;> rfl

theorem inputs_haltedRecord (e : Env) (a : Axis) (r : AxisRec) : inputs (haltedRecord e a r) = inputs r := by
  unfold haltedRecord
  cases r.state
  case stopping | fault => rfl
  all_goals exact inputs_settleRecord _ _ _

/-- An axis that drives keeps its speed (R84). -/
theorem haltedRecord_v (e : Env) (a : Axis) (driving : r.state = .moving ∨ r.state = .settling ∨ r.state = .stopping) : (haltedRecord e a r).v = r.v := by
  have kept (r' : AxisRec) : (settleRecord e r r').v = r'.v := by
    obtain ⟨_, _, _, written⟩ := settleRecord_rest e r r'
    rw [written]
  unfold haltedRecord
  rcases driving with state | state | state <;> rw [state]
  · exact kept _
  · exact kept _

theorem axisOf_haltAxis (a b : Axis) (p : Plant) : axisOf (haltAxis e a p) b = if b = a then haltedRecord e a (axisOf p a) else axisOf p b := by
  unfold haltAxis haltedRecord
  dsimp only
  cases (axisOf p a).state
  case idle => exact axisOf_putAxis e a b _ p
  case waiting => exact (axisOf_leaveWaiting a b _).trans (axisOf_putAxis e a b _ p)
  case moving | settling => exact (axisOf_leaveGrants a b _).trans (axisOf_putAxis e a b _ p)
  all_goals
    dsimp only
    split
    · rw [‹b = a›]
    · rfl

/-- An axis that still waits after a halt waited before, and the halt was not its own. -/
theorem haltAxis_waiting (m : b ∈ (haltAxis e a p).axd.waiting) : b ∈ p.axd.waiting ∧ (b = a → (axisOf p b).state ≠ .waiting) := by
  unfold haltAxis at m
  dsimp only at m
  cases state : (axisOf p a).state
  case waiting =>
    rw [state] at m
    simp only [abandonWaiting, waiting_leaveWaiting, putAxis_axd, waiting_setAxisRaw, removeAll_mem] at m
    exact ⟨m.1, fun same => absurd same m.2⟩
  case moving | settling =>
    rw [state] at m
    simp only [toStopping, waiting_leaveGrants, putAxis_axd, waiting_setAxisRaw] at m
    exact ⟨m, fun same => by rw [same, state]; simp⟩
  case idle =>
    rw [state] at m
    simp only [putAxis_axd, waiting_setAxisRaw] at m
    exact ⟨m, fun same => by rw [same, state]; simp⟩
  all_goals
    rw [state] at m
    exact ⟨m, fun same => by rw [same, state]; simp⟩

/-! ### The axes a fault names (R98) -/

/-- The fault halts the axis: it names it, and a stored DRIVE_AWAY does not spare its move. -/
def haltsOn (kind : FaultKind) (axis : FaultAxis) (stored : Bool) (p : Plant) (a : Axis) : Bool :=
  faultNames axis a && !(decide (kind = .driveAway) && stored && sparedLower p (axisOf p a))

/-- The axes of a list halted in turn, before any grant is handed out. -/
def haltEach (e : Env) (kind : FaultKind) (axis : FaultAxis) (stored : Bool) (l : List Axis) (p : Plant) : Plant :=
  l.foldl (fun x a => if haltsOn kind axis stored x a then haltAxis e a x else x) p

theorem haltFor_eq (e : Env) (kind : FaultKind) (axis : FaultAxis) (stored : Bool) (p : Plant) :
    haltFor e kind axis stored p = afterLeaving e p (haltEach e kind axis stored allAxes p) := by
  unfold haltFor haltEach haltsOn
  congr 2
  funext x a
  cases faultNames axis a
  · rfl
  · cases decide (kind = .driveAway) && stored && sparedLower x (axisOf x a) <;> rfl

variable {kind : FaultKind} {axis : FaultAxis} {stored : Bool}

theorem haltEach_cons (a : Axis) (l : List Axis) (p : Plant) : haltEach e kind axis stored (a :: l) p =
    haltEach e kind axis stored l (if haltsOn kind axis stored p a then haltAxis e a p else p) := rfl

theorem haltsOn_haltAxis (other : b ≠ a) : haltsOn kind axis stored (haltAxis e a p) b = haltsOn kind axis stored p b := by
  obtain ⟨_, _, only⟩ := haltAxis_onlyDrives e a p
  have msq : (haltAxis e a p).msq = p.msq := by rw [only]
  rw [haltsOn, haltsOn, axisOf_haltAxis, if_neg other, sparedLower, sparedLower, msq]

theorem haltEach_out {l : List Axis} (out : b ∉ l) (p : Plant) :
    axisOf (haltEach e kind axis stored l p) b = axisOf p b ∧ (b ∈ (haltEach e kind axis stored l p).axd.waiting → b ∈ p.axd.waiting) := by
  induction l generalizing p with
  | nil => exact ⟨rfl, id⟩
  | cons a l ih =>
    obtain ⟨other, out⟩ := not_or.1 (mt List.mem_cons.2 out)
    rw [haltEach_cons]
    obtain ⟨same, waits⟩ := ih out (if haltsOn kind axis stored p a then haltAxis e a p else p)
    split at same <;> split at waits
    · rename_i on _
      rw [if_pos on, same, axisOf_haltAxis, if_neg other]
      exact ⟨rfl, fun m => (haltAxis_waiting (waits m)).1⟩
    · contradiction
    · contradiction
    · rename_i off _
      rw [if_neg off]
      exact ⟨same, waits⟩

/-- An axis the fault halts: its record is the halted one, and it waits no more. -/
theorem haltEach_on {l : List Axis} (once : l.Nodup) (mem : a ∈ l) (on : haltsOn kind axis stored p a = true)
    (listed : a ∈ p.axd.waiting → (axisOf p a).state = .waiting) :
    axisOf (haltEach e kind axis stored l p) a = haltedRecord e a (axisOf p a) ∧ a ∉ (haltEach e kind axis stored l p).axd.waiting := by
  induction l generalizing p with
  | nil => cases mem
  | cons b l ih =>
    obtain ⟨out, once⟩ := List.nodup_cons.1 once
    rw [haltEach_cons]
    by_cases same : a = b
    · subst same
      rw [if_pos on]
      obtain ⟨kept, waits⟩ := haltEach_out (e := e) (kind := kind) (axis := axis) (stored := stored) out (haltAxis e a p)
      rw [kept, axisOf_haltAxis, if_pos rfl]
      exact ⟨rfl, fun m => (haltAxis_waiting (waits m)).2 rfl (listed (haltAxis_waiting (waits m)).1)⟩
    · have mem := (List.mem_cons.1 mem).resolve_left same
      split
      · have other : axisOf (haltAxis e b p) a = axisOf p a := by rw [axisOf_haltAxis, if_neg same]
        have next := ih (p := haltAxis e b p) once mem (by rw [haltsOn_haltAxis same]; exact on) fun m => by rw [other]; exact listed (haltAxis_waiting m).1
        rw [other] at next
        exact next
      · exact ih once mem on listed

theorem inputs_haltEach (l : List Axis) (p : Plant) (b : Axis) : inputs (axisOf (haltEach e kind axis stored l p) b) = inputs (axisOf p b) := by
  induction l generalizing p with
  | nil => rfl
  | cons a l ih =>
    rw [haltEach_cons, ih]
    split
    · rw [axisOf_haltAxis]
      split
      · rw [inputs_haltedRecord, ‹b = a›]
      · rfl
    · rfl

theorem haltFor_on (on : haltsOn kind axis stored p a = true) (listed : a ∈ p.axd.waiting → (axisOf p a).state = .waiting) :
    axisOf (haltFor e kind axis stored p) a = haltedRecord e a (axisOf p a) ∧ a ∉ (haltFor e kind axis stored p).axd.waiting := by
  obtain ⟨record, out⟩ := haltEach_on (e := e) (l := allAxes) (by decide) (by cases a <;> decide) on listed
  rw [haltFor_eq]
  exact ⟨((afterLeaving_axis e p _ a).2 out).trans record, fun m => out (afterLeaving_waiting e m)⟩

theorem inputs_haltFor (b : Axis) (p : Plant) : inputs (axisOf (haltFor e kind axis stored p) b) = inputs (axisOf p b) := by
  rw [haltFor_eq, inputs_granted (afterLeaving_axis e p _ b).1, inputs_haltEach]

/-! ### The fault raised (R96, R97) -/

/-- What a new fault is judged on: the set with it, with the posts so far. -/
def enteredWith (kind : FaultKind) (axis : FaultAxis) (p q : Plant) : Prop := ∃ posts, q = { withFault kind axis p with posts := posts }

/-- A new fault: its halts, its HALT, and what MSQ and PNT make of it. -/
theorem raiseFault_new (fresh : { kind := kind, axis := axis } ∉ p.flt.records) : ∃ p1 p2 posts stored, enteredWith kind axis p p1 ∧
    p2 = { haltFor e kind axis stored p1 with posts := posts } ∧ raiseFault e kind axis p = pointingFault e kind axis (mastFault e kind axis stored p2) := by
  generalize room : decide (p.flt.records.length < 8) = stored
  have entered : (if stored = true then { p with flt := { p.flt with records := p.flt.records ++ [{ kind := kind, axis := axis }] } }
      else { p with flt := { p.flt with overflow := true, overflowAxes := insertNew p.flt.overflowAxes axis } }) = withFault kind axis p := by
    rw [← room]
    simp only [decide_eq_true_eq]
    rfl
  rw [raiseFault, if_neg fresh]
  dsimp only
  rw [room, entered]
  obtain ⟨posts, status⟩ := postStatusIf_rest (decide (faultKey (withFault kind axis p) ≠ faultKey p)) e (withFault kind axis p)
  rw [status]
  exact ⟨_, _, _, stored, ⟨posts, rfl⟩, rfl, rfl⟩

/-- The fault set after a fault raised. -/
theorem raiseFault_flt (e : Env) (kind : FaultKind) (axis : FaultAxis) (p : Plant) :
    (raiseFault e kind axis p).flt = if { kind := kind, axis := axis } ∈ p.flt.records then p.flt else (withFault kind axis p).flt := by
  split
  · rename_i found
    obtain ⟨_, _, halted⟩ := haltFor_onlyDrives e kind axis true p
    rw [raiseFault, if_pos found, halted]
  · rename_i fresh
    obtain ⟨p1, p2, posts, stored, ⟨_, entered⟩, posted, raised⟩ := raiseFault_new (e := e) fresh
    obtain ⟨_, _, halted⟩ := haltFor_onlyDrives e kind axis stored p1
    obtain ⟨_, _, _, mast⟩ := mastFault_rest e kind axis stored p2
    rw [raised, (pointingFault_headWork kind axis (.refl (p := mastFault e kind axis stored p2))).flt, mast, posted, halted, entered]

/-- The drives after a fault raised: the halts, and then what MSQ and PNT end. -/
theorem raiseFault_drives (e : Env) (kind : FaultKind) (axis : FaultAxis) (p : Plant) : ∃ p1 p2 stored,
    p1.axd = p.axd ∧ p1.msq = p.msq ∧ p2.axd = (haltFor e kind axis stored p1).axd ∧ EndsMoves e p2 (raiseFault e kind axis p) := by
  by_cases found : { kind := kind, axis := axis } ∈ p.flt.records
  · exact ⟨p, haltFor e kind axis true p, true, rfl, rfl, rfl, .same (by rw [raiseFault, if_pos found])⟩
  · obtain ⟨p1, p2, posts, stored, ⟨_, entered⟩, posted, raised⟩ := raiseFault_new (e := e) found
    refine ⟨p1, p2, stored, ?_, ?_, by rw [posted], by rw [raised]; exact (endsMoves_mastFault kind axis stored p2).trans (endsMoves_pointingFault kind axis _)⟩
    all_goals rw [entered]; unfold withFault; split <;> rfl

/-- No reading is touched by a fault. -/
theorem inputs_raiseFault (e : Env) (kind : FaultKind) (axis : FaultAxis) (p : Plant) (b : Axis) :
    inputs (axisOf (raiseFault e kind axis p) b) = inputs (axisOf p b) := by
  obtain ⟨p1, p2, stored, axd, -, halted, ended⟩ := raiseFault_drives e kind axis p
  rw [ended.inputs, axisOf_axd halted, inputs_haltFor, axisOf_axd axd]

/-- An axis a fault halts: what MSQ and PNT end after it leaves the axis alone (R98). -/
theorem raiseFault_axis (named : faultNames axis a = true) (bound : kind ≠ .driveAway ∨ sparedLower p (axisOf p a) = false) (listed : listedWait p) :
    axisOf (raiseFault e kind axis p) a = haltedRecord e a (axisOf p a) ∧ a ∉ (raiseFault e kind axis p).axd.waiting := by
  obtain ⟨p1, p2, stored, axd, msq, halted, ended⟩ := raiseFault_drives e kind axis p
  have same : axisOf p1 a = axisOf p a := axisOf_axd axd a
  have spared : sparedLower p1 (axisOf p1 a) = sparedLower p (axisOf p a) := by rw [same, sparedLower, sparedLower, msq]
  have on : haltsOn kind axis stored p1 a = true := by
    rw [haltsOn, named, spared]
    rcases bound with other | bound
    · simp [other]
    · simp [bound]
  obtain ⟨record, out⟩ := haltFor_on (e := e) on (by rw [same, axd]; exact listed a)
  rw [← axisOf_axd halted, same] at record
  rw [← halted] at out
  obtain ⟨kept, out⟩ := ended.still (by rw [record, haltedRecord_state, haltedState_rests]) out
  exact ⟨kept.trans record, out⟩

end

end Sys2Proof.Machine
end

