-- ==== Sys2Proof/Proofs/AxisStall.lean ====
section
/-! PROOFS. What a fault raised leaves of the set, of MSQ and PNT and of the axes it names; the stall timeout (R88, R96 to R98; O46). -/

namespace Sys2Proof.Machine

/-! ### PVW, which no operation of the other blocks writes -/

theorem OnlyDrives.pvw {p q : Plant} (h : OnlyDrives p q) : q.pvw = p.pvw := by obtain ⟨_, _, rfl⟩ := h; rfl

theorem evolves_pvw {e : Env} {p q : Plant} (g : Evolves e p q) : q.pvw = p.pvw := by
  induction g with
  | refl => rfl
  | posted _ _ _ ih | inner _ _ _ _ _ _ _ _ ih | faults _ _ _ ih => exact ih
  | written _ a _ _ ih => cases a <;> exact ih
  | rested _ a r _ _ _ ih => exact (putAxis_onlyDrives e a r _).pvw.trans ih
  | abandoned _ a n _ _ ih => exact (abandonWaiting_onlyDrives e a n _).pvw.trans ih
  | stopped _ a _ ih => exact (toStopping_onlyDrives e a _).pvw.trans ih
  | joined _ a r _ _ _ ih => exact (joinWaiting_onlyDrives e a r _).pvw.trans ih
  | replaced _ m x _ _ ih => exact (replaceMove_onlyDrives e m _ _).pvw.trans ih
  | granted _ ih => exact (tryGrant_onlyDrives e _).pvw.trans ih
  | stepped _ a ih => exact (driveStep_onlyDrives e a _).pvw.trans ih
  | completed _ a _ ih => exact (endSettled_onlyDrives e a _).pvw.trans ih

section
variable {e : Env} {p : Plant} {a : Axis} {kind : FaultKind} {axis : FaultAxis}

/-! ### The set after a fault (R96) -/

theorem raiseFault_entered (e : Env) (kind : FaultKind) (axis : FaultAxis) (p : Plant) : faultEntered kind axis (raiseFault e kind axis p).flt := by
  rw [raiseFault_flt]
  split
  · exact .inl ‹_›
  · exact withFault_entered kind axis p

theorem held_of_entered (entered : faultEntered kind axis p.flt) (named : faultNames axis a = true) : isHeld p a = true := by
  unfold isHeld
  rcases entered with found | ⟨-, found⟩
  · rw [List.any_eq_true.2 ⟨_, found, named⟩, Bool.true_or]
  · rw [List.any_eq_true.2 ⟨_, found, named⟩, Bool.or_true]

/-- A fault that stands in the set halts again and no more (R97). -/
theorem raiseFault_again (found : { kind := kind, axis := axis } ∈ p.flt.records) : OnlyDrives p (raiseFault e kind axis p) := by
  obtain ⟨posts, axd, halted⟩ := haltFor_onlyDrives e kind axis true p
  exact ⟨posts, axd, by rw [raiseFault, if_pos found, halted]⟩

theorem raiseFault_stored (fresh : { kind := kind, axis := axis } ∉ p.flt.records) (room : p.flt.records.length < 8) :
    (raiseFault e kind axis p).flt = { p.flt with records := p.flt.records ++ [{ kind := kind, axis := axis }] } := by
  rw [raiseFault_flt, if_neg fresh, withFault, if_pos room]

theorem raiseFault_overflows (fresh : { kind := kind, axis := axis } ∉ p.flt.records) (full : 8 ≤ p.flt.records.length) :
    (raiseFault e kind axis p).flt = { p.flt with
      overflow := true, overflowAxes := if axis ∈ p.flt.overflowAxes then p.flt.overflowAxes else p.flt.overflowAxes ++ [axis] } := by
  rw [raiseFault_flt, if_neg fresh, withFault, if_neg (Nat.not_lt.2 full)]
  rfl

/-! ### The stall timeout (R88) -/

/-- The stall timeout of a MOVING axis: STALL halts it, and it makes one stop step as STOPPING. -/
theorem takeStall_moving (sound : arbiterSound p = true) (moving : (axisOf p a).state = .moving) :
    let q := takeStall e a p
    let v := stopRamp (axisOf p a).v (axisCfg e a).stopStep
    q.flt = (raiseFault e .stall (.one a) (setAxisRaw a { axisOf p a with stallDue := false } p)).flt ∧
      (axisOf q a).v = v ∧ (axisOf q a).stallDue = false ∧ (axisOf q a).state = if v = 0 then .fault else .stopping := by
  generalize taken : ({ axisOf p a with stallDue := false } : AxisRec) = r
  have state : r.state = .moving := by rw [← taken]; exact moving
  have speed : r.v = (axisOf p a).v := by rw [← taken]
  have due : (inputs r).2.2.2.2 = false := by rw [← taken]; rfl
  have listed : listedWait (setAxisRaw a r p) := fun b m => by
    rw [waiting_setAxisRaw] at m
    have waits := listedWait_of_sound sound b m
    rw [axisOf_setAxisRaw, if_neg fun same => by rw [same, moving] at waits; cases waits]
    exact waits
  have named : faultNames (.one a) a = true := by simp [faultNames]
  obtain ⟨halted, -⟩ := raiseFault_axis (e := e) named (.inl (by decide : FaultKind.stall ≠ .driveAway)) listed
  rw [axisOf_setAxisRaw_same] at halted
  have held := held_of_entered (raiseFault_entered e .stall (.one a) (setAxisRaw a r p)) named
  generalize raised : raiseFault e .stall (.one a) (setAxisRaw a r p) = q at halted held ⊢
  have stopping : (axisOf q a).state = .stopping := by rw [halted, haltedRecord_state, state]; rfl
  have kept : (axisOf q a).v = (axisOf p a).v := by rw [halted, haltedRecord_v e a (.inl state), speed]
  have noStall : (axisOf q a).stallDue = false := by
    have same := inputs_haltedRecord e a r
    rw [← halted] at same
    rw [← due, ← same]
    rfl
  have step : takeStall e a p = stopStep e a q := by
    unfold takeStall
    dsimp only
    rw [taken, raised, if_pos ⟨moving, stopping⟩]
  have set : (stopStep e a q).flt = q.flt := by
    obtain ⟨_, _, slowed⟩ := stopStep_onlyDrives e a q
    rw [slowed]
  dsimp only
  rw [step, ← kept]
  refine ⟨set, ?_⟩
  by_cases slow : stopRamp (axisOf q a).v (axisCfg e a).stopStep = 0
  · obtain ⟨_, _, _, written⟩ := (stopStep_rests slow).record
    rw [written, held, if_pos slow, slow]
    exact ⟨rfl, noStall, rfl⟩
  · obtain ⟨_, _, _, written⟩ := (axisWritten_put e a (withSpeed e a (stopRamp (axisOf q a).v (axisCfg e a).stopStep) (axisOf q a)) q).record
    rw [stopStep_slows slow, written, if_neg slow]
    exact ⟨rfl, noStall, stopping⟩

end

end Sys2Proof.Machine
end

