-- ==== Sys2Proof/Proofs/AxisPeriodFaults.lean ====
section
/-! PROOFS. The faults that a servo period raises, and no others (R86, R87, R89; O46). -/

namespace Sys2Proof.Machine

section
variable {e : Env} {p q q' : Plant} {a b : Axis} {kind : FaultKind} {axis : FaultAxis}

/-! ### Faults that stay -/

/-- Every fault entered in `p` stands in `q`. -/
def faultsStay (p q : Plant) : Prop := ∀ kind axis, faultEntered kind axis p.flt → faultEntered kind axis q.flt

theorem faultsStay_same (same : q.flt = p.flt) : faultsStay p q := fun _ _ entered => by rw [same]; exact entered

theorem faultsStay.trans (h : faultsStay p q) (g : faultsStay q q') : faultsStay p q' := fun _ _ entered => g _ _ (h _ _ entered)

theorem faultsStay_raiseFault (e : Env) (kind : FaultKind) (axis : FaultAxis) (p : Plant) : faultsStay p (raiseFault e kind axis p) := by
  intro k x entered
  rw [raiseFault_flt]
  split
  · exact entered
  · unfold withFault faultEntered at *
    split
    · exact entered.imp (fun found => List.mem_append_left _ found) id
    · exact entered.imp id fun ⟨_, found⟩ => ⟨rfl, mem_insertNew.2 (.inr found)⟩

/-! ### What leaves the set -/

theorem periodDrive_onlyDrives (e : Env) (a : Axis) (before : AxisState) (p : Plant) : OnlyDrives p (periodDrive e a before p) := by
  unfold periodDrive
  dsimp only
  split
  · exact .refl p
  · split
    · exact (driveStep_onlyDrives e a p).trans (driftCheck_onlyDrives e a _)
    · exact driveStep_onlyDrives e a p

theorem OnlyDrives.flt (h : OnlyDrives p q) : q.flt = p.flt := by obtain ⟨_, _, rfl⟩ := h; rfl

/-- What a fall of MAST below the cradle ends: pointing, and the JOGs that no recovery marks (R117). -/
def cradleEnds (e : Env) (p : Plant) : Plant := endMoves e (fun r => !r.recovery && carriesMove r .jog) headAxes (haltPointing e .interlock p)

/-- What a fall of MAST below the cradle brings (R117). -/
def fallJudged (e : Env) (p : Plant) : Plant :=
  match p.msq.state with
  | .raised | .halted _ => if headInsideStow e (cradleEnds e p) then cradleEnds e p else headNotParked e (cradleEnds e p)
  | .parking _ => headNotParked e p
  | .stowed | .raising _ _ | .lowering _ => p

theorem judgeCradle_fall {x y : Int} (read : mastPosition p = some y) (above : ((cfgOf e).cradleClear : Int) ≤ x) (below : y < ((cfgOf e).cradleClear : Int)) :
    judgeCradle e (some x) p = fallJudged e p := by
  unfold judgeCradle
  rw [read]
  dsimp only
  rw [if_neg (by simp [above, below])]
  rfl

theorem judgeCradle_or (e : Env) (before : Option Int) (p : Plant) : judgeCradle e before p = p ∨ judgeCradle e before p = fallJudged e p := by
  cases before with
  | none => exact .inl rfl
  | some x =>
    cases read : mastPosition p with
    | none => left; simp [judgeCradle, read]
    | some y =>
      by_cases fell : ((cfgOf e).cradleClear : Int) ≤ x ∧ y < ((cfgOf e).cradleClear : Int)
      · exact .inr (judgeCradle_fall read fell.1 fell.2)
      · left
        unfold judgeCradle
        rw [read]
        exact if_pos (by by_contra h; exact fell (by simpa using h))

theorem headNotParked_rest (e : Env) (p : Plant) : ∃ posts axd msq, headNotParked e p = { p with posts := posts, axd := axd, msq := msq } :=
  haltMast_rest e p .headNotParked (firstUnparked e p) true

theorem cradleEnds_flt (e : Env) (p : Plant) : (cradleEnds e p).flt = p.flt := (endMoves_onlyDrives e _ _ _).flt.trans (haltPointing_headWork (.refl p) _).flt

theorem judgeCradle_flt (e : Env) (before : Option Int) (p : Plant) : (judgeCradle e before p).flt = p.flt := by
  have unparked (q : Plant) : (headNotParked e q).flt = q.flt := by
    obtain ⟨_, _, _, halted⟩ := headNotParked_rest e q
    rw [halted]
  have fall : (fallJudged e p).flt = p.flt := by
    unfold fallJudged
    cases p.msq.state
    case raised | halted =>
      dsimp only
      split
      · exact cradleEnds_flt e p
      · exact (unparked _).trans (cradleEnds_flt e p)
    case parking => exact unparked p
    all_goals rfl
  rcases judgeCradle_or e before p with same | same <;> rw [same]
  exact fall

/-! ### The checks -/

theorem overtravelCheck_raises {y : Int} (read : (axisOf p a).position = some y)
    (beyond : (beyondHigh e a y && !(axisOf p a).outsideHigh || beyondLow e a y && !(axisOf p a).outsideLow) = true) :
    overtravelCheck e a p = raiseFault e .overtravel (.one a) (setAxisRaw a { axisOf p a with outsideHigh := beyondHigh e a y, outsideLow := beyondLow e a y } p) := by
  simp only [overtravelCheck, read, beyond, if_true]

theorem overtravelCheck_marks {y : Int} (read : (axisOf p a).position = some y)
    (inside : (beyondHigh e a y && !(axisOf p a).outsideHigh || beyondLow e a y && !(axisOf p a).outsideLow) = false) :
    overtravelCheck e a p = setAxisRaw a { axisOf p a with outsideHigh := beyondHigh e a y, outsideLow := beyondLow e a y } p := by
  simp only [overtravelCheck, read, inside, Bool.false_eq_true, if_false]

theorem limitCheck_stay (e : Env) (a : Axis) (p : Plant) : faultsStay p (limitCheck e a p) := by
  unfold limitCheck
  split
  · exact faultsStay_raiseFault _ _ _ _
  · exact faultsStay_same rfl

theorem sensorCheck_stay (e : Env) (a : Axis) (wasValid : Bool) (p : Plant) : faultsStay p (sensorCheck e a wasValid p) := by
  unfold sensorCheck
  split
  · exact faultsStay_raiseFault _ _ _ _
  · exact faultsStay_same rfl

theorem stallCount_stay (e : Env) (a : Axis) (p : Plant) : faultsStay p (stallCount e a p) := faultsStay_same (stallCount_onlyDrives e a p).flt

/-- What follows SENSOR in a period leaves the set. -/
theorem periodEnd_flt (e : Env) (a : Axis) (before : AxisRec) (p : Plant) :
    (periodDrive e a before.state (periodChecks e a before p)).flt = (sensorCheck e a before.sensorValid (stallCount e a (limitCheck e a (overtravelCheck e a p)))).flt := by
  rw [(periodDrive_onlyDrives e a before.state _).flt]
  cases a
  case mast => exact judgeCradle_flt e before.position _
  all_goals rfl

/-! ### The record through the checks -/

/-- The marks of R86 are no input. -/
theorem inputs_overtravelCheck (e : Env) (a : Axis) (p : Plant) : inputs (axisOf (overtravelCheck e a p) a) = inputs (axisOf p a) := by
  unfold overtravelCheck
  dsimp only
  repeat' split
  · rfl
  · rw [inputs_raiseFault, axisOf_setAxisRaw_same]
    rfl
  · rw [axisOf_setAxisRaw_same]
    rfl

theorem sensorValid_limitCheck (e : Env) (a : Axis) (p : Plant) : (axisOf (limitCheck e a p) a).sensorValid = (axisOf p a).sensorValid := by
  unfold limitCheck
  split
  · exact congrArg (fun x : Option Int × Bool × Bool × Bool × Bool => x.2.1) (inputs_raiseFault e .limit (.one a) p a)
  · rfl

theorem sensorValid_stallCount (e : Env) (a : Axis) (p : Plant) : (axisOf (stallCount e a p) a).sensorValid = (axisOf p a).sensorValid := by
  obtain ⟨_, _, _, count, -⟩ := stallCount_counted e a p
  rw [count, axisOf_setAxisRaw_same]

theorem sensorValid_checks (e : Env) (a : Axis) (p : Plant) :
    (axisOf (stallCount e a (limitCheck e a (overtravelCheck e a p))) a).sensorValid = (axisOf p a).sensorValid := by
  rw [sensorValid_stallCount, sensorValid_limitCheck]
  exact congrArg (fun x : Option Int × Bool × Bool × Bool × Bool => x.2.1) (inputs_overtravelCheck e a p)

theorem atSwitch_iff {r : AxisRec} : atSwitch r = true ↔
    (r.state = .moving ∨ r.state = .settling ∨ r.state = .stopping) ∧ ((0 < r.v ∧ r.switchHigh = true) ∨ (r.v < 0 ∧ r.switchLow = true)) := by
  unfold atSwitch
  cases r.state <;> simp

/-- A halt takes no speed: the axis drives toward the switch as before (R84). -/
theorem atSwitch_haltedRecord {r : AxisRec} (toward : atSwitch r = true) : atSwitch (haltedRecord e a r) = true := by
  obtain ⟨driving, active⟩ := atSwitch_iff.1 toward
  have same := inputs_haltedRecord e a r
  simp only [inputs, Prod.mk.injEq] at same
  obtain ⟨-, -, low, high, -⟩ := same
  refine atSwitch_iff.2 ⟨?_, by rw [haltedRecord_v e a driving, low, high]; exact active⟩
  rw [haltedRecord_state]
  rcases driving with state | state | state <;> simp [state, haltedState]

theorem listedWait_setAxisRaw {r : AxisRec} (listed : listedWait p) (state : r.state = (axisOf p a).state) : listedWait (setAxisRaw a r p) := fun b m => by
  rw [waiting_setAxisRaw] at m
  rw [axisOf_setAxisRaw]
  split
  · rw [state, ← ‹b = a›]
    exact listed b m
  · exact listed b m

/-- A drive toward an active switch goes on through the halt of OVERTRAVEL (R87). -/
theorem atSwitch_overtravel (listed : listedWait p) (toward : atSwitch (axisOf p a) = true) : atSwitch (axisOf (overtravelCheck e a p) a) = true := by
  cases read : (axisOf p a).position with
  | none => simpa only [overtravelCheck, read] using toward
  | some y =>
    have marked : atSwitch { axisOf p a with outsideHigh := beyondHigh e a y, outsideLow := beyondLow e a y } = true := toward
    cases beyond : beyondHigh e a y && !(axisOf p a).outsideHigh || beyondLow e a y && !(axisOf p a).outsideLow with
    | false =>
      rw [overtravelCheck_marks read beyond, axisOf_setAxisRaw_same]
      exact marked
    | true =>
      rw [overtravelCheck_raises read beyond]
      obtain ⟨halted, -⟩ := raiseFault_axis (e := e) (kind := .overtravel) (axis := .one a) (a := a) (by simp [faultNames]) (.inl (by decide))
        (listedWait_setAxisRaw (r := { axisOf p a with outsideHigh := beyondHigh e a y, outsideLow := beyondLow e a y }) listed rfl)
      rw [halted, axisOf_setAxisRaw_same]
      exact atSwitch_haltedRecord marked

/-! ### The faults of a period -/

/-- The record with the reading of a period, where a position was known. -/
theorem readAxis_record {r : AxisRec} {x : Int} (read : r.position = some x) (pins : AxisPins) : readAxis e a pins r =
    { r with sensorValid := pins.reading.isSome, switchLow := pins.low, switchHigh := pins.high, position := some ((pins.reading.map (·.toInt)).getD x) } := by
  unfold readAxis
  cases pins.reading with
  | none => simp [read]
  | some w => simp [read]

/-- The plant with the reading of a period taken in. -/
def readPeriod (e : Env) (a : Axis) (pins : AxisPins) (p : Plant) : Plant := setAxisRaw a (readAxis e a pins (axisOf p a)) p

/-- A fault that a check has entered stands after the period. -/
theorem servoPeriod_flt (pins : AxisPins) : (servoPeriod e a pins p).flt =
    (sensorCheck e a (axisOf p a).sensorValid (stallCount e a (limitCheck e a (overtravelCheck e a (readPeriod e a pins p))))).flt :=
  periodEnd_flt e a (axisOf p a) _

variable {pins : AxisPins}

theorem servoPeriod_overtravel {y : Int} (read : (axisOf (readPeriod e a pins p) a).position = some y)
    (beyond : (beyondHigh e a y && !(axisOf (readPeriod e a pins p) a).outsideHigh || beyondLow e a y && !(axisOf (readPeriod e a pins p) a).outsideLow) = true) :
    faultEntered .overtravel (.one a) (servoPeriod e a pins p).flt := by
  have entered : faultEntered .overtravel (.one a) (overtravelCheck e a (readPeriod e a pins p)).flt := by
    rw [overtravelCheck_raises read beyond]
    exact raiseFault_entered e _ _ _
  rw [servoPeriod_flt]
  exact (limitCheck_stay e a _).trans ((stallCount_stay e a _).trans (sensorCheck_stay e a _ _)) _ _ entered

theorem servoPeriod_limit (listed : listedWait p) (toward : atSwitch (axisOf (readPeriod e a pins p) a) = true)
    (state : (readAxis e a pins (axisOf p a)).state = (axisOf p a).state) : faultEntered .limit (.one a) (servoPeriod e a pins p).flt := by
  have entered : faultEntered .limit (.one a) (limitCheck e a (overtravelCheck e a (readPeriod e a pins p))).flt := by
    have still : atSwitch (axisOf (overtravelCheck e a (readPeriod e a pins p)) a) = true := atSwitch_overtravel (listedWait_setAxisRaw listed state) toward
    rw [limitCheck, if_pos still]
    exact raiseFault_entered e _ _ _
  rw [servoPeriod_flt]
  exact (stallCount_stay e a _).trans (sensorCheck_stay e a _ _) _ _ entered

theorem servoPeriod_sensor (valid : (axisOf p a).sensorValid = true) (lost : (axisOf (readPeriod e a pins p) a).sensorValid = false) :
    faultEntered .sensor (.one a) (servoPeriod e a pins p).flt := by
  rw [servoPeriod_flt, sensorCheck, sensorValid_checks, valid, lost, if_pos (by rfl)]
  exact raiseFault_entered e _ _ _

/-- With none of the three found, the checks write no more than the axis's record. -/
theorem checks_pass {y : Int} (read : (axisOf (readPeriod e a pins p) a).position = some y)
    (inside : (beyondHigh e a y && !(axisOf (readPeriod e a pins p) a).outsideHigh || beyondLow e a y && !(axisOf (readPeriod e a pins p) a).outsideLow) = false)
    (off : atSwitch (axisOf (readPeriod e a pins p) a) = false) (there : ((axisOf p a).sensorValid && !(axisOf (readPeriod e a pins p) a).sensorValid) = false) :
    ∃ r, sensorCheck e a (axisOf p a).sensorValid (stallCount e a (limitCheck e a (overtravelCheck e a (readPeriod e a pins p)))) = setAxisRaw a r p ∧
      r.position = some y ∧ r.state = (readAxis e a pins (axisOf p a)).state := by
  generalize taken : readAxis e a pins (axisOf p a) = r
  have now : readPeriod e a pins p = setAxisRaw a r p := by rw [← taken]; rfl
  have found : axisOf (readPeriod e a pins p) a = r := by rw [now, axisOf_setAxisRaw_same]
  rw [found] at read inside off there
  have marked := overtravelCheck_marks (e := e) (p := readPeriod e a pins p) (a := a) (y := y) (by rw [found]; exact read) (by rw [found]; exact inside)
  rw [found, now, setAxisRaw_setAxisRaw] at marked
  obtain ⟨timer, ref, due, count, -⟩ := stallCount_counted e a (setAxisRaw a { r with outsideHigh := beyondHigh e a y, outsideLow := beyondLow e a y } p)
  rw [axisOf_setAxisRaw_same, setAxisRaw_setAxisRaw] at count
  rw [now, marked, limitCheck_none (by rw [axisOf_setAxisRaw_same]; exact off), count, sensorCheck, axisOf_setAxisRaw_same, there, if_neg (by simp)]
  exact ⟨_, rfl, read, rfl⟩

end

end Sys2Proof.Machine
end

