-- ==== Sys2Proof/Proofs/AxisCradle.lean ====
section
/-! PROOFS. MAST falling below the cradle clear height, and the faults of the axes together (R117; O46). -/

namespace Sys2Proof.Machine

section
variable {e : Env} {p q : Plant} {a b : Axis}

/-! ### The end of a period, which touches no other axis that does not wait -/

theorem driveStep_written (e : Env) (a : Axis) (p : Plant) : ∃ r, AxisWritten a p (driveStep e a p) r := by
  cases state : (axisOf p a).state
  case moving => exact ⟨_, by rw [driveStep_moving state]; exact axisWritten_put e a _ p⟩
  case settling => exact ⟨_, by rw [driveStep_settling state]; exact axisWritten_put e a _ p⟩
  case stopping =>
    rw [driveStep_stopping state]
    by_cases slow : stopRamp (axisOf p a).v (axisCfg e a).stopStep = 0
    · exact ⟨_, stopStep_rests slow⟩
    · exact ⟨_, by rw [stopStep_slows slow]; exact axisWritten_put e a _ p⟩
  all_goals exact ⟨axisOf p a, by simp only [driveStep, state]; exact ⟨.refl p, fun _ _ => rfl, _, _, _, rfl⟩⟩

theorem driftCheck_other (other : b ≠ a) (out : b ∉ p.axd.waiting) : axisOf (driftCheck e a p) b = axisOf p b := by
  unfold driftCheck
  dsimp only
  repeat' split
  all_goals first
    | exact ((joinWaiting_axis e a b _ p).2 other).2 out
    | exact axisOf_putAxis_other e _ p other
    | rfl

theorem periodDrive_other {before : AxisState} (other : b ≠ a) (out : b ∉ p.axd.waiting) : axisOf (periodDrive e a before p) b = axisOf p b := by
  obtain ⟨_, written⟩ := driveStep_written e a p
  have kept := written.others b other
  unfold periodDrive
  dsimp only
  split
  · rfl
  · split
    · rw [driftCheck_other other (by rw [written.only.lists]; exact out), kept]
    · exact kept

/-! ### The fall (R117) -/

theorem headNotParked_posted (e : Env) (p : Plant) : ∃ x, headNotParked e p = post e .halt x (setMast e (.halted .headNotParked) (cancelMastWork e p)) := ⟨_, rfl⟩

/-- Once HEAD_NOT_PARKED has halted the mast, its HALT is posted whatever follows. -/
theorem headNotParked_made (before : Evolves e p q) {t : Plant} (after : Evolves e (headNotParked e q) t) : madePost .halt p t := by
  obtain ⟨x, halted⟩ := headNotParked_posted e q
  rw [halted] at after
  exact post_made (setMast_evolves (cancelMastWork_evolves before) _) after

theorem cradleEnds_rest (e : Env) (p : Plant) : (cradleEnds e p).pnt = (haltPointing e .interlock p).pnt ∧ (cradleEnds e p).msq = p.msq := by
  obtain ⟨_, _, ended⟩ := endMoves_onlyDrives e (fun r => !r.recovery && carriesMove r .jog) headAxes (haltPointing e .interlock p)
  refine ⟨by rw [cradleEnds, ended], Eq.trans (by rw [cradleEnds, ended]) (haltPointing_headWork (.refl p) .interlock).msq⟩

theorem cradleEnds_inside (e : Env) (p : Plant) : headInsideStow e (cradleEnds e p) = headInsideStow e p :=
  headInsideStow_inputs fun a _ => (inputs_endMoves _ _ a _).trans ((endsMoves_haltPointing .interlock p).inputs a)

/-- MAST RAISED or HALTED when it falls: pointing halted, and with the head out the mast HALTED. -/
theorem fallJudged_up (up : p.msq.state = .raised ∨ ∃ cause, p.msq.state = .halted cause) :
    (fallJudged e p).pnt = (haltPointing e .interlock p).pnt ∧
      (fallJudged e p).msq.state = (if headInsideStow e p = true then p.msq.state else .halted .headNotParked) ∧
      fallJudged e p = (if headInsideStow e p then cradleEnds e p else headNotParked e (cradleEnds e p)) := by
  have fall : fallJudged e p = if headInsideStow e p then cradleEnds e p else headNotParked e (cradleEnds e p) := by
    rw [← cradleEnds_inside]
    unfold fallJudged
    rcases up with state | ⟨cause, state⟩ <;> rw [state]
  obtain ⟨pnt, msq⟩ := cradleEnds_rest e p
  refine ⟨?_, ?_, fall⟩
  · rw [fall]
    split
    · exact pnt
    · obtain ⟨_, _, _, halted⟩ := headNotParked_rest e (cradleEnds e p)
      rw [halted]
      exact pnt
  · rw [fall]
    split
    · exact congrArg Mast.state msq
    · exact congrArg Mast.state (haltMast_msq e _ _ _ _)

/-- A JOG without recovery, when MAST falls: ended, where it stands or in the grant that the halt of pointing returned. -/
theorem fallJudged_jog (up : p.msq.state = .raised ∨ ∃ cause, p.msq.state = .halted cause) (sound : listedWait p) (head : b ≠ .mast)
    (jog : carriesMove (axisOf p b) .jog = true) (plain : (axisOf p b).recovery = false) :
    ((axisOf (fallJudged e p) b).state = endedState (axisOf p b).state ∨
      ((axisOf p b).state = .waiting ∧ p.axd.grants ≠ [] ∧ (axisOf (fallJudged e p) b).state = .stopping)) ∧ b ∉ (fallJudged e p).axd.waiting := by
  obtain ⟨-, own, correction⟩ := carriesMove_underWay jog
  have apart : ∀ who ∈ [Requester.pnt, .pat, .pke], carriesMove (axisOf p b) who = false := by
    intro who mem
    have other : Requester.jog ≠ who := by rintro rfl; simp at mem
    simp [carriesMove, own, other]
  obtain ⟨granted, same, listed⟩ := haltPointing_others (e := e) (cause := .interlock) sound apart
  have recovery : (axisOf (haltPointing e .interlock p) b).recovery = (axisOf p b).recovery := by
    rcases granted with same | ⟨-, same | same⟩ <;> rw [same]
  have picked : (fun r : AxisRec => !r.recovery && carriesMove r .jog) (axisOf (haltPointing e .interlock p) b) = true := by
    simp [recovery, plain, carriesMove_grantedWaiting granted, jog]
  obtain ⟨state, out⟩ := endMoves_picked e (fun r => !r.recovery && carriesMove r .jog) (l := headAxes) (by decide)
    (by cases b <;> simp [headAxes] at head ⊢) picked (listed b)
  have rests : endedState (axisOf (cradleEnds e p) b).state = (axisOf (cradleEnds e p) b).state := by
    rw [cradleEnds, state]
    cases (axisOf (haltPointing e .interlock p) b).state <;> rfl
  obtain ⟨kept, still⟩ : axisOf (fallJudged e p) b = axisOf (cradleEnds e p) b ∧ b ∉ (fallJudged e p).axd.waiting := by
    rw [(fallJudged_up up).2.2]
    split
    · exact ⟨rfl, out⟩
    · exact (endsMoves_haltMast .headNotParked (firstUnparked e (cradleEnds e p)) true (cradleEnds e p)).still rests out
  refine ⟨?_, still⟩
  rw [kept, cradleEnds, state]
  by_cases none : p.axd.grants = []
  · rw [same none]
    exact .inl rfl
  · rcases granted with kept | ⟨waits, kept | taken⟩
    · rw [kept]; exact .inl rfl
    · rw [kept]; exact .inl rfl
    · rw [taken]; exact .inr ⟨waits, none, rfl⟩

end

/-! ### The period of MAST -/

section
variable {e : Env} {p : Plant} {r : AxisRec} {before : AxisState}

/-- The plant at the end of a period of MAST that reads it below the cradle, RAISED or HALTED. -/
theorem fall_up (taken : Evolves e p (setAxisRaw .mast r p)) (up : p.msq.state = .raised ∨ ∃ cause, p.msq.state = .halted cause) (state : r.state = (axisOf p .mast).state) :
    let t := periodDrive e .mast before (fallJudged e (setAxisRaw .mast r p))
    t.pnt.state = .idle ∧ t.pnt.record = p.pnt.record ∧
      t.msq.state = (if headInsideStow e p = true then p.msq.state else .halted .headNotParked) ∧
      (headInsideStow e p = false → madePost .halt p t) ∧
      ∀ b, arbiterSound p = true → b ≠ .mast → carriesMove (axisOf p b) .jog = true → (axisOf p b).recovery = false →
        (axisOf t b).state = endedState (axisOf p b).state ∨
          ((axisOf p b).state = .waiting ∧ p.axd.grants ≠ [] ∧ (axisOf t b).state = .stopping) := by
  obtain ⟨_, _, driven⟩ := periodDrive_onlyDrives e .mast before (fallJudged e (setAxisRaw .mast r p))
  have inside : headInsideStow e (setAxisRaw .mast r p) = headInsideStow e p := rfl
  obtain ⟨pnt, msq, fall⟩ := fallJudged_up (e := e) (p := setAxisRaw .mast r p) up
  obtain ⟨idle, record⟩ := haltPointing_pnt e .interlock (setAxisRaw .mast r p)
  refine ⟨by rw [driven]; exact pnt ▸ idle, by rw [driven]; exact pnt ▸ record, by rw [driven]; exact inside ▸ msq, fun outside => ?_, fun b sound head jog plain => ?_⟩
  · rw [fall, inside, outside, if_neg (by simp)]
    have ends : Evolves e p (cradleEnds e (setAxisRaw .mast r p)) := endMoves_evolves (haltPointing_evolves taken .interlock) _ headAxes
    exact headNotParked_made ends (periodDrive_evolves .refl .mast before)
  · have other : axisOf (setAxisRaw .mast r p) b = axisOf p b := by rw [axisOf_setAxisRaw, if_neg head]
    have listed : listedWait (setAxisRaw .mast r p) := listedWait_setAxisRaw (listedWait_of_sound sound) state
    obtain ⟨ended, out⟩ := fallJudged_jog (e := e) (p := setAxisRaw .mast r p) up listed head (by rw [other]; exact jog) (by rw [other]; exact plain)
    rw [periodDrive_other head out]
    rw [other] at ended
    exact ended

theorem fall_parking {l : List Axis} (taken : Evolves e p (setAxisRaw .mast r p)) (parking : p.msq.state = .parking l) :
    let t := periodDrive e .mast before (fallJudged e (setAxisRaw .mast r p))
    t.msq.state = .halted .headNotParked ∧ madePost .halt p t := by
  obtain ⟨_, _, driven⟩ := periodDrive_onlyDrives e .mast before (fallJudged e (setAxisRaw .mast r p))
  have fall : fallJudged e (setAxisRaw .mast r p) = headNotParked e (setAxisRaw .mast r p) := by
    unfold fallJudged
    rw [show (setAxisRaw .mast r p).msq.state = .parking l from parking]
  have judged : (fallJudged e (setAxisRaw .mast r p)).msq.state = .halted .headNotParked := by
    rw [fall]
    exact congrArg Mast.state (haltMast_msq e _ _ _ _)
  refine ⟨by rw [driven]; exact judged, ?_⟩
  rw [fall]
  exact headNotParked_made taken (periodDrive_evolves .refl .mast before)

end

/-! ### The faults of the axes -/

/-- Settles O46: a fault's set, halts and judgement are stated once for `raiseFault`; the stall timeout and each check of a period raise their fault through it. -/
theorem aFaultIsEnteredAndHaltsItsAxes : Obligations.AFaultIsEnteredAndHaltsItsAxes := by
  unfold Obligations.AFaultIsEnteredAndHaltsItsAxes
  refine ⟨fun e kind axis p => ⟨fun found => ?_, fun fresh room => raiseFault_stored fresh room, fun fresh full => raiseFault_overflows fresh full,
    fun a sound named bound => ?_⟩, fun s a sound due moving => ?_, fun s a pins x running read => ?_⟩
  · obtain ⟨_, _, halted⟩ := raiseFault_again (e := e) found
    rw [halted]
    exact ⟨rfl, rfl, rfl⟩
  · rw [(raiseFault_axis (e := e) named bound (listedWait_of_sound sound)).1, haltedRecord_state]
    cases (axisOf p a).state <;> rfl
  · have evolves : Evolves (envOf s) s.plant (takeStall (envOf s) a s.plant) := takeStall_evolves .refl a
    obtain ⟨flt, speed, off, state⟩ := takeStall_moving (e := envOf s) sound moving
    have step : exec (.stallTimeout a) s = execStallTimeout a s := rfl
    refine ⟨_, by rw [step, execStallTimeout, if_pos due], rfl, evolves_aut evolves, evolves_pvw evolves, fun room => ?_, speed, off, state⟩
    dsimp only [withPlant]
    rw [flt]
    exact raiseFault_records room
  · have evolves : Evolves (envOf s) s.plant (servoPeriod (envOf s) a pins s.plant) := servoPeriod_evolves .refl a pins
    have taken := readAxis_record (e := envOf s) (a := a) read pins
    dsimp only
    generalize (pins.reading.map (·.toInt)).getD x = y at taken ⊢
    have found : axisOf (readPeriod (envOf s) a pins s.plant) a = _ := (axisOf_setAxisRaw_same a _ s.plant).trans taken
    have position : (axisOf (readPeriod (envOf s) a pins s.plant) a).position = some y := by rw [found]
    have marks : (beyondHigh (envOf s) a y && !(axisOf (readPeriod (envOf s) a pins s.plant) a).outsideHigh ||
        beyondLow (envOf s) a y && !(axisOf (readPeriod (envOf s) a pins s.plant) a).outsideLow) = true ↔
        ((axisCfg (envOf s) a).softMax + (axisCfg (envOf s) a).margin < y ∧ (axisOf s.plant a).outsideHigh = false) ∨
          (y < (axisCfg (envOf s) a).softMin - (axisCfg (envOf s) a).margin ∧ (axisOf s.plant a).outsideLow = false) := by
      rw [found]
      simp [beyondHigh, beyondLow]
    have drives := atSwitch_iff (r := axisOf (readPeriod (envOf s) a pins s.plant) a)
    rw [found] at drives
    have lost : ((axisOf s.plant a).sensorValid && !(axisOf (readPeriod (envOf s) a pins s.plant) a).sensorValid) = true ↔
        (axisOf s.plant a).sensorValid = true ∧ pins.reading = none := by
      rw [found]
      simp
    have pass (inside : ¬ _) (off : ¬ _) (there : ¬ _) := checks_pass position (Bool.eq_false_iff.2 fun m => inside (marks.1 m))
      (by rw [found]; exact Bool.eq_false_iff.2 fun m => off (drives.1 m)) (Bool.eq_false_iff.2 fun m => there (lost.1 m))
    refine ⟨_, exec_servoPeriod running pins, rfl, evolves_aut evolves, evolves_pvw evolves, fun beyond => servoPeriod_overtravel position (marks.2 beyond),
      fun sound toward => servoPeriod_limit (listedWait_of_sound sound) (by rw [found]; exact drives.2 toward) (by rw [taken]), fun gone => ?_,
      fun inside off there => ?_, fun mast above below inside off there => ?_⟩
    · have both := lost.2 gone
      rw [Bool.and_eq_true, Bool.not_eq_true'] at both
      exact servoPeriod_sensor both.1 both.2
    · obtain ⟨r, passed, -⟩ := pass inside off there
      exact (servoPeriod_flt pins).trans (by rw [passed]; rfl)
    · subst mast
      obtain ⟨r, passed, now, state⟩ := pass inside off there
      have wrote : Evolves (envOf s) s.plant (setAxisRaw .mast r s.plant) := passed ▸
        sensorCheck_evolves (stallCount_evolves (limitCheck_evolves (overtravelCheck_evolves (.written .refl .mast _ (readAxis_same .mast pins _)) .mast) .mast) .mast) .mast _
      have falls : servoPeriod (envOf s) .mast pins s.plant =
          periodDrive (envOf s) .mast (axisOf s.plant .mast).state (fallJudged (envOf s) (setAxisRaw .mast r s.plant)) := by
        have judged := judgeCradle_fall (e := envOf s) (p := setAxisRaw .mast r s.plant) now above below
        rw [← read, ← passed] at judged
        exact congrArg (periodDrive (envOf s) .mast (axisOf s.plant .mast).state) (passed ▸ judged)
      rw [taken] at state
      dsimp only [withPlant]
      rw [falls]
      exact ⟨fun up => fall_up wrote up state, fun l parking => fall_parking wrote parking⟩

end Sys2Proof.Machine
end

