-- ==== Sys2Proof/Proofs/MoveCompletion.lean ====
section
/-! PROOFS. A settled move completed: the axis at rest, its grant returned and handed out (R83, R94, R95, R98; O47). -/

namespace Sys2Proof.Machine

/-- The record of an axis whose settled move has ended (R83, R98). -/
def completedRecord (held : Bool) (r : AxisRec) : AxisRec := { clearMove (atRest r) with state := if held then .fault else .idle }

section
variable {e : Env} {p q r : Plant} {a b : Axis}

/-! ### The move ended -/

/-- The axis IDLE with its grant returned, before a fault that holds it is asked for. -/
def moveEnded (e : Env) (a : Axis) (p : Plant) : Plant := leaveGrants a (putAxis e a { clearMove (atRest (axisOf p a)) with state := .idle } p)

theorem isHeld_moveEnded (e : Env) (a : Axis) (p : Plant) : isHeld (moveEnded e a p) a = isHeld p a := (onlyAxes_putAxis e a _ p).held a

theorem endSettled_eq (e : Env) (a : Axis) (p : Plant) : endSettled e a p =
    if isHeld p a then putAxis e a { axisOf (moveEnded e a p) a with state := .fault } (moveEnded e a p) else moveEnded e a p := by
  rw [← isHeld_moveEnded e]
  rfl

theorem endSettled_record (e : Env) (a : Axis) (p : Plant) : ∃ freed noted start,
    axisOf (endSettled e a p) a = { completedRecord (isHeld p a) (axisOf p a) with freed := freed, noted := noted, reportStart := start } := by
  obtain ⟨freed, noted, start, first⟩ : ∃ freed noted start,
      axisOf (moveEnded e a p) a = { completedRecord false (axisOf p a) with freed := freed, noted := noted, reportStart := start } := by
    rw [moveEnded, axisOf_leaveGrants]
    exact axisOf_putAxis_same e a _ p
  rw [endSettled_eq]
  cases isHeld p a
  · exact ⟨freed, noted, start, first⟩
  · obtain ⟨freed', noted', start', second⟩ := axisOf_putAxis_same e a { axisOf (moveEnded e a p) a with state := .fault } (moveEnded e a p)
    rw [if_pos rfl, second, first]
    exact ⟨freed', noted', start', rfl⟩

theorem endSettled_other (other : b ≠ a) : axisOf (endSettled e a p) b = axisOf p b := by
  have left : axisOf (moveEnded e a p) b = axisOf p b := (axisOf_leaveGrants a b _).trans (axisOf_putAxis_other e _ p other)
  rw [endSettled_eq]
  split
  · exact (axisOf_putAxis_other e _ _ other).trans left
  · exact left

theorem endSettled_axd (e : Env) (a : Axis) (p : Plant) :
    (endSettled e a p).axd = { p.axd with axes := (endSettled e a p).axd.axes, grants := removeAll p.axd.grants a } := by
  have left : (moveEnded e a p).axd = { p.axd with axes := (moveEnded e a p).axd.axes, grants := removeAll p.axd.grants a } :=
    congrArg (fun d : Drives => { d with grants := removeAll d.grants a }) (onlyAxes_putAxis e a _ p).lists
  rw [endSettled_eq]
  split
  · rw [(onlyAxes_putAxis e a _ _).lists, left]
  · exact left

/-! ### The move completed -/

/-- `q` is `p` with the settled move of an axis completed, and the grant it returned handed out. -/
structure Completed (e : Env) (a : Axis) (p q : Plant) : Prop where
  rest : OnlyDrives p q
  others : othersKept a p q
  record : ∃ freed noted start, axisOf q a = { completedRecord (isHeld p a) (axisOf p a) with freed := freed, noted := noted, reportStart := start }
  sound : arbiterSound q = true

theorem completeMove_completed (sound : arbiterSound p = true) (settling : (axisOf p a).state = .settling) : Completed e a p (completeMove e a p) := by
  have waiting : (endSettled e a p).axd.waiting = p.axd.waiting := by rw [endSettled_axd]
  have out : a ∉ p.axd.waiting := not_waiting sound (by rw [settling]; simp)
  refine ⟨completeMove_onlyDrives e a p, fun b other => ?_, ?_, ?_⟩
  · have handed := afterLeaving_axis e p (endSettled e a p) b
    rw [waiting, endSettled_other other] at handed
    exact handed
  · rw [completeMove, (afterLeaving_axis e p (endSettled e a p) a).2 (by rw [waiting]; exact out)]
    exact endSettled_record e a p
  · have moves := (completeMove_evolves (e := e) .refl a settling).driveMoves
    exact arbiterSound_iff.2 (moves.keeps (fun _ _ move => move.lists) (arbiterSound_iff.1 sound))

/-- The axis of a completed move at rest, the others as they were or granted. -/
def restsAfter (a : Axis) (p t : Plant) : Prop :=
  (axisOf t a).state = (if isHeld p a then .fault else .idle) ∧ axisAtRest (axisOf t a) = true ∧ (axisOf t a).target = (axisOf p a).target ∧ othersKept a p t

theorem Completed.atRest (h : Completed e a p q) (axd : r.axd = q.axd) : restsAfter a p r := by
  obtain ⟨_, _, _, written⟩ := h.record
  refine ⟨?_, ?_, ?_, fun b other => ?_⟩
  · rw [axisOf_axd axd, written]; rfl
  · rw [axisOf_axd axd, written]; rfl
  · rw [axisOf_axd axd, written]; rfl
  · rw [axisOf_axd axd]; exact h.others b other

theorem Completed.inputs (h : Completed e a p q) (b : Axis) : inputs (axisOf q b) = inputs (axisOf p b) := by
  by_cases same : b = a
  · obtain ⟨_, _, _, written⟩ := h.record
    rw [same, written]
    rfl
  · exact inputs_granted (h.others b same).1

theorem Completed.position (h : Completed e a p q) (b : Axis) : (axisOf q b).position = (axisOf p b).position := congrArg Prod.fst (h.inputs b)

theorem Completed.freeHead (h : Completed e a p q) : headFree e q = headFree e p := headFree_position (h.position .mast)

/-- Another axis that may move may do so after the completion. -/
theorem Completed.allows (h : Completed e a p q) (sound : arbiterSound p = true) (other : b ≠ a) {target : Int} (may : mayMoveTo e p b target) : mayMoveTo e q b target := by
  obtain ⟨_, _, rest⟩ := h.rest
  exact mayMoveTo_kept may (by rw [rest]) ((h.others b other).2 (not_waiting sound (by rw [may.2.1]; simp))) h.freeHead

/-! ### The grant returned (R94, R95) -/

theorem completeMove_grants (sound : arbiterSound p = true) (settling : (axisOf p a).state = .settling) : completeMove e a p = tryGrant e (endSettled e a p) := by
  have agree := arbiterSound_iff.1 sound
  have mem : a ∈ p.axd.grants := (agree.holds a).2 (by rw [settling]; rfl)
  have pos : 0 < p.axd.grants.length := List.length_pos_of_mem mem
  have erased : removeAll p.axd.grants a = p.axd.grants.erase a := by
    rw [agree.grantsOnce.erase_eq_filter, removeAll]
    congr 1
    funext b
    simp [bne, beq_eq_decide]
  have one : p.axd.grants.length - (endSettled e a p).axd.grants.length = 1 := by
    rw [endSettled_axd, erased, List.length_erase_of_mem mem]
    omega
  rw [completeMove, afterLeaving, one]
  rfl

theorem standsFirst_waits {d : Drives} (first : standsFirst d b) : b ∈ d.waiting := by
  rcases first with ⟨rfl, mem⟩ | ⟨rfl, -, mem, -⟩ | ⟨rfl, -, mem, -⟩ | ⟨rfl, some, only⟩
  · exact mem
  · exact mem
  · exact mem
  · obtain ⟨c, mem⟩ := List.exists_mem_of_ne_nil _ some
    exact only c mem ▸ mem

/-- With none waiting the grant stays free. -/
theorem completeMove_free (sound : arbiterSound p = true) (settling : (axisOf p a).state = .settling) (none : p.axd.waiting = []) :
    (completeMove e a p).axd = { p.axd with axes := (completeMove e a p).axd.axes, grants := removeAll p.axd.grants a } := by
  have lists := endSettled_axd e a p
  rw [completeMove_grants sound settling, tryGrant_none (.inr (by rw [lists]; exact none))]
  exact lists

/-- The axis that stands first takes the grant. -/
theorem completeMove_first (sound : arbiterSound p = true) (settling : (axisOf p a).state = .settling) (budget : p.axd.grants.length ≤ (cfgOf e).budget)
    (first : standsFirst p.axd b) : (axisOf (completeMove e a p) b).state = .moving ∧
      (∀ c, c ≠ a → c ≠ b → axisOf (completeMove e a p) c = axisOf p c) ∧
      (completeMove e a p).axd = {
        axes := (completeMove e a p).axd.axes, grants := removeAll p.axd.grants a ++ [b], waiting := removeAll p.axd.waiting b,
        lastGranted := nameGranted b p.axd.lastGranted } := by
  have agree := arbiterSound_iff.1 sound
  have lists := endSettled_axd e a p
  have mem : a ∈ p.axd.grants := (agree.holds a).2 (by rw [settling]; rfl)
  have room : (removeAll p.axd.grants a).length < (cfgOf e).budget := by
    have shorter : (removeAll p.axd.grants a).length < p.axd.grants.length := List.length_filter_lt_length_iff_exists.2 ⟨a, mem, by simp⟩
    omega
  have still : standsFirst (endSettled e a p).axd b := by rw [lists]; exact first
  have granted : completeMove e a p = grantAxis e b (endSettled e a p) := by
    rw [completeMove_grants sound settling, tryGrant_first (by rw [lists]; exact room) still]
  have fresh : b ∉ removeAll p.axd.grants a := fun m => by
    have waits := (agree.waits b).1 (standsFirst_waits first)
    rw [(agree.holds b).1 (List.mem_of_mem_filter m)] at waits
    cases waits
  refine ⟨?_, fun c own other => ?_, ?_⟩
  · rw [granted, axisOf_grantAxis, settleRecord_state]
  · rw [granted, grantAxis_axis_other _ _ other, endSettled_other own]
  · rw [granted, grantAxis_axd, lists]
    dsimp only
    rw [insertNew, if_neg fresh]

end

/-! ### SETTLE_TIME_EXPIRY (R83) -/

section
variable {s : State} {a : Axis}

theorem settleExpired_due (settling : (axisOf s.plant a).state = .settling) (still : (axisOf s.plant a).v = 0)
    (time : max 1 (axisCfg (envOf s) a).settleTime ≤ (axisOf s.plant a).settleTimer) (periods : 2 ≤ (axisOf s.plant a).settlePeriods) :
    exec (.settleTimeExpiry a) s = .next (withPlant (takeSettled (envOf s) a s.plant) s) := by
  have due : settleExpired (envOf s) a (axisOf s.plant a) = true := by simp [settleExpired, settling, still, time, periods]
  have step : exec (.settleTimeExpiry a) s = execSettleTimeExpiry a s := rfl
  rw [step, execSettleTimeExpiry, if_pos due]

theorem settleExpired_early (early : (axisOf s.plant a).state ≠ .settling ∨ (axisOf s.plant a).v ≠ 0 ∨
    (axisOf s.plant a).settleTimer < max 1 (axisCfg (envOf s) a).settleTime ∨ (axisOf s.plant a).settlePeriods < 2) : exec (.settleTimeExpiry a) s = .next s := by
  have off : settleExpired (envOf s) a (axisOf s.plant a) = false := by
    rcases early with h | h | h | h
    · simp [settleExpired, h]
    · simp [settleExpired, h]
    · simp only [settleExpired, decide_eq_false (Nat.not_le.2 h), Bool.and_false, Bool.false_and]
    · simp only [settleExpired, decide_eq_false (Nat.not_le.2 h), Bool.and_false, Bool.false_and]
  have step : exec (.settleTimeExpiry a) s = execSettleTimeExpiry a s := rfl
  rw [step, execSettleTimeExpiry, off, if_neg (by simp)]

/-- A correction or a JOG completes with nothing handed on. -/
theorem takeSettled_alone {e : Env} {p : Plant} (alone : (axisOf p a).correction = true ∨ (axisOf p a).requester = some .jog) : takeSettled e a p = completeMove e a p := by
  unfold takeSettled
  dsimp only
  rcases alone with correction | jog
  · cases (axisOf p a).requester <;> simp [correction]
  · rw [jog]
    exact ite_self _

/-- Any other move is handed to its requester. -/
theorem takeSettled_handed {e : Env} {p : Plant} {who : Requester} (plain : (axisOf p a).correction = false) (own : (axisOf p a).requester = some who) :
    takeSettled e a p = handCompleted e who a (completeMove e a p) := by
  unfold takeSettled
  dsimp only
  rw [own, plain]
  rfl

end

end Sys2Proof.Machine
end

