-- ==== Sys2Proof/Proofs/MoveHanded.lean ====
section
/-! PROOFS. Completed handed to MSQ, PNT, PAT and PKE where it begins no move (R107, R116, R127, R129, R139, R151, R155, R156; O47). -/

namespace Sys2Proof.Machine

section
variable {e : Env} {p q : Plant} {a : Axis}

/-! ### MSQ (R107, R116) -/

/-- RAISED with no AIM waiting, and STOWED: a status and no more. -/
theorem setMast_still (st : MastState) (rests : (st = .raised ∧ p.pnt.state ≠ .waitingMast) ∨ st = .stowed) :
    ∃ posts, setMast e st p = { p with posts := posts, msq := { p.msq with state := st } } := by
  obtain ⟨posts, status⟩ := postStatusIf_rest (decide (mastKey p.msq.state ≠ mastKey st)) e { p with msq := { p.msq with state := st } }
  refine ⟨posts, ?_⟩
  unfold setMast
  dsimp only
  rw [status]
  unfold pointingMastEvent
  rcases rests with ⟨rfl, none⟩ | rfl
  · exact if_neg none
  · rfl

theorem mastCompleted_raised {target : Int} {d : RaiseDirection} (raising : p.msq.state = .raising target d) : mastCompleted e .mast p = setMast e .raised p := by
  unfold mastCompleted
  rw [raising]

theorem mastCompleted_lowered {pending : Bool} {h : Int} (lowering : p.msq.state = .lowering pending) (read : (axisOf p .mast).position = some h) :
    mastCompleted e .mast p = setMast e (if h ≤ ((cfgOf e).stowWindow : Int) then .stowed else .raised) p := by
  have position : mastPosition p = some h := read
  unfold mastCompleted
  rw [lowering]
  dsimp only
  rw [loweringDone, position]
  by_cases stowed : h ≤ ((cfgOf e).stowWindow : Int) <;> simp [stowed]

/-! ### PNT (R127, R129) -/

variable {r : PointingRecord}

/-- The last slew move ends the slew. -/
theorem slewCompleted_slewed (state : p.pnt.state = .active (.slewing .move)) (list : p.pnt.slewList = [a]) (record : p.pnt.record = some r) :
    ∃ posts pnt monitor, slewCompleted e a p = { p with posts := posts, pnt := pnt, monitor := monitor } ∧ pnt.record = some r ∧ pnt.slewList = [] ∧
      pnt.state = if r.flagPeak then .active (.slewing .settle) else .pointed := by
  have empty : removeAll p.pnt.slewList a = [] := by rw [list]; simp [removeAll]
  unfold slewCompleted
  rw [state, empty]
  dsimp only
  have flag : flagPeakSet { p with pnt := { p.pnt with slewList := [] } } = r.flagPeak := by simp [flagPeakSet, record]
  rw [if_pos rfl, flag]
  cases r.flagPeak
  · obtain ⟨posts, set⟩ := setPointing_rest e .pointed { p with pnt := { p.pnt with slewList := [] } }
    rw [if_neg (by simp), set]
    exact ⟨_, _, _, rfl, record, rfl, rfl⟩
  · obtain ⟨posts, set⟩ := setPointing_rest e (.active (.slewing .settle))
      { p with pnt := { p.pnt with slewList := [], completedAt := e.clock, measurement := openMeasurement e { p with pnt := { p.pnt with slewList := [] } } } }
    rw [if_pos rfl, set]
    exact ⟨_, _, _, rfl, record, rfl, rfl⟩

/-- The last move of the return ends in LOST. -/
theorem slewCompleted_returned (state : p.pnt.state = .active (.acquiring .back)) (list : p.pnt.slewList = [a]) (record : p.pnt.record = some r) :
    ∃ posts pnt, slewCompleted e a p = { p with posts := posts, pnt := pnt } ∧ pnt.record = some { r with peak := none } ∧ pnt.state = .lost := by
  have empty : removeAll p.pnt.slewList a = [] := by rw [list]; simp [removeAll]
  unfold slewCompleted
  rw [state, empty]
  dsimp only
  obtain ⟨posts, set⟩ := setPointing_rest e .lost (withRecord (fun r => { r with peak := none }) { p with pnt := { p.pnt with slewList := [] } })
  rw [if_pos rfl, set]
  exact ⟨_, _, rfl, by simp [withRecord, record], rfl⟩

/-! ### PAT (R139) -/

/-- A search point reached opens its measurement. -/
theorem patternCompleted_point {y : Pattern} (pat : p.pat = some y) (status : y.status = .running .toPoint) (mem : a ∈ y.moveList) (clear : y.blocked = false) :
    patternCompleted e a p = { p with pat := some (if removeAll y.moveList a = [] then
      { y with moveList := [], status := .running (.settle e.clock), measurement := openMeasurement e p } else { y with moveList := removeAll y.moveList a }) } := by
  unfold patternCompleted
  rw [pat]
  dsimp only
  rw [status]
  dsimp only
  by_cases last : removeAll y.moveList a = []
  · rw [if_pos ⟨mem, last⟩, if_pos last]
    simp [patternFuel, patternJobs, updatePattern, pat, status, clear, last, openMeasurement, heldSequence]
  · rw [if_neg fun h => last h.2, if_neg last]
    simp [updatePattern, pat, status]

/-! ### PKE (R151, R155, R156) -/

/-- A cross point or the closing centre reached opens its measurement. -/
theorem runCompleted_point {st : RunStage} (status : p.run.status = .running st) (stage : st = .toPoint ∨ st = .toClose) (mem : a ∈ p.run.moveList)
    (clear : p.run.blocked = false) :
    runCompleted e a p = { p with run := if removeAll p.run.moveList a = [] then
      { p.run with
        moveList := [], status := .running (if st = .toPoint then .settle e.clock else .closeSettle e.clock), measurement := openMeasurement e p }
      else { p.run with moveList := removeAll p.run.moveList a } } := by
  unfold runCompleted
  rw [status]
  dsimp only
  by_cases last : removeAll p.run.moveList a = []
  · have left : (updateRun (fun r => { r with moveList := removeAll r.moveList a }) p).run.moveList = [] := last
    rcases stage with rfl | rfl <;> dsimp only <;> rw [if_pos ⟨mem, left⟩, if_pos last]
    · simp [runFuel, runJobs, updateRun, clear, last, openRunMeasurement, runStage, openMeasurement, heldSequence]
    · simp [runFuel, runJobs, updateRun, last, openRunMeasurement, runStage, openMeasurement, heldSequence]
  · have left : (updateRun (fun r => { r with moveList := removeAll r.moveList a }) p).run.moveList ≠ [] := last
    rcases stage with rfl | rfl <;> dsimp only <;> rw [if_neg fun h => left h.2, if_neg last] <;> rfl

/-- The best centre reached ends the run ROUGH, without the TRACK flag in POINTED. -/
theorem runCompleted_best {best : FoundPoint} (status : p.run.status = .running .toBest) (list : p.run.moveList = [a]) (found : p.run.best = some best)
    (record : p.pnt.record = some r) (peaking : p.pnt.state = .active .peaking) (plain : r.flagTrack = false) :
    ∃ posts pnt run, runCompleted e a p = { p with posts := posts, pnt := pnt, run := run, monitor := .cold } ∧ run.status = .ended ∧ pnt.state = .pointed ∧
      pnt.record = some { r with
        panOffset := best.point.pan - r.pan, tiltOffset := best.point.tilt - r.tilt, peak := some best.level, quality := some .rough } := by
  have empty : removeAll p.run.moveList a = [] := by rw [list]; simp [removeAll]
  generalize ended : ({ p with run := { p.run with moveList := [], status := .ended } } : Plant) = q
  have taken : runCompleted e a p = takeRunEnd e .rough best.point best.level q := by
    unfold runCompleted
    rw [status, ← ended]
    dsimp only
    rw [if_pos ⟨by simp [list], empty⟩]
    simp [runFuel, runJobs, updateRun, found, empty]
  have written : writeRunEnd .rough best.point best.level q = { q with pnt := { q.pnt with record := some { r with
      panOffset := best.point.pan - r.pan, tiltOffset := best.point.tilt - r.tilt, peak := some best.level, quality := some .rough } } } := by
    rw [← ended, writeRunEnd, withRecord, record]
    rfl
  have flag : flagTrackSet (writeRunEnd .rough best.point best.level q) = false := by rw [written]; exact plain
  obtain ⟨posts, set⟩ := setPointing_rest e .pointed (writeRunEnd .rough best.point best.level q)
  have now : q.pnt.state = .active .peaking := by rw [← ended]; exact peaking
  rw [taken, takeRunEnd]
  dsimp only
  rw [now]
  dsimp only
  rw [flag, if_neg (by simp), set, written, ← ended]
  exact ⟨_, _, _, rfl, rfl, rfl, rfl⟩

end

end Sys2Proof.Machine
end

