-- ==== Sys2Proof/Proofs/MoveFollowed.lean ====
section
/-! PROOFS. Completed handed to MSQ where moves follow it: parking goes on to LOWERING, RAISED releases an AIM (R114 to R116, R127; O47). -/

namespace Sys2Proof.Machine

section
variable {e : Env} {p q : Plant} {a : Axis}

/-! ### Parking (R114, R115) -/

theorem mastCompleted_parks {l : List Axis} (head : a ≠ .mast) (parking : p.msq.state = .parking l) :
    mastCompleted e a p = if removeAll l a = [] then
        (if headInsideStow e { p with msq := { p.msq with state := .parking (removeAll l a) } } then
          enterLowering e { p with msq := { p.msq with state := .parking (removeAll l a) } }
        else headNotParked e { p with msq := { p.msq with state := .parking (removeAll l a) } })
      else { p with msq := { p.msq with state := .parking (removeAll l a) } } := by
  unfold mastCompleted
  rw [parking]
  cases a
  case mast => exact absurd rfl head
  all_goals rfl

/-- LOWERING entered ends pointing. -/
theorem setMast_lowering (e : Env) (pending : Bool) (p : Plant) :
    ∃ posts, setMast e (.lowering pending) p = haltPointing e (.aborted .lower) { p with posts := posts, msq := { p.msq with state := .lowering pending } } := by
  obtain ⟨posts, status⟩ := postStatusIf_rest (decide (mastKey p.msq.state ≠ mastKey (.lowering pending))) e { p with msq := { p.msq with state := .lowering pending } }
  refine ⟨posts, ?_⟩
  unfold setMast
  dsimp only
  rw [status]
  rfl

/-- The lowering begun with MAST at rest: pointing halted, the record kept, MAST on its way to 0 (R116, R131). -/
theorem enterLowering_begun (sound : arbiterSound p = true) (may : mayMoveTo e p .mast 0) :
    (enterLowering e p).msq.state = .lowering false ∧ movesTo .msq .lower e (enterLowering e p) .mast 0 ∧ (enterLowering e p).pnt.state = .idle ∧
      (enterLowering e p).pnt.record = p.pnt.record := by
  obtain ⟨posts, entered⟩ := setMast_lowering e false p
  generalize set : ({ p with posts := posts, msq := { p.msq with state := .lowering false } } : Plant) = r at entered
  have halted : HeadWork r (haltPointing e (.aborted .lower) r) := haltPointing_headWork (.refl r) _
  obtain ⟨idle, record⟩ := haltPointing_pnt e (.aborted .lower) r
  have out : Axis.mast ∉ r.axd.waiting := by
    rw [← set]
    exact not_waiting sound (by rw [may.2.1]; simp)
  have mayR : mayMoveTo e r .mast 0 := by rw [← set]; exact may
  have mayH : mayMoveTo e (haltPointing e (.aborted .lower) r) .mast 0 :=
    mayMoveTo_kept mayR halted.aut (halted.rested out).1 (headFree_position (congrArg AxisRec.position (halted.rested out).1))
  obtain ⟨⟨x, clamped, answer⟩, moves, -, ⟨posts', axd', asked⟩, -⟩ := moveRequest_moves (q := mastMove .lower 0) mayH
  have lowered : enterLowering e p = setPendingMast false (moveRequest e (mastMove .lower 0) (haltPointing e (.aborted .lower) r)).1 := by
    rw [enterLowering, entered, requestLowering]
    dsimp only
    rw [answer]
  rw [lowered]
  refine ⟨rfl, moves, ?_, ?_⟩
  · rw [asked]; exact idle
  · rw [asked]; exact record.trans (by rw [← set])

/-- With pointing IDLE a request for the lowering, whatever its answer, leaves PNT. -/
theorem requestLowering_pnt (idle : p.pnt.state = .idle) : (requestLowering e p).pnt = p.pnt := by
  obtain ⟨posts, axd, asked⟩ := moveRequest_onlyDrives e (mastMove .lower 0) p
  have pnt : (moveRequest e (mastMove .lower 0) p).1.pnt = p.pnt := by rw [asked]
  have judged : (loweringDone e (moveRequest e (mastMove .lower 0) p).1).pnt = p.pnt := by
    have awake : (moveRequest e (mastMove .lower 0) p).1.pnt.state ≠ .waitingMast := by rw [pnt, idle]; simp
    have set (stowed : Bool) : (setMast e (if stowed then .stowed else .raised) (moveRequest e (mastMove .lower 0) p).1).pnt = p.pnt := by
      cases stowed
      · obtain ⟨_, set⟩ := setMast_still (e := e) .raised (.inl ⟨rfl, awake⟩)
        exact (congrArg Plant.pnt set).trans pnt
      · obtain ⟨_, set⟩ := setMast_still (e := e) (p := (moveRequest e (mastMove .lower 0) p).1) .stowed (.inr rfl)
        exact (congrArg Plant.pnt set).trans pnt
    exact set _
  unfold requestLowering
  dsimp only
  split
  · exact pnt
  · exact pnt
  · exact pnt
  · exact judged
  all_goals exact pnt

/-- LOWERING entered keeps the record, whatever AXD answers. -/
theorem enterLowering_record (e : Env) (p : Plant) : (enterLowering e p).pnt.record = p.pnt.record := by
  obtain ⟨posts, entered⟩ := setMast_lowering e false p
  obtain ⟨idle, record⟩ := haltPointing_pnt e (.aborted .lower) { p with posts := posts, msq := { p.msq with state := .lowering false } }
  rw [enterLowering, entered, requestLowering_pnt idle, record]

/-! ### The AIM released (R127) -/

theorem setMast_releases (waits : p.pnt.state = .waitingMast) :
    ∃ posts, setMast e .raised p = enterSlewing e { p with posts := posts, msq := { p.msq with state := .raised } } := by
  obtain ⟨posts, status⟩ := postStatusIf_rest (decide (mastKey p.msq.state ≠ mastKey .raised)) e { p with msq := { p.msq with state := .raised } }
  refine ⟨posts, ?_⟩
  unfold setMast
  dsimp only
  rw [status]
  exact if_pos waits

/-- The head sent to the pointing position with every head axis at rest. -/
theorem startSlew_begun (sound : arbiterSound p = true) (st : PointState) (may : ∀ b, b ≠ .mast → mayMoveTo e p b (pointingTarget e p b)) :
    (∃ posts axd, startSlew e (setPointing e st p) = { p with posts := posts, axd := axd, pnt := { p.pnt with state := st, slewList := headAxes } }) ∧
      ∀ b, b ≠ .mast → movesTo .pnt .headMove e (startSlew e (setPointing e st p)) b (pointingTarget e p b) := by
  obtain ⟨posts, set⟩ := setPointing_rest e st p
  generalize begun : ({ p with posts := posts, pnt := { p.pnt with state := st, slewList := headAxes } } : Plant) = r
  have opened : startSlew e (setPointing e st p) = slewRequests e headAxes r := by rw [set, ← begun]; rfl
  have heads (b : Axis) : b ∈ headAxes ↔ b ≠ .mast := by cases b <;> decide
  have targets (b : Axis) : pointingTarget e r b = pointingTarget e p b := by rw [← begun]; rfl
  have asks : ∀ b ∈ headAxes, b ≠ .mast ∧ b ∉ r.axd.waiting ∧ mayMoveTo e r b (pointingTarget e r b) := fun b m => by
    have ne := (heads b).1 m
    rw [targets, ← begun]
    exact ⟨ne, not_waiting sound (by rw [(may b ne).2.1]; simp), may b ne⟩
  obtain ⟨⟨posts', axd', rest⟩, -, moves⟩ := slewRequests_moves headAxes (by decide) asks
  rw [opened]
  refine ⟨⟨posts', axd', ?_⟩, fun b ne => ?_⟩
  · rw [rest, ← begun]
  · rw [← targets]
    exact moves b ((heads b).2 ne)

theorem needsMet_slewing {r : PointingRecord} (record : p.pnt.record = some r) (wind : given p .windMoveOk = true)
    (level : r.flagPeak = true → (cfgOf e).source = .linked → given p .levelOk = true) : needsMet e p (.slewing .move) = true := by
  have flag : flagPeakSet p = r.flagPeak := by simp [flagPeakSet, record]
  rw [needsMet, flag, wind]
  cases peak : r.flagPeak
  · rfl
  · by_cases source : (cfgOf e).source = .linked
    · simp [level peak source]
    · simp [linked, source]

end

end Sys2Proof.Machine
end

