-- ==== Sys2Proof/Proofs/SweepRows.lean ====
section
/-! PROOFS. A SWEEP row begun and ended at the Completed of its moves, and what the pattern goes on to (R139, R143 to R145; O47). -/

namespace Sys2Proof.Machine

section
variable {e : Env} {p q u : Plant} {a b : Axis} {y z : Pattern}

/-- After the completion on `a` the axis `b` would be granted a move to `target` (R79). -/
def mayAfter (e : Env) (p : Plant) (a b : Axis) (target : Int) : Prop :=
  p.aut.latch = none ∧ headFree e p = true ∧ isHeld p a = false ∧ (b = a ∨ (axisOf p b).state = .idle) ∧
    switchBlocks (axisOf p b) (clampSoft e b target) = false

theorem Completed.allowsAfter (h : Completed e a p q) (sound : arbiterSound p = true) {target : Int} (may : mayAfter e p a b target) : mayMoveTo e q b target := by
  obtain ⟨clear, free, held, rests, off⟩ := may
  obtain ⟨_, _, rest⟩ := h.rest
  by_cases same : b = a
  · subst same
    obtain ⟨_, _, _, written⟩ := h.record
    refine ⟨by rw [rest]; exact clear, by rw [written, held]; rfl, ?_, fun _ => h.freeHead.trans free⟩
    rw [written]
    exact off
  · exact h.allows sound same ⟨clear, rests.resolve_left same, off, fun _ => free⟩

/-! ### The pattern at the last Completed of its moves -/

theorem patternFuel_eq (e : Env) : ∃ n, patternFuel e = n + 3 := ⟨4 * (cfgOf e).passes * (cfgOf e).rows * ((cfgOf e).points + 1) + 5, rfl⟩

/-- A Completed that leaves other moves under way. -/
theorem patternCompleted_left (pat : p.pat = some y) (status : y.status = .running .toRowStart) (left : removeAll y.moveList a ≠ []) :
    patternCompleted e a p = { p with pat := some { y with moveList := removeAll y.moveList a } } := by
  unfold patternCompleted
  rw [pat]
  dsimp only
  rw [status]
  dsimp only
  rw [if_neg fun h => left h.2, updatePattern, pat]
  simp [status]

/-- The last Completed of a row start or of a sweep. -/
theorem patternCompleted_last (pat : p.pat = some y) (status : y.status = .running .toRowStart ∨ y.status = .running .sweep) (mem : a ∈ y.moveList)
    (last : removeAll y.moveList a = []) :
    patternCompleted e a p = patternJobs e (patternFuel e) .arrived { p with pat := some { y with moveList := [] } } := by
  have emptied : updatePattern (fun z => { z with moveList := removeAll z.moveList a }) p = { p with pat := some { y with moveList := [] } } := by
    rw [updatePattern, pat, Option.map_some, last]
  unfold patternCompleted
  rw [pat]
  dsimp only
  rw [emptied]
  rcases status with status | status <;> rw [status] <;> exact if_pos ⟨mem, last⟩

/-! ### The sweep begun (R144) -/

/-- The row's start reached: PAN sent along the row under the cap, the handing begun. -/
theorem patternJobs_sweeps {n : Nat} (pat : p.pat = some y) (status : y.status = .running .toRowStart) (clear : y.blocked = false)
    (may : mayMoveTo e p .pan (patternTarget y y.points).pan) :
    let t := patternJobs e (n + 1) .arrived p
    t.smp = { p.smp with sweepHanding := true } ∧ t.pnt = p.pnt ∧ movesTo .pat .headMove e t .pan (patternTarget y y.points).pan ∧
      (axisOf t .pan).cap = some (sweepCap e) ∧
      t.pat = some { y with status := .running .sweep, moveList := [.pan], targets := { y.targets with pan := clampSoft e .pan (patternTarget y y.points).pan } } := by
  obtain ⟨⟨_, _, answer⟩, moves, cap, ⟨posts, axd, asked⟩, -⟩ := moveRequest_moves (q := pointMove .pat .pan (patternTarget y y.points).pan (some (sweepCap e))) may
  have sweeps : patternJobs e (n + 1) .arrived p = setHanding true (updatePattern (fun z => { z with
      status := .running .sweep, targets := { y.targets with pan := clampSoft e .pan (patternTarget y y.points).pan }, moveList := [.pan], blocked := false })
        (moveRequest e (pointMove .pat .pan (patternTarget y y.points).pan (some (sweepCap e))) p).1) := by
    simp only [patternJobs, pat, status, clear, requestSweep, answer]
    simp
  dsimp only
  rw [sweeps]
  refine ⟨?_, ?_, moves, cap, ?_⟩
  · rw [asked]; rfl
  · rw [asked]; rfl
  · rw [asked, setHanding, updatePattern, pat, ← clear]
    rfl

theorem patternJobs_blockedRow {n : Nat} (pat : p.pat = some y) (status : y.status = .running .toRowStart) (blocked : y.blocked = true) :
    patternJobs e (n + 1) .arrived p = patternJobs e n .rowEnd (postDwell e .searchBlocked y.targets.pan y.targets.tilt levelMin p) := by
  simp only [patternJobs, pat, status, blocked, if_true]

theorem patternJobs_swept {n : Nat} (pat : p.pat = some y) (status : y.status = .running .sweep) :
    patternJobs e (n + 1) .arrived p = patternJobs e n .rowEnd (setHanding false p) := by
  simp only [patternJobs, pat, status]

/-! ### The row ended (R143, R145) -/

/-- The end of a row in the plant: no level handed on after a sweep, the row noted in the record. -/
def rowEndedIn (y : Pattern) (p t : Plant) : Prop :=
  t.smp = { p.smp with sweepHanding := if y.status = .running .sweep then false else p.smp.sweepHanding } ∧
    t.pnt.record = p.pnt.record.map fun r => { r with rowEnd := y.row, passEnd := y.pass }

/-- The row `z` begun after the row of `y`, with PAN and TILT on their way to its start. -/
def goesToRow (e : Env) (a : Axis) (y : Pattern) (p : Plant) (z : Pattern) (t : Plant) : Prop :=
  mayAfter e p a .pan (patternTarget z 1).pan → mayAfter e p a .tilt (patternTarget z 1).tilt →
    rowEndedIn y p t ∧ moveToPoint .pat e t (patternTarget z 1) ∧ t.pnt.state = p.pnt.state ∧
    t.pat = some { z with
      point := 1, status := .running .toRowStart, targets := clampPoint e (patternTarget z 1), moveList := [.pan, .tilt], blocked := false, barred := false }

/-- What follows the end of a row: the next row, the next pass, or the pattern exhausted and the head sent back. -/
def goesOnFrom (e : Env) (a : Axis) (y : Pattern) (p t : Plant) : Prop :=
  (y.row < y.rows → goesToRow e a y p { y with row := y.row + 1 } t) ∧
    (y.rows ≤ y.row → y.pass < y.passes → goesToRow e a y p { y with pass := y.pass + 1, row := 1 } t) ∧
    (y.rows ≤ y.row → y.passes ≤ y.pass → p.pnt.state = .active (.acquiring .search) → (∀ b, b ≠ .mast → mayAfter e p a b (pointingTarget e p b)) →
      rowEndedIn y p t ∧ (t.pat.map fun z => z.status) = some (.halted .exhausted) ∧ t.pnt.state = .active (.acquiring .back) ∧
        ∀ b, b ≠ .mast → movesTo .pnt .headMove e t b (pointingTarget e p b))

/-- The plant before the end of a row: the move completed, and nothing but the pattern's moves and the handing written. -/
structure RowDone (e : Env) (a : Axis) (y : Pattern) (p u : Plant) : Prop where
  move : ∃ q, Completed e a p q ∧ u.axd = q.axd
  aut : u.aut = p.aut
  pnt : u.pnt = p.pnt
  smp : u.smp = { p.smp with sweepHanding := if y.status = .running .sweep then false else p.smp.sweepHanding }
  pat : u.pat = some { y with moveList := [] }

theorem RowDone.may (h : RowDone e a y p u) (sound : arbiterSound p = true) {target : Int} (may : mayAfter e p a b target) : mayMoveTo e u b target := by
  obtain ⟨q, done, axd⟩ := h.move
  obtain ⟨_, _, rest⟩ := done.rest
  have position : (axisOf u .mast).position = (axisOf q .mast).position := by rw [axisOf_axd axd]
  exact mayMoveTo_kept (done.allowsAfter sound may) (by rw [h.aut, rest]) (axisOf_axd axd b) (headFree_position position)

theorem RowDone.state (h : RowDone e a y p u) : u.pnt.state = p.pnt.state := by rw [h.pnt]

theorem RowDone.noted (h : RowDone e a y p u) : (takeRowEnd e y.row y.pass u).pnt.record = p.pnt.record.map fun r => { r with rowEnd := y.row, passEnd := y.pass } := by
  rw [← h.pnt]
  rfl

theorem RowDone.sound (h : RowDone e a y p u) : arbiterSound u = true := by
  obtain ⟨q, done, axd⟩ := h.move
  rw [arbiterSound_iff]
  exact (DriveMove.same (e := e) axd).lists (arbiterSound_iff.1 done.sound)

/-- A row begun from the end of the one before it. -/
theorem RowDone.goes (h : RowDone e a y p u) (sound : arbiterSound p = true) (mode : y.mode = .sweep) {n : Nat} (f : Pattern → Pattern)
    (same : ∀ x, (f { x with moveList := [] }) = { f x with moveList := [] }) (kept : (f y).mode = y.mode) :
    goesToRow e a y p (f y) (patternJobs e (n + 1) .go (updatePattern (fun x => { f x with point := 1 }) (takeRowEnd e y.row y.pass u))) := by
  intro pan tilt
  generalize begun : updatePattern (fun x => { f x with point := 1 }) (takeRowEnd e y.row y.pass u) = v
  have pat : v.pat = some { f y with moveList := [], point := 1 } := by
    rw [← begun]
    have taken : (takeRowEnd e y.row y.pass u).pat = some { y with moveList := [] } := h.pat
    rw [updatePattern, taken, Option.map_some, same]
  have may : mayMoveToPoint e v (patternTarget { f y with moveList := [], point := 1 } 1) := by
    rw [← begun]
    exact ⟨h.sound, h.may sound pan, h.may sound tilt⟩
  obtain ⟨moves, -, -, posts, axd, gone⟩ := patternJobs_go (n := n) pat may
  refine ⟨⟨?_, ?_⟩, moves, ?_, ?_⟩
  · rw [gone, ← begun]; exact h.smp
  · rw [gone, ← begun]; exact h.noted
  · rw [gone, ← begun]; exact h.state
  · rw [gone]
    have stage : moveStage { f y with moveList := [], point := 1 } = .toRowStart := by rw [moveStage]; dsimp only; rw [kept, mode]
    dsimp only
    rw [stage]
    rfl

/-- The end of a row, by what is left of the pattern. -/
theorem RowDone.goesOn (h : RowDone e a y p u) (sound : arbiterSound p = true) (mode : y.mode = .sweep) (n : Nat) :
    goesOnFrom e a y p (patternJobs e (n + 2) .rowEnd u) := by
  refine ⟨fun more => ?_, fun last more => ?_, fun lastRow lastPass searching may => ?_⟩
  · rw [patternJobs_nextRow (n := n + 1) h.pat more]
    exact h.goes sound mode (fun x => { x with row := x.row + 1 }) (fun _ => rfl) rfl
  · rw [patternJobs_nextPass (n := n + 1) h.pat last more]
    exact h.goes sound mode (fun x => { x with pass := x.pass + 1, row := 1 }) (fun _ => rfl) rfl
  · rw [patternJobs_exhausted (n := n + 1) h.pat lastRow lastPass]
    generalize halted : updatePattern (fun x => { x with status := .halted .exhausted }) (takeRowEnd e y.row y.pass u) = v
    have target (b : Axis) : pointingTarget e v b = pointingTarget e p b := by
      rw [← halted]
      refine (pointingTarget_rowEnd (p := u) y.row y.pass b).trans ?_
      unfold pointingTarget
      rw [h.pnt]
    have state : v.pnt.state = .active (.acquiring .search) := by rw [← halted]; exact h.state.trans searching
    have mayV : ∀ b, b ≠ .mast → mayMoveTo e v b (pointingTarget e v b) := fun b ne => by
      rw [target, ← halted]
      exact h.may sound (may b ne)
    have soundV : arbiterSound v = true := by rw [← halted]; exact h.sound
    obtain ⟨pat, pnt, moves, -⟩ := enterReturn_begun soundV mayV
    rw [takeExhausted_search state]
    refine ⟨⟨?_, ?_⟩, ?_, by rw [pnt], fun b ne => target b ▸ moves b ne⟩
    · rw [enterReturn_smp, ← halted]; exact h.smp
    · rw [pnt, ← halted]; exact h.noted
    · rw [pat, ← halted, updatePattern, show (takeRowEnd e y.row y.pass u).pat = some { y with moveList := [] } from h.pat]
      rfl

end

end Sys2Proof.Machine
end

