-- ==== Sys2Proof/Proofs/MoveSettled.lean ====
section
/-! PROOFS. SETTLE_TIME_EXPIRY by the owner of the move (R83; O47). -/

namespace Sys2Proof.Machine

section
variable {s : State} {a : Axis}

/-- A settle time reached on an axis with a move of its owner: the move completed, then handed to the owner. -/
theorem settled_handed (settling : (axisOf s.plant a).state = .settling) (still : (axisOf s.plant a).v = 0)
    (time : max 1 (axisCfg (envOf s) a).settleTime ≤ (axisOf s.plant a).settleTimer) (periods : 2 ≤ (axisOf s.plant a).settlePeriods)
    (plain : (axisOf s.plant a).correction = false) (sound : arbiterSound s.plant = true) : ∃ q, Completed (envOf s) a s.plant q ∧ Evolves (envOf s) s.plant q ∧
      ∀ who, (axisOf s.plant a).requester = some who → exec (.settleTimeExpiry a) s = .next (withPlant (handCompleted (envOf s) who a q) s) :=
  ⟨_, completeMove_completed sound settling, completeMove_evolves .refl a settling, fun _ own => by
    rw [settleExpired_due settling still time periods, takeSettled_handed plain own]⟩

end

section
variable {e : Env} {p q : Plant} {a : Axis}

/-! ### A Completed after which no move begins (R107, R116, R127, R129, R139, R151, R155, R156) -/

theorem completed_raised (done : Completed e .mast p q) {target : Int} {d : RaiseDirection} (raising : p.msq.state = .raising target d) (awake : p.pnt.state ≠ .waitingMast) :
    let t := handCompleted e .msq .mast q
    restsAfter .mast p t ∧ t.msq = { p.msq with state := .raised } ∧ t.pnt = p.pnt := by
  obtain ⟨_, _, kept⟩ := done.rest
  obtain ⟨_, set⟩ := setMast_still (e := e) (p := q) .raised (.inl ⟨rfl, by rw [kept]; exact awake⟩)
  have handed : handCompleted e .msq .mast q = _ := (mastCompleted_raised (e := e) (by rw [kept]; exact raising)).trans set
  dsimp only
  rw [handed]
  exact ⟨done.atRest rfl, by rw [kept], by rw [kept]⟩

theorem completed_lowered (done : Completed e .mast p q) {pending : Bool} {h : Int} (lowering : p.msq.state = .lowering pending)
    (read : (axisOf p .mast).position = some h) (awake : p.pnt.state ≠ .waitingMast) :
    let t := handCompleted e .msq .mast q
    restsAfter .mast p t ∧ t.pnt = p.pnt ∧ t.msq = { p.msq with state := if h ≤ ((cfgOf e).stowWindow : Int) then .stowed else .raised } := by
  obtain ⟨_, _, kept⟩ := done.rest
  have rests : ((if h ≤ ((cfgOf e).stowWindow : Int) then MastState.stowed else .raised) = .raised ∧ q.pnt.state ≠ .waitingMast) ∨
      (if h ≤ ((cfgOf e).stowWindow : Int) then MastState.stowed else .raised) = .stowed := by
    split
    · exact .inr rfl
    · exact .inl ⟨rfl, by rw [kept]; exact awake⟩
  obtain ⟨_, set⟩ := setMast_still (e := e) _ rests
  have handed : handCompleted e .msq .mast q = _ :=
    (mastCompleted_lowered (e := e) (by rw [kept]; exact lowering) ((done.position .mast).trans read)).trans set
  dsimp only
  rw [handed]
  exact ⟨done.atRest rfl, by rw [kept], by rw [kept]⟩

theorem completed_slewed (done : Completed e a p q) {r : PointingRecord} (state : p.pnt.state = .active (.slewing .move)) (list : p.pnt.slewList = [a])
    (record : p.pnt.record = some r) :
    let t := handCompleted e .pnt a q
    restsAfter a p t ∧ t.msq = p.msq ∧ t.pnt.record = some r ∧ t.pnt.slewList = [] ∧
      t.pnt.state = if r.flagPeak then .active (.slewing .settle) else .pointed := by
  obtain ⟨_, _, kept⟩ := done.rest
  obtain ⟨_, pnt, _, slewed, now⟩ := slewCompleted_slewed (e := e) (p := q) (by rw [kept]; exact state) (by rw [kept]; exact list) (by rw [kept]; exact record)
  have handed : handCompleted e .pnt a q = _ := slewed
  dsimp only
  rw [handed]
  exact ⟨done.atRest rfl, by rw [kept], now⟩

theorem completed_returned (done : Completed e a p q) {r : PointingRecord} (state : p.pnt.state = .active (.acquiring .back)) (list : p.pnt.slewList = [a])
    (record : p.pnt.record = some r) :
    let t := handCompleted e .pnt a q
    restsAfter a p t ∧ t.msq = p.msq ∧ t.pnt.state = .lost ∧ t.pnt.record = some { r with peak := none } := by
  obtain ⟨_, _, kept⟩ := done.rest
  obtain ⟨_, pnt, back, now, lost⟩ := slewCompleted_returned (e := e) (p := q) (by rw [kept]; exact state) (by rw [kept]; exact list) (by rw [kept]; exact record)
  have handed : handCompleted e .pnt a q = _ := back
  dsimp only
  rw [handed]
  exact ⟨done.atRest rfl, by rw [kept], lost, now⟩

theorem completed_point (done : Completed e a p q) {y : Pattern} (pat : p.pat = some y) (status : y.status = .running .toPoint) (mem : a ∈ y.moveList)
    (clear : y.blocked = false) :
    let t := handCompleted e .pat a q
    restsAfter a p t ∧ t.msq = p.msq ∧ t.pnt = p.pnt ∧
      t.pat = some (if removeAll y.moveList a = [] then { y with moveList := [], status := .running (.settle e.clock), measurement := openMeasurement e p }
        else { y with moveList := removeAll y.moveList a }) := by
  obtain ⟨_, _, kept⟩ := done.rest
  have handed : handCompleted e .pat a q = _ := patternCompleted_point (e := e) (p := q) (by rw [kept]; exact pat) status mem clear
  dsimp only
  rw [handed]
  exact ⟨done.atRest rfl, by rw [kept], by rw [kept], by rw [kept]; rfl⟩

theorem completed_cross (done : Completed e a p q) {st : RunStage} (status : p.run.status = .running st) (stage : st = .toPoint ∨ st = .toClose)
    (mem : a ∈ p.run.moveList) (clear : p.run.blocked = false) :
    let t := handCompleted e .pke a q
    restsAfter a p t ∧ t.msq = p.msq ∧ t.pnt = p.pnt ∧
      t.run = if removeAll p.run.moveList a = [] then
        { p.run with
          moveList := [], status := .running (if st = .toPoint then .settle e.clock else .closeSettle e.clock), measurement := openMeasurement e p }
        else { p.run with moveList := removeAll p.run.moveList a } := by
  obtain ⟨_, _, kept⟩ := done.rest
  have run : q.run = p.run := by rw [kept]
  have handed : handCompleted e .pke a q = _ := runCompleted_point (e := e) (p := q) (by rw [run]; exact status) stage (by rw [run]; exact mem) (by rw [run]; exact clear)
  dsimp only
  rw [handed]
  exact ⟨done.atRest rfl, by rw [kept], by rw [kept], by rw [kept]; rfl⟩

theorem completed_best (done : Completed e a p q) {best : FoundPoint} {r : PointingRecord} (status : p.run.status = .running .toBest) (list : p.run.moveList = [a])
    (found : p.run.best = some best) (record : p.pnt.record = some r) (peaking : p.pnt.state = .active .peaking) (plain : r.flagTrack = false) :
    let t := handCompleted e .pke a q
    restsAfter a p t ∧ t.run.status = .ended ∧ t.pnt.state = .pointed ∧ t.monitor = .cold ∧
      t.pnt.record = some { r with
        panOffset := best.point.pan - r.pan, tiltOffset := best.point.tilt - r.tilt, peak := some best.level, quality := some .rough } := by
  obtain ⟨_, _, kept⟩ := done.rest
  have run : q.run = p.run := by rw [kept]
  have pnt : q.pnt = p.pnt := by rw [kept]
  obtain ⟨_, _, _, best, ended, pointed, written⟩ := runCompleted_best (e := e) (p := q) (by rw [run]; exact status) (by rw [run]; exact list) (by rw [run]; exact found)
    (by rw [pnt]; exact record) (by rw [pnt]; exact peaking) plain
  have handed : handCompleted e .pke a q = _ := best
  dsimp only
  rw [handed]
  exact ⟨done.atRest rfl, ended, pointed, rfl, written⟩

/-! ### The parking move and the raise of a waiting AIM (R115, R127) -/

theorem completed_parks (done : Completed e a p q) (sound : arbiterSound p = true) {l : List Axis} (head : a ≠ .mast) (parking : p.msq.state = .parking l) :
    let t := handCompleted e .msq a q
    t.pnt.record = p.pnt.record ∧
      (removeAll l a ≠ [] → t.msq = { p.msq with state := .parking (removeAll l a) } ∧ t.pnt = p.pnt) ∧
      (removeAll l a = [] → headInsideStow e p = false → t.msq.state = .halted .headNotParked ∧ t.pnt = p.pnt) ∧
      (removeAll l a = [] → headInsideStow e p = true → mayMoveTo e p .mast 0 →
        t.msq.state = .lowering false ∧ movesTo .msq .lower e t .mast 0 ∧ t.pnt.state = .idle) := by
  obtain ⟨posts, axd, kept⟩ := done.rest
  have state : q.msq.state = .parking l := by rw [kept]; exact parking
  have pnt : q.pnt = p.pnt := by rw [kept]
  have inside : headInsideStow e { q with msq := { q.msq with state := .parking (removeAll l a) } } = headInsideStow e p := headInsideStow_inputs fun b _ => done.inputs b
  have parks := mastCompleted_parks (e := e) head state
  rw [inside] at parks
  have handed : handCompleted e .msq a q = mastCompleted e a q := rfl
  dsimp only
  rw [handed, parks]
  by_cases last : removeAll l a = []
  · rw [if_pos last]
    cases stow : headInsideStow e p
    · obtain ⟨_, _, _, halted⟩ := headNotParked_rest e { q with msq := { q.msq with state := .parking (removeAll l a) } }
      have state : (headNotParked e { q with msq := { q.msq with state := .parking (removeAll l a) } }).msq.state = .halted .headNotParked :=
        congrArg Mast.state (haltMast_msq e _ _ _ _)
      rw [if_neg (by simp)]
      exact ⟨by rw [halted, pnt], fun more => absurd last more, fun _ _ => ⟨state, by rw [halted, pnt]⟩, fun _ inside => Bool.noConfusion inside⟩
    · rw [if_pos rfl]
      refine ⟨(enterLowering_record e _).trans (by rw [pnt]), fun more => absurd last more, fun _ outside => Bool.noConfusion outside, fun _ _ may => ?_⟩
      obtain ⟨lowering, moves, idle, -⟩ := enterLowering_begun (e := e) (p := { q with msq := { q.msq with state := .parking (removeAll l a) } }) done.sound
        (done.allows sound (Ne.symm head) may)
      exact ⟨lowering, moves, idle⟩
  · rw [if_neg last]
    exact ⟨by rw [pnt], fun _ => ⟨by rw [kept], pnt⟩, fun none => absurd none last, fun none => absurd none last⟩

theorem completed_releases (done : Completed e .mast p q) (sound : arbiterSound p = true) {target : Int} {d : RaiseDirection} {r : PointingRecord}
    (raising : p.msq.state = .raising target d) (waits : p.pnt.state = .waitingMast) (record : p.pnt.record = some r) (wind : given p .windMoveOk = true)
    (level : r.flagPeak = true → (cfgOf e).source = .linked → given p .levelOk = true) (may : ∀ b, b ≠ .mast → mayMoveTo e p b (pointingTarget e p b)) :
    let t := handCompleted e .msq .mast q
    t.msq = { p.msq with state := .raised } ∧ t.pnt.state = .active (.slewing .move) ∧ t.pnt.slewList = [.pan, .tilt, .pol] ∧ t.pnt.record = some r ∧
      ∀ b, b ≠ .mast → movesTo .pnt .headMove e t b (pointingTarget e p b) := by
  obtain ⟨posts, axd, kept⟩ := done.rest
  have state : q.msq.state = .raising target d := by rw [kept]; exact raising
  obtain ⟨posts', released⟩ := setMast_releases (e := e) (p := q) (by rw [kept]; exact waits)
  generalize up : ({ q with posts := posts', msq := { q.msq with state := .raised } } : Plant) = u at released
  have blocks : u = { p with posts := posts', axd := q.axd, msq := { p.msq with state := .raised } } := by rw [← up, kept]
  have targets (b : Axis) : pointingTarget e u b = pointingTarget e p b := by rw [blocks]; rfl
  have needs : needsMet e u (.slewing .move) = true := by rw [blocks]; exact needsMet_slewing record wind level
  have mayU (b : Axis) (head : b ≠ .mast) : mayMoveTo e u b (pointingTarget e u b) := by
    rw [targets, ← up]
    exact done.allows sound head (may b head)
  obtain ⟨⟨_, _, slew⟩, moves⟩ := startSlew_begun (e := e) (p := u) (by rw [← up]; exact done.sound) (.active (.slewing .move)) mayU
  have handed : handCompleted e .msq .mast q = startSlew e (setPointing e (.active (.slewing .move)) u) := by
    rw [← enterSlewing_met needs, ← released, ← mastCompleted_raised state]
    rfl
  dsimp only
  rw [handed]
  refine ⟨?_, ?_, ?_, ?_, fun b head => targets b ▸ moves b head⟩ <;> rw [slew]
  · rw [blocks]
  · rfl
  · rw [blocks]; exact record

/-! ### The rows of a SWEEP (R143 to R145) -/

variable {y : Pattern}

/-- What the last Completed before a row's end leaves, once the handing is written. -/
theorem Completed.rowDone (done : Completed e a p q) {u : Plant} (axd : u.axd = q.axd) (aut : u.aut = q.aut) (pnt : u.pnt = q.pnt)
    (smp : u.smp = { q.smp with sweepHanding := if y.status = .running .sweep then false else q.smp.sweepHanding }) (pat : u.pat = some { y with moveList := [] }) :
    RowDone e a y p u := by
  obtain ⟨_, _, kept⟩ := done.rest
  exact ⟨⟨q, done, axd⟩, by rw [aut, kept], by rw [pnt, kept], by rw [smp, kept], pat⟩

theorem completed_sweeps (done : Completed e a p q) (came : Evolves e p q) (sound : arbiterSound p = true) (pat : p.pat = some y) (mode : y.mode = .sweep)
    (mem : a ∈ y.moveList) :
    let t := handCompleted e .pat a q
    (y.status = .running .toRowStart → removeAll y.moveList a ≠ [] → t.pat = some { y with moveList := removeAll y.moveList a } ∧ t.smp = p.smp ∧ t.pnt = p.pnt) ∧
      (y.status = .running .toRowStart → removeAll y.moveList a = [] → y.blocked = false → mayAfter e p a .pan (patternTarget y y.points).pan →
        t.smp = { p.smp with sweepHanding := true } ∧ t.pnt = p.pnt ∧ movesTo .pat .headMove e t .pan (patternTarget y y.points).pan ∧
        (axisOf t .pan).cap = some (sweepCap e) ∧
        t.pat = some { y with
          status := .running .sweep, moveList := [.pan], targets := { y.targets with pan := clampSoft e .pan (patternTarget y y.points).pan } }) ∧
      (y.status = .running .toRowStart → removeAll y.moveList a = [] → y.blocked = true → madePost .dwell p t ∧ goesOnFrom e a y p t) ∧
      (y.status = .running .sweep → removeAll y.moveList a = [] → goesOnFrom e a y p t) := by
  obtain ⟨posts, axd, kept⟩ := done.rest
  have patQ : q.pat = some y := by rw [kept]; exact pat
  have handed : handCompleted e .pat a q = patternCompleted e a q := rfl
  obtain ⟨n, fuel⟩ := patternFuel_eq e
  dsimp only
  rw [handed]
  refine ⟨fun start left => ?_, fun start last clear may => ?_, fun start last blocked => ?_, fun swept last => ?_⟩
  · rw [patternCompleted_left patQ start left, kept]
    exact ⟨rfl, rfl, rfl⟩
  · rw [patternCompleted_last patQ (.inl start) mem last, fuel]
    obtain ⟨smp, pnt, moves, cap, now⟩ := patternJobs_sweeps (e := e) (n := n + 2) (p := { q with pat := some { y with moveList := [] } }) rfl start clear
      (done.allowsAfter sound may)
    exact ⟨by rw [smp, kept], by rw [pnt, kept], moves, cap, now⟩
  · rw [patternCompleted_last patQ (.inl start) mem last, fuel, patternJobs_blockedRow (y := { y with moveList := [] }) rfl start blocked]
    refine ⟨post_made (came.inner _ _ _ _ _ _ _) (patternJobs_evolves _ _ .refl), RowDone.goesOn ?_ sound mode n⟩
    exact done.rowDone rfl rfl rfl (by rw [start]; rfl) rfl
  · rw [patternCompleted_last patQ (.inr swept) mem last, fuel, patternJobs_swept (y := { y with moveList := [] }) rfl swept]
    refine RowDone.goesOn ?_ sound mode n
    exact done.rowDone rfl rfl rfl (by rw [swept]; rfl) rfl

end

/-! ### The obligation -/

/-- A correction or a JOG that has settled: its axis at rest, its grant free or with the axis that stands first, nothing handed on. -/
theorem settled_alone {s : State} {a : Axis} (settling : (axisOf s.plant a).state = .settling) (still : (axisOf s.plant a).v = 0)
    (time : max 1 (axisCfg (envOf s) a).settleTime ≤ (axisOf s.plant a).settleTimer) (periods : 2 ≤ (axisOf s.plant a).settlePeriods)
    (alone : (axisOf s.plant a).correction = true ∨ (axisOf s.plant a).requester = some .jog) :
    exec (.settleTimeExpiry a) s = .next (withPlant (completeMove (envOf s) a s.plant) s) := by
  rw [settleExpired_due settling still time periods, takeSettled_alone alone]

/-- Settles O47: the move is completed once (`completeMove_completed`), and each owner's taking of the Completed is a lemma over any plant the completion leaves. -/
theorem aSettledMoveCompletes : Obligations.ASettledMoveCompletes := by
  unfold Obligations.ASettledMoveCompletes
  refine ⟨fun s a early => settleExpired_early early, fun s a settling still time periods alone sound budget => ?_,
    fun s a settling still plain time periods awake sound => ?_, fun s a settling still plain time periods own sound => ?_,
    fun s a y settling still plain time periods own sound pat mode mem => ?_⟩
  · have done := completeMove_completed (e := envOf s) sound settling
    obtain ⟨posts, axd, kept⟩ := done.rest
    obtain ⟨freed, noted, start, written⟩ := done.record
    refine ⟨_, settled_alone settling still time periods alone, by rw [kept]; rfl, done.others, completeMove_free sound settling,
      fun b first => completeMove_first sound settling (of_decide_eq_true budget) first, ?_⟩
    dsimp only [withPlant]
    rw [written]
    exact ⟨rfl, rfl, rfl, rfl, rfl, rfl, rfl, rfl, rfl⟩
  · obtain ⟨q, done, -, step⟩ := settled_handed settling still time periods plain sound
    refine ⟨?_, ?_, fun r own state list record => ⟨_, step _ own, completed_slewed done state list record⟩,
      fun r own state list record => ⟨_, step _ own, completed_returned done state list record⟩,
      fun y own pat status mem clear => ⟨_, step _ own, completed_point done pat status mem clear⟩,
      fun st own status stage mem clear => ⟨_, step _ own, completed_cross done status stage mem clear⟩,
      fun best r own status list found record peaking flag => ⟨_, step _ own, completed_best done status list found record peaking flag⟩⟩
    · rintro target d rfl own raising
      exact ⟨_, step _ own, completed_raised done raising awake⟩
    · rintro pending h rfl own lowering read
      exact ⟨_, step _ own, completed_lowered done lowering read awake⟩
  · obtain ⟨q, done, -, step⟩ := settled_handed settling still time periods plain sound
    refine ⟨fun l head parking => ⟨_, step _ own, completed_parks done sound head parking⟩, ?_⟩
    rintro target d r rfl raising waits record wind level may
    exact ⟨_, step _ own, completed_releases done sound raising waits record wind level may⟩
  · obtain ⟨q, done, came, step⟩ := settled_handed settling still time periods plain sound
    exact ⟨_, step _ own, rfl, completed_sweeps done came sound pat mode mem⟩

end Sys2Proof.Machine
end

