-- ==== Sys2Proof/Proofs/MastLower.lean ====
section
/-! PROOFS. A LOWER past the common checks (R112, R113): what refuses it, and the lowering or the parking that it begins (O50). -/

namespace Sys2Proof.Machine

section
variable {e : Env} {p q r : Plant} {st : MastState} {a b : Axis}

/-! ### What refuses a LOWER (R112) -/

theorem lowerRefusal_bringingDown (down : mastBringingDown p.msq.state = true) : lowerRefusal e p = some (refuse .state 0) := if_pos down

theorem lowerRefusal_mastHeld (up : mastBringingDown p.msq.state = false) (held : heldBeyondDriveAway p .mast = true) :
    lowerRefusal e p = some (refuseFault p) := by
  simp [lowerRefusal, up, held]

theorem lowerRefusal_inside (up : mastBringingDown p.msq.state = false) (free : heldBeyondDriveAway p .mast = false) (inside : headInsideStow e p = true) :
    lowerRefusal e p = none := by
  simp [lowerRefusal, up, free, inside]

theorem lowerRefusal_below (up : mastBringingDown p.msq.state = false) (free : heldBeyondDriveAway p .mast = false) (outside : headInsideStow e p = false)
    {h : Int} (position : (axisOf p .mast).position = some h) (below : h < (cfgOf e).cradleClear) : lowerRefusal e p = some (refuse .state 0) := by
  have position : p.axd.axes.mast.position = some h := position
  simp [lowerRefusal, up, free, outside, position, below]

/-- With the head outside stow and the mast not below the cradle, the head axes are judged next. -/
theorem lowerRefusal_head (up : mastBringingDown p.msq.state = false) (free : heldBeyondDriveAway p .mast = false) (outside : headInsideStow e p = false)
    (clear : ∀ h, (axisOf p .mast).position = some h → (cfgOf e).cradleClear ≤ h) :
    lowerRefusal e p = if headAxes.any (heldBeyondDriveAway p) then some (refuseFault p) else none := by
  cases position : p.axd.axes.mast.position with
  | none => simp [lowerRefusal, up, free, outside, position]
  | some h => simp [lowerRefusal, up, free, outside, position, clear h position]

theorem headFree_above (above : headFree e p = true) {h : Int} (position : (axisOf p .mast).position = some h) : (cfgOf e).cradleClear ≤ h := by
  have position : p.axd.axes.mast.position = some h := position
  simpa [headFree, position] using above

/-! ### The mast brought down: pointing halted, nothing else but the drives (R113, R131) -/

/-- `q` comes from `p` with the mast in `st` and pointing in IDLE with its record kept; AUT, the fault set and PVW are as they were. -/
structure BroughtDown (p : Plant) (st : MastState) (q : Plant) : Prop where
  aut : q.aut = p.aut
  flt : q.flt = p.flt
  pvw : q.pvw = p.pvw
  msq : q.msq = { p.msq with state := st }
  idle : q.pnt.state = .idle
  record : q.pnt.record = p.pnt.record

theorem BroughtDown.drives (h : BroughtDown p st q) (only : OnlyDrives q r) : BroughtDown p st r := by
  obtain ⟨_, _, rfl⟩ := only
  exact ⟨h.aut, h.flt, h.pvw, h.msq, h.idle, h.record⟩

/-- PARKING and LOWERING are the mast events that halt pointing. -/
theorem setMast_halts (e : Env) (p : Plant) (down : mastBringingDown st = true) :
    ∃ posts, setMast e st p = haltPointing e (.aborted .lower) { p with posts := posts, msq := { p.msq with state := st } } := by
  obtain ⟨posts, status⟩ := postStatusIf_rest (decide (mastKey p.msq.state ≠ mastKey st)) e { p with msq := { p.msq with state := st } }
  refine ⟨posts, ?_⟩
  unfold setMast
  dsimp only
  rw [status]
  cases st with
  | parking | lowering => rfl
  | stowed | raising | raised | halted => cases down

theorem setMast_broughtDown (e : Env) (p : Plant) (down : mastBringingDown st = true) : BroughtDown p st (setMast e st p) := by
  obtain ⟨posts, halts⟩ := setMast_halts e p down
  rw [halts]
  generalize entered : ({ p with posts := posts, msq := { p.msq with state := st } } : Plant) = r
  have head : HeadWork r (haltPointing e (.aborted .lower) r) := haltPointing_headWork (.refl r) _
  obtain ⟨idle, record⟩ := haltPointing_pnt e (.aborted .lower) r
  subst entered
  exact ⟨head.aut, head.flt, head.pvw, head.msq, idle, record⟩

theorem setMast_endsMoves (e : Env) (p : Plant) (down : mastBringingDown st = true) : EndsMoves e p (setMast e st p) := by
  obtain ⟨posts, halts⟩ := setMast_halts e p down
  rw [halts]
  exact .trans (q := { p with posts := posts, msq := { p.msq with state := st } }) (.same rfl) (endsMoves_haltPointing _ _)

/-- With pointing IDLE there is nothing to halt. -/
theorem setMast_idle (e : Env) (down : mastBringingDown st = true) (idle : p.pnt.state = .idle) : (setMast e st p).axd = p.axd := by
  obtain ⟨posts, halts⟩ := setMast_halts e p down
  rw [halts, haltPointing_idle (by exact idle)]

/-- An axis that may be sent somewhere may be sent there still once moves have ended. -/
theorem EndsMoves.mayMoveTo (h : EndsMoves e p q) {target : Int} (may : mayMoveTo e p a target) (out : a ∉ p.axd.waiting) (aut : q.aut = p.aut) :
    a ∉ q.axd.waiting ∧ Machine.mayMoveTo e q a target := by
  obtain ⟨-, rests, -, -⟩ := id may
  obtain ⟨same, still⟩ := h.still (a := a) (by rw [rests]; rfl) out
  exact ⟨still, mayMoveTo_kept may aut same (headFree_position (congrArg Prod.fst (h.inputs .mast)))⟩

/-! ### LOWERING at once (R116) -/

theorem requestLowering_accepted {x : Int} {c : Bool} (accepted : moveRequest e (mastMove .lower 0) p = (q, .accepted x c)) :
    requestLowering e p = setPendingMast false q := by
  simp [requestLowering, accepted]

/-- With MAST at rest the lowering begins: MAST on its way to 0, and with pointing IDLE no other axis touched. -/
theorem enterLowering_lowers (sound : arbiterSound p = true) (may : mayMoveTo e p .mast 0) :
    BroughtDown p (.lowering false) (enterLowering e p) ∧ movesTo .msq .lower e (enterLowering e p) .mast 0 ∧
      (p.pnt.state = .idle → ∀ b, b ≠ .mast → axisOf (enterLowering e p) b = axisOf p b) := by
  obtain ⟨-, rests, -, -⟩ := id may
  have down := setMast_broughtDown (st := .lowering false) e p rfl
  obtain ⟨-, mayBegin⟩ := (setMast_endsMoves (st := .lowering false) e p rfl).mayMoveTo may (not_waiting sound (by simp [rests])) down.aut
  have asked := moveRequest_idle (q := mastMove .lower 0) mayBegin
  have lowers : enterLowering e p = setPendingMast false _ := requestLowering_accepted asked
  obtain ⟨-, moves, -⟩ := enterLowering_begun sound may
  refine ⟨?_, moves, fun idle b other => ?_⟩
  · rw [lowers]
    obtain ⟨aut, flt, pvw, msq, idle, record⟩ := down.drives (joinWaiting_onlyDrives e _ _ _)
    exact ⟨aut, flt, pvw, congrArg (fun m : Mast => { m with state := .lowering false }) msq, idle, record⟩
  · rw [lowers]
    calc axisOf (joinWaiting e .mast _ (setMast e (.lowering false) p)) b
        = axisOf (setMast e (.lowering false) p) b := (joinWaiting_mast e _ _).2 b other
      _ = axisOf p b := axisOf_axd (setMast_idle e rfl idle) b

/-! ### Parking first (R113, R114) -/

theorem parkingRequests_accepted {l : List Axis} {x : Int} {c : Bool} (accepted : moveRequest e (parkingMove e a) p = (q, .accepted x c)) :
    parkingRequests e (a :: l) p = parkingRequests e l q := by
  simp [parkingRequests, accepted]

/-- MSQ's requests on head axes none of which waits, each accepted. -/
theorem parkingRequests_moves (l : List Axis) : ∀ {p : Plant}, l.Nodup →
    (∀ a ∈ l, a ≠ .mast ∧ a ∉ p.axd.waiting ∧ mayMoveTo e p a (stowPosition e a)) →
    OnlyDrives p (parkingRequests e l p) ∧ (∀ b, b ∉ l → grantedOrSame (axisOf p b) (axisOf (parkingRequests e l p) b)) ∧
      ∀ a ∈ l, movesTo .msq .lower e (parkingRequests e l p) a (stowPosition e a) := by
  induction l with
  | nil => exact fun _ _ => ⟨.refl _, fun _ _ => .inl rfl, by simp⟩
  | cons a l ih =>
    intro p once asks
    obtain ⟨out, once⟩ := List.nodup_cons.1 once
    obtain ⟨head, -, may⟩ := asks a (by simp)
    obtain ⟨⟨x, c, answer⟩, moves, -, only, others⟩ := moveRequest_moves (q := parkingMove e a) may
    have waits (b : Axis) := moveRequest_waiting (q := parkingMove e a) (b := b) may
    have step : parkingRequests e (a :: l) p = parkingRequests e l (moveRequest e (parkingMove e a) p).1 := parkingRequests_accepted (Prod.ext rfl answer)
    generalize (moveRequest e (parkingMove e a) p).1 = q at moves only others waits step
    rw [step]
    have later : ∀ b ∈ l, b ≠ .mast ∧ b ∉ q.axd.waiting ∧ mayMoveTo e q b (stowPosition e b) := fun b mem => by
      obtain ⟨headB, outB, mayB⟩ := asks b (by simp [mem])
      have other : b ≠ a := fun same => out (same ▸ mem)
      have position := grantedOrSame_position (others .mast (Ne.symm head)).1
      exact ⟨headB, fun m => (waits b m).elim other outB, mayMoveTo_kept mayB (OnlyDrives.aut only) ((others b other).2 outB) (headFree_position position)⟩
    obtain ⟨onlyLater, granted, movesLater⟩ := ih once later
    refine ⟨OnlyDrives.trans only onlyLater, fun b notMem => ?_, fun b mem => ?_⟩
    · obtain ⟨other, notLater⟩ := not_or.1 (mt List.mem_cons.2 notMem)
      exact grantedOrSame_trans (others b other).1 (granted b notLater)
    · rcases List.mem_cons.1 mem with rfl | mem
      · exact movesTo_granted moves (granted b out)
      · exact movesLater b mem

/-- PARKING entered, up to its requests: pointing halted, JOGs of the head and a raise in flight ended. -/
theorem enterParking_begun (e : Env) (p : Plant) : ∃ q,
    enterParking e p = parkingRequests e headAxes q ∧ EndsMoves e p q ∧ BroughtDown p (.parking headAxes) q := by
  have ends := setMast_endsMoves (st := .parking headAxes) e p rfl
  have down := setMast_broughtDown (st := .parking headAxes) e p rfl
  have jogs : EndsMoves e p (endMoves e (fun r => carriesMove r .jog) headAxes (setMast e (.parking headAxes) p)) := .ended ends _ _ rfl
  have downJogs := down.drives (endMoves_onlyDrives e (fun r => carriesMove r .jog) headAxes _)
  unfold enterParking
  refine ⟨_, rfl, ?_⟩
  generalize endMoves e (fun r => carriesMove r .jog) headAxes (setMast e (.parking headAxes) p) = r at jogs downJogs ⊢
  split_ifs
  · exact ⟨jogs.trans (endsMoves_cancelMoves .msq [.mast] r), downJogs.drives (endMoves_onlyDrives e (fun r => carriesMove r .msq) [.mast] r)⟩
  · exact ⟨jogs, downJogs⟩

/-- With the head axes at rest parking begins: each is on its way to stow. -/
theorem enterParking_parks (sound : arbiterSound p = true) (may : ∀ a, a ≠ .mast → mayMoveTo e p a (stowPosition e a)) :
    BroughtDown p (.parking headAxes) (enterParking e p) ∧ ∀ a, a ≠ .mast → movesTo .msq .lower e (enterParking e p) a (stowPosition e a) := by
  obtain ⟨q, begun, ends, down⟩ := enterParking_begun e p
  have asks : ∀ a ∈ headAxes, a ≠ .mast ∧ a ∉ q.axd.waiting ∧ mayMoveTo e q a (stowPosition e a) := fun a mem => by
    have head := mem_headAxes.1 mem
    obtain ⟨-, rests, -, -⟩ := id (may a head)
    exact ⟨head, ends.mayMoveTo (may a head) (not_waiting sound (by simp [rests])) down.aut⟩
  obtain ⟨only, -, moves⟩ := parkingRequests_moves headAxes (by decide) asks
  rw [begun]
  exact ⟨down.drives only, fun a head => moves a (mem_headAxes.2 head)⟩

/-! ### The LOWER accepted (R113) -/

/-- `p` without the stranded mark. -/
def unstranded (posts : PostQueue) (p : Plant) : Plant := { p with posts := posts, msq := { p.msq with stranded := false } }

theorem beginLower_eq (e : Env) (p : Plant) : ∃ posts, beginLower e p =
    if headInsideStow e p then enterLowering e (unstranded posts p) else enterParking e (unstranded posts p) := by
  obtain ⟨posts, stranded⟩ := setStranded_rest e false p
  refine ⟨posts, ?_⟩
  unfold beginLower
  rw [stranded]
  rfl

theorem ownLower_stowed (x : ArrivalEntry) (stowed : p.msq.state = .stowed) : ownLower e x p = (p, accepted 0) := if_pos stowed

theorem ownLower_refused {x : ArrivalEntry} {v : Verdict} (notStowed : p.msq.state ≠ .stowed) (refusal : lowerRefusal e p = some v) :
    ownLower e x p = (p, v) := by
  rw [ownLower, if_neg notStowed, refusal]

theorem ownLower_begins {x : ArrivalEntry} (notStowed : p.msq.state ≠ .stowed) (refusal : lowerRefusal e p = none) :
    ownLower e x p = (beginLower e p, accepted 0) := by
  rw [ownLower, if_neg notStowed, refusal]

end

section
variable {s : State} {x : ArrivalEntry} {q : Plant} {v : Verdict}

theorem exec_lower_refused (head : headCommand (some .lower) s = some x) (may : mayMove x.source s = true)
    (notStowed : s.plant.msq.state ≠ .stowed) (refusal : lowerRefusal (envOf s) s.plant = some v) (refused : v.outcome = .refused) :
    exec .lower s = .next (replied x v s.plant s) :=
  congrArg _ (takeCommand_judged head ((judge_owner ownLower (mayMove_passes may rfl)).trans (ownLower_refused notStowed refusal)) (.inr refused))

theorem exec_lower_accepted (head : headCommand (some .lower) s = some x) (may : mayMove x.source s = true)
    (own : ownLower (envOf s) x s.plant = (q, accepted 0)) : exec .lower s = .next (replied x (accepted 0) (setHolder (some x.source) q) s) :=
  congrArg _ (takeCommand_motion head ((judge_owner ownLower (mayMove_passes may rfl)).trans own) rfl (by simp [accepted]))

end

/-- Settles O50: the refusals of R112 in turn, then the lowering or the parking on the plant with the stranded mark cleared. -/
theorem aLowerGoesOnAccordingToTheHead : Obligations.ALowerGoesOnAccordingToTheHead := by
  intro s x head may sound p e below mastMay asked handedOn
  obtain ⟨-, latch, -, -⟩ := mayMove_iff.1 may
  have stow (a : Axis) : stowPosition e a = if a = .tilt then s.setup.cfg.stowTilt else 0 := by cases a <;> rfl
  have onItsWay {q : Plant} {a : Axis} {target : Int} (moves : movesTo .msq .lower e q a target) :
      asked (setHolder (some x.source) q) a (clampSoft e a target) := by
    obtain ⟨state, requester, cls, goal, -⟩ := moves
    have same : axisOf (setHolder (some x.source) q) a = axisOf q a := axisOf_congr rfl a
    simp only [asked, same]
    exact ⟨state, requester, cls, goal⟩
  have handed {posts : PostQueue} {st : MastState} {q : Plant} (down : BroughtDown (unstranded posts p) st q) :
      handedOn (setHolder (some x.source) q) ∧ q.msq.state = st :=
    ⟨⟨congrArg (fun a : Authority => { a with holder := some x.source }) down.aut, down.flt, down.pvw,
        congrArg Mast.stranded down.msq, down.idle, down.record⟩,
      congrArg Mast.state down.msq⟩
  have begins (can : mastMay) (refusal : lowerRefusal e p = none) :
      exec .lower s = .next (replied x (accepted 0) (setHolder (some x.source) (beginLower e p)) s) :=
    exec_lower_accepted head may (ownLower_begins can.1 refusal)
  obtain ⟨posts, begun⟩ := beginLower_eq e p
  refine ⟨fun stowed => exec_lower_accepted head may (ownLower_stowed x stowed),
    fun down => exec_lower_refused head may (fun stowed => by rw [stowed] at down; cases down) (lowerRefusal_bringingDown down) rfl,
    fun notStowed up held => exec_lower_refused head may notStowed (lowerRefusal_mastHeld up held) rfl,
    fun ⟨notStowed, up, free⟩ outside ⟨h, position, low⟩ => exec_lower_refused head may notStowed (lowerRefusal_below up free outside position low) rfl,
    fun ⟨notStowed, up, free⟩ outside notBelow held => ?_, fun can inside rests unblocked => ?_, fun can outside above heads unblocked => ?_⟩
  · have judged := lowerRefusal_head up free outside fun h position => Int.not_lt.1 fun low => notBelow ⟨h, position, low⟩
    rw [if_pos (headAxes_any.2 held)] at judged
    exact exec_lower_refused head may notStowed judged rfl
  · obtain ⟨-, up, free⟩ := id can
    rw [if_pos inside] at begun
    obtain ⟨down, moves, others⟩ := enterLowering_lowers (e := e) (p := unstranded posts p) sound ⟨latch, rests, unblocked, fun other => absurd rfl other⟩
    obtain ⟨hands, lowering⟩ := handed down
    rw [← begun] at hands lowering moves others
    exact ⟨_, begins can (lowerRefusal_inside up free inside), hands, lowering, onItsWay moves,
      fun idle b other => (axisOf_congr rfl b).trans (others idle b other)⟩
  · obtain ⟨-, up, free⟩ := id can
    have judged := lowerRefusal_head up free outside fun h => headFree_above above
    rw [headAxes_none fun a other => (heads a other).1, if_neg Bool.false_ne_true] at judged
    rw [if_neg (Bool.eq_false_iff.1 outside)] at begun
    obtain ⟨down, moves⟩ := enterParking_parks (e := e) (p := unstranded posts p) sound fun a other =>
      ⟨latch, (heads a other).2, stow a ▸ unblocked a other, fun _ => above⟩
    obtain ⟨hands, parking⟩ := handed down
    rw [← begun] at hands parking moves
    exact ⟨_, begins can judged, hands, parking, fun a other => stow a ▸ onItsWay (moves a other)⟩

end Sys2Proof.Machine
end

