-- ==== Sys2Proof/Proofs/PointSine.lean ====
section
/-! PROOFS. The integer sine (R123; O51): the product under its division, and the division to the nearest with halves up. -/

namespace Sys2Proof.Machine

/-- Twice the quotient lies within one of twice the ratio, the upper end out: nearest, halves up. -/
theorem roundUp_nearest (n : Int) {d : Int} (pos : 0 < d) : (2 * roundUp n d - 1) * d ≤ 2 * n ∧ 2 * n < (2 * roundUp n d + 1) * d := by
  have divided : 2 * d * roundUp n d + (2 * n + d) % (2 * d) = 2 * n + d := Int.mul_ediv_add_emod _ _
  have low := Int.emod_nonneg (2 * n + d) (b := 2 * d) (by omega)
  have high := Int.emod_lt_of_pos (2 * n + d) (b := 2 * d) (by omega)
  constructor <;> linarith

/-- P of R123 lies within 0..81,000,000; the greatest is 9000 × 9000. -/
theorem sineProduct_bounds {x : Int} (low : 0 ≤ x) (high : x ≤ 18000) : 0 ≤ x * (18000 - x) ∧ x * (18000 - x) ≤ 81000000 :=
  ⟨mul_nonneg low (by omega), by linarith [sq_nonneg (x - 9000)]⟩

theorem sine_half {x : Nat} (high : x ≤ 18000) : sine x = roundUp (16384 * ((x : Int) * (18000 - x))) (405000000 - (x : Int) * (18000 - x)) := by
  have product : ((x * (18000 - x) : Nat) : Int) = (x : Int) * (18000 - x) := by push_cast [high]; rfl
  rw [sine, if_pos high, sineHalf, product]

/-- Settles O51: the first half by `roundUp_nearest`, the second half by the sign, and the values and the cosine as they are computed. -/
theorem theIntegerSineFollowsItsFormula : Obligations.TheIntegerSineFollowsItsFormula := by
  refine ⟨fun x high => ?_, fun x low high => ?_, by decide, by decide, by decide, by decide, fun x _ => rfl⟩
  · intro p d
    obtain ⟨nonneg, bound⟩ : 0 ≤ p ∧ p ≤ 81000000 := sineProduct_bounds (by omega) (by omega)
    rw [sine_half high]
    exact ⟨bound, by omega, by omega, roundUp_nearest (16384 * p) (d := d) (by omega)⟩
  · rw [sine, if_neg (by omega), sine, if_pos (by omega)]

end Sys2Proof.Machine
end

