-- ==== Sys2Proof/Proofs/PointPeak.lean ====
section
/-! PROOFS. PEAKING entered from the pointing position (R150, R151), and the PEAK that enters it, judged in the order of R132 (O53). -/

namespace Sys2Proof.Machine

section
variable {e : Env} {p q : Plant} {x : HeadPoint} {delta : Nat}

/-! ### PEAKING entered (R150, R151) -/

/-- PEAKING entered with its needs given and PAN and TILT at rest, said whole: the run on its way to its centre, the monitor cold, the round
count cleared. -/
theorem enterPeaking_moving (needs : activityMay e p) (may : mayMoveToPoint e p x) :
    moveToPoint .pke e (enterPeaking e x delta p) x ∧ ∃ posts axd smp, enterPeaking e x delta p = { p with
      posts := posts, axd := axd, smp := smp, run := movingRun e x delta, monitor := .cold,
      pnt := { p.pnt with state := .active .peaking, record := p.pnt.record.map fun r => { r with roundCount := 0 } } } := by
  obtain ⟨-, begun, -⟩ := enterPeaking_begun (delta := delta) may
  obtain ⟨-, -, -, -, -, -, -, -, moves⟩ := begun needs
  obtain ⟨_, set⟩ := setPointing_rest e (.active .peaking) p
  have mayS := mayMoveToPoint_setPointing (.active .peaking) may
  obtain ⟨listed, -⟩ := requestPoint_moves (who := .pke) (p := runOpened x delta (setPointing e (.active .peaking) p)) mayS
  obtain ⟨posts, axd, -, gone, -⟩ := startRun_moving (delta := delta) (cancelMoves_rest .pke mayS) listed
  refine ⟨moves, posts, axd, (cancelDwell .pke (setPointing e (.active .peaking) p)).smp, (enterPeaking_may needs).trans (gone.trans ?_)⟩
  rw [set]
  rfl

/-! ### The pointing position (R121) -/

/-- PAN and TILT at rest, with no switch toward the pointing position, may move there. -/
theorem mayMoveToPoint_pointing (sound : arbiterSound p = true) (clear : p.aut.latch = none) (free : headFree e p = true)
    (rests : ∀ a ∈ [Axis.pan, .tilt], (axisOf p a).state = .idle) (unblocked : ∀ a ∈ [Axis.pan, .tilt], switchBlocks (axisOf p a) (pointingTarget e p a) = false) :
    mayMoveToPoint e p (pointingPoint e p) := by
  have may (a : Axis) (mem : a ∈ [Axis.pan, .tilt]) (head : a ≠ .mast) : mayMoveTo e p a (pointingTarget e p a) :=
    ⟨clear, rests a mem, by rw [clampSoft_pointingTarget head]; exact unblocked a mem, fun _ => free⟩
  exact ⟨sound, may .pan (by simp) (by simp), may .tilt (by simp) (by simp)⟩

/-- On the way to the pointing position of `p` each axis has that target. -/
theorem moveToPoint_pointing (moves : moveToPoint .pke e q (pointingPoint e p)) : ∀ a ∈ [Axis.pan, .tilt],
    ((axisOf q a).state = .waiting ∨ (axisOf q a).state = .moving) ∧ (axisOf q a).requester = some .pke ∧ (axisOf q a).cls = some .headMove ∧
      (axisOf q a).target = some (pointingTarget e p a) := by
  have axis (a : Axis) (head : a ≠ .mast) (move : movesTo .pke .headMove e q a (pointingTarget e p a)) :
      ((axisOf q a).state = .waiting ∨ (axisOf q a).state = .moving) ∧ (axisOf q a).requester = some .pke ∧ (axisOf q a).cls = some .headMove ∧
        (axisOf q a).target = some (pointingTarget e p a) := by
    obtain ⟨state, requester, cls, target, -⟩ := move
    exact ⟨state, requester, cls, target.trans (congrArg some (clampSoft_pointingTarget head e p))⟩
  obtain ⟨pan, tilt⟩ := moves
  intro a mem
  simp only [List.mem_cons, List.not_mem_nil, or_false] at mem
  rcases mem with rfl | rfl
  · exact axis .pan (by simp) pan
  · exact axis .tilt (by simp) tilt

/-! ### The refusals in order (R132 steps 1 to 5) -/

theorem peakable_iff {st : PointState} : peakable st = true ↔ st = .pointed ∨ st = .active .tracking ∨ st = .lost := by
  cases st with
  | active y => cases y <;> simp [peakable]
  | idle | waitingMast | pointed | held | lost => simp [peakable]

theorem peakRefusal_unready (unready : peakable p.pnt.state = false) : peakRefusal e p = some (refuse .state 0) := if_pos unready

theorem peakRefusal_permissive (ready : peakable p.pnt.state = true) {y : Permissive} (missing : lowestMissing p (peakNeeds e) = some y) :
    peakRefusal e p = some (refusePermissive y) := by
  rw [peakRefusal, if_neg (by simp [ready]), missing]

/-- With the permissives given the head, the faults and a JOG are judged in turn. -/
theorem peakRefusal_permitted (ready : peakable p.pnt.state = true) (permitted : ∀ z ∈ peakNeeds e, given p z = true) : peakRefusal e p =
    if headFree e p = false then some (refuse .state 0)
    else if headAxes.any (isHeld p) then some (refuseFault p) else if headJogged p then some (refuse .state 0) else none := by
  have none : lowestMissing p (peakNeeds e) = Option.none := List.find?_eq_none.2 fun z m => by simp [permitted z m]
  rw [peakRefusal, if_neg (by simp [ready]), none]

/-- The needs of a PEAK are those of PEAKING and BRAKE_SET (R130, R132 step 2). -/
theorem activityMay_of_peakNeeds (permitted : ∀ z ∈ peakNeeds e, given p z = true) : activityMay e p := by
  unfold peakNeeds at permitted
  refine ⟨permitted .windMoveOk ?_, fun source => permitted .levelOk ?_⟩
  · split <;> simp
  · simp [linked, source]

/-! ### The command judged -/

theorem ownPeak_refused {y : ArrivalEntry} {v : Verdict} (refusal : peakRefusal e p = some v) : ownPeak e y p = (p, v) := by
  rw [ownPeak, refusal]

/-- The plant with the PEAK flag set (R132). -/
def peakFlagged (p : Plant) : Plant := withRecord (fun r => { r with flagPeak := true }) p

/-- The flag is no part of the pointing position. -/
theorem pointingPoint_peakFlagged (e : Env) (p : Plant) : pointingPoint e (peakFlagged p) = pointingPoint e p := by
  have record : (peakFlagged p).pnt.record = p.pnt.record.map fun r => { r with flagPeak := true } := rfl
  unfold pointingPoint pointingTarget
  rw [record]
  cases p.pnt.record <;> rfl

theorem ownPeak_begins {y : ArrivalEntry} (passes : peakRefusal e p = none) :
    ownPeak e y p = (enterPeaking e (pointingPoint e p) (cfgOf e).delta0 (peakFlagged p), accepted 0) := by
  rw [ownPeak, passes, ← pointingPoint_peakFlagged]
  rfl

end

section
variable {s : State} {x : ArrivalEntry} {v : Verdict}

theorem exec_peak_refused (head : headCommand (some .peak) s = some x) (may : mayMove x.source s = true) (refusal : peakRefusal (envOf s) s.plant = some v)
    (refused : v.outcome = .refused) : exec .peak s = .next (replied x v s.plant s) :=
  congrArg _ (takeCommand_judged head ((judge_owner ownPeak (mayMove_passes may rfl)).trans (ownPeak_refused refusal)) (.inr refused))

theorem exec_peak_begins (head : headCommand (some .peak) s = some x) (may : mayMove x.source s = true) (passes : peakRefusal (envOf s) s.plant = none) :
    exec .peak s = .next (replied x (accepted 0)
      (setHolder (some x.source) (enterPeaking (envOf s) (pointingPoint (envOf s) s.plant) s.setup.cfg.delta0 (peakFlagged s.plant))) s) :=
  congrArg _ (takeCommand_motion head ((judge_owner ownPeak (mayMove_passes may rfl)).trans (ownPeak_begins passes)) rfl ReplyOutcome.noConfusion)

end

/-- Settles O53: the refusals of R132 in turn, then PEAKING entered from the pointing position on the plant with its flag set. -/
theorem aPeakBeginsARun : Obligations.APeakBeginsARun := by
  intro s x head may sound p e ready needs permitted free
  obtain ⟨-, clear, -, -⟩ := mayMove_iff.1 may
  have sameNeeds : peakNeeds e = needs := by simp only [peakNeeds, linked, decide_eq_true_eq]; rfl
  have judged (isReady : ready) (all : permitted) := peakRefusal_permitted (e := e) (p := p) (peakable_iff.2 isReady) (sameNeeds ▸ all)
  have refuses {v : Verdict} (refusal : peakRefusal e p = some v) (refused : v.outcome = .refused) : exec .peak s = .next (replied x v p s) :=
    exec_peak_refused head may refusal refused
  refine ⟨fun unready => refuses (peakRefusal_unready (Bool.eq_false_iff.2 fun h => unready (peakable_iff.1 h))) rfl,
    fun before y after isReady shape lower missing =>
      refuses (peakRefusal_permissive (peakable_iff.2 isReady) (lowestMissing_eq (sameNeeds.trans shape) lower missing)) rfl,
    fun isReady all blocked => refuses ((judged isReady all).trans (if_pos blocked)) rfl, fun isReady all headOpen held => ?_, fun isReady all headOpen unheld jogged => ?_,
    fun isReady all headOpen unheld still rests unblocked => ?_⟩
  · have any : headAxes.any (isHeld p) = true := headAxes_any.2 (by simpa [free] using held)
    exact refuses ((judged isReady all).trans ((if_neg (by simp [headOpen])).trans (if_pos any))) rfl
  · have refusal := judged isReady all
    rw [if_neg (by simp [headOpen]), headAxes_none unheld, if_neg Bool.false_ne_true, if_pos jogged] at refusal
    exact refuses refusal rfl
  · have passes := judged isReady all
    rw [if_neg (by simp [headOpen]), headAxes_none unheld, if_neg Bool.false_ne_true, still, if_neg Bool.false_ne_true] at passes
    have given : activityMay e p := activityMay_of_peakNeeds (by rw [sameNeeds]; exact all)
    have mayGo : mayMoveToPoint e p (pointingPoint e p) := mayMoveToPoint_pointing sound clear headOpen rests unblocked
    obtain ⟨moves, posts, axd, smp, entered⟩ := enterPeaking_moving (delta := s.setup.cfg.delta0) (p := peakFlagged p) given mayGo
    have begun : exec .peak s = .next (replied x (accepted 0)
        (setHolder (some x.source) (enterPeaking e (pointingPoint e p) s.setup.cfg.delta0 (peakFlagged p))) s) := exec_peak_begins head may passes
    have onTheWay := moveToPoint_pointing moves
    rw [entered] at begun onTheWay
    refine ⟨_, begun, rfl, ?_, rfl, rfl, rfl, rfl, rfl, rfl, rfl, rfl, rfl, rfl, rfl, rfl, onTheWay⟩
    exact Option.map_map _ _ p.pnt.record

end Sys2Proof.Machine
end

