-- ==== Sys2Proof/Proofs/PointTrack.lean ====
section
/-! PROOFS. The track monitor: a sample judged in either source (R160, R161, R163; O59), and its fade and loss timers (R162; O60). -/

namespace Sys2Proof.Machine

section
variable {e : Env} {p : Plant} {sample : Int}

/-! ### A track start (R160) -/

/-- TRACKING entered with its need given: PNT's state and the monitor are written, and nothing else but posts. -/
theorem enterTracking_given (level : linked e = true → given p .levelOk = true) : ∃ posts, enterTracking e p = { p with
    posts := posts, pnt := { p.pnt with state := .active .tracking },
    monitor := { state := .watching, fadeStart := none, lossStart := none, periodStart := if linked e then none else some e.clock,
                 lastSequence := if linked e then heldSequence p else none } } := by
  obtain ⟨posts, set⟩ := setPointing_rest e (.active .tracking) p
  have needs : needsMet e p .tracking = true := by
    by_cases on : linked e = true
    · simp [needsMet, level on]
    · simp [needsMet, on]
  refine ⟨posts, (if_pos needs).trans ?_⟩
  rw [set]
  rfl

/-- With LEVEL_OK missing in LINKED source it is HELD, the monitor ended (R130). -/
theorem enterTracking_missing (source : linked e = true) (missing : given p .levelOk = false) : ∃ posts, enterTracking e p = { p with
    posts := posts, pnt := { p.pnt with state := .held .tracking (holdCauseNow p) }, monitor := .cold } := by
  obtain ⟨posts, set⟩ := setPointing_rest e (.held .tracking (holdCauseNow p)) p
  refine ⟨posts, (if_neg (by simp [needsMet, source, missing])).trans ?_⟩
  rw [set]
  rfl

/-! ### A sample (R161 to R163) -/

/-- The peak of a record, −1500 without one (R161, R162). -/
def recordPeak (record : Option PointingRecord) : Int := (record.bind (·.peak)).getD (-1500)

theorem peakOf_eq (p : Plant) : peakOf p = recordPeak p.pnt.record := by
  unfold peakOf recordPeak
  cases p.pnt.record <;> rfl

/-- The record after a sample: the peak raised by one more than 10 above it (R161). -/
def ratchetRecord (sample : Int) (p : Plant) : Option PointingRecord :=
  if recordPeak p.pnt.record + 10 < sample then p.pnt.record.map fun r => { r with peak := some sample } else p.pnt.record

/-- The posts after a sample: a raised peak is reported (R161). -/
def ratchetPosts (e : Env) (sample : Int) (p : Plant) : PostQueue :=
  if recordPeak p.pnt.record + 10 < sample then
    postTo .dwell (postTag e .dwell) (dwellPayload .trackPeak (positionOrZero p .pan) (positionOrZero p .tilt) sample) p.posts
  else p.posts

/-- WATCHING: the peak, and the two timers by the lines under it (R161, R162). -/
theorem trackSample_watching (watching : p.monitor.state = .watching) : trackSample e sample p = { p with
    posts := ratchetPosts e sample p, pnt := { p.pnt with record := ratchetRecord sample p },
    monitor := { p.monitor with
      fadeStart := if sample < recordPeak (ratchetRecord sample p) - ((cfgOf e).fadeDrop : Int) then some (p.monitor.fadeStart.getD e.clock) else none,
      lossStart := if sample < (cfgOf e).floor then some (p.monitor.lossStart.getD e.clock) else none } } := by
  have ratchet : (if peakOf p + 10 < sample then postDwellHere e .trackPeak sample (withRecord (fun r => { r with peak := some sample }) p) else p) =
      { p with posts := ratchetPosts e sample p, pnt := { p.pnt with record := ratchetRecord sample p } } := by
    unfold ratchetPosts ratchetRecord
    rw [peakOf_eq]
    split <;> rfl
  unfold trackSample
  rw [watching]
  dsimp only
  simp only [ratchet, stepTimer, decide_eq_true_eq]
  rw [peakOf_eq, fadeLine]

/-- RECOVERY with pointing LOST: a sample no lower than the fade line starts tracking anew (R163). -/
theorem trackSample_recovers (recovery : p.monitor.state = .recovery) (lost : p.pnt.state = .lost)
    (high : recordPeak p.pnt.record - ((cfgOf e).fadeDrop : Int) ≤ sample) : trackSample e sample p = enterTracking e p := by
  unfold trackSample
  rw [recovery]
  exact if_pos ⟨by rw [peakOf_eq]; exact high, lost⟩

/-- A lower one changes nothing. -/
theorem trackSample_low (recovery : p.monitor.state = .recovery) (low : sample < recordPeak p.pnt.record - ((cfgOf e).fadeDrop : Int)) :
    trackSample e sample p = p := by
  unfold trackSample
  rw [recovery]
  refine if_neg fun h => ?_
  rw [peakOf_eq] at h
  exact Int.not_le.2 low h.1

/-! ### The sources of samples (R160) -/

theorem takeSamplePeriod_none (none : pilotMean p.smp (cfgOf e).peakN = none) :
    takeSamplePeriod e p = setMonitor { p.monitor with periodStart := some e.clock } p := by
  have same : pilotMean (setMonitor { p.monitor with periodStart := some e.clock } p).smp (cfgOf e).peakN = Option.none := none
  simp only [takeSamplePeriod, same]

theorem takeSamplePeriod_some (mean : pilotMean p.smp (cfgOf e).peakN = some sample) :
    takeSamplePeriod e p = trackSample e sample (setMonitor { p.monitor with periodStart := some e.clock } p) := by
  have same : pilotMean (setMonitor { p.monitor with periodStart := some e.clock } p).smp (cfgOf e).peakN = some sample := mean
  simp only [takeSamplePeriod, same]

/-- A level report with a new sequence, no measurement under way, is a sample. -/
theorem handReport_track {r : LevelReport} (other : p.pnt.state ≠ .active (.slewing .measure)) (silent : patternListens p = false) (still : runListens p = false)
    (on : p.monitor.state ≠ .off) (new : p.monitor.lastSequence ≠ some r.sequence) :
    handReport e r p = trackSample e r.level { p with monitor := { p.monitor with lastSequence := some r.sequence } } := by
  rw [handReport, if_neg other, if_neg (by simp [silent]), if_neg (by simp [still]), if_neg on, trackReport]
  exact if_neg new

end

section
variable {s : State} {start : Clock}

theorem exec_trackSamplePeriod (running : s.plant.monitor.periodStart = some start) (source : s.setup.cfg.source = .localSource)
    (on : s.plant.monitor.state ≠ .off) : exec .trackSamplePeriodExpiry s =
      if 100 ≤ (s.clock - start).toNat then .next (withPlant (takeSamplePeriod (envOf s) s.plant) s) else .next s := by
  have unlinked : linked (envOf s) = false := decide_eq_false (by rw [cfgOf, envOf, source]; exact LevelSource.noConfusion)
  simp only [exec, execTrackSamplePeriodExpiry, running, on, unlinked, not_false_eq_true, ne_eq, true_and, due_iff]

/-- A LEVEL notice with LEVEL_OK given already: the entry stored and the report handed on (R29, R44). -/
theorem exec_level_linked {x : ArrivalEntry} {rest : List ArrivalEntry} (arrivals : s.arrivals = x :: rest) (kind : x.kind = .role .level)
    (source : s.setup.cfg.source = .linked) (given : s.plant.pvw.permissives.levelOk = true) : exec .level s = .next { s with
      arrivals := rest,
      plant := handReport (envOf s) { level := (levelOf x.payload).level, sequence := (levelOf x.payload).sequence, stamp := x.stamp } (levelStored x s.plant) } := by
  have same : evaluate (envOf s) .level false (levelStored x s.plant) = levelStored x s.plant := evaluate_same false (by
    change ({ s.plant.pvw.permissives with levelOk := true } : PermissiveSet) = s.plant.pvw.permissives
    rw [← given])
  rw [exec_level arrivals kind, takeLevel_linked (e := envOf s) (decide_eq_true source), same]

end

/-- Settles O59: the sample of either source judged by `trackSample` in WATCHING and in RECOVERY. -/
theorem aTrackingSampleIsJudged : Obligations.ATrackingSampleIsJudged := by
  refine ⟨fun s start => ?_, fun s x rest arrivals kind source given other silent still => ?_⟩
  · intro p m restarted peak drop running source on
    have next := exec_trackSamplePeriod running source on
    have unlinked : linked (envOf s) = false := decide_eq_false (by rw [cfgOf, envOf, source]; exact LevelSource.noConfusion)
    refine ⟨fun early => next.trans (if_neg (Nat.not_le.2 early)), fun late => ⟨fun none => ?_, fun sample mean => ?_⟩⟩
    · rw [next, if_pos late, takeSamplePeriod_none (e := envOf s) none]
      rfl
    · have judged : exec .trackSamplePeriodExpiry s = .next (withPlant (trackSample (envOf s) sample (setMonitor restarted p)) s) := by
        rw [next, if_pos late, takeSamplePeriod_some (e := envOf s) mean]
        rfl
      refine ⟨fun watching => ?_, fun recovery lost => ?_⟩
      · rw [trackSample_watching (p := setMonitor restarted p) watching] at judged
        exact judged
      · refine ⟨fun low => ?_, fun high => ?_⟩
        · rw [trackSample_low (p := setMonitor restarted p) recovery low] at judged
          exact judged
        · obtain ⟨posts, entered⟩ := enterTracking_given (e := envOf s) (p := setMonitor restarted p) fun on => by rw [unlinked] at on; cases on
          rw [trackSample_recovers (p := setMonitor restarted p) recovery lost high, entered, unlinked] at judged
          exact ⟨_, judged, rfl⟩
  · intro sequence sample m noted p peak drop new
    have source' : linked (envOf s) = true := decide_eq_true source
    have judged (on : m.state ≠ .off) : exec .level s = .next { s with arrivals := rest, plant := trackSample (envOf s) sample { p with monitor := noted } } := by
      rw [exec_level_linked arrivals kind source given, handReport_track (p := levelStored x s.plant) other silent still on (by exact new)]
      rfl
    refine ⟨fun watching => ?_, fun recovery lost => ?_⟩
    · have judged := judged (by rw [watching]; exact MonitorState.noConfusion)
      rw [trackSample_watching (p := { p with monitor := noted }) watching] at judged
      exact judged
    · have judged := judged (by rw [recovery]; exact MonitorState.noConfusion)
      refine ⟨fun low => ?_, fun high => ?_⟩
      · rw [trackSample_low (p := { p with monitor := noted }) recovery low] at judged
        exact judged
      · obtain ⟨posts, entered⟩ := enterTracking_given (e := envOf s) (p := { p with monitor := noted }) fun _ => given
        rw [trackSample_recovers (p := { p with monitor := noted }) recovery lost high, entered, source'] at judged
        exact ⟨_, judged, rfl⟩

/-! ### The timers (R162) -/

section
variable {s : State} {start : Clock}

theorem timerDue_iff {wait : Nat} (watching : s.plant.monitor.state = .watching) : timerDue s (some start) wait = true ↔ wait ≤ (s.clock - start).toNat := by
  simp only [timerDue, watching, decide_true, Bool.true_and, due_iff]

theorem exec_fadeTimer (watching : s.plant.monitor.state = .watching) (running : s.plant.monitor.fadeStart = some start) : exec .fadeTimerExpiry s =
    if s.setup.cfg.fadeTime ≤ (s.clock - start).toNat then .next (withPlant (takeFade (envOf s) s.plant) s) else .next s := by
  simp only [exec, execFadeTimerExpiry, running, timerDue_iff watching]

theorem exec_lossTimer (watching : s.plant.monitor.state = .watching) (running : s.plant.monitor.lossStart = some start) : exec .lossTimerExpiry s =
    if s.setup.cfg.lossTime ≤ (s.clock - start).toNat then .next (withPlant (takeLoss (envOf s) s.plant) s) else .next s := by
  simp only [exec, execLossTimerExpiry, running, timerDue_iff watching]

/-- The fade of a TRACKING: PEAKING from the pointing position with δtrack. -/
theorem takeFade_tracking {e : Env} {p : Plant} (tracking : p.pnt.state = .active .tracking) :
    takeFade e p = enterPeaking e (pointingPoint e p) (cfgOf e).deltaTrack (monitorOff p) := if_pos tracking

/-- The loss of a TRACKING: the monitor in RECOVERY with both timers stopped, pointing LOST. -/
theorem takeLoss_tracking {e : Env} {p : Plant} (tracking : p.pnt.state = .active .tracking) : ∃ posts, takeLoss e p = { p with
    posts := posts, pnt := { p.pnt with state := .lost }, monitor := { p.monitor with state := .recovery, fadeStart := none, lossStart := none } } := by
  obtain ⟨posts, set⟩ := setPointing_rest e .lost (setMonitor { p.monitor with state := .recovery, fadeStart := none, lossStart := none } p)
  exact ⟨posts, (if_pos tracking).trans set⟩

end

/-- Settles O60: a fade that is due enters PEAKING on the plant with the monitor ended, and a loss that is due writes PNT's state and the monitor. -/
theorem aFadePeaksAgainAndALossIsLost : Obligations.AFadePeaksAgainAndALossIsLost := by
  intro s start watching tracking sound p e
  refine ⟨fun running => ⟨fun early => ?_, fun late wind level clear free still => ?_⟩, fun running => ⟨fun early => ?_, fun late => ?_⟩⟩
  · rw [exec_fadeTimer watching running, if_neg (Nat.not_le.2 early)]
  · have next : exec .fadeTimerExpiry s = .next (withPlant (enterPeaking e (pointingPoint e p) s.setup.cfg.deltaTrack (monitorOff p)) s) := by
      rw [exec_fadeTimer watching running, if_pos late, takeFade_tracking tracking]
      rfl
    have needs : activityMay e p := ⟨wind, level⟩
    have mayGo : mayMoveToPoint e p (pointingPoint e p) := mayMoveToPoint_pointing sound clear free (fun a mem => (still a mem).1) fun a mem => (still a mem).2
    obtain ⟨moves, posts, axd, smp, entered⟩ := enterPeaking_moving (delta := s.setup.cfg.deltaTrack) (p := monitorOff p) needs mayGo
    have onTheWay := moveToPoint_pointing moves
    rw [entered] at next onTheWay
    refine ⟨_, next, rfl, rfl, rfl, rfl, rfl, rfl, fun a mem => ?_⟩
    obtain ⟨state, requester, -, target⟩ := onTheWay a mem
    exact ⟨state, requester, target⟩
  · rw [exec_lossTimer watching running, if_neg (Nat.not_le.2 early)]
  · obtain ⟨posts, lost⟩ := takeLoss_tracking (e := e) tracking
    refine ⟨_, (exec_lossTimer watching running).trans (if_pos late), ?_⟩
    rw [lost]
    rfl

end Sys2Proof.Machine
end

