-- ==== Sys2Proof/Proofs/PointEstimate.lean ====
section
/-! PROOFS. The estimator (R153; O58): division to the nearest with halves away from zero, the clamp to the step, and the bounds of the products. -/

namespace Sys2Proof.Machine

/-! ### Division (spec/00 §3.3) -/

/-- The magnitude under `roundAway`: the ratio of the magnitudes to the nearest, halves up. -/
def magnitude (n d : Int) : Nat := (2 * n.natAbs + d.natAbs) / (2 * d.natAbs)

theorem magnitude_bounds (n : Int) {d : Int} (nonzero : d ≠ 0) :
    2 * n.natAbs < 2 * (magnitude n d * d.natAbs) + d.natAbs ∧ 2 * (magnitude n d * d.natAbs) ≤ 2 * n.natAbs + d.natAbs := by
  have pos : 0 < 2 * d.natAbs := by omega
  have divided : 2 * d.natAbs * magnitude n d + (2 * n.natAbs + d.natAbs) % (2 * d.natAbs) = 2 * n.natAbs + d.natAbs := Nat.div_add_mod _ _
  have rest := Nat.mod_lt (2 * n.natAbs + d.natAbs) pos
  have product : 2 * d.natAbs * magnitude n d = 2 * (magnitude n d * d.natAbs) := by ring
  omega

/-- Its product with the divisor has the sign of the dividend. -/
theorem roundAway_mul (n d : Int) : roundAway n d * d = if n < 0 then -((magnitude n d * d.natAbs : Nat) : Int) else ((magnitude n d * d.natAbs : Nat) : Int) := by
  have sized : (d.natAbs : Int) = if d < 0 then -d else d := by split <;> omega
  rw [Nat.cast_mul, sized, roundAway]
  by_cases neg : n < 0 <;> by_cases down : d < 0 <;> simp [neg, down, magnitude]

/-- Nearest, halves away from zero. -/
theorem roundAway_nearest (n : Int) {d : Int} (nonzero : d ≠ 0) : 2 * (roundAway n d * d - n).natAbs ≤ d.natAbs ∧
    (2 * (roundAway n d * d - n).natAbs = d.natAbs → n.natAbs < (roundAway n d * d).natAbs) := by
  obtain ⟨low, high⟩ := magnitude_bounds n nonzero
  rw [roundAway_mul]
  split <;> omega

/-! ### The correction -/

theorem clampInt_natAbs (d : Nat) (x : Int) : (clampInt (-d) d x).natAbs ≤ d := by
  unfold clampInt
  omega

/-- The correction never passes the step. -/
theorem estimate_natAbs (delta : Nat) (plus minus centre : Int) : (estimate delta plus minus centre).natAbs ≤ delta := by
  unfold estimate
  dsimp only
  split
  · exact clampInt_natAbs delta _
  · repeat' split
    all_goals omega

theorem estimate_products {delta : Nat} {plus minus centre : Int} (levels : ∀ l ∈ [plus, minus, centre], -1500 ≤ l ∧ l ≤ 300) (step : delta ≤ 1000) :
    -3600 ≤ plus + minus - 2 * centre ∧ plus + minus - 2 * centre ≤ 3600 ∧ ((delta : Int) * (minus - plus)).natAbs ≤ 2000000 := by
  have plusIn := levels plus (by simp)
  have minusIn := levels minus (by simp)
  have centreIn := levels centre (by simp)
  have product : ((delta : Int) * (minus - plus)).natAbs ≤ 1000 * 1800 := by
    rw [Int.natAbs_mul, Int.natAbs_natCast]
    exact Nat.mul_le_mul step (by omega)
  omega

end Sys2Proof.Machine
end

