-- ==== Sys2Proof/Proofs/PointRound.lean ====
section
/-! PROOFS. The mean of a cross point and the end of its round (R152, R154 to R156), and the mean at the closing centre, which ends the run
(R155, R159, R160) (O58). -/

namespace Sys2Proof.Machine

/-! ### The run at a mean (R152) -/

section
variable {e : Env} {p : Plant} {level : Int} {n : Nat}

/-- The run on its way in a stage (R151, R155, R156). -/
def runMoving (e : Env) (st : RunStage) (r : Run) : Run :=
  { r with status := .running st, targets := clampPoint e (runTarget st r), moveList := [.pan, .tilt], blocked := false, barred := false }

/-- The run goes on with PAN and TILT at rest. -/
theorem runJobs_moving {st : RunStage} (may : mayMoveToPoint e p (runTarget st p.run)) :
    (runJobs e (n + 1) (.go st) p).run = runMoving e st p.run ∧ moveToPoint .pke e (runJobs e (n + 1) (.go st) p) (runTarget st p.run) ∧
      (runJobs e (n + 1) (.go st) p).pnt = p.pnt ∧ noPostOf .dwell p (runJobs e (n + 1) (.go st) p) := by
  obtain ⟨moves, -, -, _, _, gone⟩ := runJobs_go (n := n) may
  refine ⟨?_, moves, ?_, fun P hP h => runJobs_go_noDwellReply (fun k t x y dwell _ => hP k t x y dwell) may h⟩ <;> rw [gone]
  rfl

theorem runMean_other (cross : p.run.status ≠ .running .measure) (closing : p.run.status ≠ .running .closeMeasure) : runMean e level p = p := by
  unfold runMean
  split
  · exact absurd ‹_› cross
  · exact absurd ‹_› closing
  · rfl

theorem runMean_cross (measure : p.run.status = .running .measure) :
    runMean e level p = runJobs e (runFuel e) (.level level) (postDwellHere e (crossKind p.run.index) level p) := by
  unfold runMean
  rw [measure]
  rfl

/-- The plant with the closing mean posted, the run ended. -/
def closingStored (e : Env) (level : Int) (p : Plant) : Plant :=
  updateRun (fun r => { r with status := .ended, closing := none }) (postDwellHere e .closing level p)

theorem runMean_closing (measure : p.run.status = .running .closeMeasure) :
    runMean e level p = takeRunEnd e .fine (p.run.closing.getD p.run.centre) level (closingStored e level p) := by
  unfold runMean
  rw [measure]
  rfl

theorem storeRoundLevel_index (level : Int) (r : Run) : (storeRoundLevel level r).index = r.index := by
  unfold storeRoundLevel
  split <;> rfl

/-- The run with a point's level stored, at its next point. -/
def pointStored (level : Int) (r : Run) : Run := { storeRoundLevel level r with index := r.index + 1 }

/-- Before the fifth point the next one follows (R152). -/
theorem runJobs_nextPoint (within : p.run.index < 5) :
    runJobs e (n + 1) (.level level) p = runJobs e n (.go .toPoint) { p with run := pointStored level p.run } := by
  simp only [runJobs, updateRun, storeRoundLevel_index, within, if_true, pointStored]

/-- The five levels are stored in the order of the points (R151). -/
theorem pointStored_eq {r : Run} {i : Nat} (index : r.index = i) (low : 1 ≤ i) (high : i < 5) (level : Int) : pointStored level r = { r with
    index := i + 1,
    levels := if i = 1 then { r.levels with centre := some level } else if i = 2 then { r.levels with panPlus := some level }
      else if i = 3 then { r.levels with panMinus := some level } else { r.levels with tiltPlus := some level } } := by
  unfold pointStored storeRoundLevel
  rw [index]
  interval_cases i <;> rfl

/-- The points after the centre lie a step to either side of it (R151). -/
theorem crossTarget_next {r : Run} {i : Nat} (index : r.index = i + 1) (low : 1 ≤ i) (high : i < 5) {d : Int} (step : d = (r.delta.getD 0 : Nat)) :
    crossTarget r = if i = 1 then { r.centre with pan := r.centre.pan + d } else if i = 2 then { r.centre with pan := r.centre.pan - d }
      else if i = 3 then { r.centre with tilt := r.centre.tilt + d } else { r.centre with tilt := r.centre.tilt - d } := by
  unfold crossTarget
  rw [index, step]
  interval_cases i <;> rfl

theorem storeRoundLevel_fifth {r : Run} (fifth : r.index = 5) (level : Int) :
    storeRoundLevel level r = { r with levels := { r.levels with tiltMinus := some level } } := by
  cases r
  cases fifth
  rfl

/-- At the fifth the round ends (R154). -/
theorem runJobs_fifth (fifth : p.run.index = 5) : runJobs e (n + 1) (.level level) p =
    runJobs e n .roundEnd (updateRun (fun r => { r with levels := { r.levels with tiltMinus := some level } }) p) := by
  simp only [runJobs, updateRun, storeRoundLevel_fifth fifth, fifth, Nat.lt_irrefl, if_false]

/-! ### The end of a round (R154) -/

/-- The centre of a round moved by its corrections, within the soft limits. -/
def correctedCentre (e : Env) (r : Run) (pan tilt : Int) : HeadPoint := clampPoint e { pan := r.centre.pan + pan, tilt := r.centre.tilt + tilt }

/-- The plant with the round counted and its best centre kept (R154 steps 2 and 3). -/
def roundKept (best : FoundPoint) (p : Plant) : Plant := countRound (updateRun (fun x => { x with best := some best }) p)

theorem roundKept_pnt {rec : PointingRecord} (record : p.pnt.record = some rec) (best : FoundPoint) :
    (roundKept best p).pnt = { p.pnt with record := some { rec with roundCount := rec.roundCount + 1 } } :=
  congrArg (fun x : Option PointingRecord => ({ p.pnt with record := x.map fun y => { y with roundCount := y.roundCount + 1 } } : Pointing)) record

variable {d : Nat} {l0 a b u v pan tilt : Int} {best : FoundPoint}

/-- A round with its five levels: its corrections decide among the closing centre, the best centre and the next round. -/
theorem runJobs_roundEnd (step : p.run.delta = some d)
    (levels : p.run.levels = { centre := some l0, panPlus := some a, panMinus := some b, tiltPlus := some u, tiltMinus := some v })
    (better : betterCentre p.run.best p.run.centre l0 = best) (panOff : estimate d a b l0 = pan) (tiltOff : estimate d u v l0 = tilt) :
    runJobs e (n + 1) .roundEnd p =
      if converged e d pan tilt then
        runJobs e n (.go .toClose) (updateRun (fun x => { x with closing := some (correctedCentre e p.run pan tilt) }) (roundKept best p))
      else if roundCountOf (roundKept best p) = (cfgOf e).roundLimit then runJobs e n (.go .toBest) (roundKept best p)
      else runJobs e n (.go .toPoint) (updateRun (fun x => { x with
        delta := some (nextStep e d pan tilt), centre := correctedCentre e p.run pan tilt, levels := .blank, index := 1 }) (roundKept best p)) := by
  subst better panOff tiltOff
  rw [runJobs, step, levels]
  rfl

/-- The plant with the fifth mean posted and stored. -/
def fifthStored (e : Env) (level : Int) (p : Plant) : Plant :=
  updateRun (fun r => { r with levels := { r.levels with tiltMinus := some level } }) (postDwellHere e .crossTiltMinus level p)

/-- The fifth mean ends its round. -/
theorem runMean_fifth (measure : p.run.status = .running .measure) (fifth : p.run.index = 5) :
    runMean e level p = runJobs e (16 * ((cfgOf e).roundLimit + 1) + 6 + 1) .roundEnd (fifthStored e level p) := by
  rw [runMean_cross measure, fifth]
  exact runJobs_fifth (p := postDwellHere e .crossTiltMinus level p) fifth

theorem converged_iff {pan tilt : Int} : converged e d pan tilt = true ↔
    d = (cfgOf e).deltaMin ∧ pan.natAbs ≤ (cfgOf e).tolerance ∧ tilt.natAbs ≤ (cfgOf e).tolerance := by
  simp [converged, and_assoc]

/-! ### The end of a run (R159, R160) -/

variable {quality : Quality} {centre : HeadPoint} {rec : PointingRecord}

/-- The record at a run's end. -/
def endedRecord (quality : Quality) (centre : HeadPoint) (level : Int) (rec : PointingRecord) : PointingRecord :=
  { rec with panOffset := centre.pan - rec.pan, tiltOffset := centre.tilt - rec.tilt, peak := some level, quality := some quality }

/-- PNT takes a run's end in PEAKING, held or not: the record written, then TRACKING entered with its flag, else POINTED. -/
theorem takeRunEnd_peaking (peaking : p.pnt.state = .active .peaking ∨ ∃ cause, p.pnt.state = .held .peaking cause) (record : p.pnt.record = some rec) :
    takeRunEnd e quality centre level p =
      if rec.flagTrack then enterTracking e { p with pnt := { p.pnt with record := some (endedRecord quality centre level rec) } }
      else monitorOff (setPointing e .pointed { p with pnt := { p.pnt with record := some (endedRecord quality centre level rec) } }) := by
  have written : writeRunEnd quality centre level p = { p with pnt := { p.pnt with record := some (endedRecord quality centre level rec) } } := by
    rw [writeRunEnd, withRecord, record]
    rfl
  unfold takeRunEnd
  rcases peaking with now | ⟨cause, now⟩ <;> rw [now] <;> simp only [written, flagTrackSet, endedRecord]

/-- What PNT writes at a run's end, by the TRACK flag and the need of TRACKING (R129, R130, R160). -/
theorem takeRunEnd_rest (peaking : p.pnt.state = .active .peaking ∨ ∃ cause, p.pnt.state = .held .peaking cause) (record : p.pnt.record = some rec) :
    ∃ posts st monitor, takeRunEnd e quality centre level p = { p with
        posts := posts, pnt := { p.pnt with state := st, record := some (endedRecord quality centre level rec) }, monitor := monitor } ∧
      (rec.flagTrack = false → st = .pointed ∧ monitor = .cold) ∧
      (rec.flagTrack = true → (linked e = true → given p .levelOk = true) → st = .active .tracking ∧ monitor = {
        state := .watching, fadeStart := none, lossStart := none, periodStart := if linked e then none else some e.clock,
        lastSequence := if linked e then heldSequence p else none }) ∧
      (rec.flagTrack = true → linked e = true → given p .levelOk = false → st = .held .tracking (holdCauseNow p) ∧ monitor = .cold) := by
  rw [takeRunEnd_peaking peaking record]
  generalize written : ({ p with pnt := { p.pnt with record := some (endedRecord quality centre level rec) } } : Plant) = r
  cases track : rec.flagTrack with
  | false =>
    obtain ⟨posts, set⟩ := setPointing_rest e .pointed r
    refine ⟨posts, _, _, ?_, fun _ => ⟨rfl, rfl⟩, fun on => Bool.noConfusion on, fun on => Bool.noConfusion on⟩
    rw [if_neg Bool.false_ne_true, set, ← written]
    rfl
  | true =>
    rw [if_pos rfl]
    by_cases missing : linked e = true ∧ given p .levelOk = false
    · obtain ⟨source, missing⟩ := missing
      obtain ⟨posts, entered⟩ := enterTracking_missing (p := r) source (by rw [← written]; exact missing)
      refine ⟨posts, _, _, ?_, fun off => Bool.noConfusion off, fun _ level => ?_, fun _ _ _ => ⟨rfl, rfl⟩⟩
      · rw [entered, ← written]
        rfl
      · rw [level source] at missing
        cases missing
    · have level (source : linked e = true) : given p .levelOk = true := by simpa [source] using missing
      obtain ⟨posts, entered⟩ := enterTracking_given (p := r) fun source => by rw [← written]; exact level source
      refine ⟨posts, _, _, ?_, fun off => Bool.noConfusion off, fun _ _ => ⟨rfl, rfl⟩, fun _ source off => ?_⟩
      · rw [entered, ← written]
        rfl
      · rw [level source] at off
        cases off

theorem enterTracking_noDwell : noPostOf .dwell p (enterTracking e p) := by
  unfold enterTracking
  split <;> exact setPointing_noDwell _

theorem takeRunEnd_noDwell : noPostOf .dwell p (takeRunEnd e quality centre level p) := by
  have done : noPostOf .dwell p (if flagTrackSet (writeRunEnd quality centre level p) then enterTracking e (writeRunEnd quality centre level p)
      else monitorOff (setPointing e .pointed (writeRunEnd quality centre level p))) := by
    split
    · exact enterTracking_noDwell (p := writeRunEnd quality centre level p)
    · exact setPointing_noDwell (p := writeRunEnd quality centre level p) .pointed
  unfold takeRunEnd
  split
  · exact done
  · exact done
  · exact fun _ _ h => h

end

/-- Settles O58: the estimator by `roundAway_nearest` and its clamp; a mean by the stage it is taken in, the point it is taken at and, after the
fifth, what `runJobs_roundEnd` decides. -/
theorem theEstimatorPlacesTheCorrection : Obligations.TheEstimatorPlacesTheCorrection := by
  refine ⟨fun delta plus minus centre => ?_, fun e level p rec record => ?_⟩
  · intro d k x answer
    refine ⟨fun neg => ?_, fun flat => if_neg (Int.not_lt.2 flat), estimate_natAbs delta plus minus centre, fun levels step => estimate_products levels step⟩
    obtain ⟨near, half⟩ := roundAway_nearest x (d := 2 * k) (by omega)
    exact ⟨roundAway x (2 * k), near, half, if_pos neg⟩
  intro c r q goesTo
  have goes {n : Nat} {st : RunStage} {kind : PointKind} {s : Plant} {target : HeadPoint} (taken : q = runJobs e (n + 1) (.go st) s)
      (posts : noPostOf .dwell (postDwellHere e kind level p) s) (goal : runTarget st s.run = target) (may : mayMoveToPoint e s target) :
      dwellPosted kind level p q ∧ goesTo st target s.run ∧ q.pnt = s.pnt := by
    subst goal
    obtain ⟨moving, moves, pnt, after⟩ := runJobs_moving (n := n) may
    rw [← taken] at moving moves pnt after
    exact ⟨post_payload .refl (posts.trans after), ⟨moving, moves⟩, pnt⟩
  refine ⟨fun cross closing => runMean_other cross closing, fun i levels point d measure index step low high stored pointed may => ?_, ?_, fun measure peaking => ?_⟩
  · have taken : q = runJobs e (16 * ((cfgOf e).roundLimit + 1) + 6 + 1) (.go .toPoint)
        { postDwellHere e (crossKind p.run.index) level p with run := pointStored level p.run } :=
      (runMean_cross measure).trans (runJobs_nextPoint (p := postDwellHere e (crossKind p.run.index) level p) (lt_of_eq_of_lt index.symm high))
    have next : pointStored level p.run = { r with levels := levels, index := i + 1 } := by rw [pointStored_eq index.symm low high, stored]
    have target : crossTarget (pointStored level p.run) = point := by
      rw [next, pointed]
      exact crossTarget_next rfl low high step
    obtain ⟨posted, going, pnt⟩ := goes taken (fun _ _ h => h) target may
    rw [← index] at posted
    rw [next] at going
    refine ⟨?_, going, pnt⟩
    obtain rfl | rfl | rfl | rfl : i = 1 ∨ i = 2 ∨ i = 3 ∨ i = 4 := by omega
    all_goals exact posted
  · intro d l0 a b u v measure fifth step levels pan tilt centre here best done limit kept next target may
    have sameBest : betterCentre p.run.best p.run.centre l0 = best := by
      dsimp only [best, r]
      unfold betterCentre
      cases p.run.best <;> rfl
    have five : (fifthStored e level p).run.levels = { centre := some l0, panPlus := some a, panMinus := some b, tiltPlus := some u, tiltMinus := some level } :=
      congrArg (fun x : RoundLevels => ({ x with tiltMinus := some level } : RoundLevels)) levels
    have decided : q = _ := (runMean_fifth measure fifth).trans
      (runJobs_roundEnd (p := fifthStored e level p) (best := best) (pan := pan) (tilt := tilt) step five sameBest rfl rfl)
    have pnt := roundKept_pnt (p := fifthStored e level p) record best
    have counted : roundCountOf (roundKept best (fifthStored e level p)) = rec.roundCount + 1 := by rw [roundCountOf, pnt]
    have posts : noPostOf .dwell (postDwellHere e .crossTiltMinus level p) (roundKept best (fifthStored e level p)) := fun _ _ h => h
    by_cases isDone : done
    · have goal : target = centre := if_neg fun h => h.1 isDone
      rw [if_pos (converged_iff.2 isDone)] at decided
      rw [goal] at may
      obtain ⟨posted, going, same⟩ := goes decided posts rfl may
      exact ⟨posted, same.trans pnt, fun _ => going, fun h => absurd isDone h, fun h => absurd isDone h⟩
    rw [if_neg fun h => isDone (converged_iff.1 h), counted] at decided
    by_cases atLimit : limit
    · have goal : target = best.point := if_pos ⟨isDone, atLimit⟩
      rw [if_pos atLimit] at decided
      rw [goal] at may
      obtain ⟨posted, going, same⟩ := goes decided posts rfl may
      exact ⟨posted, same.trans pnt, fun h => absurd h isDone, fun _ _ => going, fun _ h => absurd atLimit h⟩
    · have goal : target = centre := if_neg fun h => atLimit h.2
      rw [if_neg atLimit] at decided
      rw [goal] at may
      obtain ⟨posted, going, same⟩ := goes decided posts rfl may
      exact ⟨posted, same.trans pnt, fun h => absurd h isDone, fun _ h => absurd h atLimit, fun _ _ => going⟩
  · have taken : q = takeRunEnd e .fine (p.run.closing.getD p.run.centre) level (closingStored e level p) := runMean_closing measure
    have posts : noPostOf .dwell (postDwellHere e .closing level p) q := by
      rw [taken]
      exact takeRunEnd_noDwell (p := closingStored e level p)
    obtain ⟨_, st, monitor, rest, pointed, tracked, held⟩ :=
      takeRunEnd_rest (e := e) (quality := .fine) (centre := p.run.closing.getD p.run.centre) (level := level) (p := closingStored e level p) peaking record
    rw [← taken] at rest
    refine ⟨post_payload .refl posts, by rw [rest]; rfl, by rw [rest]; rfl, fun flag => ?_, fun flag level => ?_, fun flag source missing => ?_⟩
    · obtain ⟨rfl, rfl⟩ := pointed flag
      exact ⟨by rw [rest], by rw [rest]⟩
    · obtain ⟨rfl, rfl⟩ := tracked flag fun source => level (of_decide_eq_true source)
      rw [rest]
      refine ⟨rfl, ?_⟩
      simp only [linked, decide_eq_true_eq]
      rfl
    · obtain ⟨rfl, rfl⟩ := held flag (decide_eq_true source) missing
      exact ⟨by rw [rest], by rw [rest]; rfl⟩

end Sys2Proof.Machine
end

