-- ==== Sys2Proof/Proofs/SearchResume.lean ====
section
/-! PROOFS. The resume delays of PAT and PKE (R147, R157; O57): the suspended pattern and the suspended run go back to their point with
PAN and TILT at rest. -/

namespace Sys2Proof.Machine

section
variable {e : Env} {p q : Plant} {x : HeadPoint} {who : Requester} {n : Nat}

/-! ### A point asked for (R139, R151) -/

/-- PAN and TILT at rest with no switch toward the clamped point may move there. -/
theorem mayMoveToPoint_atRest (sound : arbiterSound p = true) (clear : p.aut.latch = none) (free : headFree e p = true)
    (panIdle : (axisOf p .pan).state = .idle) (tiltIdle : (axisOf p .tilt).state = .idle)
    (panOpen : switchBlocks (axisOf p .pan) (clampSoft e .pan x.pan) = false) (tiltOpen : switchBlocks (axisOf p .tilt) (clampSoft e .tilt x.tilt) = false) :
    mayMoveToPoint e p x :=
  ⟨sound, ⟨clear, panIdle, panOpen, fun _ => free⟩, clear, tiltIdle, tiltOpen, fun _ => free⟩

/-- What PAN and TILT carry on the way to a point, with no cap on their speed. -/
theorem moveToPoint_carried (moves : moveToPoint who e q x) (panCap : (axisOf q .pan).cap = none) (tiltCap : (axisOf q .tilt).cap = none) :
    (∀ a ∈ [Axis.pan, .tilt], ((axisOf q a).state = .waiting ∨ (axisOf q a).state = .moving) ∧ (axisOf q a).requester = some who ∧
      (axisOf q a).cls = some .headMove ∧ (axisOf q a).cap = none) ∧
      (axisOf q .pan).target = some (clampSoft e .pan x.pan) ∧ (axisOf q .tilt).target = some (clampSoft e .tilt x.tilt) := by
  obtain ⟨⟨panState, panWho, panClass, panTarget, -⟩, tiltState, tiltWho, tiltClass, tiltTarget, -⟩ := moves
  refine ⟨fun a mem => ?_, panTarget, tiltTarget⟩
  rcases List.mem_pair.1 mem with rfl | rfl
  · exact ⟨panState, panWho, panClass, panCap⟩
  · exact ⟨tiltState, tiltWho, tiltClass, tiltCap⟩

/-! ### The pattern taken up again (R147) -/

theorem takeUpPattern_moving {y : Pattern} (pat : p.pat = some y) (may : mayMoveToPoint e p (patternTarget y y.point)) :
    moveToPoint .pat e (takeUpPattern e p) (patternTarget y y.point) ∧
      (axisOf (takeUpPattern e p) .pan).cap = none ∧ (axisOf (takeUpPattern e p) .tilt).cap = none ∧
      ∃ posts axd, takeUpPattern e p = { p with posts := posts, axd := axd, pat := some (patternMoving e y) } := by
  have set : updatePattern (fun x => { x with status := .running (moveStage x), blocked := false, barred := false }) p =
      { p with pat := some { y with status := .running (moveStage y), blocked := false, barred := false } } := by
    rw [updatePattern, pat]
    rfl
  obtain ⟨n, fuel⟩ := patternFuel_eq e
  rw [takeUpPattern, set, fuel]
  exact patternJobs_go (x := { y with status := .running (moveStage y), blocked := false, barred := false }) rfl may

/-! ### The run taken up again (R157) -/

theorem takeUpRun_moving {st : RunStage} (may : mayMoveToPoint e p (runTarget (takenUpStage st) p.run)) :
    moveToPoint .pke e (takeUpRun e st p) (runTarget (takenUpStage st) p.run) ∧
      (axisOf (takeUpRun e st p) .pan).cap = none ∧ (axisOf (takeUpRun e st p) .tilt).cap = none ∧
      ∃ posts axd, takeUpRun e st p = { p with posts := posts, axd := axd, run := runMoving e (takenUpStage st) p.run } :=
  runJobs_go may

/-- The point of the cross by its number (R151). -/
theorem crossTarget_eq {r : Run} {d : Int} (step : d = (r.delta.getD 0 : Nat)) : crossTarget r =
    if r.index = 2 then { r.centre with pan := r.centre.pan + d } else if r.index = 3 then { r.centre with pan := r.centre.pan - d }
    else if r.index = 4 then { r.centre with tilt := r.centre.tilt + d } else if r.index = 5 then { r.centre with tilt := r.centre.tilt - d }
    else r.centre := by
  subst step
  unfold crossTarget
  split
  next second => rw [if_pos second]
  next third => simp [third]
  next fourth => simp [fourth]
  next fifth => simp [fifth]
  next not2 not3 not4 not5 => rw [if_neg not2, if_neg not3, if_neg not4, if_neg not5]

/-- The best centre, or the round's own where none is kept (R156). -/
theorem runTarget_toBest (r : Run) : runTarget .toBest r = (r.best.map (·.point)).getD r.centre := by
  unfold runTarget
  cases r.best <;> rfl

end

/-! ### The expiries -/

section
variable {s : State} {since : Clock}

theorem exec_patternResumeDelay {y : Pattern} {st : PatternStage} (pat : s.plant.pat = some y) (waiting : y.status = .resumeWait st since) :
    exec .patternResumeDelayExpiry s = if 1000 ≤ (s.clock - since).toNat then .next (withPlant (takeUpPattern (envOf s) s.plant) s) else .next s := by
  have status : patternStatus s.plant = some (.resumeWait st since) := by rw [patternStatus, pat, ← waiting]; rfl
  simp only [exec, execPatternResumeDelayExpiry, status, due_iff, resumeDelay]

theorem exec_runResumeDelay {st : RunStage} (waiting : s.plant.run.status = .resumeWait st since) :
    exec .runResumeDelayExpiry s = if 1000 ≤ (s.clock - since).toNat then .next (withPlant (takeUpRun (envOf s) st s.plant) s) else .next s := by
  simp only [exec, execRunResumeDelayExpiry, waiting, due_iff, resumeDelay]

end

/-- Settles O57: the delay passed, PAT and PKE ask for their current point again, by `takeUpPattern_moving` and `takeUpRun_moving`. -/
theorem aResumeDelayTakesTheWorkUpAgain : Obligations.AResumeDelayTakesTheWorkUpAgain := by
  unfold Obligations.AResumeDelayTakesTheWorkUpAgain
  intro s sound p e may asked
  have goes {target : HeadPoint} (clear : may target) : mayMoveToPoint e p target := by
    obtain ⟨latch, free, panIdle, tiltIdle, panOpen, tiltOpen⟩ := clear
    exact mayMoveToPoint_atRest sound latch free panIdle tiltIdle panOpen tiltOpen
  refine ⟨?_, ?_⟩
  · intro y st since pat waiting target
    have run := exec_patternResumeDelay pat waiting
    refine ⟨fun early => run.trans (if_neg (Nat.not_le.2 early)), fun passed clear => ⟨_, run.trans (if_pos passed), ?_⟩⟩
    obtain ⟨moves, panCap, tiltCap, _, _, gone⟩ := takeUpPattern_moving pat (goes clear)
    refine ⟨?_, moveToPoint_carried moves panCap tiltCap, ?_⟩ <;> rw [withPlant_plant, gone] <;> rfl
  · intro st since waiting r stage d target
    have stageEq : takenUpStage st = stage := by cases st <;> rfl
    have targetEq : runTarget (takenUpStage st) r = target := by
      cases st with
      | toPoint => exact crossTarget_eq rfl
      | settle => exact crossTarget_eq rfl
      | measure => exact crossTarget_eq rfl
      | toClose => rfl
      | closeSettle => rfl
      | closeMeasure => rfl
      | toBest => exact runTarget_toBest r
    have run := exec_runResumeDelay waiting
    refine ⟨fun early => run.trans (if_neg (Nat.not_le.2 early)), fun passed clear => ⟨_, run.trans (if_pos passed), ?_⟩⟩
    obtain ⟨moves, panCap, tiltCap, _, _, gone⟩ := takeUpRun_moving (st := st) (targetEq ▸ goes clear)
    refine ⟨?_, targetEq ▸ moveToPoint_carried moves panCap tiltCap, ?_⟩ <;> rw [withPlant_plant, gone]
    · rfl
    · rw [runMoving, stageEq, ← targetEq]
      rfl

end Sys2Proof.Machine
end

