-- ==== Sys2Proof/Proofs/StepFront.lean ====
section
/-! PROOFS. What a step does by the form of the queue (O1): an equation for a queue with a command at its front, one for an empty queue. -/

namespace Sys2Proof.Machine

/-- The front command is taken off before it runs: `exec` sees the queue's rest. -/
theorem step_of_pending_cons {s : State} {c : Instr} {rest : List Instr} (front : s.pending = c :: rest) :
    step s = exec c { s with pending := rest } := by
  rw [step, front]

/-- An empty queue is a tick (DESIGN CHOICE, notes/assumptions/2.md). -/
theorem step_of_pending_nil {s : State} (empty : s.pending = []) : step s = .next (tick s) := by
  rw [step, empty]

/-- Settles O1: the two forms of the queue, each by its equation of `step`. -/
theorem stepRunsTheFrontCommandOrTicks : Obligations.StepRunsTheFrontCommandOrTicks := by
  unfold Obligations.StepRunsTheFrontCommandOrTicks
  constructor
  · intro c rest s
    exact step_of_pending_cons rfl
  · intro s empty
    exact step_of_pending_nil empty

end Sys2Proof.Machine
end
